-- ==== Sys2Proof/Word.lean ====
section
/-! DEFINITION. The word types of the OW16P: bytes, 48-bit times, stream and block numbers. -/

namespace Sys2Proof

/-- One byte, as the maintenance link, the image and a packet carry it (R184). -/
abbrev Byte := BitVec 8

/-- A value of the pace counter T: 48 bits, wrapping (R1). -/
abbrev Time := BitVec 48

/-- A stream number, which is also its feed channel's number (R22). -/
abbrev Stream := Fin 16

/-- A block number of the Packet Store, 0 to 8,191 (R144). -/
abbrev Block := BitVec 13

end Sys2Proof
end

