-- ==== Sys2Proof/Syntax.lean ====
section
/-! DEFINITION. The commands: one constructor for each row of spec/opcode_table.json. -/

namespace Sys2Proof

/-- The steps of the OW16P, in the table's order. An operand is what the outside puts on the part's pins with the
event (a byte, a level, an offer), or the stream the event concerns; an event that the part's own state determines
whole has none. -/
inductive Instr where
  /-- COLD_ASSERT (R158). -/
  | coldAssert
  /-- POWER_UP (R158). -/
  | powerUp
  /-- COLD_RELEASE (R158). -/
  | coldRelease
  /-- IMAGE_BYTE (R160): the byte received on MRX. -/
  | imageByte (b : Byte)
  /-- IMAGE_STALLED (R162). -/
  | imageStalled
  /-- FRAME_EPOCH (R5). -/
  | frameEpoch
  /-- FIELD_EPOCH (R7). -/
  | fieldEpoch
  /-- REF_PULSE_ACCEPTED (R9): the fourth high sample of REF. -/
  | refPulseAccepted
  /-- STARVE (R33): of one stream. -/
  | starve (n : Stream)
  /-- GRANT (R67). -/
  | grant
  /-- EGRESS_BYTE (R76): the MAC takes the next byte. -/
  | egressByte
  /-- DONE (R77): the rising edge of DONE. -/
  | done
  /-- EGRESS_STALL (R78). -/
  | egressStall
  /-- LINK_CHANGE (R81): the level LINK_UP changes to. -/
  | linkChange (up : Bool)
  /-- OFFER_PRESENTED (R129): the channel, LENGTH, FRAME_END and the bytes of DATA. -/
  | offerPresented (ch : Stream) (length : BitVec 16) (frameEnd : Bool) (data : List Byte)
  /-- INTAKE_SELECTION (R131). -/
  | intakeSelection
  /-- WRITE_COMPLETE (R141). -/
  | writeComplete
  /-- FEED_WITHDRAWN (R142): OFFER of a channel withdrawn during its write. -/
  | feedWithdrawn (ch : Stream)
  /-- NOTICE_DUE (R116). -/
  | noticeDue
  /-- NOTICE_START (R117). -/
  | noticeStart
  /-- ARBITRATION_LOST (R119). -/
  | arbitrationLost
  /-- NOTICE_BITERR (R120). -/
  | noticeBiterr
  /-- NOTICE_COMPLETE (R114). -/
  | noticeComplete
  /-- NOTICE_FRAMING (R115). -/
  | noticeFraming
  /-- RECEIVE_SETTLED (R112). -/
  | receiveSettled
  /-- BUS_STUCK (R124). -/
  | busStuck
  /-- BUS_RESTORED (R125). -/
  | busRestored
  /-- REQUEST_BYTE (R174): the byte received on MRX. -/
  | requestByte (b : Byte)
  /-- LINE_ERROR (R173). -/
  | lineError
  /-- RESPONSE_COMPLETE (R174). -/
  | responseComplete
  /-- DISCARD_END (R175). -/
  | discardEnd
  /-- REQUEST_EXPIRED (R176). -/
  | requestExpired
  /-- START_MARK_EDGE (R112). -/
  | startMarkEdge
  /-- DATA_BIT_SAMPLED (R113). -/
  | dataBitSampled
  /-- REF_SAMPLED (R9): the level sampled. -/
  | refSampled (high : Bool)
  /-- OFFER_DEASSERTED (R129): OFFER of a channel seen deasserted. -/
  | offerDeasserted (ch : Stream)
  /-- POWER_REMOVED (R80). -/
  | powerRemoved
  deriving DecidableEq, Repr

end Sys2Proof
end

