-- ==== Sys2Proof/Config.lean ====
section
/-! DEFINITION. What the manual leaves open: two constants with no body, and the fixed quantities it gives. -/

namespace Sys2Proof.Config

/-- Where the manual lets two pieces of work of one tick fall in either order (R6, R21, R69, R107, R113, R132,
R149, R182), this free value chooses. It is applied to the counter `fresh` of the state, so that each choice is a
new one. Nothing can evaluate it. Log entry 4. -/
opaque pick : Nat → Nat

/-- The byte that DATA carries where the packetizer drives none for an offer (R129 gives no value). Applied to the
choice counter and the position in the packet. Log entry 5. -/
opaque undrivenData : Nat → Nat → Byte

/-- Ticks of one bit on MRX and MTX (R173). -/
def bitTicks : Nat := 125

/-- Ticks of one character on MRX and MTX (R173). -/
def charTicks : Nat := 1250

/-- The stall timer of the image, 1 s (R162). -/
def imageStallTicks : Nat := 125000000

/-- The silence that expires a partial request and ends DISCARD, 1 ms (R175, R176). -/
def silenceTicks : Nat := 125000

/-- The size of the image area in bytes (R159). -/
def imageArea : Nat := 4096

/-- Entries of the event queue (R182). -/
def queueDepth : Nat := 32

/-- Bytes of the maintenance link's input buffer (R174). -/
def bufferDepth : Nat := 64

/-- Blocks of the Packet Store (R144). -/
def blocks : Nat := 8192

/-- Bytes of one block (R144). -/
def blockBytes : Nat := 256

/-- The most blocks a chain has (R145). -/
def maxChain : Nat := 8

end Sys2Proof.Config
end

