-- ==== Sys2Proof/Machine/State.lean ====
section
/-! DEFINITION. The state of the OW16P as plain data, block by block, and its value right after reset. -/

namespace Sys2Proof.Machine

open Sys2Proof

/-- Why the machine stops. -/
inductive Fault where
  /-- Raised where the Egress Port, a stamp or Feed Intake's write would touch a byte of a packet at a place where
  the packet's chain holds no block (R145 gives every packet a chain long enough). Safe: the manual has no such
  byte, and no run from reset reaches it (log entry 7). -/
  | noSuchByte
  deriving DecidableEq, Repr

/-- Why a command has no meaning. -/
inductive Refusal where
  /-- Raised by an arm of `exec` for a command that has no meaning yet; no arm raises it now. Safe. -/
  | notModelled (mnemonic : String)
  deriving DecidableEq, Repr

/-! ### Configuration (Chapter 9, R163 and R164) -/

/-- The PART record's values as the blocks hold them (R163). -/
structure PartCfg where
  stationId : Nat
  bitTime : Nat
  noticeDelay : Nat
  budget : Nat
  n : Nat
  d : Nat
  refOn : Bool
  roff : Int
  wlock : Nat
  slewLimit : Nat
  mn : Nat
  md : Nat
  tlate : Nat
  stallLimit : Nat
  deriving DecidableEq, Repr

/-- The class of a stream (R22). -/
inductive Class where
  | fixed
  | flex
  deriving DecidableEq, Repr

/-- The cadence of a stream (R22). -/
inductive Cadence where
  | frame
  | field
  deriving DecidableEq, Repr

/-- What a stream epoch does to an unfinished frame (R22). -/
inductive Policy where
  | trim
  | finish
  deriving DecidableEq, Repr

/-- The configured fields of an enabled context, with the three derived at acceptance: Imin, W_cap and the claim
(R22, R42). -/
structure StreamCfg where
  cls : Class
  cadence : Cadence
  c : Nat
  o : Nat
  w : Nat
  size : Nat
  depth : Nat
  policy : Policy
  stampOffset : Option Nat
  seqOffset : Option Nat
  idleLimit : Nat
  imin : Nat
  wCap : Nat
  claim : Nat
  deriving DecidableEq, Repr

/-! ### Timing Grid (Chapter 1) -/

/-- The reference qualifier's state with its count (R9). -/
inductive Qualifier where
  | waitLow (low : Nat)
  | armed
  | rising (high : Nat)
  deriving DecidableEq, Repr

/-- The lock state (R14 to R19). -/
inductive Lock where
  | free
  | seek
  | locked
  | holdover
  deriving DecidableEq, Repr

/-- The Timing Grid: the epoch accumulator and grid state (R3), the qualifier with its Cr (R9) and the lock machine
(1.6). `refTaken` is the model's own: REF has been sampled at this tick. -/
structure Grid where
  running : Bool
  eNext : Time
  eTaken : Time
  rem : Nat
  k : BitVec 32
  h : Option Time
  qual : Qualifier
  cr : Time
  lock : Lock
  miss : Nat
  oow : Nat
  pulse : Bool
  refTaken : Bool
  deriving DecidableEq, Repr

/-! ### Stream Contexts and Release Scheduler (Chapters 2 and 3) -/

/-- The state of a stream (2.3). -/
inductive StreamState where
  | disabled
  | quiet
  | primed
  | sending
  | starved
  | drained
  deriving DecidableEq, Repr

/-- One record of a packet ring (R24). -/
structure Record where
  index : Nat
  frameEnd : Bool
  len : Nat
  first : Block
  arrival : Time
  deriving DecidableEq, Repr

/-- The eight counters of a context (R86). -/
structure Counters where
  released : BitVec 32
  late : BitVec 32
  trimmed : BitVec 32
  starvedFrames : BitVec 32
  collisions : BitVec 32
  unstamped : BitVec 32
  dropped : BitVec 32
  abandoned : BitVec 32
  deriving DecidableEq, Repr

/-- One context of the stream table: the configured fields of an enabled stream (none in a disabled one, R22), the
dynamic fields of R23, and the Release Scheduler's t_next and capped flag (R44). `justReached` is the model's own: the
passing of T has reached t_next at this tick, and no step of this tick has taken that yet (R69, log entry 4). -/
structure Context where
  cfg : Option StreamCfg
  st : StreamState
  ring : List Record
  base : Time
  iNext : Nat
  ks : Nat
  ka : Nat
  wEff : Nat
  owing : Bool
  owed : Time
  discard : Bool
  idle : Nat
  starveCounted : Bool
  seq : BitVec 16
  counts : Counters
  tNext : Time
  capped : Bool
  justReached : Bool
  deriving DecidableEq, Repr

/-! ### Egress Arbiter and Egress Port (Chapter 4) -/

/-- The record of the packet in the holding slot (R66). -/
structure Slot where
  stream : Stream
  first : Block
  len : Nat
  seq : BitVec 16
  grantTime : Time
  taken : Nat
  deriving DecidableEq, Repr

/-- The holding slot (`none` is EMPTY), the link state, the four stream sets (R85) and the egress outputs OFFER,
ABANDON and DATA (R76). The model's own: `emptied`, the slot has emptied at this tick; `doneWas`, the last sample of
DONE; `doneEdge`, a rising edge of DONE at this tick not yet taken. -/
structure Egress where
  slot : Option Slot
  linkUp : Bool
  collision : BitVec 16
  late : BitVec 16
  starve : BitVec 16
  trim : BitVec 16
  offer : Bool
  abandon : Bool
  data : Byte
  emptied : Bool
  doneWas : Bool
  doneEdge : Bool
  deriving DecidableEq, Repr

/-! ### Share Computer and Peer Table (Chapter 5) -/

/-- The four flags of a notice (R104). -/
structure NoticeFlags where
  locked : Bool
  overcommit : Bool
  capped : Bool
  alert : Bool
  deriving DecidableEq, Repr

/-- The state of a peer entry (R88). -/
inductive PeerState where
  | present
  | held
  deriving DecidableEq, Repr

/-- One entry of the peer table (R88). -/
structure Peer where
  id : Nat
  f : Nat
  x : Nat
  flags : NoticeFlags
  offset : Nat
  misaligned : Bool
  heard : Bool
  missed : Nat
  st : PeerState
  deriving DecidableEq, Repr

/-- The Share Computer: the peer table in ascending order of id (R88), the current k (R100) and OVERCOMMIT (R101). -/
structure Share where
  peers : List Peer
  k : Nat
  overcommit : Bool
  deriving DecidableEq, Repr

/-! ### Pace Bus Interface (Chapter 6) -/

/-- The bus state (R108). -/
inductive BusState where
  | off
  | normal
  | stuck
  deriving DecidableEq, Repr

/-- The receive state (R112). -/
inductive RecvState where
  | settling
  | idle
  | start
  | data
  deriving DecidableEq, Repr

/-- The state of a notice record (R116). -/
inductive NoticeState where
  | scheduled
  | waiting
  | onLine
  | sent
  | givenUp
  deriving DecidableEq, Repr

/-- A notice record (R116). `since` is the tick at which the record last became WAITING, which R117 counts from. -/
structure Notice where
  interval : BitVec 32
  due : Time
  st : NoticeState
  failed : Nat
  holdoff : Nat
  since : Time
  deriving DecidableEq, Repr

/-- The attempt on the line (R109, R118): the tick s0 at which its start mark begins, the 64 bits it sends, and
whether it still compares them with the line. -/
structure Attempt where
  s0 : Time
  bits : List Bool
  comparing : Bool
  deriving DecidableEq, Repr

/-- The Pace Bus Interface. `level` is the last sample of PACE; `lowRun` and `highRun` count the consecutive samples
of that level up to this tick (R112, R115, R124, R125), `highBefore` is `highRun` as of the tick before (R117);
`fell` is a falling edge at this tick not yet acted on; `bits` are the bits sampled so far, so the bit count is their
number (R112); `bitStart` is the edge that began the bit being received (R113); `cur` and `old` are the current and
the superseded record (R116, R122). -/
structure Pace where
  bus : BusState
  level : Bool
  lowRun : Nat
  highRun : Nat
  highBefore : Nat
  fell : Bool
  recv : RecvState
  bits : List Bool
  edge : Time
  recvOffset : Nat
  bitStart : Option Time
  cur : Option Notice
  old : Option Notice
  attempt : Option Attempt
  deriving DecidableEq, Repr

/-! ### Feed Intake (Chapter 7) -/

/-- What a feed channel carries while OFFER is asserted (R129). -/
structure Offer where
  len : Nat
  frameEnd : Bool
  data : List Byte
  deriving DecidableEq, Repr

/-- The state of a channel's offer (R129). -/
inductive OfferState where
  | empty
  | pending
  | writing
  deriving DecidableEq, Repr

/-- One feed channel: its OFFER, LENGTH, FRAME_END and DATA inputs (`none` while OFFER is not asserted), the offer
state, whether the next assertion is a new offer (R129), the index counter and the unconfigured-reported flag
(R130). -/
structure Channel where
  pin : Option Offer
  st : OfferState
  armed : Bool
  index : Nat
  reported : Bool
  deriving DecidableEq, Repr

/-- The write record (R130). -/
structure WriteRec where
  channel : Stream
  stream : Stream
  index : Nat
  frameEnd : Bool
  len : Nat
  first : Block
  start : Time
  read : Nat
  deriving DecidableEq, Repr

/-- Feed Intake: the channels, the write path (`none` is FREE), the round-robin pointer, and the TAKE outputs of this
tick, one bit a channel. -/
structure Feed where
  chans : Vector Channel 16
  write : Option WriteRec
  ptr : Fin 16
  take : BitVec 16
  deriving DecidableEq, Repr

/-! ### Packet Store (Chapter 8) -/

/-- One bank: its integrity bit, error count and retire state (R144). -/
structure Bank where
  integrity : Bool
  errors : Nat
  retired : Bool
  deriving DecidableEq, Repr

/-- The Packet Store (R144). Byte x of block b is cell 256 b + x. `bytes`, `parity` and `links` list, with addresses
strictly rising, the cells that differ from what an unlisted one reads as (byte 0, parity 0, link END). `free` is the
free list, head first; `retired` the retired set, in ascending order. -/
structure Store where
  bytes : List Host.Cell
  parity : List (Nat × Bool)
  links : List (Nat × Option Block)
  free : List Block
  retired : List Block
  banks : Vector Bank 4
  deriving DecidableEq, Repr

/-! ### Start-up Loader (Chapter 9) -/

/-- The part state (R159). -/
inductive PartState where
  | load
  | run
  | halted
  deriving DecidableEq, Repr

/-- The walk state (R159). -/
inductive Walk where
  | type
  | length
  | body
  deriving DecidableEq, Repr

/-- The image fault codes (R171). -/
inductive ImageFault where
  | stalled
  | blank
  | unknown
  | truncated
  | noEnd
  | sum
  | part
  | duplicate
  | range
  deriving DecidableEq, Repr

/-- The Start-up Loader (R159). The image area holds its bytes in order of arrival, and the bytes received are their
number. `stall` is `none` while the stall timer is IDLE; `fault` is `none` for NONE. -/
structure Loader where
  part : PartState
  image : List Byte
  walk : Walk
  recStart : Nat
  bodyLeft : Nat
  isEnd : Bool
  stall : Option Time
  fault : Option (ImageFault × Nat)
  deriving DecidableEq, Repr

/-! ### Maintenance Link (Chapter 10) -/

/-- The event codes of the catalogue (R182). -/
inductive EventCode where
  | refLock
  | refHoldover
  | refStep
  | overrunFinish
  | overrunTrim
  | egressStall
  | linkDown
  | linkUp
  | peerNew
  | peerLost
  | peerMisaligned
  | idClash
  | overcommitOn
  | overcommitOff
  | noticeBiterr
  | noticeSkipped
  | noticeCheck
  | noticeFraming
  | busStuck
  | busRestored
  | feedUnconfigured
  | feedLength
  | feedOverlength
  | feedWithdrawn
  | parityError
  | bankRetired
  | storeExhausted
  deriving DecidableEq, Repr

/-- An entry of the event queue (R182). -/
structure Event where
  code : EventCode
  time : Time
  subject : BitVec 4
  detail : BitVec 16
  deriving DecidableEq, Repr

/-- The request parser (R174). -/
inductive Parser where
  | awaitCode
  | awaitLength (code : Byte)
  | operands (code : Byte) (left : Nat) (taken : List Byte)
  | discard
  deriving DecidableEq, Repr

/-- A response being sent: its bytes and the tick of acceptance (R177). -/
structure Response where
  bytes : List Byte
  start : Time
  deriving DecidableEq, Repr

/-- The fault latches (R183). -/
structure Latches where
  egressStall : Bool
  busStuck : Bool
  idClash : Bool
  bankRetired : Bool
  storeExhausted : Bool
  deriving DecidableEq, Repr

/-- What the receive side of MRX hands on at a stop bit's sample (R173): a byte, or a line error. -/
inductive RxChar where
  | byte (b : Byte)
  | error
  deriving DecidableEq, Repr

/-- A character being received on MRX (R173): the ticks since the falling edge of its start bit, the bits sampled so
far, and whether it is not to be handed on because COLD was asserted during it (R158). -/
structure RxBusy where
  elapsed : Nat
  bits : List Bool
  drop : Bool
  deriving DecidableEq, Repr

/-- The receive side of MRX (R173): the last sample, the character being received, and the character handed on at
this tick and not yet taken. -/
structure Rx where
  was : Bool
  busy : Option RxBusy
  ready : Option RxChar
  deriving DecidableEq, Repr

/-- The Maintenance Link (R172). A byte of the input buffer carries its gap mark; `gap` is a gap at the buffer's head
(R175). `responder` is `none` while IDLE, `silence` is `none` while the silence timer does not run (R176). -/
structure Link where
  parser : Parser
  buffer : List (Byte × Bool)
  gap : Bool
  responder : Option Response
  queue : List Event
  overflow : Bool
  latches : Latches
  silence : Option Time
  rx : Rx
  deriving DecidableEq, Repr

/-! ### The part -/

/-- The input lines that no command carries, as the outside holds them, and LINK_UP, whose level LINK_CHANGE sets.
`paceOthers` is high while every other station releases PACE; `paceFollows` is false where the line does not follow
this station's drive (R120). -/
structure Pins where
  ref : Bool
  paceOthers : Bool
  paceFollows : Bool
  mrx : Bool
  done : Bool
  linkUp : Bool
  deriving DecidableEq, Repr

/-- The whole part. `powered` and `cold` are the power and the COLD inputs (R158); `fresh` counts the choices made
(log entry 4); `pending` is the queue of the commands that wait, first in first out. -/
structure State where
  t : Time
  powered : Bool
  cold : Bool
  pins : Pins
  cfg : PartCfg
  grid : Grid
  ctxs : Vector Context 16
  egress : Egress
  share : Share
  pace : Pace
  feed : Feed
  store : Store
  loader : Loader
  link : Link
  fresh : Nat
  pending : List Instr
  deriving DecidableEq, Repr

/-! ### The values after cold start -/

/-- No PART value is held before an image is accepted (log entry 2). -/
def PartCfg.cold : PartCfg :=
  { stationId := 0, bitTime := 0, noticeDelay := 0, budget := 0, n := 0, d := 0, refOn := false, roff := 0,
    wlock := 0, slewLimit := 0, mn := 0, md := 0, tlate := 0, stallLimit := 0 }

/-- The Timing Grid after cold start (R3, R9, R14). -/
def Grid.cold : Grid :=
  { running := false, eNext := 0, eTaken := 0, rem := 0, k := 0, h := none, qual := .waitLow 0, cr := 0,
    lock := .free, miss := 0, oow := 0, pulse := false, refTaken := false }

/-- The counters after cold start (R86). -/
def Counters.cold : Counters :=
  { released := 0, late := 0, trimmed := 0, starvedFrames := 0, collisions := 0, unstamped := 0, dropped := 0,
    abandoned := 0 }

/-- A context after cold start (R22, R23, R44). -/
def Context.cold : Context :=
  { cfg := none, st := .disabled, ring := [], base := 0, iNext := 0, ks := 256, ka := 256, wEff := 0, owing := false,
    owed := 0, discard := false, idle := 0, starveCounted := false, seq := 0, counts := .cold, tNext := 0,
    capped := false, justReached := false }

/-- The egress blocks after cold start (R66, R80, R81, R85). -/
def Egress.cold : Egress :=
  { slot := none, linkUp := false, collision := 0, late := 0, starve := 0, trim := 0, offer := false,
    abandon := false, data := 0, emptied := false, doneWas := false, doneEdge := false }

/-- The Share Computer after cold start (R88, R100, R101). -/
def Share.cold : Share := { peers := [], k := 256, overcommit := false }

/-- The Pace Bus Interface after cold start (R108). -/
def Pace.cold : Pace :=
  { bus := .off, level := true, lowRun := 0, highRun := 0, highBefore := 0, fell := false, recv := .settling,
    bits := [], edge := 0, recvOffset := 0, bitStart := none, cur := none, old := none, attempt := none }

/-- A feed channel after cold start, with OFFER as the packetizer holds it (R129, R130, R142). -/
def Channel.cold (pin : Option Offer) : Channel :=
  { pin := pin, st := .empty, armed := true, index := 0, reported := false }

/-- Feed Intake after cold start (R130), with no OFFER asserted. -/
def Feed.cold : Feed :=
  { chans := Vector.replicate 16 (.cold none), write := none, ptr := 0, take := 0 }

/-- A bank after cold start (R144). -/
def Bank.cold : Bank := { integrity := false, errors := 0, retired := false }

/-- The Packet Store after cold start (R144). -/
def Store.cold : Store :=
  { bytes := [], parity := [], links := [], free := (List.range Config.blocks).map (BitVec.ofNat 13), retired := [],
    banks := Vector.replicate 4 .cold }

/-- The Start-up Loader after cold start (R159). -/
def Loader.cold : Loader :=
  { part := .load, image := [], walk := .type, recStart := 0, bodyLeft := 0, isEnd := false, stall := none,
    fault := none }

/-- The fault latches after cold start (R183). -/
def Latches.cold : Latches :=
  { egressStall := false, busStuck := false, idClash := false, bankRetired := false, storeExhausted := false }

/-- The Maintenance Link after cold start (R172). -/
def Link.cold : Link :=
  { parser := .awaitCode, buffer := [], gap := false, responder := none, queue := [], overflow := false,
    latches := .cold, silence := none, rx := { was := true, busy := none, ready := none } }

/-- The input lines at rest (log entry 3). -/
def Pins.rest : Pins :=
  { ref := false, paceOthers := true, paceFollows := true, mrx := true, done := false, linkUp := false }

/-- The part right after reset: cold start made and COLD released, in LOAD with T at 0 (R1, R158), every block at the
values its chapter gives, the input lines at rest and no command waiting. -/
def State.reset : State :=
  { t := 0, powered := true, cold := false, pins := .rest, cfg := .cold, grid := .cold,
    ctxs := Vector.replicate 16 .cold, egress := .cold, share := .cold, pace := .cold, feed := .cold, store := .cold,
    loader := .cold, link := .cold, fresh := 0, pending := [] }

end Sys2Proof.Machine
end

