-- ==== Sys2Proof/Machine/Ops.lean ====
section
/-! DEFINITION. The operations every block shares: times, sparse cells, one bit of a stream set, the stream table,
events and choices. -/

namespace Sys2Proof.Machine

open Sys2Proof

/-- What a command answers. -/
abbrev Result := Host.Outcome State Fault Refusal

/-! ### Times (R2) -/

/-- The time `n` ticks after `t`, mod 2^48. -/
def after (t : Time) (n : Nat) : Time := t + BitVec.ofNat 48 n

/-- `t` has been reached when T is `now` (R2). -/
def reached (now t : Time) : Bool := decide ((now - t).toNat < 2 ^ 47)

/-- `a` is earlier than `b`: their difference mod 2^48 lies between 1 and 2^47 − 1 (R2). -/
def earlier (a b : Time) : Bool := decide (1 ≤ (b - a).toNat ∧ (b - a).toNat < 2 ^ 47)

/-- The distance between two times (R2). -/
def distance (a b : Time) : Nat := (a - b).toInt.natAbs

/-- The ticks from `t` to `now`, mod 2^48. -/
def elapsed (now t : Time) : Nat := (now - t).toNat

/-- Division rounded up. -/
def ceilDiv (a b : Nat) : Nat := (a + b - 1) / b

/-- Saturation of a 16-bit value at 65,535. -/
def sat16 (n : Nat) : Nat := min n 65535

/-! ### Sparse cells

A list of addresses and values, addresses strictly rising, no value equal to what an unlisted address reads as. -/

/-- The value at an address. -/
def readCell {α : Type} (dflt : α) : List (Nat × α) → Nat → α
  | [], _ => dflt
  | (k, v) :: rest, a => if a = k then v else if a < k then dflt else readCell dflt rest a

/-- Store a value at an address; storing what an unlisted address reads as removes the entry. -/
def writeCell {α : Type} [DecidableEq α] (dflt : α) (a : Nat) (v : α) : List (Nat × α) → List (Nat × α)
  | [] => if v = dflt then [] else [(a, v)]
  | (k, w) :: rest =>
    if a < k then if v = dflt then (k, w) :: rest else (a, v) :: (k, w) :: rest
    else if a = k then if v = dflt then rest else (a, v) :: rest
    else (k, w) :: writeCell dflt a v rest

/-- The canonical form of a list of cells. -/
def cellsWf {α : Type} [DecidableEq α] (dflt : α) : List (Nat × α) → Bool
  | [] => true
  | (k, v) :: rest =>
    (match rest with
      | [] => true
      | (k', _) :: _ => decide (k < k'))
    && decide (v ≠ dflt) && cellsWf dflt rest

/-! ### Stream sets and the stream table -/

/-- Set a stream's bit in a stream set (R85). -/
def setBit (set : BitVec 16) (n : Stream) : BitVec 16 := set ||| BitVec.twoPow 16 n.val

/-- The context of a stream (R22). -/
def State.ctx (s : State) (n : Stream) : Context := s.ctxs[n.val]

/-- Replace the context of a stream. -/
def State.setCtx (s : State) (n : Stream) (c : Context) : State :=
  { s with ctxs := s.ctxs.set n.val c }

/-- A feed channel (R129). -/
def State.chan (s : State) (n : Stream) : Channel := s.feed.chans[n.val]

/-- Replace a feed channel. -/
def State.setChan (s : State) (n : Stream) (c : Channel) : State :=
  { s with feed := { s.feed with chans := s.feed.chans.set n.val c } }

/-- All sixteen streams, 0 first. -/
def allStreams : List Stream := List.finRange 16

/-- Change every context of the stream table, each by its own number. -/
def State.mapCtxs (s : State) (f : Stream → Context → Context) : State :=
  allStreams.foldl (fun s n => s.setCtx n (f n (s.ctx n))) s

/-- The context is enabled (R22). -/
def Context.enabled (c : Context) : Bool := c.cfg.isSome

/-! ### The part's condition -/

/-- Power is applied and COLD is released: the blocks take events (R158). -/
def State.live (s : State) : Bool := s.powered && !s.cold

/-- The part takes events and is in RUN. -/
def State.inRun (s : State) : Bool := s.live && decide (s.loader.part = .run)

/-! ### Events (R182) -/

/-- Raise an event: it joins the tail of the queue with T, or, when the queue holds 32, is dropped and sets the
overflow flag (R182). -/
def State.raise (s : State) (code : EventCode) (subject detail : Nat) : State :=
  if s.link.queue.length < Config.queueDepth then
    { s with link := { s.link with
        queue := s.link.queue ++
          [{ code := code, time := s.t, subject := BitVec.ofNat 4 subject, detail := BitVec.ofNat 16 detail }] } }
  else { s with link := { s.link with overflow := true } }

/-- An event about to be raised: its code, subject and detail. -/
structure Raised where
  code : EventCode
  subject : Nat
  detail : Nat
  deriving DecidableEq, Repr

/-- Raise several events in the order given. -/
def State.raiseAll (s : State) (es : List Raised) : State :=
  es.foldl (fun s e => s.raise e.code e.subject e.detail) s

/-! ### Choices (log entry 4) -/

/-- A list in an order that `choose` fixes: each element is put at a place among the elements after it. -/
def arrange {α : Type} (choose : Nat → Nat) : List α → List α
  | [] => []
  | x :: xs => (arrange choose xs).insertIdx (choose xs.length % (xs.length + 1)) x

/-- The order the state's free value gives a list of pieces of work that the manual leaves in either order. -/
def State.order {α : Type} (s : State) (l : List α) : List α := arrange (fun i => Config.pick (s.fresh + i)) l

/-- Move on past `n` choices. -/
def State.chosen (s : State) (n : Nat) : State := { s with fresh := s.fresh + n }

end Sys2Proof.Machine
end

