-- ==== Sys2Proof/Machine/Operands.lean ====
section
/-! DEFINITION. How values stand in bytes and in notice bits (R184, R110, R111). -/

namespace Sys2Proof.Machine

open Sys2Proof

/-- A value in `n` bytes, most significant first (R184). -/
def beBytes : Nat → Nat → List Byte
  | 0, _ => []
  | n + 1, v => beBytes n (v / 256) ++ [BitVec.ofNat 8 v]

/-- The value of bytes, most significant first (R184). -/
def beValue (bs : List Byte) : Nat := bs.foldl (fun v b => v * 256 + b.toNat) 0

/-- The `n`-byte field at an offset of a record's body (R184). -/
def field (body : List Byte) (off n : Nat) : Nat := beValue ((body.drop off).take n)

/-- A 32-bit field read as two's complement (R184). -/
def signed32 (v : Nat) : Int := (BitVec.ofNat 32 v).toInt

/-- One bit as a number. -/
def bitOf (b : Bool) : Nat := if b then 1 else 0

/-- A value in `n` notice bits, most significant first (R110). -/
def toBits : Nat → Nat → List Bool
  | 0, _ => []
  | n + 1, v => toBits n (v / 2) ++ [v.testBit 0]

/-- The value of notice bits, most significant first (R110). -/
def ofBits (bs : List Bool) : Nat := bs.foldl (fun v b => 2 * v + bitOf b) 0

/-- One step of the division by x^8 + x^2 + x + 1 that forms the check (R111). -/
def checkStep (r : BitVec 8) (b : Bool) : BitVec 8 :=
  if r.msb != b then (r <<< 1) ^^^ 0x07#8 else r <<< 1

/-- The check of the 56 field bits (R111). -/
def noticeCheck (bs : List Bool) : BitVec 8 := bs.foldl checkStep 0

/-- The four notice flags as bits, LOCKED first (R110). -/
def NoticeFlags.toBits (f : NoticeFlags) : List Bool := [f.locked, f.overcommit, f.capped, f.alert]

/-- Fields 1 to 5 of a notice in the order sent (R110). -/
def fieldBits (id offset f x : Nat) (flags : NoticeFlags) : List Bool :=
  toBits 4 id ++ toBits 16 offset ++ toBits 16 f ++ toBits 16 x ++ flags.toBits

/-- The 64 data bits of a notice (R110, R111). -/
def noticeBits (id offset f x : Nat) (flags : NoticeFlags) : List Bool :=
  let fields := fieldBits id offset f x flags
  fields ++ toBits 8 (noticeCheck fields).toNat

/-- The value of the notice bits from `off` on, `n` of them (R110). -/
def bitField (bs : List Bool) (off n : Nat) : Nat := ofBits ((bs.drop off).take n)

/-- The parity bit a byte is stored with (R151). -/
def parityOf (b : Byte) : Bool :=
  (List.range 8).foldl (fun p i => p != b.getLsbD i) false

end Sys2Proof.Machine
end

