-- ==== Sys2Proof/Machine/Flags.lean ====
section
/-! DEFINITION. Indications, latches and output lines that follow from the state. -/

namespace Sys2Proof.Machine

open Sys2Proof

/-- The PARITY indication: some integrity bit is set (R152, R183). -/
def Store.parityIndication (st : Store) : Bool :=
  st.banks[0].integrity || st.banks[1].integrity || st.banks[2].integrity || st.banks[3].integrity

/-- Some fault latch is set (R183). -/
def Latches.any (l : Latches) : Bool :=
  l.egressStall || l.busStuck || l.idClash || l.bankRetired || l.storeExhausted

/-- The FAULT output (R183). Without power it is released, whatever latch still stands (DESIGN CHOICE: R183 does not
speak of an unpowered part; log entry 17). -/
def State.faultLine (s : State) : Bool :=
  s.live && (s.link.latches.any || s.store.parityIndication || decide (s.loader.part = .halted))

/-- A stream whose claim is counted: PRIMED, SENDING, STARVED or DRAINED (R43). -/
def StreamState.counted : StreamState → Bool
  | .primed | .sending | .starved | .drained => true
  | .disabled | .quiet => false

/-- The claim a context adds to the sum of its class (R43). -/
def Context.claimIn (c : Context) (cls : Class) : Nat :=
  match c.cfg with
  | some cfg => if cfg.cls = cls ∧ c.st.counted then cfg.claim else 0
  | none => 0

/-- The station's own claim of a class, saturated (R43). -/
def State.ownClaim (s : State) (cls : Class) : Nat :=
  sat16 ((allStreams.map fun n => (s.ctx n).claimIn cls).sum)

/-- The station's CAPPED indication (R47). -/
def State.cappedIndication (s : State) : Bool :=
  allStreams.any fun n =>
    (s.ctx n).capped && (s.ctx n).st.counted
      && (match (s.ctx n).cfg with
          | some cfg => decide (cfg.cls = .flex)
          | none => false)

/-- The flags of this station's notice (R104). -/
def State.ownFlags (s : State) : NoticeFlags :=
  { locked := decide (s.grid.lock = .locked)
    overcommit := s.share.overcommit
    capped := s.cappedIndication
    alert := s.link.latches.idClash || s.share.peers.any (·.misaligned) }

/-- The epoch offset at this tick (R93). -/
def State.epochOffset (s : State) : Nat := sat16 (elapsed s.t s.grid.eTaken / 64)

/-- Some bit of a stream set is set (R185). -/
def anyBit (set : BitVec 16) : Bool := decide (set ≠ 0)

/-- The latch word (R185). -/
def State.latchWord (s : State) : Nat :=
  let e := s.egress
  let l := s.link.latches
  bitOf (anyBit e.collision) + 2 * bitOf (anyBit e.late) + 4 * bitOf (anyBit e.starve) + 8 * bitOf (anyBit e.trim)
    + 16 * bitOf s.store.banks[0].integrity + 32 * bitOf s.store.banks[1].integrity
    + 64 * bitOf s.store.banks[2].integrity + 128 * bitOf s.store.banks[3].integrity
    + 256 * bitOf l.egressStall + 512 * bitOf l.busStuck + 1024 * bitOf l.idClash
    + 2048 * bitOf l.storeExhausted + 4096 * bitOf l.bankRetired

/-- The level of the `i`-th bit time of characters sent back to back: start bit low, data bits least significant
first, stop bit high (R173). -/
def charBit (bytes : List Byte) (i : Nat) : Bool :=
  match bytes[i / 10]? with
  | none => true
  | some b => if i % 10 = 0 then false else if i % 10 = 9 then true else b.getLsbD (i % 10 - 1)

/-- The MTX output (R172, R173). Without power it is high, a response being sent or not (DESIGN CHOICE: R172 speaks of
COLD only; log entry 17). -/
def State.mtx (s : State) : Bool :=
  match s.link.responder with
  | none => true
  | some r => if s.live then charBit r.bytes (elapsed s.t r.start / Config.bitTicks) else true

end Sys2Proof.Machine
end

