-- ==== Sys2Proof/Machine/Store.lean ====
section
/-! DEFINITION. The Packet Store (Chapter 8): chains, the free list, parity and bank retirement. -/

namespace Sys2Proof.Machine

open Sys2Proof

/-- The bank a block lies in (R144). -/
def bankOf (b : Block) : Fin 4 := ⟨b.toNat % 4, Nat.mod_lt _ (by decide)⟩

/-- A bank. -/
def Store.bank (st : Store) (j : Fin 4) : Bank := st.banks[j.val]

/-- Replace a bank. -/
def Store.setBank (st : Store) (j : Fin 4) (b : Bank) : Store := { st with banks := st.banks.set j.val b }

/-- The block's bank is RETIRED. -/
def Store.isRetired (st : Store) (b : Block) : Bool := (st.bank (bankOf b)).retired

/-- All four banks are RETIRED (R156). -/
def Store.exhausted (st : Store) : Bool :=
  st.banks[0].retired && st.banks[1].retired && st.banks[2].retired && st.banks[3].retired

/-- The usable free count (R150). -/
def Store.usableFree (st : Store) : Nat := st.free.countP fun b => !st.isRetired b

/-- The number of blocks in use (R144). -/
def Store.inUse (st : Store) : Nat := Config.blocks - st.free.length - st.retired.length

/-- The link table entry of a block; `none` is END (R144). -/
def Store.next (st : Store) (b : Block) : Option Block := readCell none st.links b.toNat

/-- Write a link table entry (R147). -/
def Store.setNext (st : Store) (b : Block) (n : Option Block) : Store :=
  { st with links := writeCell none b.toNat n st.links }

/-- The blocks of a chain from its first, following the link table to END, at most `fuel` of them. -/
def Store.chainFrom (st : Store) : Nat → Block → List Block
  | 0, _ => []
  | fuel + 1, b =>
    b :: (match st.next b with
      | none => []
      | some b' => st.chainFrom fuel b')

/-- The chain of a packet (R145). -/
def Store.chain (st : Store) (first : Block) : List Block := st.chainFrom Config.maxChain first

/-- A block joins the retired set. -/
def insertBlock (b : Block) : List Block → List Block
  | [] => [b]
  | c :: cs => if b.toNat < c.toNat then b :: c :: cs else if b = c then c :: cs else c :: insertBlock b cs

/-- The removal cascade on a free list: blocks of RETIRED banks leave the head (R146). The first list is what is
left, the second the blocks removed. -/
def cascadeSplit (ret : Block → Bool) : List Block → List Block × List Block
  | [] => ([], [])
  | b :: bs =>
    if ret b then
      let (l, r) := cascadeSplit ret bs
      (l, b :: r)
    else (b :: bs, [])

/-- The removal cascade of R146. -/
def Store.cascade (st : Store) : Store :=
  let (l, r) := cascadeSplit st.isRetired st.free
  { st with free := l, retired := r.foldl (fun acc b => insertBlock b acc) st.retired }

/-- Take the head block, then apply the cascade (R147 steps 1 and 2). -/
def Store.takeHead (st : Store) : Option (Block × Store) :=
  match st.free with
  | [] => none
  | b :: bs => some (b, Store.cascade { st with free := bs })

/-- Take `n` blocks from the head (R147 steps 1 to 3). -/
def Store.takeBlocks : Nat → Store → Option (List Block × Store)
  | 0, st => some ([], st)
  | n + 1, st =>
    match st.takeHead with
    | none => none
    | some (b, st1) =>
      match Store.takeBlocks n st1 with
      | none => none
      | some (bs, st2) => some (b :: bs, st2)

/-- Link blocks in the order taken, the last to END (R147 step 4). -/
def Store.linkBlocks : List Block → Store → Store
  | [], st => st
  | [b], st => st.setNext b none
  | b :: b' :: rest, st => Store.linkBlocks (b' :: rest) (st.setNext b (some b'))

/-- Allocate a chain of `n` blocks: its first block and the store after (R147). -/
def Store.allocate (st : Store) (n : Nat) : Option (Block × Store) :=
  match st.takeBlocks n with
  | some (b :: bs, st1) => some (b, Store.linkBlocks (b :: bs) st1)
  | _ => none

/-- One block of a freed chain goes to the tail of the free list, or to the retired set, by its bank (R148). -/
def Store.freeBlock (st : Store) (b : Block) : Store :=
  if st.isRetired b then { st with retired := insertBlock b st.retired } else { st with free := st.free ++ [b] }

/-- Free a whole chain in chain order (R148). -/
def Store.freeChain (st : Store) (first : Block) : Store := (st.chain first).foldl Store.freeBlock st

/-- The cell of byte `x` of a packet whose chain is `chain` (R145); `none` where the chain has no block for it. -/
def cellOf (chain : List Block) (x : Nat) : Option Nat :=
  (chain[x / Config.blockBytes]?).map fun b => b.toNat * Config.blockBytes + x % Config.blockBytes

/-- Write one byte of a packet with its parity (R145, R151). -/
def Store.writeByte (chain : List Block) (st : Store) (x : Nat) (v : Byte) : Option Store :=
  (cellOf chain x).map fun a =>
    { st with bytes := writeCell 0 a v st.bytes, parity := writeCell false a (parityOf v) st.parity }

/-- Write bytes of a packet from position `x` on, in order. -/
def Store.writeBytes (chain : List Block) (x : Nat) : List Byte → Store → Option Store
  | [], st => some st
  | v :: vs, st =>
    match st.writeByte chain x v with
    | none => none
    | some st1 => Store.writeBytes chain (x + 1) vs st1

/-- Read one byte of a packet: the byte and whether its parity matches (R151). -/
def Store.readByte (chain : List Block) (st : Store) (x : Nat) : Option (Byte × Bool) :=
  (cellOf chain x).map fun a =>
    let v := readCell 0 st.bytes a
    (v, readCell false st.parity a == parityOf v)

/-- The block of a packet that holds byte `x`. -/
def blockOf (chain : List Block) (x : Nat) : Option Block := chain[x / Config.blockBytes]?

/-- Retire bank `j` on an error in block `b` (R153), and the exhaustion of the store with the fourth bank (R156). -/
def State.retireBank (s : State) (j : Fin 4) (b : Block) : State :=
  let st := (s.store.setBank j { s.store.bank j with retired := true }).cascade
  let s1 := State.raise { s with store := st, link := { s.link with latches := { s.link.latches with bankRetired := true } } }
    .bankRetired j.val b.toNat
  if st.exhausted then
    State.raise { s1 with link := { s1.link with latches := { s1.link.latches with storeExhausted := true } } }
      .storeExhausted 0 st.inUse
  else s1

/-- The store's work on a failed read in block `b` (R152). -/
def State.parityError (s : State) (b : Block) : State :=
  let j := bankOf b
  let bk := s.store.bank j
  let s1 := State.raise { s with store := s.store.setBank j { bk with integrity := true, errors := min (bk.errors + 1) 2 } }
    .parityError j.val b.toNat
  if bk.retired = false ∧ bk.errors = 1 then s1.retireBank j b else s1

/-- CLEAR of a bank's integrity bit clears its error count too (R154). -/
def Store.clearIntegrity (st : Store) (j : Fin 4) : Store :=
  st.setBank j { st.bank j with integrity := false, errors := 0 }

end Sys2Proof.Machine
end

