-- ==== Sys2Proof/Machine/StreamContexts.lean ====
section
/-! DEFINITION. Stream Contexts and the Release Scheduler (Chapters 2 and 3): frame starts, stream epochs, overruns,
arrivals and starvation. -/

namespace Sys2Proof.Machine

open Sys2Proof

/-! ### The release arithmetic -/

/-- The stretched window before it is capped: ceil(W × k_a / 256) (R46). -/
def stretched (cfg : StreamCfg) (ka : Nat) : Nat := ceilDiv (cfg.w * ka) 256

/-- The effective window of a frame started at factor `ka` (R46). -/
def effectiveWindow (cfg : StreamCfg) (ka : Nat) : Nat :=
  match cfg.cls with
  | .fixed => cfg.w
  | .flex => min (stretched cfg ka) cfg.wCap

/-- The capped flag of a frame started at factor `ka` (R47). -/
def cappedAt (cfg : StreamCfg) (ka : Nat) : Bool :=
  match cfg.cls with
  | .fixed => false
  | .flex => decide (cfg.wCap < stretched cfg ka)

/-- The release time of the packet of index `i` in the current frame (R48). -/
def releaseTime (cfg : StreamCfg) (c : Context) (i : Nat) : Time := after c.base (cfg.o + i * c.wEff / cfg.c)

/-- A frame start with the stream epoch's time `e` (R28, R45 to R47, R49). A t_next written already reached makes the
head due with the frame start itself (R51, R69). -/
def startFrame (cfg : StreamCfg) (e : Time) (c : Context) : Context :=
  { c with
    base := e, iNext := 0, ka := c.ks, wEff := effectiveWindow cfg c.ks, capped := cappedAt cfg c.ks, idle := 0,
    starveCounted := false, st := .sending, tNext := after e cfg.o, justReached := false }

/-! ### Heads and starvation -/

/-- The three things that make a stream's head due hold together (R51). -/
def Context.headReached (now : Time) (c : Context) : Bool :=
  c.enabled && decide (c.st = .sending) && !c.ring.isEmpty && reached now c.tNext

/-- The stream's head is due, and no part of that is still to be taken at this tick (R51, R69). -/
def Context.headDue (now : Time) (c : Context) : Bool := c.headReached now && !c.justReached

/-- That t_next has been reached at this tick is taken (R69). -/
def Context.seen (c : Context) : Context := { c with justReached := false }

/-- T becomes `now`: a SENDING stream's t_next may be reached at this very tick (R51, R69). -/
def Context.tick (now : Time) (c : Context) : Context :=
  { c with justReached := decide (c.st = .sending) && decide (c.tNext = now) }

/-- The stream starves: SENDING, its ring empty and t_next reached (R33, R53). -/
def Context.starves (now : Time) (c : Context) : Bool :=
  c.enabled && decide (c.st = .sending) && c.ring.isEmpty && reached now c.tNext

/-- Starvation of a stream (R33). -/
def State.starveStream (s : State) (n : Stream) : State :=
  let c := s.ctx n
  let counts := if c.starveCounted then c.counts else { c.counts with starvedFrames := c.counts.starvedFrames + 1 }
  State.setCtx { s with egress := { s.egress with starve := setBit s.egress.starve n } } n
    { c with st := .starved, starveCounted := true, counts := counts, justReached := false }

/-! ### Arrivals -/

/-- An arrival: the record joins the tail of the ring and acts on the stream by its state (R27). -/
def Context.arrive (r : Record) (c : Context) : Context :=
  { c with
    ring := c.ring ++ [r]
    st := match c.st with
      | .quiet => .primed
      | .starved => .sending
      | st => st }

/-! ### Stream epochs -/

/-- The current frame's records in the ring, through its frame-end record, and the records after them; and whether
the ring holds the frame-end record (R35 stage 1). -/
def cutFrame : List Record → List Record × List Record × Bool
  | [] => ([], [], false)
  | r :: rs =>
    if r.frameEnd then ([r], rs, true)
    else
      let (cut, keep, found) := cutFrame rs
      (r :: cut, keep, found)

/-- The ring's head is a frame-start record, one of index 0 (R28). -/
def headStarts (ring : List Record) : Bool :=
  match ring with
  | [] => false
  | r :: _ => decide (r.index = 0)

/-- The TRIM discard's work on the context (R35 stages 1 to 4). -/
def Context.trimmed (cfg : StreamCfg) (e : Time) (c : Context) : Context :=
  let (cut, keep, found) := cutFrame c.ring
  let c1 := { c with
    ring := keep
    counts := { c.counts with trimmed := c.counts.trimmed + BitVec.ofNat 32 cut.length }
    discard := c.discard || !found }
  if headStarts keep then startFrame cfg e c1 else { c1 with st := .drained }

/-- An empty stream epoch in DRAINED (R31). -/
def Context.countIdle (cfg : StreamCfg) (c : Context) : Context :=
  if c.idle + 1 = cfg.idleLimit then { c with st := .quiet, idle := 0 } else { c with idle := c.idle + 1 }

/-- The context after an overrun, a stream epoch that finds the stream SENDING or STARVED (R34): the TRIM discard, or
under FINISH with the owing flag clear the frame kept and the epoch owed (R55), or at a second overrun the owed epoch
dropped and the TRIM discard (R58). -/
def Context.overrun (cfg : StreamCfg) (e : Time) (c : Context) : Context :=
  match cfg.policy, c.owing with
  | .trim, _ => c.trimmed cfg e
  | .finish, false => { c with owing := true, owed := e }
  | .finish, true => Context.trimmed cfg e { c with owing := false }

/-- The context of an enabled stream after a stream epoch of time `e` (R30). -/
def Context.atEpoch (cfg : StreamCfg) (e : Time) (c : Context) : Context :=
  match c.st with
  | .disabled => c
  | .quiet => c
  | .primed => startFrame cfg e c
  | .drained =>
    if headStarts c.ring then startFrame cfg e c
    else if c.ring.isEmpty then c.countIdle cfg
    else c
  | .sending => c.overrun cfg e
  | .starved => c.overrun cfg e

/-- The stream is SENDING or STARVED: a stream epoch is an overrun (R34). -/
def Context.unfinished (c : Context) : Bool := decide (c.st = .sending) || decide (c.st = .starved)

/-- The stream epoch makes a TRIM discard (R34). -/
def Context.trimsAt (cfg : StreamCfg) (c : Context) : Bool :=
  c.unfinished && (decide (cfg.policy = .trim) || c.owing)

/-- The stream epoch makes a first overrun under FINISH (R34, R55). -/
def Context.owesAt (cfg : StreamCfg) (c : Context) : Bool :=
  c.unfinished && decide (cfg.policy = .finish) && !c.owing

/-- The TRIM discard's work outside the context: the chains of the records cut are freed in ring order, the trim bit is
set and OVERRUN_TRIM is raised (R35 stages 1 and 2). -/
def State.trimWork (s : State) (n : Stream) (cut : List Record) : State :=
  State.raise
    { s with
      store := cut.foldl (fun st r => st.freeChain r.first) s.store
      egress := { s.egress with trim := setBit s.egress.trim n } } .overrunTrim n.val cut.length

/-- A stream epoch of time `e` reaches a context (R30). -/
def State.streamEpoch (s : State) (n : Stream) (e : Time) : State :=
  let c := s.ctx n
  match c.cfg with
  | none => s
  | some cfg =>
    let s1 := s.setCtx n (c.atEpoch cfg e)
    if c.trimsAt cfg then s1.trimWork n (cutFrame c.ring).1
    else if c.owesAt cfg then s1.raise .overrunFinish n.val c.iNext
    else s1

/-! ### The stream's work at a grant -/

/-- The stream's own work when its head, `r`, is granted and `rest` is left in the ring (R32, R49, R56). -/
def Context.granted (cfg : StreamCfg) (r : Record) (rest : List Record) (c : Context) : Context :=
  let c1 := { c with ring := rest, iNext := c.iNext + 1 }
  if r.frameEnd then
    if c.owing then
      if headStarts rest then startFrame cfg c.owed { c1 with owing := false }
      else { c1 with owing := false, st := .drained }
    else { c1 with st := .drained }
  else { c1 with tNext := releaseTime cfg c1 c1.iNext }

/-! ### The step of the table -/

/-- STARVE: a SENDING stream whose ring is empty starves when t_next has been reached (R33). -/
def execStarve (n : Stream) (s : State) : Result :=
  if s.live && (s.ctx n).starves s.t then .next (s.starveStream n) else .next s

end Sys2Proof.Machine
end

