-- ==== Sys2Proof/Machine/Egress.lean ====
section
/-! DEFINITION. The Egress Arbiter and the Egress Port (Chapter 4): grants, stamps, emission and link state. -/

namespace Sys2Proof.Machine

open Sys2Proof

/-! ### The choice of a head -/

/-- The streams whose heads are due (R51), in ascending order. -/
def State.dueStreams (s : State) : List Stream := allStreams.filter fun n => (s.ctx n).headDue s.t

/-- The streams whose heads are due or come due at this tick (R51), in ascending order. -/
def State.reachedStreams (s : State) : List Stream := allStreams.filter fun n => (s.ctx n).headReached s.t

/-- The streams whose t_next is reached at this tick and, as the free value has it, before the grant that is now taken
(R69, log entry 4). Where no other head is due, a grant needs at least one of them, and an empty choice stands for
all. -/
def State.comingDue (s : State) : List Stream :=
  let first := s.reachedStreams.filter fun n => (s.ctx n).justReached && decide (Config.pick (s.fresh + n.val) % 2 = 0)
  if first.isEmpty && s.dueStreams.isEmpty then s.reachedStreams else first

/-- The heads that come due at this tick before the grant that is now taken are due from here on (R69). -/
def State.takeDue (s : State) : State :=
  let first := s.comingDue
  State.chosen (s.mapCtxs fun n c => if n ∈ first then c.seen else c) 16

/-- The class of a context; a DISABLED context has none and is never asked (R26). -/
def Context.isFixed (c : Context) : Bool :=
  match c.cfg with
  | some cfg => decide (cfg.cls = .fixed)
  | none => false

/-- Due stream `a` comes before due stream `b` (R68). -/
def State.firstOf (s : State) (a b : Stream) : Bool :=
  let ca := s.ctx a
  let cb := s.ctx b
  if ca.tNext = cb.tNext then
    if ca.isFixed = cb.isFixed then decide (a.val < b.val) else ca.isFixed
  else earlier ca.tNext cb.tNext

/-- The stream among those listed that comes first (R68). -/
def State.bestOf (s : State) : List Stream → Option Stream
  | [] => none
  | n :: ns =>
    match s.bestOf ns with
    | none => some n
    | some m => if s.firstOf m n then some m else some n

/-- The stream whose head a grant takes now, if any is due (R67, R68). -/
def State.grantChoice (s : State) : Option Stream := s.bestOf s.dueStreams

/-! ### Stamp and sequence number -/

/-- The stamp of a frame based at `b` (R73). -/
def stampValue (p : PartCfg) (b : Time) : Nat := b.toNat * p.mn / p.md % 2 ^ 32

/-- A configured field of `size` bytes at `off` fits in a packet of length `len` (R75). -/
def fieldFits (off : Option Nat) (size len : Nat) : Bool :=
  match off with
  | none => false
  | some o => decide (o + size ≤ len)

/-- A configured field does not fit (R75). -/
def fieldMisfits (off : Option Nat) (size len : Nat) : Bool :=
  match off with
  | none => false
  | some o => decide (len < o + size)

/-- Write a field where it is configured and fits (R75). -/
def Store.writeField (st : Store) (chain : List Block) (off : Option Nat) (bs : List Byte) (len : Nat) : Option Store :=
  match off with
  | none => some st
  | some o => if o + bs.length ≤ len then st.writeBytes chain o bs else some st

/-- Write the stamp, then the sequence number, into a packet (R73 to R75). -/
def Store.stampPacket (st : Store) (p : PartCfg) (cfg : StreamCfg) (r : Record) (b : Time) (seq : BitVec 16) :
    Option Store :=
  let chain := st.chain r.first
  match st.writeField chain cfg.stampOffset (beBytes 4 (stampValue p b)) r.len with
  | none => none
  | some st1 => st1.writeField chain cfg.seqOffset (beBytes 2 seq.toNat) r.len

/-! ### The grant -/

/-- The counters of the granted stream after the grant: released, and late, unstamped or dropped at egress as the
grant finds (R70, R72, R75, R82). -/
def Counters.granted (c : Counters) (isLate up misfit : Bool) : Counters :=
  { c with
    released := c.released + 1
    late := if isLate then c.late + 1 else c.late
    unstamped := if up && misfit then c.unstamped + 1 else c.unstamped
    dropped := if up then c.dropped else c.dropped + 1 }

/-- The granted packet is late: T is more than Tlate past its release time (R72). -/
def State.grantLate (s : State) (n : Stream) : Bool := decide (s.cfg.tlate < elapsed s.t (s.ctx n).tNext)

/-- The context of the granted stream after the grant (R32, R70, R74, R86). -/
def State.grantedCtx (s : State) (n : Stream) (cfg : StreamCfg) (r : Record) (rest : List Record) : Context :=
  let c := s.ctx n
  let c1 := c.granted cfg r rest
  { c1 with
    seq := c.seq + 1
    counts := c.counts.granted (s.grantLate n) s.egress.linkUp
      (fieldMisfits cfg.stampOffset 4 r.len || fieldMisfits cfg.seqOffset 2 r.len) }

/-- Record a collision against a stream that waits through a grant (R71). -/
def State.collide (s : State) (m : Stream) : State :=
  let c := s.ctx m
  State.setCtx { s with egress := { s.egress with collision := setBit s.egress.collision m } } m
    { c with counts := { c.counts with collisions := c.counts.collisions + 1 } }

/-- The work of a grant of stream `n`'s head `r`, less what becomes of the packet: the stream's work, lateness,
collisions and counters (R70 steps 1 to 5). -/
def State.grantWork (s : State) (n : Stream) (cfg : StreamCfg) (r : Record) (rest : List Record) : State :=
  let waiting := s.dueStreams.filter (· ≠ n)
  let late := if s.grantLate n then setBit s.egress.late n else s.egress.late
  let s1 := State.setCtx { s with egress := { s.egress with late := late } } n (s.grantedCtx n cfg r rest)
  waiting.foldl State.collide s1

/-- The holding slot as a grant fills it (R66, R70, R76). OFFER is asserted at once, or from the next tick where the
slot has emptied at this one. -/
def Egress.fill (e : Egress) (n : Stream) (r : Record) (seq : BitVec 16) (now : Time) : Egress :=
  { e with
    slot := some { stream := n, first := r.first, len := r.len, seq := seq, grantTime := now, taken := 0 }
    offer := !e.emptied }

/-- A grant of stream `n`'s head (R70, R82). -/
def State.grantHead (s : State) (n : Stream) : Result :=
  let c := s.ctx n
  match c.cfg, c.ring with
  | some cfg, r :: rest =>
    let s1 := s.grantWork n cfg r rest
    if s.egress.linkUp then
      match s.store.stampPacket s.cfg cfg r c.base c.seq with
      | none => .fault .noSuchByte
      | some st => .next { s1 with store := st, egress := s1.egress.fill n r c.seq s.t }
    else .next { s1 with store := s.store.freeChain r.first }
  | _, _ => .next s

/-! ### The end of an emission -/

/-- The slot becomes EMPTY and OFFER is withdrawn (R76). DATA keeps the last byte driven, here as between two bytes
(DESIGN CHOICE: R76 gives DATA no level then; log entry 14). -/
def Egress.empty (e : Egress) : Egress := { e with slot := none, offer := false, emptied := true }

/-- The packet in the slot is done with: its chain is freed whole and the slot becomes EMPTY (R84). -/
def State.releaseSlot (s : State) (sl : Slot) : State :=
  { s with store := s.store.freeChain sl.first, egress := s.egress.empty }

/-- The packet in the slot is abandoned: ABANDON is asserted for this tick, the chain is freed and the abandoned
counter rises (R78, R79). -/
def State.abandonSlot (s : State) (sl : Slot) : State :=
  let s1 := s.releaseSlot sl
  let c := s1.ctx sl.stream
  State.setCtx { s1 with egress := { s1.egress with abandon := true } } sl.stream
    { c with counts := { c.counts with abandoned := c.counts.abandoned + 1 } }

/-! ### Guards -/

/-- A grant is to be taken: the slot is EMPTY and a head is due (R67). -/
def State.grantReady (s : State) : Bool := s.live && s.egress.slot.isNone && !s.reachedStreams.isEmpty

/-- The stall limit has been reached while the slot is EMITTING (R78). -/
def State.stallReady (s : State) : Bool :=
  s.live && (match s.egress.slot with
    | none => false
    | some sl => reached s.t (after sl.grantTime s.cfg.stallLimit))

/-! ### The steps of the table -/

/-- GRANT (R67, R68, R70). A head whose t_next is reached at this tick comes due before the grant or after it (R69). -/
def execGrant (s : State) : Result :=
  if s.grantReady then
    let s1 := s.takeDue
    match s1.grantChoice with
    | none => .next s1
    | some n => s1.grantHead n
  else .next s

/-- EGRESS_BYTE: the MAC takes the next byte of the packet in emission while OFFER is asserted; the byte is read and
its parity checked (R76, R79). -/
def execEgressByte (s : State) : Result :=
  match s.egress.slot with
  | none => .next s
  | some sl =>
    if s.live && s.egress.offer && decide (sl.taken < sl.len) then
      let chain := s.store.chain sl.first
      match s.store.readByte chain sl.taken, blockOf chain sl.taken with
      | some (v, ok), some b =>
        if ok then
          .next { s with egress := { s.egress with data := v, slot := some { sl with taken := sl.taken + 1 } } }
        else .next ((s.parityError b).abandonSlot sl)
      | _, _ => .fault .noSuchByte
    else .next s

/-- DONE: its rising edge completes the emission while the slot is EMITTING and is ignored otherwise (R76, R77). -/
def execDone (s : State) : Result :=
  if s.live then
    let s1 := { s with egress := { s.egress with doneEdge := false } }
    match s.egress.slot with
    | none => .next s1
    | some sl => .next (s1.releaseSlot sl)
  else .next s

/-- EGRESS_STALL (R78). -/
def execEgressStall (s : State) : Result :=
  if s.stallReady then
    match s.egress.slot with
    | none => .next s
    | some sl =>
      let s1 := s.abandonSlot sl
      .next (State.raise { s1 with link := { s1.link with latches := { s1.link.latches with egressStall := true } } }
        .egressStall sl.stream.val sl.seq.toNat)
  else .next s

/-- The link state follows a change of LINK_UP in RUN (R81). -/
def State.followLink (s : State) : State :=
  if s.egress.linkUp = s.pins.linkUp then s
  else
    State.raise { s with egress := { s.egress with linkUp := s.pins.linkUp } }
      (if s.pins.linkUp then .linkUp else .linkDown) 0 0

/-- LINK_CHANGE: the line LINK_UP takes a level. In RUN a change of the line changes the link state and raises its
event; before RUN the line is not followed (R81). -/
def execLinkChange (up : Bool) (s : State) : Result :=
  let s1 := { s with pins := { s.pins with linkUp := up } }
  if s.inRun then .next s1.followLink else .next s1

end Sys2Proof.Machine
end

