-- ==== Sys2Proof/Machine/Share.lean ====
section
/-! DEFINITION. The Share Computer and the peer table (Chapter 5). -/

namespace Sys2Proof.Machine

open Sys2Proof

/-! ### Notices taken -/

/-- A good notice as it is handed over, with the receiver offset (R89). -/
structure Heard where
  id : Nat
  offset : Nat
  f : Nat
  x : Nat
  flags : NoticeFlags
  recvOffset : Nat
  deriving DecidableEq, Repr

/-- The most by which two offsets of aligned stations differ (R94). -/
def alignLimit (p : PartCfg) : Nat := ceilDiv p.wlock 64 + 1

/-- The absolute difference of the two offsets (R94). -/
def offsetDiff (a b : Nat) : Nat := if a ≤ b then b - a else a - b

/-- The misaligned flag after a notice (R94). -/
def judgeAligned (p : PartCfg) (n : Heard) (flag : Bool) : Bool :=
  if n.offset = 65535 ∨ n.recvOffset = 65535 then flag else decide (alignLimit p < offsetDiff n.offset n.recvOffset)

/-- The fields a notice writes into its entry, new or old (R90, R91). -/
def Heard.entry (p : PartCfg) (n : Heard) (wasMisaligned : Bool) : Peer :=
  { id := n.id, f := n.f, x := n.x, flags := n.flags, offset := n.offset,
    misaligned := judgeAligned p n wasMisaligned, heard := true, missed := 0, st := .present }

/-- Put an entry into the table at its place in id order, in place of the entry of that id if there is one (R88). -/
def putPeer (e : Peer) : List Peer → List Peer
  | [] => [e]
  | p :: ps => if e.id < p.id then e :: p :: ps else if e.id = p.id then e :: ps else p :: putPeer e ps

/-- The entry of an id. -/
def findPeer (id : Nat) (ps : List Peer) : Option Peer := ps.find? fun p => decide (p.id = id)

/-- PEER_MISALIGNED, when the flag goes from clear to set (R94). -/
def misalignedEvents (p : PartCfg) (n : Heard) (was : Bool) : List Raised :=
  if !was && judgeAligned p n was then [⟨.peerMisaligned, n.id, offsetDiff n.offset n.recvOffset⟩] else []

/-- The Share Computer takes a handed notice: a clash, a refresh or a new entry (R89 to R94). PEER_NEW and
PEER_MISALIGNED of one notice enter the queue in either order (R107). -/
def State.takeNotice (s : State) (n : Heard) : State :=
  if n.id = s.cfg.stationId then
    State.raise { s with link := { s.link with latches := { s.link.latches with idClash := true } } }
      .idClash n.id n.offset
  else
    match findPeer n.id s.share.peers with
    | some e =>
      let s1 := { s with share := { s.share with peers := putPeer (n.entry s.cfg e.misaligned) s.share.peers } }
      s1.raiseAll (misalignedEvents s.cfg n e.misaligned)
    | none =>
      let s1 := { s with share := { s.share with peers := putPeer (n.entry s.cfg false) s.share.peers } }
      let es : List Raised := ⟨.peerNew, n.id, sat16 (n.f + n.x)⟩ :: misalignedEvents s.cfg n false
      (s1.raiseAll (s.order es)).chosen es.length

/-! ### Aging -/

/-- One entry aged; `none` where it is removed (R95, R96). -/
def agePeer (p : Peer) : Option Peer :=
  if p.heard then some { p with heard := false, missed := 0, st := .present }
  else if p.missed < 3 then some { p with missed := p.missed + 1, st := .held }
  else none

/-- The events of an aging: PEER_LOST for each entry removed (R96). -/
def lostEvents (ps : List Peer) : List Raised :=
  (ps.filter fun p => (agePeer p).isNone).map fun p => ⟨.peerLost, p.id, sat16 (p.f + p.x)⟩

/-! ### The share factor -/

/-- k and OVERCOMMIT from the totals and the budget, with the cause that sets OVERCOMMIT (R100, R101). -/
def shareFactor (budget fTot xTot : Nat) : Nat × Bool × Nat :=
  if fTot + xTot ≤ budget then (256, false, 0)
  else if xTot = 0 then (256, true, 0)
  else if budget ≤ fTot then (1024, true, 1)
  else if ceilDiv (xTot * 256) (budget - fTot) ≤ 1024 then (ceilDiv (xTot * 256) (budget - fTot), false, 0)
  else (1024, true, 2)

/-- The event of a computation that changes OVERCOMMIT (R101). -/
def overcommitEvents (was now : Bool) (cause k : Nat) : List Raised :=
  if !was && now then [⟨.overcommitOn, 0, cause⟩] else if was && !now then [⟨.overcommitOff, 0, k⟩] else []

/-- F_tot: the own F claim and the F claims of the entries (R99). -/
def State.fTotal (s : State) (ps : List Peer) : Nat := s.ownClaim .fixed + (ps.map (·.f)).sum

/-- X_tot: the own X claim and the X claims of the entries (R99). -/
def State.xTotal (s : State) (ps : List Peer) : Nat := s.ownClaim .flex + (ps.map (·.x)).sum

/-- Stage the factor into a context: an enabled FLEX context takes it (R102). -/
def Context.stage (k : Nat) (c : Context) : Context :=
  match c.cfg with
  | some cfg => if cfg.cls = .flex then { c with ks := k } else c
  | none => c

/-- Stage the factor into every context (R102). -/
def State.stageAll (s : State) (k : Nat) : State := s.mapCtxs fun _ => Context.stage k

/-- The Share Computer's work at a frame epoch: aging, totals, k and OVERCOMMIT, staging (R95 to R102). It is passed
over while the bus is STUCK (R97). Its events enter the queue in either order (R107). -/
def State.shareEpoch (s : State) : State :=
  if s.pace.bus = .stuck then s
  else
    let ps := s.share.peers.filterMap agePeer
    let r := shareFactor s.cfg.budget (s.fTotal ps) (s.xTotal ps)
    let es := lostEvents s.share.peers ++ overcommitEvents s.share.overcommit r.2.1 r.2.2 r.1
    let s1 := { s with share := { peers := ps, k := r.1, overcommit := r.2.1 } }
    ((s1.raiseAll (s.order es)).chosen es.length).stageAll r.1

end Sys2Proof.Machine
end

