-- ==== Sys2Proof/Machine/PaceBus.lean ====
section
/-! DEFINITION. The Pace Bus Interface (Chapter 6): the line, reception, notice records, sending and the stuck line. -/

namespace Sys2Proof.Machine

open Sys2Proof

/-! ### The line -/

/-- The attempt drives the line low `d` ticks after its s0 (R109). -/
def Attempt.lowAt (b : Nat) (a : Attempt) (d : Nat) : Bool :=
  if d < 2 * b then true
  else
    match a.bits[d / b - 2]? with
    | none => false
    | some v => decide (d % b < if v then b / 4 else 3 * b / 4)

/-- This station drives PACE low at time `now` (R108, R109). -/
def Pace.drives (b : Nat) (now : Time) (p : Pace) : Bool :=
  match p.attempt with
  | none => false
  | some a => a.lowAt b (elapsed now a.s0)

/-- The PACE output: this station pulls the line low (R108, R109). Without power it does not (DESIGN CHOICE: R158 speaks
of COLD only; log entry 17). -/
def State.paceLow (s : State) : Bool := s.live && s.pace.drives s.cfg.bitTime s.t

/-- The level of PACE: the wired-AND of this station's drive and the others', or the others' level alone where the
line does not follow this station's drive (R108, R120). -/
def Pins.paceLevel (pins : Pins) (low : Bool) : Bool := pins.paceOthers && !(low && pins.paceFollows)

/-- The attempt is over 66 bit times after its s0 (R109). -/
def Pace.expire (b : Nat) (now : Time) (p : Pace) : Pace :=
  match p.attempt with
  | none => p
  | some a => if 66 * b ≤ elapsed now a.s0 then { p with attempt := none } else p

/-- A sample of the line enters the run counts and shows a falling edge (R108). -/
def Pace.count (level : Bool) (p : Pace) : Pace :=
  { p with
    level := level
    highBefore := p.highRun
    highRun := if level then p.highRun + 1 else 0
    lowRun := if level then 0 else p.lowRun + 1
    fell := p.level && !level }

/-- The bit being received, after bit 0, is sampled at `now` (R113). -/
def Pace.bitDue (b : Nat) (now : Time) (p : Pace) : Bool :=
  match p.bitStart with
  | none => false
  | some e => decide (now = after e (b / 2))

/-- A falling edge in DATA begins a bit, or begins it anew before its sample (R113). An edge at the very tick of the
bit's sample may be taken before or after the sample: `first` says before. -/
def Pace.takeDataEdge (b : Nat) (now : Time) (first : Bool) (p : Pace) : Pace :=
  if p.fell && decide (p.recv = .data) && (!p.bitDue b now || first) then { p with bitStart := some now, fell := false }
  else p

/-- The Pace Bus Interface samples PACE at tick `now` (R108). While OFF it does not. -/
def Pace.sample (b : Nat) (now : Time) (pins : Pins) (first : Bool) (p : Pace) : Pace :=
  if p.bus = .off then p
  else
    let p1 := p.expire b now
    (p1.count (pins.paceLevel (p1.drives b now))).takeDataEdge b now first

/-! ### Reception -/

/-- The receive side takes a falling edge as a start mark (R112, R113). -/
def Pace.startMark (now : Time) (offset : Nat) (p : Pace) : Pace :=
  { p with recv := .start, edge := now, recvOffset := offset, bits := [], bitStart := none, fell := false }

/-- Bit 0 is sampled now: 2b + b/2 after the start-mark edge (R113). -/
def Pace.firstBitDue (b : Nat) (now : Time) (p : Pace) : Bool :=
  decide (p.recv = .start) && decide (now = after p.edge (2 * b + b / 2))

/-- A later bit is sampled now (R113). -/
def Pace.laterBitDue (b : Nat) (now : Time) (p : Pace) : Bool := decide (p.recv = .data) && p.bitDue b now

/-- The sample of one of bits 0 to 62: the bit is stored. A falling edge at this tick then begins the next bit
(R113). -/
def Pace.storeBit (now : Time) (p : Pace) : Pace :=
  { p with
    recv := .data, bits := p.bits ++ [p.level], bitStart := if p.fell then some now else none, fell := false }

/-- The receive side gives up a notice or ends one: it enters SETTLING (R112). -/
def Pace.settle (p : Pace) : Pace := { p with recv := .settling, bits := [], bitStart := none, fell := false }

/-- The notice that 64 sampled bits spell, with the receiver offset (R89, R110). -/
def heardOf (bits : List Bool) (recvOffset : Nat) : Heard :=
  { id := bitField bits 0 4, offset := bitField bits 4 16, f := bitField bits 20 16, x := bitField bits 36 16,
    flags :=
      { locked := bits.getD 52 false, overcommit := bits.getD 53 false, capped := bits.getD 54 false,
        alert := bits.getD 55 false }
    recvOffset := recvOffset }

/-- A complete notice of another sender is judged by its check (R114). -/
def State.judgeNotice (s : State) (bits : List Bool) (recvOffset : Nat) : State :=
  let sampled := bitField bits 56 8
  let computed := (noticeCheck (bits.take 56)).toNat
  if sampled = computed then s.takeNotice (heardOf bits recvOffset)
  else s.raise .noticeCheck (bitField bits 0 4) (sampled * 256 + computed)

/-! ### Notice records -/

/-- The holdoff after the first or second bit error (R121). -/
def holdoffAfter (p : PartCfg) (failed : Nat) : Nat :=
  if failed = 1 then (p.stationId + 1) * (4 * p.bitTime) else 32 * p.bitTime

/-- The record a frame epoch of time `e` creates at tick `now` (R116, R121). -/
def newNotice (p : PartCfg) (now e : Time) (k : BitVec 32) : Notice :=
  let due := after e p.noticeDelay
  { interval := k, due := due, st := if reached now due then .waiting else .scheduled, failed := 0, holdoff := 0,
    since := now }

/-- What a frame epoch does to the record it finds: the superseded record after it, and the event (R122). -/
def settleNotice (id : Nat) (cur old : Option Notice) : Option Notice × List Raised :=
  match cur with
  | none => (old, [])
  | some r =>
    match r.st with
    | .sent => (old, [])
    | .givenUp => (old, [])
    | .scheduled => (old, [⟨.noticeSkipped, id, r.failed⟩])
    | .waiting => (old, [⟨.noticeSkipped, id, r.failed⟩])
    | .onLine => (some r, [])

/-- The Pace Bus Interface's work at a frame epoch of time `e` (R116, R122). In STUCK it does nothing (R125). -/
def State.paceEpoch (s : State) (e : Time) : State :=
  if s.pace.bus = .normal then
    let r := settleNotice s.cfg.stationId s.pace.cur s.pace.old
    State.raiseAll
      { s with pace := { s.pace with cur := some (newNotice s.cfg s.t e s.grid.k), old := r.1 } } r.2
  else s

/-! ### Sending -/

/-- The number and value of the bit that the attempt compares at tick `now`, if it compares one (R118). -/
def Pace.comparing (b : Nat) (now : Time) (p : Pace) : Option (Nat × Bool) :=
  match p.attempt with
  | none => none
  | some a =>
    let d := elapsed now a.s0
    if a.comparing ∧ 2 * b + b / 2 ≤ d ∧ (d - (2 * b + b / 2)) % b = 0 then
      (a.bits[(d - (2 * b + b / 2)) / b]?).map fun v => ((d - (2 * b + b / 2)) / b, v)
    else none

/-- The sender loses arbitration now: in bits 0 to 3 it sent 1 and samples 0 (R119). -/
def Pace.losesNow (b : Nat) (now : Time) (p : Pace) : Bool :=
  match p.comparing b now with
  | none => false
  | some (j, v) => decide (j < 4) && v && !p.level

/-- The bit error the sender meets now, by its bit number (R120). -/
def Pace.bitErrorNow (b : Nat) (now : Time) (p : Pace) : Option Nat :=
  match p.comparing b now with
  | none => none
  | some (j, v) => if (!v && p.level) || (v && !p.level && decide (4 ≤ j)) then some j else none

/-- The attempt's bit 63 is sampled now and matches (R118). -/
def Pace.succeedsNow (b : Nat) (now : Time) (p : Pace) : Bool :=
  match p.comparing b now with
  | none => false
  | some (j, v) => decide (j = 63) && (v == p.level)

/-- The quiet ticks before tick `now` that count for a record WAITING since `since` (R117). -/
def Pace.quietBefore (now : Time) (since : Time) (p : Pace) : Nat := min p.highBefore (elapsed now since)

/-- The current record goes on the line now (R117). A superseded attempt on the line keeps it waiting (R122). -/
def Pace.startsNow (b : Nat) (now : Time) (p : Pace) : Bool :=
  match p.cur with
  | none => false
  | some r => decide (r.st = .waiting) && p.attempt.isNone && decide (8 * b + r.holdoff ≤ p.quietBefore now r.since)

/-- The record after a lost arbitration (R119, R121). -/
def Notice.lost (now : Time) (r : Notice) : Notice := { r with st := .waiting, holdoff := 0, since := now }

/-- The record after a bit error (R120, R121). -/
def Notice.failedOnce (p : PartCfg) (now : Time) (r : Notice) : Notice :=
  if r.failed + 1 < 3 then
    { r with st := .waiting, failed := r.failed + 1, holdoff := holdoffAfter p (r.failed + 1), since := now }
  else { r with st := .givenUp, failed := r.failed + 1 }

/-- The station's own start mark pulls the line at this tick: the sample of the tick is low where the line follows
the drive, and the receive side takes the falling edge (R108, R112, R117). -/
def Pace.pullNow (b : Nat) (now : Time) (pins : Pins) (offset : Nat) (p : Pace) : Pace :=
  let p1 : Pace := if p.level && !pins.paceLevel (p.drives b now) then
      { p with level := false, highRun := 0, lowRun := 1, fell := true }
    else p
  if p1.fell && (decide (p1.recv = .idle) || decide (p1.recv = .start)) then p1.startMark now offset else p1

/-! ### Guards -/

/-- The interface sends and receives (R108). -/
def State.busNormal (s : State) : Bool := s.live && decide (s.pace.bus = .normal)

/-- The current record's due time has been reached (R116). -/
def State.noticeDueReady (s : State) : Bool :=
  s.busNormal && (match s.pace.cur with
    | none => false
    | some r => decide (r.st = .scheduled) && reached s.t r.due)

/-- The current record goes on the line (R117). -/
def State.noticeStartReady (s : State) : Bool := s.busNormal && s.pace.startsNow s.cfg.bitTime s.t

/-- The sender has lost arbitration (R119). -/
def State.arbitrationReady (s : State) : Bool := s.busNormal && s.pace.losesNow s.cfg.bitTime s.t

/-- The sender has met a bit error (R120). -/
def State.biterrReady (s : State) : Bool := s.busNormal && (s.pace.bitErrorNow s.cfg.bitTime s.t).isSome

/-- The receive side samples bit 63 now (R114). -/
def State.lastBitReady (s : State) : Bool :=
  s.pace.laterBitDue s.cfg.bitTime s.t && decide (63 ≤ s.pace.bits.length)

/-- A notice is complete: bit 63 is sampled, by the receive side or by the sender. A sender's mismatch at this tick
is taken first, since it makes the station a receiver of the notice (R114, R118). -/
def State.completeReady (s : State) : Bool :=
  s.busNormal && (s.lastBitReady || s.pace.succeedsNow s.cfg.bitTime s.t)
    && !s.arbitrationReady && !s.biterrReady

/-- One of bits 0 to 62 is sampled (R113). -/
def State.dataBitReady (s : State) : Bool :=
  s.busNormal && (s.pace.firstBitDue s.cfg.bitTime s.t
    || (s.pace.laterBitDue s.cfg.bitTime s.t && decide (s.pace.bits.length < 63)))

/-- A falling edge in IDLE or START has not yet been taken (R112, R113). -/
def State.startMarkReady (s : State) : Bool :=
  s.busNormal && s.pace.fell && (decide (s.pace.recv = .idle) || decide (s.pace.recv = .start))

/-- A framing error: high at more than 3b/2 consecutive ticks in START or DATA (R115). -/
def State.framingReady (s : State) : Bool :=
  s.busNormal && (decide (s.pace.recv = .start) || decide (s.pace.recv = .data))
    && decide (3 * s.cfg.bitTime / 2 < s.pace.highRun)

/-- 2b consecutive high samples in SETTLING (R112). They count from the last low sample, also where that lies before
SETTLING was entered (DEDUCED: R112 holds one high-run count, and R115 counts a high run so; log entry 8). -/
def State.settledReady (s : State) : Bool :=
  s.busNormal && decide (s.pace.recv = .settling) && decide (2 * s.cfg.bitTime ≤ s.pace.highRun)

/-- The line has been low for more than 16b (R124). -/
def State.stuckReady (s : State) : Bool := s.busNormal && decide (16 * s.cfg.bitTime < s.pace.lowRun)

/-- The 8b-th consecutive high sample while STUCK (R125). -/
def State.restoredReady (s : State) : Bool :=
  s.live && decide (s.pace.bus = .stuck) && decide (8 * s.cfg.bitTime ≤ s.pace.highRun)

/-! ### The steps of the table -/

/-- NOTICE_DUE: the record becomes WAITING (R116). -/
def execNoticeDue (s : State) : Result :=
  if s.noticeDueReady then
    .next { s with pace := { s.pace with cur := s.pace.cur.map fun (r : Notice) => { r with st := .waiting, since := s.t } } }
  else .next s

/-- The notice the station forms at this tick (R103, R104, R110). -/
def State.formBits (s : State) : List Bool :=
  noticeBits s.cfg.stationId s.epochOffset (s.ownClaim .fixed) (s.ownClaim .flex) s.ownFlags

/-- NOTICE_START: the record goes on the line, forms its fields, and begins its start mark (R110, R112, R117). -/
def execNoticeStart (s : State) : Result :=
  if s.noticeStartReady then
    let p : Pace := { s.pace with
      cur := s.pace.cur.map fun (r : Notice) => { r with st := .onLine },
      attempt := some { s0 := s.t, bits := s.formBits, comparing := true } }
    .next { s with pace := p.pullNow s.cfg.bitTime s.t s.pins s.epochOffset }
  else .next s

/-- ARBITRATION_LOST: the sender stops and its record waits again; a superseded one is abandoned (R119, R122). -/
def execArbitrationLost (s : State) : Result :=
  if s.arbitrationReady then
    match s.pace.old with
    | some r =>
      .next (State.raise { s with pace := { s.pace with attempt := none, old := none } }
        .noticeSkipped s.cfg.stationId r.failed)
    | none => .next { s with pace := { s.pace with attempt := none, cur := s.pace.cur.map (Notice.lost s.t) } }
  else .next s

/-- NOTICE_BITERR: the sender releases the line and counts a failed attempt; the third gives the record up, and a
superseded record is abandoned at once (R120 to R122, R127). For a superseded attempt NOTICE_BITERR enters the queue
before NOTICE_SKIPPED (DESIGN CHOICE: R122 gives the two no order, and R127 only those of a third failure; log entry
15). -/
def execNoticeBiterr (s : State) : Result :=
  match s.pace.bitErrorNow s.cfg.bitTime s.t with
  | none => .next s
  | some j =>
    if s.busNormal then
      match s.pace.old with
      | some r =>
        .next (State.raiseAll { s with pace := { s.pace with attempt := none, old := none } }
          [⟨.noticeBiterr, s.cfg.stationId, j⟩, ⟨.noticeSkipped, s.cfg.stationId, r.failed + 1⟩])
      | none =>
        let cur := s.pace.cur.map (Notice.failedOnce s.cfg s.t)
        let gaveUp : List Raised :=
          match cur with
          | some r => if r.st = .givenUp then [⟨.noticeSkipped, s.cfg.stationId, r.failed⟩] else []
          | none => []
        .next (State.raiseAll { s with pace := { s.pace with attempt := none, cur := cur } }
          (⟨.noticeBiterr, s.cfg.stationId, j⟩ :: gaveUp))
    else .next s

/-- The attempt has succeeded: its record is SENT, or discarded where it was superseded (R118, R122). The line is
driven on to the end of bit 63. -/
def Pace.succeed (p : Pace) : Pace :=
  let p1 := { p with attempt := p.attempt.map fun (a : Attempt) => { a with comparing := false } }
  match p.old with
  | some _ => { p1 with old := none }
  | none => { p1 with cur := p.cur.map fun (r : Notice) => { r with st := .sent } }

/-- NOTICE_COMPLETE. The attempt's bit 63 matches: the attempt has succeeded and the receive side ends the notice,
neither judged nor handed over, wherever its own sampling stands (R114, R118). Otherwise the receive side has sampled
bit 63: it ends the notice, and judges it unless an attempt of this station is on the line, which has then neither lost
arbitration nor met a bit error (R114). -/
def execNoticeComplete (s : State) : Result :=
  if s.completeReady then
    if s.pace.succeedsNow s.cfg.bitTime s.t then .next { s with pace := s.pace.succeed.settle }
    else
      let s1 := { s with pace := s.pace.settle }
      if s.pace.attempt.isSome then .next s1
      else .next (s1.judgeNotice (s.pace.bits ++ [s.pace.level]) s.pace.recvOffset)
  else .next s

/-- NOTICE_FRAMING (R115). -/
def execNoticeFraming (s : State) : Result :=
  if s.framingReady then
    .next (State.raise { s with pace := s.pace.settle } .noticeFraming 0 s.pace.bits.length)
  else .next s

/-- RECEIVE_SETTLED (R112). -/
def execReceiveSettled (s : State) : Result :=
  if s.settledReady then .next { s with pace := { s.pace with recv := .idle } } else .next s

/-- BUS_STUCK: the line is released, records and reception are discarded, the latch is set (R124). -/
def execBusStuck (s : State) : Result :=
  if s.stuckReady then
    .next (State.raise
      { s with
        pace := { s.pace.settle with bus := .stuck, attempt := none, cur := none, old := none }
        link := { s.link with latches := { s.link.latches with busStuck := true } } } .busStuck 0 0)
  else .next s

/-- BUS_RESTORED (R125). -/
def execBusRestored (s : State) : Result :=
  if s.restoredReady then
    .next (State.raise { s with pace := { s.pace with bus := .normal, recv := .idle, fell := false } } .busRestored 0 0)
  else .next s

/-- START_MARK_EDGE: a falling edge in IDLE or START begins a start mark, or begins it anew (R112, R113). -/
def execStartMarkEdge (s : State) : Result :=
  if s.startMarkReady then .next { s with pace := s.pace.startMark s.t s.epochOffset } else .next s

/-- DATA_BIT_SAMPLED: one of bits 0 to 62 (R113). -/
def execDataBitSampled (s : State) : Result :=
  if s.dataBitReady then .next { s with pace := s.pace.storeBit s.t } else .next s

end Sys2Proof.Machine
end

