-- ==== Sys2Proof/Machine/TimingGrid.lean ====
section
/-! DEFINITION. The Timing Grid (Chapter 1): epochs, the reference qualifier, steps, slews and the lock machine. -/

namespace Sys2Proof.Machine

open Sys2Proof

/-! ### The accumulator -/

/-- The shortest nominal frame interval, floor(N / D) (1.2). -/
def PartCfg.qMin (p : PartCfg) : Nat := p.n / p.d

/-- The miss test at a frame epoch (R18): the grid after it, and whether it entered HOLDOVER. -/
def Grid.missTest (g : Grid) : Grid × Bool :=
  if g.lock = .locked then
    if g.pulse then ({ g with pulse := false }, false)
    else if g.miss < 3 then ({ g with miss := g.miss + 1 }, false)
    else ({ g with lock := .holdover, miss := 0, oow := 0 }, true)
  else (g, false)

/-- The grid's own accumulator work on a frame epoch (R5 steps 1 to 4). -/
def Grid.advance (p : PartCfg) (g : Grid) : Grid :=
  let q := (g.rem + p.n) / p.d
  { g with
    eTaken := g.eNext, eNext := after g.eNext q, rem := (g.rem + p.n) % p.d, k := g.k + 1,
    h := some (after g.eNext (q / 2)) }

/-! ### Deliveries -/

/-- A piece of work that one tick brings to a block, in no fixed order among the blocks (R6, R182). -/
inductive Delivery where
  /-- A stream epoch to a stream context. -/
  | stream (n : Stream)
  /-- The frame epoch to the Share Computer. -/
  | share
  /-- The frame epoch to the Pace Bus Interface. -/
  | pace
  /-- The raising of an event of the grid's own. -/
  | event (e : Raised)
  deriving DecidableEq, Repr

/-- Make one delivery of an epoch of time `e` (R6, R7). -/
def State.deliver (e : Time) (s : State) : Delivery → State
  | .stream n => s.streamEpoch n e
  | .share => s.shareEpoch
  | .pace => s.paceEpoch e
  | .event r => s.raise r.code r.subject r.detail

/-- Make deliveries in the order listed. -/
def State.deliverAll (e : Time) (s : State) (ds : List Delivery) : State := ds.foldl (State.deliver e) s

/-- The deliveries of a frame epoch (R6), with the events of the grid's own. -/
def frameDeliveries (events : List Raised) : List Delivery :=
  .share :: .pace :: (allStreams.map .stream ++ events.map .event)

/-- The event of entering HOLDOVER (R18). -/
def holdoverEvents (entered : Bool) : List Raised := if entered then [⟨.refHoldover, 0, 0⟩] else []

/-- The grid after taking a frame epoch, and whether it entered HOLDOVER (R5). -/
def Grid.takeEpoch (p : PartCfg) (g : Grid) : Grid × Bool := (g.advance p).missTest

/-- A frame epoch is taken: the grid's own work first, then the deliveries in an order the manual leaves open (R5,
R6). `events` are events the grid raises at the same tick. The choices of the order are used up before the deliveries
are made, so that a receiver's own choices (R107) are others. -/
def State.takeFrameEpoch (s : State) (events : List Raised) : State :=
  let r := s.grid.takeEpoch s.cfg
  let ds := frameDeliveries (holdoverEvents r.2 ++ events)
  State.deliverAll s.grid.eNext (State.chosen { s with grid := r.1 } ds.length) (s.order ds)

/-- The streams a field epoch is delivered to: the enabled ones of FIELD cadence (R7). -/
def State.fieldStreams (s : State) : List Stream :=
  allStreams.filter fun n =>
    match (s.ctx n).cfg with
    | some cfg => decide (cfg.cadence = .field)
    | none => false

/-- The field epoch of time `h` is taken (R7). -/
def State.takeFieldEpoch (s : State) (h : Time) : State :=
  let ds := s.fieldStreams.map Delivery.stream
  State.deliverAll h (State.chosen { s with grid := { s.grid with h := none } } ds.length) (s.order ds)

/-! ### Phase error, step and slew -/

/-- The desired epoch of a pulse (R10 step 1). -/
def desiredEpoch (p : PartCfg) (cr : Time) : Time := cr + BitVec.ofInt 48 p.roff

/-- The nearer of E_taken and E_next to a time, E_taken on a tie (R10 step 2). -/
def Grid.nearEpoch (g : Grid) (desired : Time) : Time :=
  if distance desired g.eTaken ≤ distance desired g.eNext then g.eTaken else g.eNext

/-- The phase error of a pulse (R10 step 3). -/
def Grid.phaseError (p : PartCfg) (cr : Time) (g : Grid) : Int :=
  let desired := desiredEpoch p cr
  (desired - g.nearEpoch desired).toInt

/-- The earliest E_next a slew or a step may leave: E_taken + floor(q_min / 2) (R11, R13). -/
def Grid.floorTime (p : PartCfg) (g : Grid) : Time := after g.eTaken (p.qMin / 2)

/-- Add q_min while the time has been reached or is earlier than the floor (R11 stage 2). -/
def stepLoop (now floor : Time) (q : Nat) : Nat → Time → Time
  | 0, e => e
  | fuel + 1, e => if reached now e || earlier e floor then stepLoop now floor q fuel (after e q) else e

/-- H after a step: cancelled where E_next lies at or before it (R12). -/
def cancelField (eNext : Time) (h : Option Time) : Option Time :=
  match h with
  | none => none
  | some t => if (eNext - t).toInt ≤ 0 then none else some t

/-- A step from capture time `cr` at tick `now` (R11, R12): the grid after it. -/
def Grid.step (p : PartCfg) (now cr : Time) (g : Grid) : Grid :=
  let e := stepLoop now (g.floorTime p) p.qMin (2 ^ 48) (desiredEpoch p cr)
  { g with eNext := e, rem := 0, h := cancelField e g.h, oow := 0 }

/-- The correction of a slew: the error clamped to the slew limit (R13 step 1). -/
def clampSlew (p : PartCfg) (e : Int) : Int := max (-(p.slewLimit : Int)) (min e p.slewLimit)

/-- E_next after a slew by error `e` (R13 steps 1 to 3). -/
def Grid.slewed (p : PartCfg) (e : Int) (g : Grid) : Time :=
  let e1 := g.eNext + BitVec.ofInt 48 (clampSlew p e)
  if earlier e1 (g.floorTime p) then g.floorTime p else e1

/-- A slew by error `e`; where it leaves E_next reached, the frame epoch is taken at this tick (R13). `events` are
events the grid raises at the same tick. -/
def State.slew (s : State) (e : Int) (events : List Raised) : State :=
  let s1 := { s with grid := { s.grid with eNext := s.grid.slewed s.cfg e } }
  if reached s.t s1.grid.eNext then s1.takeFrameEpoch events else s1.raiseAll events

/-! ### The lock machine -/

/-- The pulse's error is in window (R16). -/
def inWindow (p : PartCfg) (e : Int) : Bool := decide (e.natAbs ≤ p.wlock)

/-- The grid is LOCKED by a pulse: both counts 0 and the pulse flag set (R15, R16, R19). -/
def Grid.relock (g : Grid) : Grid := { g with lock := .locked, miss := 0, oow := 0, pulse := true }

/-- A step that also changes the lock state raises REF_STEP and REF_LOCK, in either order (R21). -/
def State.stepAndLock (s : State) (cr : Time) (cause lockDetail : Nat) : State :=
  let es : List Raised := [⟨.refStep, 0, cause⟩, ⟨.refLock, 0, lockDetail⟩]
  State.chosen (State.raiseAll { s with grid := (s.grid.step s.cfg s.t cr).relock } (s.order es)) es.length

/-- The lock machine acts on an accepted pulse of capture time `cr` (R15 to R17, R19). -/
def State.lockPulse (s : State) (cr : Time) : State :=
  let e := s.grid.phaseError s.cfg cr
  match s.grid.lock with
  | .free => s
  | .seek => s.stepAndLock cr 0 0
  | .locked =>
    if inWindow s.cfg e then State.slew { s with grid := s.grid.relock } e []
    else if s.grid.oow < 2 then
      { s with grid := { s.grid with miss := 0, pulse := true, oow := s.grid.oow + 1 } }
    else
      State.raise { s with grid := { s.grid.step s.cfg s.t cr with miss := 0, pulse := true } } .refStep 0 2
  | .holdover =>
    if inWindow s.cfg e then State.slew { s with grid := s.grid.relock } e [⟨.refLock, 0, 1⟩]
    else s.stepAndLock cr 1 1

/-! ### The reference qualifier -/

/-- REF is sampled at this tick: the grid is RUNNING, the mode is ON and it has not been sampled yet (R9). -/
def State.refReady (s : State) : Bool := s.live && s.grid.running && s.cfg.refOn && !s.grid.refTaken

/-- The fourth high sample: the pulse is accepted and handed to the lock machine with its Cr (R9). -/
def State.acceptPulse (s : State) : State :=
  State.lockPulse { s with grid := { s.grid with qual := .waitLow 0, refTaken := true } } s.grid.cr

/-- One sample of REF (R9). -/
def State.sampleRef (s : State) (high : Bool) : State :=
  let g := { s.grid with refTaken := true }
  match s.grid.qual, high with
  | .waitLow n, false => { s with grid := { g with qual := if n + 1 < 4 then .waitLow (n + 1) else .armed } }
  | .waitLow _, true => { s with grid := { g with qual := .waitLow 0 } }
  | .armed, false => { s with grid := g }
  | .armed, true => { s with grid := { g with qual := .rising 1, cr := s.t } }
  | .rising _, false => { s with grid := { g with qual := .waitLow 1 } }
  | .rising n, true => if n + 1 < 4 then { s with grid := { g with qual := .rising (n + 1) } } else s.acceptPulse

/-- The next high sample is the fourth (R9). -/
def Grid.pulseNext (g : Grid) : Bool :=
  match g.qual with
  | .rising n => decide (4 ≤ n + 1)
  | .waitLow _ => false
  | .armed => false

/-! ### Guards -/

/-- A frame epoch is to be taken (R5). -/
def State.frameReady (s : State) : Bool := s.live && s.grid.running && reached s.t s.grid.eNext

/-- The pending field epoch is to be taken (R7). -/
def State.fieldReady (s : State) : Bool :=
  s.live && s.grid.running && (match s.grid.h with
    | none => false
    | some h => reached s.t h)

/-! ### The steps of the table -/

/-- FRAME_EPOCH (R5, R6). -/
def execFrameEpoch (s : State) : Result := if s.frameReady then .next (s.takeFrameEpoch []) else .next s

/-- FIELD_EPOCH (R7). -/
def execFieldEpoch (s : State) : Result :=
  if s.fieldReady then
    match s.grid.h with
    | none => .next s
    | some h => .next (s.takeFieldEpoch h)
  else .next s

/-- REF_PULSE_ACCEPTED: the fourth consecutive high sample (R9, R15 to R19). -/
def execRefPulseAccepted (s : State) : Result :=
  if s.refReady && s.grid.pulseNext then .next s.acceptPulse else .next s

/-- REF_SAMPLED: one sample of REF (R9). A fourth high sample accepts the pulse, as the table of R9 has it. -/
def execRefSampled (high : Bool) (s : State) : Result := if s.refReady then .next (s.sampleRef high) else .next s

end Sys2Proof.Machine
end

