-- ==== Sys2Proof/Machine/FeedIntake.lean ====
section
/-! DEFINITION. Feed Intake (Chapter 7): offers, the intake arbiter, indexing, writes and withdrawals. -/

namespace Sys2Proof.Machine

open Sys2Proof

/-! ### Judging an offer (R133) -/

/-- The rows of the decision table (R133). -/
inductive Judgement where
  /-- Rows 1, 2, 6 and 7. -/
  | hold
  /-- Row 3 (R134). -/
  | unconfigured
  /-- Row 4 (R135). -/
  | discard
  /-- Row 5 (R136). -/
  | badLength
  /-- Row 8 (R140). -/
  | store
  deriving DecidableEq, Repr

/-- The blocks a packet of length `len` needs (R145). -/
def blocksFor (len : Nat) : Nat := ceilDiv len Config.blockBytes

/-- The judgement of an offer on a channel (R133). -/
def State.judge (s : State) (n : Stream) (o : Offer) : Judgement :=
  if s.loader.part ≠ .run then .hold
  else if s.store.exhausted then .hold
  else
    match (s.ctx n).cfg with
    | none => .unconfigured
    | some cfg =>
      if (s.ctx n).discard then .discard
      else if o.len < 16 ∨ 2048 < o.len then .badLength
      else if cfg.depth ≤ (s.ctx n).ring.length then .hold
      else if s.store.usableFree < blocksFor o.len then .hold
      else .store

/-- The channel's offer is PENDING and its judgement is no hold (R131); the write path is not looked at. -/
def State.answerable (s : State) (n : Stream) : Bool :=
  match (s.chan n).st, (s.chan n).pin with
  | .pending, some o => decide (s.judge n o ≠ .hold)
  | _, _ => false

/-- The channels in the arbiter's order from its pointer (R131). -/
def State.channelOrder (s : State) : List Stream := (List.finRange 16).map fun i => s.feed.ptr + i

/-- The channel a selection takes, if any offer is answerable (R131). -/
def State.selectChoice (s : State) : Option Stream := s.channelOrder.find? s.answerable

/-! ### Answers -/

/-- TAKE is asserted for a channel, which becomes EMPTY; its next assertion is no new offer until OFFER has been seen
deasserted (R129). -/
def State.answer (s : State) (n : Stream) : State :=
  let s1 := s.setChan n { s.chan n with st := .empty, armed := false }
  { s1 with feed := { s1.feed with take := setBit s1.feed.take n } }

/-- An offer with the index counter standing at `index` is cut as overlength (R139). -/
def overlength (index : Nat) (o : Offer) : Bool := decide (index = 32767) && !o.frameEnd

/-- The offer counts as FRAME_END (R138, R139). -/
def endsFrame (index : Nat) (o : Offer) : Bool := o.frameEnd || overlength index o

/-- Index an offer: the channel's counter moves on, and an overlength cut raises its event (R138, R139). -/
def State.indexOffer (s : State) (n : Stream) (o : Offer) : State :=
  let i := (s.chan n).index
  let s1 := s.setChan n { s.chan n with index := if endsFrame i o then 0 else i + 1 }
  if overlength i o then s1.raise .feedOverlength n.val o.len else s1

/-- Row 3: taken and discarded; the first such offer of the channel is reported (R134). -/
def State.takeUnconfigured (s : State) (n : Stream) (o : Offer) : State :=
  let s1 := s.answer n
  if (s.chan n).reported then s1
  else (s1.setChan n { s1.chan n with reported := true }).raise .feedUnconfigured n.val o.len

/-- Row 4: indexed, discarded and counted trimmed; a FRAME_END clears the discard-to-end flag (R135, R36). -/
def State.takeDiscard (s : State) (n : Stream) (o : Offer) : State :=
  let i := (s.chan n).index
  let s1 := (s.indexOffer n o).answer n
  let c := s1.ctx n
  s1.setCtx n { c with
    counts := { c.counts with trimmed := c.counts.trimmed + 1 },
    discard := if endsFrame i o then false else c.discard }

/-- Row 5: taken and discarded unindexed, with FEED_LENGTH (R136). -/
def State.takeBadLength (s : State) (n : Stream) (o : Offer) : State := (s.answer n).raise .feedLength n.val o.len

/-- Row 8: the chain is allocated, the offer indexed, the write record filled, and the write path and the channel
become WRITING (R140). -/
def State.storeOffer (s : State) (n : Stream) (o : Offer) : State :=
  match s.store.allocate (blocksFor o.len) with
  | none => s
  | some (first, st) =>
    let i := (s.chan n).index
    let s1 := State.indexOffer { s with store := st } n o
    let s2 := s1.setChan n { s1.chan n with st := .writing }
    { s2 with feed := { s2.feed with
        write := some
          { channel := n, stream := n, index := i, frameEnd := endsFrame i o, len := o.len, first := first,
            start := s.t, read := 0 } } }

/-- Carry out a judgement (R133). -/
def State.carryOut (s : State) (n : Stream) (o : Offer) : Judgement → State
  | .hold => s
  | .unconfigured => s.takeUnconfigured n o
  | .discard => s.takeDiscard n o
  | .badLength => s.takeBadLength n o
  | .store => s.storeOffer n o

/-- A selection of channel `n`: the pointer moves past it and the offer's outcome is carried out (R131). -/
def State.select (s : State) (n : Stream) : State :=
  match (s.chan n).pin with
  | none => s
  | some o => State.carryOut { s with feed := { s.feed with ptr := n + 1 } } n o (s.judge n o)

/-! ### The end of a write -/

/-- The packet record of a write record, arriving at T (R24, R141). -/
def WriteRec.record (w : WriteRec) (now : Time) : Record :=
  { index := w.index, frameEnd := w.frameEnd, len := w.len, first := w.first, arrival := now }

/-- The write record is emptied and the write path is FREE. -/
def State.freePath (s : State) : State := { s with feed := { s.feed with write := none } }

/-- The completion of a write (R141). -/
def State.completeWrite (s : State) (w : WriteRec) : State :=
  let c := s.ctx w.stream
  let s1 :=
    if c.discard then
      State.setCtx { s with store := s.store.freeChain w.first } w.stream
        { c with
          counts := { c.counts with trimmed := c.counts.trimmed + 1 },
          discard := if w.frameEnd then false else true }
    else s.setCtx w.stream (c.arrive (w.record s.t))
  (s1.answer w.channel).freePath

/-- OFFER withdrawn during the write `w` of channel `n` (R142). The bytes read so far take in those of the withdrawal's
own tick (DESIGN CHOICE, log entry 16). -/
def State.withdraw (s : State) (n : Stream) (w : WriteRec) : State :=
  let s1 := { s with store := s.store.freeChain w.first }
  let s2 := s1.setChan n { s1.chan n with pin := none, st := .empty, armed := true, index := w.index }
  s2.freePath.raise .feedWithdrawn w.stream.val w.read

/-- OFFER of a channel is seen deasserted (R129, R142): a PENDING offer is gone with nothing changed, a write in
progress is withdrawn, and the channel's next assertion is a new offer. While COLD is asserted only the line
changes. -/
def State.offerFalls (s : State) (n : Stream) : State :=
  if s.live then
    match (s.chan n).st, s.feed.write with
    | .writing, some w => if w.channel = n then s.withdraw n w else s
    | .writing, none => s
    | .pending, _ => s.setChan n { s.chan n with pin := none, st := .empty, armed := true }
    | .empty, _ => s.setChan n { s.chan n with pin := none, armed := true }
  else s.setChan n { s.chan n with pin := none }

/-! ### The write's bytes -/

/-- The bytes a write reads from DATA at one tick: at most 16, from position `x` on (R140). Positions at which the
packetizer drives no byte give free values. -/
def dataAt (fresh : Nat) (o : Option Offer) (x n : Nat) : List Byte :=
  (List.range n).map fun i =>
    match o with
    | some o => (o.data[x + i]?).getD (Config.undrivenData fresh (x + i))
    | none => Config.undrivenData fresh (x + i)

/-- One tick of the write in progress: 16 more bytes go into the chain (R140). -/
def State.writeTick (s : State) : Option State :=
  match s.feed.write with
  | none => some s
  | some w =>
    let n := min 16 (w.len - w.read)
    match s.store.writeBytes (s.store.chain w.first) w.read (dataAt s.fresh (s.chan w.channel).pin w.read n) with
    | none => none
    | some st => some { s with store := st, feed := { s.feed with write := some { w with read := w.read + n } } }

/-! ### Guards -/

/-- A selection is to be made: the write path is FREE and an offer is answerable (R131). -/
def State.selectReady (s : State) : Bool := s.live && s.feed.write.isNone && s.selectChoice.isSome

/-- The write has read all its bytes (R140, R141). -/
def State.writeDone (s : State) : Bool :=
  s.live && (match s.feed.write with
    | none => false
    | some w => decide (w.len ≤ w.read))

/-- OFFER is asserted on an EMPTY channel and makes a new offer (R129). -/
def Channel.offers (c : Channel) : Bool := decide (c.st = .empty) && c.armed && c.pin.isSome

/-! ### The steps of the table -/

/-- OFFER_PRESENTED: OFFER asserted on an EMPTY channel, after being seen deasserted, makes the offer PENDING (R129).
While COLD is asserted only the lines change; an offer still held is not changed. -/
def execOfferPresented (n : Stream) (length : BitVec 16) (frameEnd : Bool) (data : List Byte) (s : State) : Result :=
  let o : Offer := { len := length.toNat, frameEnd := frameEnd, data := data }
  let c := s.chan n
  if s.live then
    if c.st = .empty ∧ c.armed then .next (s.setChan n { c with pin := some o, st := .pending, armed := false })
    else .next s
  else .next (s.setChan n { c with pin := some o })

/-- OFFER_DEASSERTED (R129). -/
def execOfferDeasserted (n : Stream) (s : State) : Result := .next (s.offerFalls n)

/-- FEED_WITHDRAWN (R142). -/
def execFeedWithdrawn (n : Stream) (s : State) : Result := .next (s.offerFalls n)

/-- INTAKE_SELECTION (R131). -/
def execIntakeSelection (s : State) : Result :=
  if s.selectReady then
    match s.selectChoice with
    | none => .next s
    | some n => .next (s.select n)
  else .next s

/-- WRITE_COMPLETE (R141). -/
def execWriteComplete (s : State) : Result :=
  if s.writeDone then
    match s.feed.write with
    | none => .next s
    | some w => .next (s.completeWrite w)
  else .next s

end Sys2Proof.Machine
end

