-- ==== Sys2Proof/Machine/StartUp.lean ====
section
/-! DEFINITION. Cold start, the Start-up Loader and the judging of the image (Chapter 9), and power. -/

namespace Sys2Proof.Machine

open Sys2Proof

/-! ### Cold start (R158) -/

/-- The receive side of MRX at cold start: a character being received is not handed on (R158), and its framing is
kept so that no later edge of it is taken for a start bit. -/
def Rx.coldStart (r : Rx) : Rx :=
  { was := r.was, busy := r.busy.map fun (b : RxBusy) => { b with drop := true }, ready := none }

/-- The feed channels at cold start: the offers the packetizer still holds are on the lines (R142). -/
def Feed.coldStart (f : Feed) : Feed :=
  { Feed.cold with chans := allStreams.foldl (fun v n => v.set n.val (.cold (f.chans[n.val]).pin)) Feed.cold.chans }

/-- Every block at its cold-start values with COLD asserted; a packet in emission is abandoned to the MAC (R80, R158).
The input lines stay as the outside holds them. Where the slot was emptied by a stall or a parity error at this very
tick, the ABANDON then asserted ends with the assertion of COLD (DESIGN CHOICE: R76 asserts it for the one tick, R80 has
the egress outputs at rest under COLD, and neither puts one above the other; log entry 18). -/
def State.coldStart (s : State) : State :=
  { s with
    t := 0, powered := true, cold := true, cfg := .cold, grid := .cold, ctxs := Vector.replicate 16 .cold,
    egress := { Egress.cold with abandon := s.egress.slot.isSome }, share := .cold, pace := .cold,
    feed := s.feed.coldStart, store := .cold, loader := .cold, link := { Link.cold with rx := s.link.rx.coldStart } }

/-! ### The walk (R160) -/

/-- The loader's image faults end loading: the part is HALTED and nothing of the image is written (R171). -/
def State.reject (s : State) (f : ImageFault) (pos : Nat) : State :=
  { s with loader := { s.loader with part := .halted, fault := some (f, pos), stall := none } }

/-- The loader stores an image byte at tick `now` and advances the walk (R160, R162). -/
def Loader.store (now : Time) (b : Byte) (l : Loader) : Loader :=
  let l1 := { l with image := l.image ++ [b], stall := some now }
  match l.walk with
  | .type => { l1 with recStart := l.image.length, isEnd := decide (b = 0x0F#8), walk := .length }
  | .length => { l1 with bodyLeft := b.toNat, walk := if b.toNat = 0 then .type else .body }
  | .body => { l1 with bodyLeft := l.bodyLeft - 1, walk := if l.bodyLeft ≤ 1 then .type else .body }

/-- An END record has just become complete (R161). -/
def Loader.endComplete (l : Loader) : Bool := l.isEnd && decide (l.walk = .type)

/-- The 4,096th byte has been stored (R161). -/
def Loader.areaFull (l : Loader) : Bool := decide (Config.imageArea ≤ l.image.length)

/-! ### The four stages (R166 to R169) -/

/-- One record of the image: the offset of its type byte, its type, its length byte and its body. -/
structure ImageRecord where
  offset : Nat
  type : Nat
  length : Nat
  body : List Byte
  deriving DecidableEq, Repr

/-- What stage 1 finds: a fault with its position, or the records before END (R166). -/
inductive WalkResult where
  | fault (f : ImageFault) (pos : Nat)
  | records (rs : List ImageRecord)
  deriving DecidableEq, Repr

/-- A record is put before the records a walk finds after it. -/
def WalkResult.cons (r : ImageRecord) : WalkResult → WalkResult
  | .fault f pos => .fault f pos
  | .records rs => .records (r :: rs)

/-- Stage 1: walk the records from an offset, `rest` being the bytes from there on (R166). -/
def walkImage : Nat → Nat → List Byte → WalkResult
  | 0, off, _ => .fault .noEnd off
  | _ + 1, off, [] => .fault .noEnd off
  | fuel + 1, off, ty :: rest =>
    if ty = 0x00#8 ∨ ty = 0xFF#8 then .fault .blank off
    else if ¬(ty = 0x01#8 ∨ ty = 0x02#8 ∨ ty = 0x0F#8) then .fault .unknown off
    else
      match rest with
      | [] => .fault .truncated off
      | len :: body =>
        if body.length < len.toNat then .fault .truncated off
        else if ty = 0x0F#8 then .records []
        else
          (walkImage fuel (off + 2 + len.toNat) (body.drop len.toNat)).cons
            { offset := off, type := ty.toNat, length := len.toNat, body := body.take len.toNat }

/-- The sum of the bytes before the END record, mod 65,536 (R165). -/
def imageSum (bs : List Byte) : Nat := (bs.map (·.toNat)).sum % 65536

/-- Stage 2: the END record at `off` has length 2 and carries the sum (R165, R167). -/
def sumGood (image : List Byte) (off : Nat) : Bool :=
  decide ((image.getD (off + 1) 0).toNat = 2 ∧ field image (off + 2) 2 = imageSum (image.take off))

/-- The PART records. -/
def partRecords (rs : List ImageRecord) : List ImageRecord := rs.filter fun r => decide (r.type = 1)

/-- The STREAM records, in image order. -/
def streamRecords (rs : List ImageRecord) : List ImageRecord := rs.filter fun r => decide (r.type = 2)

/-- The stream number a STREAM record's bytes hold (R168). -/
def streamNumber (r : ImageRecord) : Nat := (r.body.getD 0 0).toNat

/-- The offset of the first STREAM record whose number an earlier one has (R168). -/
def firstDuplicate (seen : List Nat) : List ImageRecord → Option Nat
  | [] => none
  | r :: rs =>
    if 0 < r.length ∧ streamNumber r ∈ seen then some r.offset
    else firstDuplicate (if 0 < r.length then streamNumber r :: seen else seen) rs

/-- Stage 3: one PART record, and no stream number twice (R168). -/
def countFault (endOff : Nat) (rs : List ImageRecord) : Option (ImageFault × Nat) :=
  match partRecords rs with
  | [] => some (.part, endOff)
  | _ :: p :: _ => some (.part, p.offset)
  | [_] => (firstDuplicate [] (streamRecords rs)).map fun off => (.duplicate, off)

/-- The PART record's fields (R163, 11.3). -/
def readPart (b : List Byte) : PartCfg :=
  { stationId := field b 0 1, bitTime := field b 1 2, noticeDelay := field b 3 4, budget := field b 7 2,
    n := field b 9 4, d := field b 13 2, refOn := decide (field b 15 1 = 1), roff := signed32 (field b 16 4),
    wlock := field b 20 2, slewLimit := field b 22 1, mn := field b 23 2, md := field b 25 3, tlate := field b 28 2,
    stallLimit := field b 30 4 }

/-- Every field of the PART record is in range (R163, R169). -/
def partInRange (b : List Byte) : Bool :=
  let p := readPart b
  decide (p.stationId ≤ 15) && decide (64 ≤ p.bitTime ∧ p.bitTime ≤ 1024 ∧ p.bitTime % 4 = 0)
    && decide (1 ≤ p.budget) && decide (1 ≤ p.n) && decide (1 ≤ p.d)
    && decide (200000 ≤ p.qMin ∧ p.qMin ≤ 50000000) && decide (p.noticeDelay ≤ p.qMin / 2)
    && decide (field b 15 1 ≤ 1) && decide (p.roff.natAbs ≤ p.qMin - 1) && decide (1 ≤ p.wlock)
    && decide (p.slewLimit ≤ min 255 p.wlock) && decide (1 ≤ p.mn) && decide (1 ≤ p.md)
    && decide (1000 ≤ p.stallLimit ∧ p.stallLimit ≤ 1000000)

/-- An offset field: 65,535 is NONE (R164). -/
def readOffset (v : Nat) : Option Nat := if v = 65535 then none else some v

/-- A STREAM record's fields with the values derived from q_min (R22, R42, R164, 11.3). -/
def readStream (qMin : Nat) (b : List Byte) : StreamCfg :=
  let cadence : Cadence := if field b 2 1 = 0 then .frame else .field
  let imin := match cadence with
    | .frame => qMin
    | .field => qMin / 2
  let c := field b 3 2
  let o := field b 5 4
  let w := field b 9 4
  let size := field b 13 2
  { cls := if field b 1 1 = 0 then .fixed else .flex, cadence := cadence, c := c, o := o, w := w, size := size,
    depth := field b 15 2, policy := if field b 17 1 = 0 then .trim else .finish,
    stampOffset := readOffset (field b 18 2), seqOffset := readOffset (field b 20 2), idleLimit := field b 22 1,
    imin := imin, wCap := imin - o, claim := sat16 (ceilDiv (c * size * 1000) w) }

/-- Every field of a STREAM record is in range (R164, R169). -/
def streamInRange (qMin : Nat) (b : List Byte) : Bool :=
  let r := readStream qMin b
  decide (field b 0 1 ≤ 15) && decide (field b 1 1 ≤ 1) && decide (field b 2 1 ≤ 1)
    && decide (1 ≤ r.c ∧ r.c ≤ 16383) && decide (r.o < r.imin) && decide (1 ≤ r.w ∧ r.w ≤ r.wCap)
    && decide (64 ≤ r.size ∧ r.size ≤ 2048) && decide (2 ≤ r.depth ∧ r.depth ≤ 512) && decide (field b 17 1 ≤ 1)
    && decide (field b 18 2 ≤ 2044 ∨ field b 18 2 = 65535) && decide (field b 20 2 ≤ 2046 ∨ field b 20 2 = 65535)
    && decide (1 ≤ r.idleLimit)

/-- The offset of the STREAM record whose Q takes the running sum past 2,048 (R169). -/
def depthExcess (sum : Nat) : List ImageRecord → Option Nat
  | [] => none
  | r :: rs => if 2048 < sum + field r.body 15 2 then some r.offset else depthExcess (sum + field r.body 15 2) rs

/-- Stage 4: lengths and ranges, the PART record first, then each STREAM record, the sum of Q last (R169). -/
def rangeFault (part : ImageRecord) (rs : List ImageRecord) : Option Nat :=
  if ¬(part.length = 34 ∧ partInRange part.body = true) then some part.offset
  else
    let q := (readPart part.body).qMin
    match (streamRecords rs).find? fun r => !(decide (r.length = 23) && streamInRange q r.body) with
    | some r => some r.offset
    | none => depthExcess 0 (streamRecords rs)

/-- What the judging of an image answers: a fault with its position, or the PART record and all records. -/
inductive Verdict where
  | rejected (f : ImageFault) (pos : Nat)
  | accepted (part : ImageRecord) (rs : List ImageRecord)
  deriving DecidableEq, Repr

/-- The judging of an image in its four stages; `endOff` is the record start the loader holds (R166 to R169). -/
def judgeImage (image : List Byte) (endOff : Nat) : Verdict :=
  match walkImage (Config.imageArea + 1) 0 image with
  | .fault f pos => .rejected f pos
  | .records rs =>
    if sumGood image endOff then
      match countFault endOff rs with
      | some (f, pos) => .rejected f pos
      | none =>
        match partRecords rs with
        | [] => .rejected .part endOff
        | part :: _ =>
          match rangeFault part rs with
          | some pos => .rejected .range pos
          | none => .accepted part rs
    else .rejected .sum endOff

/-! ### RUN entry (R170) -/

/-- An enabled context at RUN entry: QUIET with an empty ring and W_eff equal to W (R23, R26). -/
def Context.enable (cfg : StreamCfg) (c : Context) : Context :=
  { c with cfg := some cfg, st := .quiet, ring := [], wEff := cfg.w }

/-- A STREAM record enables its context (R164, R170). -/
def State.enableStream (qMin : Nat) (s : State) (r : ImageRecord) : State :=
  let n : Stream := Fin.ofNat 16 (streamNumber r)
  s.setCtx n ((s.ctx n).enable (readStream qMin r.body))

/-- The Timing Grid at RUN entry at tick `now` (R4, R14). -/
def Grid.enterRun (p : PartCfg) (now : Time) (g : Grid) : Grid :=
  { g with
    running := true, k := 0, eTaken := now, eNext := after now p.qMin, rem := p.n % p.d, h := none,
    qual := .waitLow 0, lock := if p.refOn then .seek else .free }

/-- RUN entry: the configured values are written and every block makes its own move (R170). -/
def State.enterRun (s : State) (part : ImageRecord) (rs : List ImageRecord) : State :=
  let p := readPart part.body
  let s1 := { s with
    loader := { s.loader with part := .run, stall := none }
    cfg := p
    grid := s.grid.enterRun p s.t
    egress := { s.egress with linkUp := s.pins.linkUp }
    pace := { s.pace with bus := .normal, recv := .settling, cur := none, old := none, lowRun := 0 } }
  (streamRecords rs).foldl (State.enableStream p.qMin) s1

/-- Loading ends and the image is judged at once (R161, R170, R171). -/
def State.endLoading (s : State) : State :=
  match judgeImage s.loader.image s.loader.recStart with
  | .rejected f pos => s.reject f pos
  | .accepted part rs => s.enterRun part rs

/-- An image byte is received in LOAD (R160, R161). -/
def State.imageByte (s : State) (b : Byte) : State :=
  let s1 := { s with loader := s.loader.store s.t b }
  if s1.loader.endComplete || s1.loader.areaFull then s1.endLoading else s1

/-! ### Guards -/

/-- The stall timer has expired (R162). -/
def State.stallExpired (s : State) : Bool :=
  s.live && decide (s.loader.part = .load) && (match s.loader.stall with
    | none => false
    | some t => reached s.t (after t Config.imageStallTicks))

/-! ### The steps of the table -/

/-- COLD_ASSERT (R158). While COLD is already asserted nothing changes. -/
def execColdAssert (s : State) : Result := if s.live then .next s.coldStart else .next s

/-- POWER_UP: acts as an assertion of COLD (R158). -/
def execPowerUp (s : State) : Result := .next s.coldStart

/-- COLD_RELEASE: the part is in LOAD and T begins to count (R158). -/
def execColdRelease (s : State) : Result := .next { s with cold := if s.powered then false else s.cold }

/-- IMAGE_STALLED (R162, R171). -/
def execImageStalled (s : State) : Result :=
  if s.stallExpired then .next (s.reject .stalled s.loader.image.length) else .next s

/-- POWER_REMOVED: the port abandons the packet in emission and withdraws OFFER, and the part takes no more events
(R80). An ABANDON asserted at this very tick for a packet already abandoned ends (DESIGN CHOICE: R80 says `the same` of
the removal of power, and R76 is silent; log entry 18). -/
def execPowerRemoved (s : State) : Result :=
  if s.powered then
    .next { s with
      powered := false
      egress := { s.egress with
        slot := none, offer := false, abandon := s.egress.slot.isSome, emptied := true }
      feed := { s.feed with take := 0 } }
  else .next s

end Sys2Proof.Machine
end

