-- ==== Sys2Proof/Machine/Maintenance.lean ====
section
/-! DEFINITION. The Maintenance Link (Chapter 10) with its response layouts (Chapter 11). -/

namespace Sys2Proof.Machine

open Sys2Proof

/-! ### Encodings (R186 to R188) -/

/-- The code byte of an event (R182). -/
def EventCode.byte : EventCode → Nat
  | .refLock => 0x01
  | .refHoldover => 0x02
  | .refStep => 0x03
  | .overrunFinish => 0x10
  | .overrunTrim => 0x11
  | .egressStall => 0x20
  | .linkDown => 0x21
  | .linkUp => 0x22
  | .peerNew => 0x30
  | .peerLost => 0x31
  | .peerMisaligned => 0x32
  | .idClash => 0x33
  | .overcommitOn => 0x34
  | .overcommitOff => 0x35
  | .noticeBiterr => 0x40
  | .noticeSkipped => 0x41
  | .noticeCheck => 0x42
  | .noticeFraming => 0x43
  | .busStuck => 0x44
  | .busRestored => 0x45
  | .feedUnconfigured => 0x50
  | .feedLength => 0x51
  | .feedOverlength => 0x53
  | .feedWithdrawn => 0x54
  | .parityError => 0x60
  | .bankRetired => 0x61
  | .storeExhausted => 0x62

/-- The image fault byte (R186). -/
def ImageFault.byte : ImageFault → Nat
  | .stalled => 1
  | .blank => 2
  | .unknown => 3
  | .truncated => 4
  | .noEnd => 5
  | .sum => 6
  | .part => 7
  | .duplicate => 8
  | .range => 9

/-- The lock state byte (R186). -/
def Lock.byte : Lock → Nat
  | .free => 0
  | .seek => 1
  | .locked => 2
  | .holdover => 3

/-- The bus state byte (R186). -/
def BusState.byte : BusState → Nat
  | .off => 0
  | .normal => 1
  | .stuck => 2

/-- The part state byte (R186). No response is sent in LOAD (R172). -/
def PartState.byte : PartState → Nat
  | .load => 0
  | .run => 1
  | .halted => 2

/-- The stream state byte (R188). -/
def StreamState.byte : StreamState → Nat
  | .disabled => 0
  | .quiet => 1
  | .primed => 2
  | .sending => 3
  | .starved => 4
  | .drained => 5

/-- The fault byte (R186). -/
def State.faultByte (s : State) : Nat :=
  let l := s.link.latches
  bitOf s.store.parityIndication + 2 * bitOf l.bankRetired + 4 * bitOf l.storeExhausted + 8 * bitOf l.busStuck
    + 16 * bitOf l.idClash + 32 * bitOf l.egressStall

/-- The image fault byte and position (R186). -/
def State.faultFields (s : State) : List Byte :=
  match s.loader.fault with
  | none => beBytes 1 0 ++ beBytes 2 0
  | some (f, pos) => beBytes 1 f.byte ++ beBytes 2 pos

/-- The STATUS body (R178, R186). -/
def State.statusBody (s : State) : List Byte :=
  beBytes 1 s.loader.part.byte ++ s.faultFields ++ beBytes 1 s.grid.lock.byte ++ beBytes 1 s.pace.bus.byte
    ++ beBytes 2 s.share.k ++ beBytes 1 s.faultByte
    ++ beBytes 1 (bitOf s.share.overcommit + 2 * bitOf s.link.overflow)
    ++ beBytes 2 s.store.usableFree ++ beBytes 1 s.link.queue.length

/-- One ring record (R188). -/
def Record.bytes (r : Record) : List Byte :=
  beBytes 2 (32768 * bitOf r.frameEnd + r.index) ++ beBytes 2 r.len ++ beBytes 2 r.first.toNat
    ++ beBytes 6 r.arrival.toNat

/-- The eight counters (R188). -/
def Counters.bytes (c : Counters) : List Byte :=
  beBytes 4 c.released.toNat ++ beBytes 4 c.late.toNat ++ beBytes 4 c.trimmed.toNat
    ++ beBytes 4 c.starvedFrames.toNat ++ beBytes 4 c.collisions.toNat ++ beBytes 4 c.unstamped.toNat
    ++ beBytes 4 c.dropped.toNat ++ beBytes 4 c.abandoned.toNat

/-- The context block and the ring records of a stream (R188). -/
def Context.bytes (n : Stream) (c : Context) : List Byte :=
  beBytes 1 n.val ++ beBytes 1 c.st.byte
    ++ beBytes 1 (bitOf c.owing + 2 * bitOf c.discard + 8 * bitOf c.starveCounted + 16 * bitOf c.capped)
    ++ beBytes 1 c.idle ++ beBytes 6 c.base.toNat ++ beBytes 2 c.iNext ++ beBytes 6 c.tNext.toNat
    ++ beBytes 2 c.ks ++ beBytes 2 c.ka ++ beBytes 4 c.wEff ++ beBytes 6 c.owed.toNat ++ beBytes 2 c.seq.toNat
    ++ c.counts.bytes ++ beBytes 2 c.ring.length ++ c.ring.flatMap Record.bytes

/-- A peer entry (R188). -/
def Peer.bytes (p : Peer) : List Byte :=
  beBytes 1 p.id ++ beBytes 2 p.f ++ beBytes 2 p.x
    ++ beBytes 1 (8 * bitOf p.flags.locked + 4 * bitOf p.flags.overcommit + 2 * bitOf p.flags.capped
        + bitOf p.flags.alert)
    ++ beBytes 2 p.offset
    ++ beBytes 1 (bitOf p.misaligned + 2 * bitOf p.heard + 4 * bitOf (decide (p.st = .held)))
    ++ beBytes 1 p.missed

/-- The store's six bytes (R188). -/
def Store.dumpBytes (st : Store) : List Byte :=
  beBytes 1 (bitOf st.banks[0].integrity + 2 * bitOf st.banks[1].integrity + 4 * bitOf st.banks[2].integrity
      + 8 * bitOf st.banks[3].integrity)
    ++ beBytes 1 st.banks[0].errors ++ beBytes 1 st.banks[1].errors ++ beBytes 1 st.banks[2].errors
    ++ beBytes 1 st.banks[3].errors
    ++ beBytes 1 (bitOf st.banks[0].retired + 2 * bitOf st.banks[1].retired + 4 * bitOf st.banks[2].retired
      + 8 * bitOf st.banks[3].retired)

/-- The DUMP body (R179, R188). -/
def State.dumpBody (s : State) : List Byte :=
  (allStreams.flatMap fun n => (s.ctx n).bytes n)
    ++ beBytes 2 s.egress.collision.toNat ++ beBytes 2 s.egress.late.toNat ++ beBytes 2 s.egress.starve.toNat
    ++ beBytes 2 s.egress.trim.toNat
    ++ beBytes 1 s.share.peers.length ++ s.share.peers.flatMap Peer.bytes
    ++ s.store.dumpBytes

/-- An entry of an EVENTS body (R187). -/
def Event.bytes (e : Event) : List Byte :=
  beBytes 1 e.code.byte ++ beBytes 6 e.time.toNat ++ beBytes 1 e.subject.toNat ++ beBytes 2 e.detail.toNat

/-- The EVENTS body (R187). -/
def eventsBody (overflow : Bool) (es : List Event) : List Byte :=
  beBytes 1 (bitOf overflow) ++ beBytes 1 es.length ++ es.flatMap Event.bytes

/-- A response: code plus 0x80, status, body length, body (R177, R185). -/
def responseBytes (code : Byte) (status : Nat) (body : List Byte) : List Byte :=
  (code + 0x80#8) :: (beBytes 1 status ++ beBytes 2 body.length ++ body)

/-! ### Judging and answering (R177) -/

/-- The responder becomes SENDING with a response (R177). -/
def State.respond (s : State) (code : Byte) (status : Nat) (body : List Byte) : State :=
  { s with link := { s.link with responder := some { bytes := responseBytes code status body, start := s.t } } }

/-- The work of EVENTS: the flag recorded, the oldest entries removed, the flag cleared (R180). -/
def State.serveEvents (s : State) (code : Byte) (n : Nat) : State :=
  State.respond { s with link := { s.link with queue := s.link.queue.drop n, overflow := false } } code 0
    (eventsBody s.link.overflow (s.link.queue.take n))

/-- The clears a mask selects (R181, R185). -/
def State.applyClear (s : State) (mask : Nat) : State :=
  let m : BitVec 16 := BitVec.ofNat 16 mask
  let st := (List.finRange 4).foldl (fun st j => if m.getLsbD (4 + j.val) then Store.clearIntegrity st j else st) s.store
  let l := s.link.latches
  { s with
    egress := { s.egress with
      collision := if m.getLsbD 0 then 0 else s.egress.collision,
      late := if m.getLsbD 1 then 0 else s.egress.late,
      starve := if m.getLsbD 2 then 0 else s.egress.starve,
      trim := if m.getLsbD 3 then 0 else s.egress.trim }
    store := st
    link := { s.link with latches := { l with
      egressStall := l.egressStall && !m.getLsbD 8,
      busStuck := l.busStuck && !m.getLsbD 9,
      idClash := l.idClash && !m.getLsbD 10 } } }

/-- The work of CLEAR (R181). -/
def State.serveClear (s : State) (code : Byte) (mask : Nat) : State :=
  let s1 := s.applyClear mask
  s1.respond code 0 (beBytes 2 s1.latchWord)

/-- A completed request is judged and answered (R177). -/
def State.judgeRequest (s : State) (code : Byte) (ops : List Byte) : State :=
  if s.loader.part = .halted ∧ code ≠ 0x01#8 then s.respond code 2 []
  else if code = 0x01#8 then
    if ops.length = 0 then s.respond code 0 s.statusBody else s.respond code 3 []
  else if code = 0x02#8 then
    if ops.length = 0 then s.respond code 0 s.dumpBody else s.respond code 3 []
  else if code = 0x03#8 then
    if ops.length = 1 ∧ 1 ≤ beValue ops ∧ beValue ops ≤ 32 then s.serveEvents code (beValue ops)
    else s.respond code 3 []
  else if code = 0x04#8 then
    if ops.length = 2 then s.serveClear code (beValue ops) else s.respond code 3 []
  else s.respond code 1 []

/-! ### The parser (R174 to R176) -/

/-- What the parser becomes on taking a byte, and the request the byte completes (R174). -/
def Parser.take (b : Byte) : Parser → Parser × Option (Byte × List Byte)
  | .awaitCode => (.awaitLength b, none)
  | .awaitLength code => if b.toNat = 0 then (.awaitCode, some (code, [])) else (.operands code b.toNat [], none)
  | .operands code left taken =>
    if left ≤ 1 then (.awaitCode, some (code, taken ++ [b])) else (.operands code (left - 1) (taken ++ [b]), none)
  | .discard => (.discard, none)

/-- The code byte of the request being assembled (R175). -/
def Parser.assembling : Parser → Option Byte
  | .awaitCode => none
  | .awaitLength code => some code
  | .operands code _ _ => some code
  | .discard => none

/-- 125,000 ticks have passed since the last byte or line error on MRX (R175, R176). -/
def State.silent (s : State) : Bool :=
  match s.link.silence with
  | none => true
  | some t => reached s.t (after t Config.silenceTicks)

/-- The parser acts on a gap: a GARBLED answer, the buffer emptied, and DISCARD, which ends at once where the silence
has already passed (R175). -/
def State.actOnGap (s : State) : State :=
  let code := (s.link.parser.assembling).getD 0
  State.respond
    { s with link := { s.link with
        buffer := [], gap := false, parser := if s.silent then .awaitCode else .discard } } code 3 []

/-- The bytes the parser takes from the buffer while the responder is IDLE (R174, R175): what is left of the buffer,
the parser, whether a gap stands at the head, and the request completed. It stops at a gap, at the byte that
completes a request, and at the buffer's end. -/
def drain (gap : Bool) (p : Parser) : List (Byte × Bool) → List (Byte × Bool) × Parser × Bool × Option (Byte × List Byte)
  | [] => ([], p, gap, none)
  | (b, mark) :: rest =>
    if gap then ((b, mark) :: rest, p, true, none)
    else
      match p.take b with
      | (p1, some req) => (rest, p1, mark, some req)
      | (p1, none) => drain mark p1 rest

/-- The responder is IDLE: the parser takes buffered bytes, serves the request one of them completes, or acts on the
gap it meets (R174, R175). -/
def State.parserRuns (s : State) : State :=
  let r := drain s.link.gap s.link.parser s.link.buffer
  let s1 := { s with link := { s.link with buffer := r.1, parser := r.2.1, gap := r.2.2.1 } }
  match r.2.2.2 with
  | some (code, ops) => s1.judgeRequest code ops
  | none => if r.2.2.1 then s1.actOnGap else s1

/-- A byte received now is taken at once: the responder is IDLE, the buffer empty (R174). -/
def Link.takesAtOnce (l : Link) : Bool := l.responder.isNone && l.buffer.isEmpty && !l.gap

/-- Mark the byte at the buffer's tail with a gap; an empty buffer is marked at its head (R175). -/
def Link.markTail (l : Link) : Link :=
  match l.buffer.getLast? with
  | none => { l with gap := true }
  | some (b, _) => { l with buffer := l.buffer.dropLast ++ [(b, true)] }

/-- A byte is dropped at the full buffer: the byte at the tail is marked, unless a mark stands that the parser has not
yet reached (R175). -/
def Link.markDrop (l : Link) : Link := if l.gap || l.buffer.any (·.2) then l else l.markTail

/-- The silence timer starts at this tick (R176). -/
def State.startSilence (s : State) : State := { s with link := { s.link with silence := some s.t } }

/-- A request byte is received in RUN or HALTED: dropped in DISCARD, taken at once, buffered, or dropped with a gap
mark where the buffer is full (R174, R175). -/
def State.requestByte (s : State) (b : Byte) : State :=
  let s1 := s.startSilence
  if s1.link.parser = .discard then s1
  else if s1.link.takesAtOnce then State.parserRuns { s1 with link := { s1.link with buffer := [(b, false)] } }
  else if s1.link.buffer.length < Config.bufferDepth then
    { s1 with link := { s1.link with buffer := s1.link.buffer ++ [(b, false)] } }
  else { s1 with link := s1.link.markDrop }

/-- A line error in RUN or HALTED makes a gap (R173, R175). In DISCARD it only starts the silence anew. -/
def State.lineErrorGap (s : State) : State :=
  let s1 := s.startSilence
  if s1.link.parser = .discard then s1
  else if s1.link.takesAtOnce then State.actOnGap s1
  else { s1 with link := s1.link.markTail }

/-- The character the receive side of MRX holds ready is taken. -/
def State.takeChar (s : State) (c : RxChar) : State :=
  if s.link.rx.ready = some c then { s with link := { s.link with rx := { s.link.rx with ready := none } } } else s

/-- A byte is received on MRX: an image byte in LOAD, request input in RUN and HALTED (R160, R161, R172). -/
def State.receiveByte (s : State) (b : Byte) : State :=
  let s1 := s.takeChar (.byte b)
  if s.loader.part = .load then s1.imageByte b else s1.requestByte b

/-! ### Guards -/

/-- The end of the response's last stop bit has come (R174, R177). -/
def State.responseDone (s : State) : Bool :=
  s.live && (match s.link.responder with
    | none => false
    | some r => reached s.t (after r.start (r.bytes.length * Config.charTicks)))

/-- DISCARD ends (R175). -/
def State.discardReady (s : State) : Bool := s.live && decide (s.link.parser = .discard) && s.silent

/-- A partial request expires (R176). -/
def State.expiryReady (s : State) : Bool :=
  s.live && (s.link.parser.assembling).isSome && s.link.takesAtOnce && s.silent

/-! ### The steps of the table -/

/-- IMAGE_BYTE: a byte received on MRX; in LOAD it is stored and advances the walk (R160, R161). After loading has
ended the byte is request input (R161, R162). -/
def execImageByte (b : Byte) (s : State) : Result := if s.live then .next (s.receiveByte b) else .next s

/-- REQUEST_BYTE: a byte received on MRX; in RUN and HALTED it is request input (R174). In LOAD every byte is an image
byte (R160). -/
def execRequestByte (b : Byte) (s : State) : Result := if s.live then .next (s.receiveByte b) else .next s

/-- LINE_ERROR: in LOAD the character is lost without trace; in RUN and HALTED it makes a gap (R173, R175). -/
def execLineError (s : State) : Result :=
  if s.live then
    let s1 := s.takeChar .error
    if s.loader.part = .load then .next s1 else .next s1.lineErrorGap
  else .next s

/-- RESPONSE_COMPLETE: the responder is IDLE, and buffered bytes are then taken (R174). -/
def execResponseComplete (s : State) : Result :=
  if s.responseDone then .next (State.parserRuns { s with link := { s.link with responder := none } }) else .next s

/-- DISCARD_END: the parser returns to AWAIT_CODE (R175). -/
def execDiscardEnd (s : State) : Result :=
  if s.discardReady then .next { s with link := { s.link with parser := .awaitCode } } else .next s

/-- REQUEST_EXPIRED: the bytes assembled are discarded (R176). -/
def execRequestExpired (s : State) : Result :=
  if s.expiryReady then .next { s with link := { s.link with parser := .awaitCode } } else .next s

end Sys2Proof.Machine
end

