-- ==== Sys2Proof/Machine/Tick.lean ====
section
/-! DEFINITION. What happens when no command waits: the steps that the state and the input lines call for at this
tick, and the passing of one tick of the pace clock (R1, R2). Log entry 1. -/

namespace Sys2Proof.Machine

open Sys2Proof

/-! ### The receive side of MRX (R173) -/

/-- The level of MRX enters a character being received, `elapsed` ticks after the falling edge of its start bit: bit k
is sampled at 125 k + 62 (R173). -/
def RxBusy.tick (level : Bool) (b : RxBusy) : RxBusy :=
  { b with
    elapsed := b.elapsed + 1
    bits := if b.elapsed + 1 = Config.bitTicks * b.bits.length + 62 then b.bits ++ [level] else b.bits }

/-- What ten sampled bits of a character hand on (R173). -/
def charOf (bits : List Bool) : RxChar :=
  if bits.getD 9 false then
    .byte (BitVec.ofNat 8 ((List.range 8).foldl (fun v i => v + 2 ^ i * bitOf (bits.getD (i + 1) false)) 0))
  else .error

/-- One sample of MRX (R173). A start bit that begins while `held`, COLD being asserted, gives no byte (R158). While no
character is being received every falling edge begins one, from the tick after a stop bit's sample on, so also in the
rest of that stop bit (DESIGN CHOICE: R173 says only `after a stop bit`; log entry 20). -/
def Rx.tick (held level : Bool) (r : Rx) : Rx :=
  match r.busy with
  | none =>
    { was := level, ready := none,
      busy := if r.was && !level then some { elapsed := 0, bits := [], drop := held } else none }
  | some b =>
    let b1 := b.tick level
    if b1.bits.length < 10 then { was := level, busy := some b1, ready := none }
    else { was := level, busy := none, ready := if b1.drop then none else some (charOf b1.bits) }

/-! ### The steps that are called for now -/

/-- A command that a condition calls for. -/
def ifDue (due : Bool) (c : Instr) : List Instr := if due then [c] else []

/-- The sample of REF at this tick (R9). -/
def State.refDue (s : State) : List Instr :=
  ifDue s.refReady (if s.grid.pulseNext && s.pins.ref then .refPulseAccepted else .refSampled s.pins.ref)

/-- The character that MRX has just handed on (R160, R173, R174). -/
def State.charDue (s : State) : List Instr :=
  match s.link.rx.ready with
  | none => []
  | some (.byte b) => ifDue s.live (if s.loader.part = .load then .imageByte b else .requestByte b)
  | some .error => ifDue s.live .lineError

/-- The offers that channels present (R129). -/
def State.offersDue (s : State) : List Instr :=
  allStreams.filterMap fun n =>
    match (s.chan n).pin with
    | some o =>
      if s.live && (s.chan n).offers then some (.offerPresented n (BitVec.ofNat 16 o.len) o.frameEnd o.data) else none
    | none => none

/-- The streams that starve (R33). -/
def State.starvesDue (s : State) : List Instr :=
  (allStreams.filter fun n => s.live && (s.ctx n).starves s.t).map .starve

/-- Every step that the state and the input lines call for at this tick (R2). -/
def State.dueNow (s : State) : List Instr :=
  s.charDue ++ s.refDue ++ s.offersDue ++ s.starvesDue
    ++ ifDue s.stallExpired .imageStalled
    ++ ifDue s.frameReady .frameEpoch
    ++ ifDue s.fieldReady .fieldEpoch
    ++ ifDue s.grantReady .grant
    ++ ifDue (s.live && s.egress.doneEdge) .done
    ++ ifDue s.stallReady .egressStall
    ++ ifDue s.selectReady .intakeSelection
    ++ ifDue s.writeDone .writeComplete
    ++ ifDue s.noticeDueReady .noticeDue
    ++ ifDue s.noticeStartReady .noticeStart
    ++ ifDue s.arbitrationReady .arbitrationLost
    ++ ifDue s.biterrReady .noticeBiterr
    ++ ifDue s.completeReady .noticeComplete
    ++ ifDue s.framingReady .noticeFraming
    ++ ifDue s.settledReady .receiveSettled
    ++ ifDue s.stuckReady .busStuck
    ++ ifDue s.restoredReady .busRestored
    ++ ifDue s.startMarkReady .startMarkEdge
    ++ ifDue s.dataBitReady .dataBitSampled
    ++ ifDue s.responseDone .responseComplete
    ++ ifDue s.discardReady .discardEnd
    ++ ifDue s.expiryReady .requestExpired

/-! ### One tick -/

/-- The egress outputs at the next tick: ABANDON lasts one tick, OFFER stands while a packet is in the slot, and DONE
is sampled (R76). -/
def Egress.tick (done : Bool) (e : Egress) : Egress :=
  { e with
    abandon := false, offer := e.slot.isSome, emptied := false, doneWas := done, doneEdge := done && !e.doneWas }

/-- The silence timer runs for 125,000 ticks (R176). -/
def Link.tick (now : Time) (l : Link) : Link :=
  match l.silence with
  | none => l
  | some t => if reached now (after t Config.silenceTicks) then { l with silence := none } else l

/-- The clocked work of the part as T becomes one more: outputs of one tick end, a write reads 16 bytes, a t_next may be
reached, and REF, PACE, MRX and DONE come up for their next sample (R1, R9, R51, R76, R108, R129, R140, R173). The
choice where an edge of PACE meets a bit's sample is the free value (R113). The 16 bytes of a tick are read as T
reaches it, so before a withdrawal of that tick (DESIGN CHOICE: R142 gives no order; log entry 16). -/
def State.clock (s : State) : Option State :=
  match s.writeTick with
  | none => none
  | some s1 =>
    let now := s.t + 1
    some { s1.mapCtxs fun _ => Context.tick now with
      t := now
      grid := { s1.grid with refTaken := false }
      egress := s1.egress.tick s1.pins.done
      pace := s1.pace.sample s1.cfg.bitTime now s1.pins (Config.pick s1.fresh % 2 == 0)
      feed := { s1.feed with take := 0 }
      link := Link.tick now { s1.link with rx := s1.link.rx.tick false s1.pins.mrx }
      fresh := s1.fresh + 1 }

/-- A tick while COLD is asserted or power is off: T is held, the outputs of one tick end, and a character whose start
bit begins now is not received (R1, R80, R158). The sample of MRX comes as the tick is reached, so that of the very tick
of COLD's release is still taken under COLD, and a start bit that begins at that tick gives no byte (DESIGN CHOICE:
R158 gives the two no order; log entry 19). -/
def State.heldTick (s : State) : State :=
  { s with
    egress := { s.egress with abandon := false, emptied := false, doneWas := s.pins.done, doneEdge := false }
    link := { s.link with rx := s.link.rx.tick true s.pins.mrx } }

/-- One tick of the pace clock. -/
def State.tick (s : State) : Result :=
  if s.live then
    match s.clock with
    | none => .fault .noSuchByte
    | some s1 => .next s1
  else .next s.heldTick

/-- The step called for that goes into the queue, where there are several: the free value chooses (log entry 4). -/
def State.choose (s : State) (c : Instr) (cs : List Instr) : Instr :=
  (c :: cs).getD (Config.pick s.fresh % (cs.length + 1)) c

/-- What the part does when no command waits: a step that is called for at this tick enters the queue; when none is,
one tick passes. So no tick passes over a step that its rule has made at the first tick (R2). -/
def State.idleStep (s : State) : Result :=
  match s.dueNow with
  | [] => s.tick
  | c :: cs => .next { s with pending := [s.choose c cs], fresh := s.fresh + 1 }

end Sys2Proof.Machine
end

