-- ==== Sys2Proof/Machine/Dispatch.lean ====
section
/-! DEFINITION. Which meaning each command has: one arm a constructor. -/

namespace Sys2Proof.Machine
open Sys2Proof

def exec (i : Instr) (s : State) : Host.Outcome State Fault Refusal :=
  match i with
  | .coldAssert => Sys2Proof.Machine.execColdAssert s
  | .powerUp => Sys2Proof.Machine.execPowerUp s
  | .coldRelease => Sys2Proof.Machine.execColdRelease s
  | .imageByte b => Sys2Proof.Machine.execImageByte b s
  | .imageStalled => Sys2Proof.Machine.execImageStalled s
  | .frameEpoch => Sys2Proof.Machine.execFrameEpoch s
  | .fieldEpoch => Sys2Proof.Machine.execFieldEpoch s
  | .refPulseAccepted => Sys2Proof.Machine.execRefPulseAccepted s
  | .starve n => Sys2Proof.Machine.execStarve n s
  | .grant => Sys2Proof.Machine.execGrant s
  | .egressByte => Sys2Proof.Machine.execEgressByte s
  | .done => Sys2Proof.Machine.execDone s
  | .egressStall => Sys2Proof.Machine.execEgressStall s
  | .linkChange up => Sys2Proof.Machine.execLinkChange up s
  | .offerPresented ch length frameEnd data => Sys2Proof.Machine.execOfferPresented ch length frameEnd data s
  | .intakeSelection => Sys2Proof.Machine.execIntakeSelection s
  | .writeComplete => Sys2Proof.Machine.execWriteComplete s
  | .feedWithdrawn ch => Sys2Proof.Machine.execFeedWithdrawn ch s
  | .noticeDue => Sys2Proof.Machine.execNoticeDue s
  | .noticeStart => Sys2Proof.Machine.execNoticeStart s
  | .arbitrationLost => Sys2Proof.Machine.execArbitrationLost s
  | .noticeBiterr => Sys2Proof.Machine.execNoticeBiterr s
  | .noticeComplete => Sys2Proof.Machine.execNoticeComplete s
  | .noticeFraming => Sys2Proof.Machine.execNoticeFraming s
  | .receiveSettled => Sys2Proof.Machine.execReceiveSettled s
  | .busStuck => Sys2Proof.Machine.execBusStuck s
  | .busRestored => Sys2Proof.Machine.execBusRestored s
  | .requestByte b => Sys2Proof.Machine.execRequestByte b s
  | .lineError => Sys2Proof.Machine.execLineError s
  | .responseComplete => Sys2Proof.Machine.execResponseComplete s
  | .discardEnd => Sys2Proof.Machine.execDiscardEnd s
  | .requestExpired => Sys2Proof.Machine.execRequestExpired s
  | .startMarkEdge => Sys2Proof.Machine.execStartMarkEdge s
  | .dataBitSampled => Sys2Proof.Machine.execDataBitSampled s
  | .refSampled high => Sys2Proof.Machine.execRefSampled high s
  | .offerDeasserted ch => Sys2Proof.Machine.execOfferDeasserted ch s
  | .powerRemoved => Sys2Proof.Machine.execPowerRemoved s

end Sys2Proof.Machine
end

