-- ==== Sys2Proof/Safety.lean ====
section
/-! DEFINITION. What holds of the part in every run from reset, in the terms the claims use. -/

namespace Sys2Proof.Machine

open Sys2Proof

/-- The store's three sparse tables have their canonical form. -/
def Store.wf (st : Store) : Bool := cellsWf 0 st.bytes && cellsWf false st.parity && cellsWf none st.links

/-- The head of the free list is never a block of a RETIRED bank (R146). -/
def Store.headUsable (st : Store) : Prop := ∀ b, st.free.head? = some b → st.isRetired b = false

/-- The event queue and the input buffer hold no more than they can (R174, R182). -/
def Link.wf (l : Link) : Prop := l.queue.length ≤ Config.queueDepth ∧ l.buffer.length ≤ Config.bufferDepth

/-- The entry that an event raised in `s` makes (R182). -/
def State.entry (s : State) (code : EventCode) (subject detail : Nat) : Event :=
  { code := code, time := s.t, subject := BitVec.ofNat 4 subject, detail := BitVec.ofNat 16 detail }

/-- From `s` to `t` the events `es` are raised, in this order, and none but these: each joins the tail of the queue with
the T of `s` while fewer than 32 entries stand in it; one that meets a full queue is dropped, and the overflow flag is
then set; no entry leaves and the flag is not cleared (R182). -/
def Raises (s t : State) (es : List Raised) : Prop :=
  let room := Config.queueDepth - s.link.queue.length
  t.link.queue = s.link.queue ++ (es.map fun e => s.entry e.code e.subject e.detail).take room
    ∧ t.link.overflow = (s.link.overflow || decide (room < es.length))

/-- An event of this code, subject and detail is among the events raised from `s` to `t`, in their order: so it stands in
the queue of `t` behind every entry of `s`, or the queue is full and the overflow flag set (R182). -/
def Shows (s t : State) (c : EventCode) (a b : Nat) : Prop := ∃ es, Raises s t es ∧ ⟨c, a, b⟩ ∈ es

/-- Ids strictly rising (R88). -/
def ascending : List Peer → Prop
  | [] => True
  | [_] => True
  | p :: q :: ps => p.id < q.id ∧ ascending (q :: ps)

/-- The peer table keeps its form: ids strictly rising, at most 15, none the own id, missed counts at most 3 (R88). -/
def State.peersWf (s : State) : Prop :=
  ascending s.share.peers
    ∧ ∀ p ∈ s.share.peers, p.id ≤ 15 ∧ p.id ≠ s.cfg.stationId ∧ p.missed ≤ 3

/-- A context's factors and window are in range (R23, R29, R46). -/
def Context.factorsWf (c : Context) : Prop :=
  256 ≤ c.ks ∧ c.ks ≤ 1024 ∧ 256 ≤ c.ka ∧ c.ka ≤ 1024
    ∧ ∀ cfg, c.cfg = some cfg →
        cfg.w ≤ c.wEff ∧ c.wEff ≤ cfg.wCap ∧ cfg.w ≤ cfg.wCap ∧ (cfg.cls = .fixed → c.ks = 256 ∧ c.ka = 256)

/-- A context's ring agrees with its state (2.3, R24, R36). -/
def Context.ringWf (c : Context) : Prop :=
  (c.st = .quiet → c.ring = []) ∧ (c.st = .starved → c.ring = []) ∧ (c.discard = true → c.ring = [])
    ∧ (c.cfg = none → c.ring = [] ∧ c.st = .disabled)

/-- The record of a write in progress for the stream, as one more record to come. -/
def State.writing (s : State) (n : Stream) : Nat :=
  match s.feed.write with
  | some w => if w.stream = n then 1 else 0
  | none => 0

/-- A stream's ring, with the record being written for it, holds at most Q records (R24, R137). -/
def State.ringFits (s : State) (n : Stream) : Prop :=
  ∀ cfg, (s.ctx n).cfg = some cfg → (s.ctx n).ring.length + s.writing n ≤ cfg.depth

/-- The write in progress is for an enabled stream (R133, R140). -/
def State.writeEnabled (s : State) : Prop := ∀ w, s.feed.write = some w → (s.ctx w.stream).cfg.isSome = true

/-- The packets that hold a chain: those that wait in rings, the one being written, and the one in the slot, each by
its first block and its length (R144, R145). -/
def State.packets (s : State) : List (Block × Nat) :=
  (allStreams.flatMap fun n => (s.ctx n).ring.map fun r => (r.first, r.len))
    ++ (s.feed.write.map fun w => (w.first, w.len)).toList ++ (s.egress.slot.map fun sl => (sl.first, sl.len)).toList

/-- The blocks in use (R144). -/
def State.usedBlocks (s : State) : List Block := s.packets.flatMap fun p => s.store.chain p.1

/-- Each block is free, retired or in use, and only one of the three, and no block stands twice; each packet has a
length from 16 to 2,048 and a chain of ceil(L / 256) blocks (R66, R144, R145). -/
def State.blocksConserved (s : State) : Prop :=
  (s.store.free ++ s.store.retired ++ s.usedBlocks).Nodup
    ∧ s.store.free.length + s.store.retired.length + s.usedBlocks.length = Config.blocks
    ∧ ∀ p ∈ s.packets, 16 ≤ p.2 ∧ p.2 ≤ 2048 ∧ (s.store.chain p.1).length = blocksFor p.2

/-- Outside RUN the blocks hold their cold-start values (R3, R85, R108, R130, R143, R163, R171). -/
def State.coldOutsideRun (s : State) : Prop :=
  s.loader.part ≠ .run →
    s.grid = .cold ∧ (∀ n, s.ctx n = .cold) ∧ s.share = .cold ∧ s.pace = .cold ∧ s.store = .cold
      ∧ s.egress.slot = none ∧ s.egress.linkUp = false ∧ s.egress.offer = false ∧ s.feed.write = none
      ∧ s.feed.take = 0 ∧ s.link.queue = [] ∧ s.link.overflow = false ∧ s.link.latches = .cold
      ∧ s.egress.collision = 0 ∧ s.egress.late = 0 ∧ s.egress.starve = 0 ∧ s.egress.trim = 0
      ∧ s.feed.ptr = 0 ∧ (∀ n, (s.chan n).index = 0 ∧ (s.chan n).reported = false) ∧ s.cfg = .cold

/-- While COLD is asserted T is 0 and the part is in LOAD with no image byte (R1, R158). -/
def State.heldAtZero (s : State) : Prop := s.cold = true → s.t = 0 ∧ s.loader = .cold

/-- The lock machine's counts are in range (1.6). -/
def Grid.countsWf (g : Grid) : Prop := g.miss ≤ 3 ∧ g.oow ≤ 2

end Sys2Proof.Machine
end

