-- ==== Sys2Proof/Certificates/Slice0/Obligations.lean ====
section
/-! DEFINITION. The statements for the provers. A clause of the form `t = { s with f := t.f, … }` is the frame: of the
whole part, nothing but the fields named has changed. -/

open Sys2Proof Sys2Proof.Machine

/-! ### The step, time and cold start -/

/-- One step takes the command at the front of the queue and carries it out with the queue's rest waiting. The queue
is the model's own (log entry 1). -/
def Obligations.StepRunsFrontCommand : Prop :=
  ∀ (c : Instr) (rest : List Instr) (s : State), s.pending = c :: rest → step s = exec c { s with pending := rest }

/-- With no command waiting, the part takes a step that this tick calls for; only when none is called for does one
tick pass. So a block acts at the first tick at which its test holds (R2). That the step then waits in the queue is
the model's own (log entry 1). -/
def Obligations.IdlePartActsBeforeTheNextTick : Prop :=
  ∀ s : State, s.pending = [] →
    (s.dueNow = [] → step s = s.tick)
      ∧ (s.dueNow ≠ [] → ∃ c ∈ s.dueNow, step s = .next { s with pending := [c], fresh := s.fresh + 1 })

/-- T rises by one at each tick while the part is powered and COLD is released, and wraps; only a cold start sets it
back, to 0; nothing else writes it. While COLD is asserted T stays 0. Every event that enters the queue carries the T
of its step (R1). That a tick passes when no command waits is the model's own (log entry 1). -/
def Obligations.TimeCountsTicksAndNothingElseWritesIt : Prop :=
  ∀ s t : State, step s = .next t →
    (∀ c rest, s.pending = c :: rest →
        if c = .powerUp ∨ (c = .coldAssert ∧ s.powered = true ∧ s.cold = false) then t.t = 0 else t.t = s.t)
      ∧ (s.pending = [] → s.dueNow ≠ [] → t.t = s.t)
      ∧ (s.pending = [] → s.dueNow = [] →
          t.t = if s.powered = true ∧ s.cold = false then s.t + 1 else s.t)
      ∧ ((s.cold = true → s.t = 0) → t.cold = true → t.t = 0)
      ∧ ∀ e ∈ t.link.queue, e ∈ s.link.queue ∨ e.time = s.t

/-- What one tick moves where no step is called for. The outputs of one tick end: ABANDON and every TAKE (R76, R129).
OFFER stands while the slot is EMITTING, so that of a packet granted at the tick the slot emptied rises now, and DONE
is sampled, its rising edge bringing the step DONE (R76). The silence timer ends after 125,000 ticks (R176), MRX is
sampled (R173), PACE is sampled (R108), REF may be sampled again (R9), and a head whose t_next is T comes due (R51). A
write moves by R140, which another statement says; with none, no store byte changes. While COLD is asserted T and all
of this stand but the outputs, the sample of DONE and that of MRX (R158); that power off is the same, that the
sample of MRX at the very tick of COLD's release is still one under COLD, and the flags that mark a tick's work, are the
model's own (log entries 1, 4, 11 and 19). -/
def Obligations.OneTickMovesTheClockedParts : Prop :=
  ∀ s : State, s.pending = [] →
    (∀ t, s.live = true → s.dueNow = [] → step s = .next t →
        t.egress = { s.egress with
            abandon := false, offer := s.egress.slot.isSome, emptied := false, doneWas := s.pins.done,
            doneEdge := s.pins.done && !s.egress.doneWas }
          ∧ (s.pins.done = true → s.egress.doneWas = false → Instr.done ∈ t.dueNow)
          ∧ t.grid = { s.grid with refTaken := false }
          ∧ (∀ n, t.ctx n = { s.ctx n with
              justReached := decide ((s.ctx n).st = .sending ∧ (s.ctx n).tNext = s.t + 1) })
          ∧ (∃ first, t.pace = s.pace.sample s.cfg.bitTime (s.t + 1) s.pins first)
          ∧ t.feed = { s.feed with take := 0, write := t.feed.write }
          ∧ (s.feed.write = none → t.feed.write = none ∧ t.store = s.store)
          ∧ (∀ last, s.link.silence = some last →
              t.link.silence = if reached (s.t + 1) (after last 125000) = true then none else some last)
          ∧ (s.link.silence = none → t.link.silence = none)
          ∧ t.link = { s.link with rx := s.link.rx.tick false s.pins.mrx, silence := t.link.silence }
          ∧ t = { s with
              t := s.t + 1, grid := t.grid, ctxs := t.ctxs, egress := t.egress, pace := t.pace, feed := t.feed,
              store := t.store, link := t.link, fresh := t.fresh })
      ∧ (s.live = true → s.dueNow = [] → s.feed.write = none → ∃ t, step s = .next t ∧ t.t = s.t + 1)
      ∧ (s.live = false → step s = .next { s with
          egress := { s.egress with abandon := false, emptied := false, doneWas := s.pins.done, doneEdge := false },
          link := { s.link with rx := s.link.rx.tick true s.pins.mrx } })

/-- After reset the part is in LOAD with T at 0, and each block holds the values its chapter gives for cold start: the
grid idle and FREE (R3, R14), every context DISABLED (R22, R23, R44), the slot EMPTY with the sets clear (R66, R85),
the link DOWN (R81), an empty peer table with k 256 and OVERCOMMIT clear (R88, R100, R101), the pace bus OFF (R108),
the write path FREE and every index counter 0 (R130), all 8,192 blocks free in ascending order (R144), an empty image
(R159), and the parser, queue and latches of the maintenance link at rest (R172, R183). And every invariant that
another statement says each step keeps holds after reset; one of them, that the blocks are cold outside RUN, holds the
PART registers, Cr and the receive side of PACE at the model's own values too (log entries 2 and 3). -/
def Obligations.ResetHoldsTheColdStartValues : Prop :=
  let s := State.reset
  s.t = 0 ∧ s.loader.part = .load ∧ s.loader.image = [] ∧ s.loader.walk = .type ∧ s.loader.stall = none
    ∧ s.loader.fault = none
    ∧ s.grid.running = false ∧ s.grid.eNext = 0 ∧ s.grid.eTaken = 0 ∧ s.grid.rem = 0 ∧ s.grid.k = 0
    ∧ s.grid.h = none ∧ s.grid.qual = .waitLow 0 ∧ s.grid.lock = .free ∧ s.grid.miss = 0 ∧ s.grid.oow = 0
    ∧ s.grid.pulse = false
    ∧ (∀ n : Stream, (s.ctx n).cfg = none ∧ (s.ctx n).st = .disabled ∧ (s.ctx n).ring = [] ∧ (s.ctx n).ks = 256
        ∧ (s.ctx n).ka = 256 ∧ (s.ctx n).wEff = 0 ∧ (s.ctx n).base = 0 ∧ (s.ctx n).iNext = 0
        ∧ (s.ctx n).tNext = 0 ∧ (s.ctx n).capped = false ∧ (s.ctx n).owing = false ∧ (s.ctx n).owed = 0
        ∧ (s.ctx n).discard = false ∧ (s.ctx n).idle = 0 ∧ (s.ctx n).starveCounted = false ∧ (s.ctx n).seq = 0
        ∧ (s.ctx n).counts = Counters.cold)
    ∧ s.egress.slot = none ∧ s.egress.linkUp = false ∧ s.egress.collision = 0 ∧ s.egress.late = 0
    ∧ s.egress.starve = 0 ∧ s.egress.trim = 0
    ∧ s.share.peers = [] ∧ s.share.k = 256 ∧ s.share.overcommit = false
    ∧ s.pace.bus = .off ∧ s.pace.cur = none ∧ s.pace.old = none ∧ s.pace.attempt = none
    ∧ s.feed.write = none ∧ s.feed.ptr = 0
    ∧ (∀ n : Stream, (s.chan n).st = .empty ∧ (s.chan n).index = 0 ∧ (s.chan n).reported = false)
    ∧ (∀ i : Nat, i < 8192 → s.store.free[i]? = some (BitVec.ofNat 13 i)) ∧ s.store.free.length = 8192
    ∧ s.store.retired = [] ∧ (∀ b : Block, s.store.next b = none)
    ∧ (∀ j : Fin 4, s.store.bank j = { integrity := false, errors := 0, retired := false })
    ∧ s.link.parser = .awaitCode ∧ s.link.buffer = [] ∧ s.link.responder = none ∧ s.link.queue = []
    ∧ s.link.overflow = false ∧ s.link.silence = none
    ∧ s.link.latches = Latches.cold ∧ Latches.cold.any = false
    ∧ s.store.wf = true ∧ s.store.headUsable ∧ s.link.wf ∧ s.peersWf
    ∧ (∀ n, (s.ctx n).factorsWf ∧ (s.ctx n).ringWf ∧ s.ringFits n) ∧ s.writeEnabled ∧ s.blocksConserved
    ∧ s.coldOutsideRun ∧ s.heldAtZero ∧ s.grid.countsWf

/-- COLD asserted, and power-up, return every block to its cold-start values with T at 0, whatever it was doing: a
packet in emission is abandoned to the MAC and OFFER withdrawn (R80), TAKE is asserted on no channel and a write stops
(R142), PACE is released (R108), nothing is sent on MTX and FAULT is released (R183). The offers the packetizer holds
are still on its lines. That a character whose start bit came before COLD is dropped to its end, though it may end
after the release, is the model's choice (log entry 11): R158 speaks only of bytes while COLD stays asserted, and of a
start bit that begins then. The spec gives no value of cold start to the PART registers (log entry 2), nor to Cr, the
egress DATA output, the last sample of DONE and the receive side of PACE (log entries 3 and 14): that these too stand
at the values of `.cold` is the model's choice. So is it that ABANDON is not asserted where the slot was emptied by an
abandonment of this same tick (log entry 18). -/
def Obligations.ColdStartReturnsEveryBlock : Prop :=
  ∀ (s : State) (c : Instr), (c = .coldAssert ∧ s.live = true) ∨ c = .powerUp →
    ∃ t, exec c s = .next t ∧ t.t = 0 ∧ t.powered = true ∧ t.cold = true ∧ t.cfg = .cold ∧ t.grid = .cold
      ∧ (∀ n, t.ctx n = .cold) ∧ t.egress = { Egress.cold with abandon := s.egress.slot.isSome } ∧ t.share = .cold
      ∧ t.pace = .cold ∧ t.store = .cold ∧ t.loader = .cold ∧ t.feed.write = none ∧ t.feed.ptr = 0 ∧ t.feed.take = 0
      ∧ (∀ n, t.chan n = .cold (s.chan n).pin)
      ∧ t.link = { Link.cold with rx := { s.link.rx with
          busy := s.link.rx.busy.map fun (b : RxBusy) => { b with drop := true }, ready := none } }
      ∧ t.paceLow = false ∧ t.mtx = true ∧ t.faultLine = false
      ∧ t.pins = s.pins ∧ t.pending = s.pending ∧ t.fresh = s.fresh

/-- At the release of COLD the part is in LOAD with T at 0 and takes events; nothing else changes (R158): a start bit
sampled at that same tick stays one that brings nothing, by the model's choice (log entry 19). When power
is removed the port abandons the packet in emission and withdraws OFFER (R80), and the part takes no more events; that
the other state stands until power-up, that PACE is released, and that an ABANDON of this same tick ends, is the
model's own (log entries 11, 14, 17 and 18).
While COLD is asserted no block takes any event (R158): a command other than power-up, the release of COLD and the
removal of power moves nothing but the input lines it stands for. That the same holds while power is off is the
model's choice (log entries 1 and 11), since R158 speaks only of COLD asserted. -/
def Obligations.ColdAndPowerHoldTheBlocks : Prop :=
  (∀ s : State, s.powered = true → s.cold = true → s.heldAtZero →
     ∃ t, exec .coldRelease s = .next t ∧ t = { s with cold := false } ∧ t.live = true ∧ t.t = 0
       ∧ t.loader.part = .load ∧ t.loader.image = [])
    ∧ (∀ s : State, s.powered = true →
        ∃ t, exec .powerRemoved s = .next t ∧ t.powered = false ∧ t.live = false ∧ t.egress.slot = none
          ∧ t.egress.offer = false ∧ t.egress.abandon = s.egress.slot.isSome ∧ t.paceLow = false ∧ t.feed.take = 0
          ∧ t = { s with powered := false, egress := t.egress, feed := { s.feed with take := 0 } }
          ∧ t.egress = { s.egress with
              slot := none, offer := false, abandon := t.egress.abandon, emptied := t.egress.emptied })
    ∧ ∀ (s : State) (c : Instr), s.live = false → c ≠ .powerUp → c ≠ .coldRelease → c ≠ .powerRemoved →
      ∃ t, exec c s = .next t ∧ t = { s with pins := t.pins, feed := { s.feed with chans := t.feed.chans } }
        ∧ t.pins = { s.pins with linkUp := t.pins.linkUp }
        ∧ ∀ n, t.chan n = { s.chan n with pin := (t.chan n).pin }

/-! ### The image (Chapter 9) -/

/-- In LOAD a byte received on MRX is stored at the end of the image area and advances the walk by the table of R160,
and the stall timer restarts (R162); while it completes no END record and does not fill the area, the part stays in
LOAD and nothing else changes, but that the receive side of MRX no longer holds the byte as one to be taken. -/
def Obligations.ImageByteAdvancesTheWalk : Prop :=
  ∀ (s : State) (b : Byte), s.live = true → s.loader.part = .load →
    let rx : Rx := { s.link.rx with ready := if s.link.rx.ready = some (.byte b) then none else s.link.rx.ready }
    ∃ t, exec (.imageByte b) s = .next t ∧ t.loader.image = s.loader.image ++ [b]
      ∧ (s.loader.walk = .type →
          t.loader.recStart = s.loader.image.length ∧ (t.loader.isEnd = true ↔ b = 0x0F#8) ∧ t.loader.walk = .length
            ∧ t.loader.bodyLeft = s.loader.bodyLeft)
      ∧ (s.loader.walk = .length →
          t.loader.recStart = s.loader.recStart ∧ t.loader.isEnd = s.loader.isEnd ∧ t.loader.bodyLeft = b.toNat
            ∧ (b = 0 → t.loader.walk = .type) ∧ (b ≠ 0 → t.loader.walk = .body))
      ∧ (s.loader.walk = .body →
          t.loader.recStart = s.loader.recStart ∧ t.loader.isEnd = s.loader.isEnd
            ∧ t.loader.bodyLeft = s.loader.bodyLeft - 1
            ∧ (t.loader.bodyLeft = 0 → t.loader.walk = .type) ∧ (t.loader.bodyLeft ≠ 0 → t.loader.walk = .body))
      ∧ (¬(t.loader.isEnd = true ∧ t.loader.walk = .type) → s.loader.image.length + 1 < 4096 →
          t.loader.part = .load ∧ t.loader.stall = some s.t ∧ t.loader.fault = s.loader.fault
            ∧ t = { s with loader := t.loader, link := { s.link with rx := rx } })

/-- Loading ends at the tick an END record becomes complete or the 4,096th byte is stored, and the image is judged at
once (R161); an image whose last byte lies 125,000,000 ticks back is judged no further (R162). A rejected image puts
the part in HALTED with its fault and position, a stalled one with IMAGE_STALLED and the number of bytes received, and
nothing is written into any block (R171). -/
def Obligations.FaultyImageHaltsThePart : Prop :=
  (∀ (s : State) (b : Byte) (f : ImageFault) (pos : Nat), s.live = true → s.loader.part = .load →
     let l := s.loader.store s.t b
     let rx : Rx := { s.link.rx with ready := if s.link.rx.ready = some (.byte b) then none else s.link.rx.ready }
     (l.isEnd = true ∧ l.walk = .type) ∨ l.image.length = 4096 → judgeImage l.image l.recStart = .rejected f pos →
     ∃ t, exec (.imageByte b) s = .next t ∧ t.loader = { l with part := .halted, fault := some (f, pos), stall := none }
       ∧ t.faultLine = true ∧ t = { s with loader := t.loader, link := { s.link with rx := rx } })
    ∧ ∀ (s : State) (last : Time), s.live = true → s.loader.part = .load → s.loader.stall = some last →
        reached s.t (after last 125000000) = true →
        exec .imageStalled s = .next { s with loader := { s.loader with
          part := .halted, fault := some (.stalled, s.loader.image.length), stall := none } }

/-- An accepted image puts the part in RUN at the tick loading ends (R161, R170): the PART values are written (R163),
the grid becomes RUNNING with E_taken at T, E_next q_min later and R at N mod D, FREE or SEEK by the mode (R4, R14),
the link state takes LINK_UP (R81), the pace bus becomes NORMAL and SETTLING with no record (R108), and a context is
enabled, QUIET with W_eff at W, exactly where a STREAM record names it (R26, R164). Nothing else changes. -/
def Obligations.AcceptedImageEntersRun : Prop :=
  ∀ (s : State) (b : Byte) (part : ImageRecord) (rs : List ImageRecord), s.live = true → s.loader.part = .load →
    let l := s.loader.store s.t b
    let rx : Rx := { s.link.rx with ready := if s.link.rx.ready = some (.byte b) then none else s.link.rx.ready }
    let p := readPart part.body
    (l.isEnd = true ∧ l.walk = .type) ∨ l.image.length = 4096 → judgeImage l.image l.recStart = .accepted part rs →
    ∃ t, exec (.imageByte b) s = .next t ∧ t.loader = { l with part := .run, stall := none } ∧ t.cfg = p
      ∧ t.grid = { s.grid with
          running := true, k := 0, eTaken := s.t, eNext := s.t + BitVec.ofNat 48 (p.n / p.d), rem := p.n % p.d,
          h := none, qual := .waitLow 0, lock := if p.refOn then .seek else .free }
      ∧ t.egress = { s.egress with linkUp := s.pins.linkUp }
      ∧ t.pace = { s.pace with bus := .normal, recv := .settling, cur := none, old := none, lowRun := 0 }
      ∧ (∀ r ∈ rs, r.type = 2 → ∃ n : Stream, n.val = streamNumber r ∧ t.ctx n = { s.ctx n with
          cfg := some (readStream (p.n / p.d) r.body), st := .quiet, ring := [],
          wEff := (readStream (p.n / p.d) r.body).w })
      ∧ (∀ n : Stream, (∀ r ∈ rs, r.type = 2 → streamNumber r ≠ n.val) → t.ctx n = s.ctx n)
      ∧ t = { s with
          loader := t.loader, cfg := t.cfg, grid := t.grid, ctxs := t.ctxs, egress := t.egress, pace := t.pace,
          link := { s.link with rx := rx } }

/-- An accepted image has one PART record, whose values stand at the offsets of 11.3 and keep their ranges, q_min from
1.6 ms to 400 ms (R163); its STREAM records name different streams (R168), and each one's values stand at the offsets
of 11.3 too and keep every field's range, O below Imin and W at most W_cap, with the sum of Q at most 2,048 (R164,
R169); and each claim is ceil(C × S × 1,000 / W), saturated at 65,535 (R42). -/
def Obligations.AcceptedPartIsInRange : Prop :=
  ∀ (image : List Byte) (off : Nat) (part : ImageRecord) (rs : List ImageRecord),
    judgeImage image off = .accepted part rs →
    let p := readPart part.body
    let f (o n : Nat) : Nat := field part.body o n
    let streams := rs.filter fun r => decide (r.type = 2)
    part ∈ rs ∧ part.type = 1 ∧ (∀ r ∈ rs, r.type = 1 → r = part) ∧ part.body.length = 34
      ∧ p = {
          stationId := f 0 1, bitTime := f 1 2, noticeDelay := f 3 4, budget := f 7 2, n := f 9 4, d := f 13 2,
          refOn := decide (f 15 1 = 1), roff := (BitVec.ofNat 32 (f 16 4)).toInt, wlock := f 20 2, slewLimit := f 22 1,
          mn := f 23 2, md := f 25 3, tlate := f 28 2, stallLimit := f 30 4 }
      ∧ p.stationId ≤ 15 ∧ 64 ≤ p.bitTime ∧ p.bitTime ≤ 1024 ∧ 4 ∣ p.bitTime ∧ 1 ≤ p.budget ∧ p.budget ≤ 65535
      ∧ 1 ≤ p.n ∧ p.n ≤ 4294967295 ∧ 1 ≤ p.d ∧ p.d ≤ 65535 ∧ 200000 ≤ p.n / p.d ∧ p.n / p.d ≤ 50000000
      ∧ p.noticeDelay ≤ p.n / p.d / 2 ∧ f 15 1 ≤ 1 ∧ p.roff.natAbs < p.n / p.d ∧ 1 ≤ p.wlock ∧ p.wlock ≤ 65535
      ∧ p.slewLimit ≤ 255 ∧ p.slewLimit ≤ p.wlock ∧ 1 ≤ p.mn ∧ p.mn ≤ 65535 ∧ 1 ≤ p.md ∧ p.md ≤ 16777215
      ∧ p.tlate ≤ 65535 ∧ 1000 ≤ p.stallLimit ∧ p.stallLimit ≤ 1000000
      ∧ (streams.map streamNumber).Nodup ∧ (streams.map fun r => field r.body 15 2).sum ≤ 2048
      ∧ ∀ r ∈ rs, r.type = 2 →
          let c := readStream (p.n / p.d) r.body
          streamNumber r ≤ 15 ∧ r.body.length = 23 ∧ field r.body 1 1 ≤ 1 ∧ field r.body 2 1 ≤ 1
            ∧ (c.cls = .flex ↔ field r.body 1 1 = 1) ∧ (c.cadence = .field ↔ field r.body 2 1 = 1)
            ∧ c.imin = (if c.cadence = .frame then p.n / p.d else p.n / p.d / 2)
            ∧ streamNumber r = field r.body 0 1 ∧ c.c = field r.body 3 2 ∧ c.o = field r.body 5 4
            ∧ c.w = field r.body 9 4 ∧ c.size = field r.body 13 2 ∧ c.idleLimit = field r.body 22 1
            ∧ 1 ≤ c.c ∧ c.c ≤ 16383 ∧ c.o < c.imin ∧ 1 ≤ c.w ∧ c.w ≤ c.wCap ∧ c.wCap = c.imin - c.o
            ∧ 64 ≤ c.size ∧ c.size ≤ 2048 ∧ c.depth = field r.body 15 2 ∧ 2 ≤ c.depth ∧ c.depth ≤ 512
            ∧ field r.body 17 1 ≤ 1 ∧ (c.policy = .finish ↔ field r.body 17 1 = 1)
            ∧ c.stampOffset = (if field r.body 18 2 = 65535 then none else some (field r.body 18 2))
            ∧ (∀ o, c.stampOffset = some o → o ≤ 2044)
            ∧ c.seqOffset = (if field r.body 20 2 = 65535 then none else some (field r.body 20 2))
            ∧ (∀ o, c.seqOffset = some o → o ≤ 2046)
            ∧ 1 ≤ c.idleLimit ∧ c.idleLimit ≤ 255 ∧ 1 ≤ c.claim ∧ c.claim ≤ 65535
            ∧ (c.claim < 65535 → (c.claim - 1) * c.w < c.c * c.size * 1000 ∧ c.c * c.size * 1000 ≤ c.claim * c.w)
            ∧ (c.claim = 65535 → 65534 * c.w < c.c * c.size * 1000)

/-- The judging of an image stops at the first fault, in its four stages. The walk over the records finds a blank
type, an unknown one, a record that runs past the last byte, or 4,096 bytes without END, with the record's offset
(R166). The END record must have length 2 and carry the sum of the bytes before it (R165, R167). There must be one
PART record, the second one being the fault of two, and no stream number twice (R168). The PART record's length and
fields, then each STREAM record's, in image order, then the running sum of Q, must be in range (R163, R164, R169). An
image that passes all four is accepted with its records. That a STREAM record of length 0 has no stream number, so
that two of them are no duplicates but out of range, is the model's reading of R168 (log entry 11). -/
def Obligations.ImageFaultIsTheFirstFound : Prop :=
  let enc (rs : List (Byte × List Byte)) : List Byte := rs.flatMap fun r => r.1 :: BitVec.ofNat 8 r.2.length :: r.2
  let good (rs : List (Byte × List Byte)) : Prop := ∀ r ∈ rs, (r.1 = 0x01 ∨ r.1 = 0x02) ∧ r.2.length ≤ 255
  let known (ty : Byte) : Prop := ty = 0x01 ∨ ty = 0x02 ∨ ty = 0x0F
  let clash (before : List (Byte × List Byte)) (r : Byte × List Byte) : Prop :=
    ∃ b, r.2.head? = some b ∧ ∃ e ∈ before, e.1 = 0x02 ∧ e.2.head? = some b
  let distinct (rs : List (Byte × List Byte)) : Prop := ∀ a r c, rs = a ++ r :: c → r.1 = 0x02 → ¬clash a r
  let interval (p : Byte × List Byte) : Nat := field p.2 9 4 / field p.2 13 2
  let partOk (p : Byte × List Byte) : Prop :=
    p.2.length = 34 ∧ field p.2 0 1 ≤ 15 ∧ 64 ≤ field p.2 1 2 ∧ field p.2 1 2 ≤ 1024 ∧ 4 ∣ field p.2 1 2
      ∧ field p.2 3 4 ≤ interval p / 2 ∧ 1 ≤ field p.2 7 2 ∧ 1 ≤ field p.2 9 4 ∧ 1 ≤ field p.2 13 2
      ∧ 200000 ≤ interval p ∧ interval p ≤ 50000000 ∧ field p.2 15 1 ≤ 1
      ∧ (BitVec.ofNat 32 (field p.2 16 4)).toInt.natAbs < interval p ∧ 1 ≤ field p.2 20 2
      ∧ field p.2 22 1 ≤ min 255 (field p.2 20 2) ∧ 1 ≤ field p.2 23 2 ∧ 1 ≤ field p.2 25 3
      ∧ 1000 ≤ field p.2 30 4 ∧ field p.2 30 4 ≤ 1000000
  let streamOk (q : Nat) (r : Byte × List Byte) : Prop :=
    let imin := if field r.2 2 1 = 0 then q else q / 2
    r.2.length = 23 ∧ field r.2 0 1 ≤ 15 ∧ field r.2 1 1 ≤ 1 ∧ field r.2 2 1 ≤ 1 ∧ 1 ≤ field r.2 3 2
      ∧ field r.2 3 2 ≤ 16383 ∧ field r.2 5 4 < imin ∧ 1 ≤ field r.2 9 4 ∧ field r.2 9 4 ≤ imin - field r.2 5 4
      ∧ 64 ≤ field r.2 13 2 ∧ field r.2 13 2 ≤ 2048 ∧ 2 ≤ field r.2 15 2 ∧ field r.2 15 2 ≤ 512 ∧ field r.2 17 1 ≤ 1
      ∧ (field r.2 18 2 ≤ 2044 ∨ field r.2 18 2 = 65535) ∧ (field r.2 20 2 ≤ 2046 ∨ field r.2 20 2 = 65535)
      ∧ 1 ≤ field r.2 22 1
  let depths (rs : List (Byte × List Byte)) : Nat :=
    ((rs.filter fun r => decide (r.1 = 0x02)).map fun r => field r.2 15 2).sum
  (∀ (rs : List (Byte × List Byte)) (tail : List Byte) (off : Nat), good rs → (enc rs ++ tail).length ≤ 4096 →
     let found (f : ImageFault) : Prop := judgeImage (enc rs ++ tail) off = .rejected f (enc rs).length
     (∀ ty rest, tail = ty :: rest → ty = 0x00 ∨ ty = 0xFF → found .blank)
       ∧ (∀ ty rest, tail = ty :: rest → ty ≠ 0x00 → ty ≠ 0xFF → ¬known ty → found .unknown)
       ∧ (∀ ty, tail = [ty] → known ty → found .truncated)
       ∧ (∀ ty len rest, tail = ty :: len :: rest → known ty → rest.length < len.toNat → found .truncated)
       ∧ (tail = [] → (enc rs).length = 4096 → found .noEnd))
    ∧ ∀ (rs : List (Byte × List Byte)) (len : Byte) (body : List Byte), good rs →
        (enc rs ++ 0x0F :: len :: body).length ≤ 4096 → len.toNat ≤ body.length →
        let verdict := judgeImage (enc rs ++ 0x0F :: len :: body) (enc rs).length
        let found (f : ImageFault) (before : List (Byte × List Byte)) : Prop :=
          verdict = .rejected f (enc before).length
        let summed : Prop := len = 0x02 ∧ beValue (body.take 2) = ((enc rs).map (·.toNat)).sum % 65536
        (¬summed → found .sum rs)
          ∧ (summed → (∀ r ∈ rs, r.1 ≠ 0x01) → found .part rs)
          ∧ (∀ a p b p2 c, summed → rs = a ++ p :: b ++ p2 :: c → (∀ r ∈ a ++ b, r.1 ≠ 0x01) → p.1 = 0x01 →
              p2.1 = 0x01 → found .part (a ++ p :: b))
          ∧ ∀ a p c, summed → rs = a ++ p :: c → p.1 = 0x01 → (∀ r ∈ a ++ c, r.1 ≠ 0x01) →
              (∀ a2 r c2, rs = a2 ++ r :: c2 → r.1 = 0x02 → clash a2 r → distinct a2 → found .duplicate a2)
                ∧ (distinct rs → ¬partOk p → found .range a)
                ∧ (∀ a2 r c2, distinct rs → partOk p → rs = a2 ++ r :: c2 → r.1 = 0x02 → ¬streamOk (interval p) r →
                    (∀ e ∈ a2, e.1 = 0x02 → streamOk (interval p) e) → found .range a2)
                ∧ (distinct rs → partOk p → (∀ e ∈ rs, e.1 = 0x02 → streamOk (interval p) e) →
                    (∀ a2 r c2, rs = a2 ++ r :: c2 → r.1 = 0x02 → depths a2 ≤ 2048 →
                        2048 < depths a2 + field r.2 15 2 → found .range a2)
                      ∧ (depths rs ≤ 2048 → ∃ part recs, verdict = .accepted part recs ∧ part.body = p.2
                          ∧ recs.map (fun r => (r.type, r.body)) = rs.map fun r => (r.1.toNat, r.2)))

/-! ### The Timing Grid (Chapter 1) -/

/-- When E_next has been reached the grid takes the frame epoch: its own work is that of R5, with the miss test of R18
in LOCKED, a fourth miss entering HOLDOVER with REF_HOLDOVER raised. What the epoch leaves untouched is named in the
last clause: the store's bytes and the link but for its queue are among it. -/
def Obligations.FrameEpochAdvancesTheGrid : Prop :=
  ∀ s : State, s.live = true → s.grid.running = true → reached s.t s.grid.eNext = true →
    let g := s.grid
    let q := (g.rem + s.cfg.n) / s.cfg.d
    ∃ t, exec .frameEpoch s = .next t ∧ t.grid.eTaken = g.eNext ∧ t.grid.eNext = after g.eNext q
      ∧ t.grid.rem = (g.rem + s.cfg.n) % s.cfg.d ∧ t.grid.k = g.k + 1 ∧ t.grid.h = some (after g.eNext (q / 2))
      ∧ (g.rem < s.cfg.d → t.grid.rem < s.cfg.d ∧ (q = s.cfg.n / s.cfg.d ∨ q = s.cfg.n / s.cfg.d + 1))
      ∧ (g.lock ≠ .locked → t.grid.lock = g.lock ∧ t.grid.miss = g.miss ∧ t.grid.oow = g.oow
          ∧ t.grid.pulse = g.pulse)
      ∧ (g.lock = .locked → g.pulse = true → t.grid.lock = .locked ∧ t.grid.miss = g.miss ∧ t.grid.oow = g.oow
          ∧ t.grid.pulse = false)
      ∧ (g.lock = .locked → g.pulse = false → g.miss < 3 → t.grid.lock = .locked ∧ t.grid.miss = g.miss + 1
          ∧ t.grid.oow = g.oow ∧ t.grid.pulse = false)
      ∧ (g.lock = .locked → g.pulse = false → g.miss = 3 → t.grid.lock = .holdover ∧ t.grid.miss = 0
          ∧ t.grid.oow = 0 ∧ t.grid.pulse = false ∧ Shows s t .refHoldover 0 0)
      ∧ t.grid = { g with
          eTaken := t.grid.eTaken, eNext := t.grid.eNext, rem := t.grid.rem, k := t.grid.k, h := t.grid.h,
          lock := t.grid.lock, miss := t.grid.miss, oow := t.grid.oow, pulse := t.grid.pulse }
      ∧ t.egress = { s.egress with trim := t.egress.trim }
      ∧ t.store = { s.store with free := t.store.free, retired := t.store.retired }
      ∧ t.link = { s.link with queue := t.link.queue, overflow := t.link.overflow }
      ∧ t = { s with
          grid := t.grid, ctxs := t.ctxs, egress := t.egress, share := t.share, pace := t.pace, store := t.store,
          link := t.link, fresh := t.fresh }

/-- A frame epoch, with whatever events the grid raises beside it, reaches every enabled context, the Share Computer
and the Pace Bus Interface once each, all with the epoch's time E, in whatever order (R6): `order` is that of the
streams, and the Share Computer's work comes after the first `i` of them. Each stream makes its stream epoch of R30
with E, a TRIM discard freeing the chains it cuts and setting the trim bit (R35); a disabled context is not touched.
The Share Computer ages its peers (R95) and computes k and OVERCOMMIT from the entries left and from the own claims as
the streams then stand (R99, R100); an enabled FLEX stream takes k as its staged factor, before its epoch or after it
(R102). While the bus is STUCK it passes the epoch over (R97). In NORMAL the interface settles its record by R122 and
creates that of the new interval (R116). The events raised are exactly these, in whatever order (R6, R182): REF_HOLDOVER
of a fourth miss (R18) and the grid's others, OVERRUN_TRIM with the records cut or OVERRUN_FINISH with i_next of each
stream that overruns (R35, R55), NOTICE_SKIPPED of a record not yet sent (R122), PEER_LOST of each peer removed (R96)
and the change of OVERCOMMIT (R101). -/
def Obligations.FrameEpochReachesEveryBlockOnce : Prop :=
  (∀ s : State, s.live = true → s.grid.running = true → reached s.t s.grid.eNext = true →
     exec .frameEpoch s = .next (s.takeFrameEpoch []))
    ∧ ∀ (s : State) (events : List Raised),
    let t := s.takeFrameEpoch events
    let e := s.grid.eNext
    let epoch (c : Context) : Context := match c.cfg with
      | some cfg => c.atEpoch cfg e
      | none => c
    let trims (n : Stream) : Bool := match (s.ctx n).cfg with
      | some cfg => ((s.ctx n).st = .sending || (s.ctx n).st = .starved) && (cfg.policy = .trim || (s.ctx n).owing)
      | none => false
    let owes (n : Stream) : Bool := match (s.ctx n).cfg with
      | some cfg =>
        ((s.ctx n).st = .sending || (s.ctx n).st = .starved) && cfg.policy = .finish && !(s.ctx n).owing
      | none => false
    let holdover : List Raised :=
      if s.grid.lock = .locked ∧ s.grid.pulse = false ∧ 3 ≤ s.grid.miss then [⟨.refHoldover, 0, 0⟩] else []
    let overruns : List Raised := allStreams.flatMap fun n =>
      if trims n = true then [⟨.overrunTrim, n.val, (cutFrame (s.ctx n).ring).1.length⟩]
      else if owes n = true then [⟨.overrunFinish, n.val, (s.ctx n).iNext⟩] else []
    let skipped : List Raised := match s.pace.bus, s.pace.cur with
      | .normal, some r =>
        if r.st = .scheduled ∨ r.st = .waiting then [⟨.noticeSkipped, s.cfg.stationId, r.failed⟩] else []
      | _, _ => []
    let lost : List Raised := (s.share.peers.filter fun p => !p.heard && decide (3 ≤ p.missed)).map fun p =>
      ⟨.peerLost, p.id, min (p.f + p.x) 65535⟩
    (∃ (order : List Stream) (i : Nat), order.Perm allStreams ∧
        let first (n : Stream) : Prop := n ∈ order.take i
        let seen (n : Stream) : Context := if first n then epoch (s.ctx n) else s.ctx n
        let own (cls : Machine.Class) : Nat := min (allStreams.map fun n => (seen n).claimIn cls).sum 65535
        let peers := s.share.peers.filterMap agePeer
        let factor := shareFactor s.cfg.budget (own .fixed + (peers.map (·.f)).sum) (own .flex + (peers.map (·.x)).sum)
        let overcommit : List Raised :=
          if s.share.overcommit = false ∧ factor.2.1 = true then [⟨.overcommitOn, 0, factor.2.2⟩]
          else if s.share.overcommit = true ∧ factor.2.1 = false then [⟨.overcommitOff, 0, factor.1⟩] else []
        t.store = order.foldl (fun st n => if trims n = true
            then (cutFrame (s.ctx n).ring).1.foldl (fun st r => st.freeChain r.first) st else st) s.store
          ∧ (s.pace.bus ≠ .stuck → t.share = { peers := peers, k := factor.1, overcommit := factor.2.1 }
            ∧ ∀ n, t.ctx n = if first n then (epoch (s.ctx n)).stage factor.1 else epoch ((s.ctx n).stage factor.1))
          ∧ ∃ raised, Raises s t raised ∧ raised.Perm (holdover ++ events ++ overruns ++ skipped
            ++ if s.pace.bus = .stuck then [] else lost ++ overcommit))
      ∧ (∀ m : Stream, t.egress.trim.getLsbD m = (s.egress.trim.getLsbD m || trims m))
      ∧ (∀ n, (s.ctx n).cfg = none → t.ctx n = s.ctx n)
      ∧ (s.pace.bus = .stuck → t.share = s.share ∧ t.pace = s.pace ∧ ∀ n, t.ctx n = epoch (s.ctx n))
      ∧ (s.pace.bus = .off → t.pace = s.pace)
      ∧ (s.pace.bus = .normal → t.pace = { s.pace with
            cur := some {
              interval := s.grid.k + 1, due := after e s.cfg.noticeDelay,
              st := if reached s.t (after e s.cfg.noticeDelay) = true then .waiting else .scheduled,
              failed := 0, holdoff := 0, since := s.t },
            old := t.pace.old }
          ∧ t.pace.old =
              if (s.pace.cur.map (·.st)) = some NoticeState.onLine then s.pace.cur else s.pace.old)

/-- When the pending field epoch H has been reached it is taken: H becomes none, each enabled context of FIELD cadence
makes its stream epoch with the time H, and nothing else of the grid, no other context, the Share Computer and the
Pace Bus Interface change (R7). Of these streams one that overruns makes its TRIM discard, freeing the chains it cuts and
setting its trim bit, with OVERRUN_TRIM, or owes the epoch with OVERRUN_FINISH (R34, R35, R55, R58), in whatever order
among the streams; nothing else is freed, set or raised. -/
def Obligations.FieldEpochReachesFieldStreamsOnly : Prop :=
  ∀ (s : State) (h : Time), s.live = true → s.grid.running = true → s.grid.h = some h → reached s.t h = true →
    let overrun (n : Stream) (p : StreamCfg → Bool) : Bool := match (s.ctx n).cfg with
      | some cfg => cfg.cadence = .field && ((s.ctx n).st = .sending || (s.ctx n).st = .starved) && p cfg
      | none => false
    let trims (n : Stream) : Bool := overrun n fun cfg => cfg.policy = .trim || (s.ctx n).owing
    let owes (n : Stream) : Bool := overrun n fun cfg => cfg.policy = .finish && !(s.ctx n).owing
    let overruns : List Raised := allStreams.flatMap fun n =>
      if trims n = true then [⟨.overrunTrim, n.val, (cutFrame (s.ctx n).ring).1.length⟩]
      else if owes n = true then [⟨.overrunFinish, n.val, (s.ctx n).iNext⟩] else []
    ∃ t, exec .fieldEpoch s = .next t ∧ t.grid = { s.grid with h := none }
      ∧ (∀ n cfg, (s.ctx n).cfg = some cfg → cfg.cadence = .field → t.ctx n = (s.ctx n).atEpoch cfg h)
      ∧ (∀ n cfg, (s.ctx n).cfg = some cfg → cfg.cadence = .frame → t.ctx n = s.ctx n)
      ∧ (∀ n, (s.ctx n).cfg = none → t.ctx n = s.ctx n)
      ∧ (∃ order : List Stream, order.Perm allStreams ∧ t.store = order.foldl (fun st n => if trims n = true
            then (cutFrame (s.ctx n).ring).1.foldl (fun st r => st.freeChain r.first) st else st) s.store)
      ∧ (∀ m : Stream, t.egress.trim.getLsbD m = (s.egress.trim.getLsbD m || trims m))
      ∧ (∃ raised, Raises s t raised ∧ raised.Perm overruns)
      ∧ t.egress = { s.egress with trim := t.egress.trim }
      ∧ t.store = { s.store with free := t.store.free, retired := t.store.retired }
      ∧ t.link = { s.link with queue := t.link.queue, overflow := t.link.overflow }
      ∧ t = { s with
          grid := t.grid, ctxs := t.ctxs, egress := t.egress, store := t.store, link := t.link, fresh := t.fresh }

/-- One sample of REF acts on the qualifier by the table of R9, and changes nothing but it, its count and Cr; the
fourth high sample is the acceptance of the pulse. That REF is sampled at most once in a tick is kept in `refTaken`,
the model's own (log entry 1). -/
def Obligations.RefSampleFollowsTheQualifierTable : Prop :=
  ∀ s : State, s.live = true → s.grid.running = true → s.cfg.refOn = true → s.grid.refTaken = false →
    (∀ c, c < 3 → s.grid.qual = .waitLow c →
        exec (.refSampled false) s = .next { s with grid := { s.grid with qual := .waitLow (c + 1), refTaken := true } })
      ∧ (s.grid.qual = .waitLow 3 →
          exec (.refSampled false) s = .next { s with grid := { s.grid with qual := .armed, refTaken := true } })
      ∧ (∀ c, s.grid.qual = .waitLow c →
          exec (.refSampled true) s = .next { s with grid := { s.grid with qual := .waitLow 0, refTaken := true } })
      ∧ (s.grid.qual = .armed →
          exec (.refSampled false) s = .next { s with grid := { s.grid with qual := .armed, refTaken := true } })
      ∧ (s.grid.qual = .armed →
          exec (.refSampled true) s =
            .next { s with grid := { s.grid with qual := .rising 1, cr := s.t, refTaken := true } })
      ∧ (∀ c, s.grid.qual = .rising c →
          exec (.refSampled false) s = .next { s with grid := { s.grid with qual := .waitLow 1, refTaken := true } })
      ∧ (∀ c, c < 3 → s.grid.qual = .rising c →
          exec (.refSampled true) s = .next { s with grid := { s.grid with qual := .rising (c + 1), refTaken := true } })
      ∧ (s.grid.qual = .rising 3 → exec (.refSampled true) s = exec .refPulseAccepted s)

/-- The phase error of a pulse is the signed difference of the desired epoch Cr + Roff from E_taken or E_next, the one
at the smaller distance, E_taken where they are equal (R10). A step leaves E_next at the first of Cr + Roff, Cr + Roff
+ q_min, … that has not been reached and is not earlier than E_taken + floor(q_min / 2); the remainder and the
out-of-window count become 0, E_taken and K stand (R11), and a pending field epoch is cancelled where E_next lies at
or before it (R12). The times lie within 2^46 ticks of T, as R2 says of every time the grid schedules. -/
def Obligations.PhaseErrorAndStepOfThePulse : Prop :=
  (∀ (p : PartCfg) (cr : Time) (g : Grid),
     let desired := cr + BitVec.ofInt 48 p.roff
     let e := g.phaseError p cr
     (e = (desired - g.eTaken).toInt ∨ e = (desired - g.eNext).toInt)
       ∧ e.natAbs ≤ distance desired g.eTaken ∧ e.natAbs ≤ distance desired g.eNext
       ∧ (distance desired g.eTaken = distance desired g.eNext → e = (desired - g.eTaken).toInt))
    ∧ ∀ (p : PartCfg) (now cr : Time) (g : Grid), 200000 ≤ p.qMin → p.qMin ≤ 50000000 →
        elapsed now g.eTaken ≤ 2 ^ 46 → distance (cr + BitVec.ofInt 48 p.roff) now ≤ 2 ^ 46 →
        let first := cr + BitVec.ofInt 48 p.roff
        let floor := after g.eTaken (p.qMin / 2)
        let bad (x : Time) : Prop := reached now x = true ∨ earlier x floor = true
        let g1 := g.step p now cr
        (∃ m, g1.eNext = after first (m * p.qMin) ∧ ¬bad g1.eNext ∧ ∀ j, j < m → bad (after first (j * p.qMin)))
          ∧ g1.rem = 0 ∧ g1.oow = 0
          ∧ (g.h = none → g1.h = none)
          ∧ (∀ h, g.h = some h → g1.h = if (g1.eNext - h).toInt ≤ 0 then none else some h)
          ∧ g1 = { g with eNext := g1.eNext, rem := 0, h := g1.h, oow := 0 }

/-- The fourth high sample accepts the pulse, and the lock machine acts on it by the lock state (R15 to R17, R19): in
SEEK it steps with cause 0 and locks; in LOCKED an in-window pulse slews, an out-of-window pulse raises the count and
the third steps with cause 2; in HOLDOVER the pulse slews or steps with cause 1, and locks. A slew moves E_next by the
error clamped to the slew limit, not below E_taken + floor(q_min / 2), and where E_next is left reached it takes the
frame epoch of that time, with all its work and its deliveries (R5, R6, R13), REF_LOCK of a HOLDOVER among them. -/
def Obligations.AcceptedPulseActsByTheLockState : Prop :=
  ∀ s : State, s.live = true → s.grid.running = true → s.cfg.refOn = true → s.grid.refTaken = false →
    s.grid.qual = .rising 3 →
    let g := s.grid
    let held : Grid := { g with qual := .waitLow 0, refTaken := true }
    let e := g.phaseError s.cfg g.cr
    let moved := g.eNext + BitVec.ofInt 48 (max (-(s.cfg.slewLimit : Int)) (min e s.cfg.slewLimit))
    let slewed := if earlier moved (after g.eTaken (s.cfg.n / s.cfg.d / 2)) = true
      then after g.eTaken (s.cfg.n / s.cfg.d / 2) else moved
    let stepped := held.step s.cfg s.t g.cr
    let locked (x : Grid) : Grid := { x with lock := .locked, miss := 0, oow := 0, pulse := true }
    let moved0 : State := { s with grid := { locked held with eNext := slewed } }
    let q := (g.rem + s.cfg.n) / s.cfg.d
    let taken : Grid := { locked held with
      eTaken := slewed, eNext := after slewed q, rem := (g.rem + s.cfg.n) % s.cfg.d, k := g.k + 1,
      h := some (after slewed (q / 2)), pulse := false }
    (g.lock = .seek →
        ∃ t, exec .refPulseAccepted s = .next t ∧ t.grid = locked stepped
          ∧ (∃ raised, Raises s t raised ∧ raised.Perm [⟨.refStep, 0, 0⟩, ⟨.refLock, 0, 0⟩])
          ∧ t = { s with grid := t.grid, link := t.link, fresh := t.fresh }
          ∧ t.link = { s.link with queue := t.link.queue, overflow := t.link.overflow })
      ∧ (g.lock = .locked → e.natAbs ≤ s.cfg.wlock → reached s.t slewed = false →
          exec .refPulseAccepted s = .next { s with grid := { locked held with eNext := slewed } })
      ∧ (g.lock = .locked → e.natAbs ≤ s.cfg.wlock → reached s.t slewed = true →
          exec .refPulseAccepted s = .next (moved0.takeFrameEpoch [])
            ∧ exec .refPulseAccepted s = exec .frameEpoch moved0 ∧ (moved0.takeFrameEpoch []).grid = taken)
      ∧ (g.lock = .locked → s.cfg.wlock < e.natAbs → g.oow < 2 →
          exec .refPulseAccepted s =
            .next { s with grid := { held with miss := 0, pulse := true, oow := g.oow + 1 } })
      ∧ (g.lock = .locked → s.cfg.wlock < e.natAbs → g.oow = 2 →
          ∃ t, exec .refPulseAccepted s = .next t ∧ t.grid = { stepped with miss := 0, pulse := true }
            ∧ t.grid.lock = .locked ∧ t.grid.oow = 0 ∧ Raises s t [⟨.refStep, 0, 2⟩]
            ∧ t = { s with grid := t.grid, link := t.link }
            ∧ t.link = { s.link with queue := t.link.queue, overflow := t.link.overflow })
      ∧ (g.lock = .holdover → e.natAbs ≤ s.cfg.wlock → reached s.t slewed = false →
          ∃ t, exec .refPulseAccepted s = .next t ∧ t.grid = { locked held with eNext := slewed }
            ∧ Raises s t [⟨.refLock, 0, 1⟩] ∧ t = { s with grid := t.grid, link := t.link }
            ∧ t.link = { s.link with queue := t.link.queue, overflow := t.link.overflow })
      ∧ (g.lock = .holdover → e.natAbs ≤ s.cfg.wlock → reached s.t slewed = true →
          ∃ t, exec .refPulseAccepted s = .next t ∧ t = moved0.takeFrameEpoch [⟨.refLock, 0, 1⟩] ∧ t.grid = taken
            ∧ Shows s t .refLock 0 1)
      ∧ (g.lock = .holdover → s.cfg.wlock < e.natAbs →
          ∃ t, exec .refPulseAccepted s = .next t ∧ t.grid = locked stepped
            ∧ (∃ raised, Raises s t raised ∧ raised.Perm [⟨.refStep, 0, 1⟩, ⟨.refLock, 0, 1⟩])
            ∧ t = { s with grid := t.grid, link := t.link, fresh := t.fresh }
            ∧ t.link = { s.link with queue := t.link.queue, overflow := t.link.overflow })

/-! ### Streams and the Release Scheduler (Chapters 2 and 3) -/

/-- A SENDING stream whose ring is empty and whose t_next has been reached starves: it becomes STARVED, its bit joins
the starve set, and the starved-frames counter rises the first time in the frame only (R33, R53). Nothing else
changes. -/
def Obligations.StarvationIsCountedOncePerFrame : Prop :=
  ∀ (s : State) (n : Stream), s.live = true → (s.ctx n).cfg.isSome = true → (s.ctx n).st = .sending →
    (s.ctx n).ring = [] → reached s.t (s.ctx n).tNext = true →
    ∃ t, exec (.starve n) s = .next t ∧ t.ctx n = { s.ctx n with
          st := .starved, starveCounted := true, justReached := false, counts := { (s.ctx n).counts with
            starvedFrames := if (s.ctx n).starveCounted = true then (s.ctx n).counts.starvedFrames
              else (s.ctx n).counts.starvedFrames + 1 } }
      ∧ (∀ m, m ≠ n → t.ctx m = s.ctx m)
      ∧ (∀ m : Stream, t.egress.starve.getLsbD m = (s.egress.starve.getLsbD m || decide (m = n)))
      ∧ t = { s with ctxs := t.ctxs, egress := { s.egress with starve := t.egress.starve } }

/-- A stream epoch of time E acts by the stream's state (R30). QUIET: nothing. PRIMED, and DRAINED with a record of
index 0 at the head: a frame start, with B at E, i_next 0, k_a at k_s, W_eff and the capped flag by R46 and R47,
t_next at B + O, and the idle count and the starve-counted flag cleared (R28, R49). DRAINED with an empty ring: the
idle count rises, and at the idle limit the stream becomes QUIET (R31). SENDING or STARVED under FINISH with the owing
flag clear: the frame is kept, the epoch is owed and OVERRUN_FINISH raised (R55). -/
def Obligations.StreamEpochActsByState : Prop :=
  ∀ (s : State) (n : Stream) (cfg : StreamCfg) (e : Time), (s.ctx n).cfg = some cfg →
    let c := s.ctx n
    let t := s.streamEpoch n e
    let wide := ceilDiv (cfg.w * c.ks) 256
    let started : Context := { c with
      base := e, iNext := 0, ka := c.ks, idle := 0, starveCounted := false, st := .sending, tNext := after e cfg.o,
      justReached := false,
      wEff := if cfg.cls = .fixed then cfg.w else min wide cfg.wCap,
      capped := decide (cfg.cls = .flex ∧ cfg.wCap < wide) }
    (c.st = .quiet → t = s)
      ∧ (c.st = .primed → t.ctx n = started)
      ∧ (∀ r rest, c.st = .drained → c.ring = r :: rest → r.index = 0 → t.ctx n = started)
      ∧ (c.st = .drained → c.ring = [] →
          t.ctx n = if c.idle + 1 = cfg.idleLimit then { c with st := .quiet, idle := 0 }
            else { c with idle := c.idle + 1 })
      ∧ (c.st = .quiet ∨ c.st = .primed ∨ c.st = .drained → t = { s with ctxs := t.ctxs })
      ∧ (c.st = .sending ∨ c.st = .starved → cfg.policy = .finish → c.owing = false →
          t.ctx n = { c with owing := true, owed := e } ∧ Raises s t [⟨.overrunFinish, n.val, c.iNext⟩]
            ∧ t = { s with
                ctxs := t.ctxs, link := { s.link with queue := t.link.queue, overflow := t.link.overflow } })
      ∧ ∀ m, m ≠ n → t.ctx m = s.ctx m

/-- The TRIM discard at an epoch of time E, which an overrun makes under TRIM, or under FINISH with the owing flag
set, then clearing the flag (R34, R58). The current frame's records, `cut`, leave the ring from the head through the
frame-end record, or the whole ring where it holds none; each one's chain is freed in ring order; the trimmed counter
rises by their number, the trim bit is set and OVERRUN_TRIM raised; without a frame-end record the discard-to-end flag
is set; and a record of index 0 now at the head starts a frame at E, otherwise the stream is DRAINED (R35). -/
def Obligations.TrimDiscardCutsTheFrame : Prop :=
  ∀ (s : State) (n : Stream) (cfg : StreamCfg) (e : Time) (cut keep : List Record) (whole : Bool),
    (s.ctx n).cfg = some cfg → (s.ctx n).st = .sending ∨ (s.ctx n).st = .starved →
    cfg.policy = .trim ∨ (s.ctx n).owing = true → (s.ctx n).ring = cut ++ keep →
    (if whole = true
      then ∃ before last, cut = before ++ [last] ∧ last.frameEnd = true ∧ ∀ r ∈ before, r.frameEnd = false
      else keep = [] ∧ ∀ r ∈ cut, r.frameEnd = false) →
    let c := s.ctx n
    let t := s.streamEpoch n e
    let cutCtx : Context := { c with
      ring := keep, discard := c.discard || !whole, owing := if cfg.policy = .finish then false else c.owing,
      counts := { c.counts with trimmed := c.counts.trimmed + BitVec.ofNat 32 cut.length } }
    (∀ r rest, keep = r :: rest → r.index = 0 → t.ctx n = startFrame cfg e cutCtx)
      ∧ (keep = [] → t.ctx n = { cutCtx with st := .drained })
      ∧ (∀ m, m ≠ n → t.ctx m = s.ctx m)
      ∧ t.store = cut.foldl (fun st r => st.freeChain r.first) s.store
      ∧ (∀ m : Stream, t.egress.trim.getLsbD m = (s.egress.trim.getLsbD m || decide (m = n)))
      ∧ Raises s t [⟨.overrunTrim, n.val, cut.length⟩]
      ∧ t = { s with
          ctxs := t.ctxs, store := t.store, egress := { s.egress with trim := t.egress.trim },
          link := { s.link with queue := t.link.queue, overflow := t.link.overflow } }

/-- The window and the release times. The effective window of a FIXED stream is W; of a FLEX stream it is the least
whole number not under W × k_a / 256, or W_cap where that is smaller, and the capped flag says that it is (R46, R47).
Packet i falls due floor(i × W_eff / C) ticks after B + O (R48); these times do not fall as i rises; below C they lie
inside the window, and index C lies exactly at its end (R50). -/
def Obligations.WindowAndReleaseTimes : Prop :=
  (∀ (cfg : StreamCfg) (ka : Nat), cfg.cls = .fixed → effectiveWindow cfg ka = cfg.w ∧ cappedAt cfg ka = false)
    ∧ (∀ (cfg : StreamCfg) (ka : Nat), cfg.cls = .flex →
        ∃ m, cfg.w * ka ≤ 256 * m ∧ (∀ j, cfg.w * ka ≤ 256 * j → m ≤ j) ∧ effectiveWindow cfg ka = min m cfg.wCap
          ∧ (cappedAt cfg ka = true ↔ cfg.wCap < m)
          ∧ (256 ≤ ka → cfg.w ≤ cfg.wCap → cfg.w ≤ effectiveWindow cfg ka ∧ effectiveWindow cfg ka ≤ cfg.wCap))
    ∧ ∀ (cfg : StreamCfg) (c : Context), 1 ≤ cfg.c → c.wEff ≤ 50000000 → cfg.o ≤ 50000000 →
        let offset (i : Nat) : Nat := (releaseTime cfg c i - c.base).toNat
        (∀ i, i ≤ 32767 → offset i = cfg.o + i * c.wEff / cfg.c
            ∧ (releaseTime cfg c i).toNat = (c.base.toNat + cfg.o + i * c.wEff / cfg.c) % 2 ^ 48)
          ∧ (∀ i j, i ≤ j → j ≤ 32767 → offset i ≤ offset j)
          ∧ (∀ i, i < cfg.c → i ≤ 32767 → 1 ≤ c.wEff → offset i ≤ cfg.o + c.wEff - 1)
          ∧ (cfg.c ≤ 32767 → offset cfg.c = cfg.o + c.wEff)

/-- Every step keeps the staged and the active factor from 256 to 1,024, both 256 in a FIXED context, and W_eff from W
to W_cap (R23, R29, R46); and the miss count at most 3 and the out-of-window count at most 2 (R17, R18). -/
def Obligations.FactorsAndWindowsStayInRange : Prop :=
  (∀ s t : State, s.coldOutsideRun → (∀ n, (s.ctx n).factorsWf) → step s = .next t → ∀ n, (t.ctx n).factorsWf)
    ∧ ∀ s t : State, s.grid.countsWf → step s = .next t → t.grid.countsWf

/-- Nothing the part does in RUN changes a configured value, of the part or of a stream (R22, R163). Through RUN a
retired bank stays retired, and the BANK_RETIRED and STORE_EXHAUSTED latches once set stay set; a retired block stays
in the retired set (R153, R156, R183). Only a cold start, which leaves RUN, clears them. -/
def Obligations.ConfigurationAndRetirementLastThroughRun : Prop :=
  ∀ s t : State, step s = .next t → s.loader.part = .run → t.loader.part = .run →
    (t.cfg = s.cfg ∧ ∀ n, (t.ctx n).cfg = (s.ctx n).cfg)
      ∧ (∀ j, (s.store.bank j).retired = true → (t.store.bank j).retired = true)
      ∧ (s.link.latches.bankRetired = true → t.link.latches.bankRetired = true)
      ∧ (s.link.latches.storeExhausted = true → t.link.latches.storeExhausted = true)
      ∧ ∀ b ∈ s.store.retired, b ∈ t.store.retired

/-- A ring, with the record being written for it, never holds more than its Q records (R24, R137). A QUIET or STARVED
stream's ring is empty (2.3), as is that of a stream with the discard-to-end flag set (R36), and a context that is not
enabled is DISABLED with an empty ring (R22, R26); a write is only ever made for an enabled stream (R133). -/
def Obligations.RingsStayWithinTheirDepth : Prop :=
  (∀ s t : State, (∀ n, s.ringFits n) → step s = .next t → ∀ n, t.ringFits n)
    ∧ ∀ s t : State, s.coldOutsideRun → s.writeEnabled → (∀ n, (s.ctx n).ringWf) → step s = .next t →
        t.writeEnabled ∧ ∀ n, (t.ctx n).ringWf

/-- Outside RUN every block stays at its cold-start values, the stream sets (R85), the round-robin pointer, the index
counters and the reported flags (R130) among them (R3, R22, R108, R143, R171), and while COLD is asserted T stays 0
with no image (R1, R158). That the PART registers are at their values of before acceptance, 0 and OFF, is the model's
choice of those values (log entry 2), as are those of Cr and of the receive side of PACE (log entry 3); that nothing
of a rejected image is written into them is R171's. -/
def Obligations.BlocksStayColdOutsideRun : Prop :=
  ∀ s t : State, s.coldOutsideRun → s.heldAtZero → step s = .next t → t.coldOutsideRun ∧ t.heldAtZero

/-! ### The Egress Arbiter and the Egress Port (Chapter 4) -/

/-- The heads due when a grant is taken, the streams of `u`, are those that were due before it and those that this
tick's T has made due before it. A head is due by R51 where its stream is SENDING, its ring not empty and its t_next
reached; of the heads whose t_next T reaches at this tick the free value says which come due before the grant, and no
other head waits (R69; the form of the choice is the model's, log entry 4). Where one is due or comes due, some head
is due at the grant (R67). Among them the arbiter grants exactly one, the first by R68: the earliest release time, by
the signed difference; FIXED before FLEX where the times are equal; the lower number where the classes are equal too.
The released counter of that stream, and of no other, rises. -/
def Obligations.GrantTakesTheFirstDueHead : Prop :=
  ∀ s : State,
    let u := s.takeDue
    (∀ n, n ∈ s.reachedStreams ↔ (s.ctx n).cfg.isSome = true ∧ (s.ctx n).st = .sending ∧ (s.ctx n).ring ≠ []
        ∧ reached s.t (s.ctx n).tNext = true)
      ∧ (∀ n ∈ s.dueStreams, n ∈ u.dueStreams) ∧ (∀ n ∈ u.dueStreams, n ∈ s.reachedStreams)
      ∧ (∀ n ∈ s.reachedStreams, n ∉ s.dueStreams → (s.ctx n).justReached = true)
      ∧ (∀ n, u.ctx n = { s.ctx n with justReached := (u.ctx n).justReached })
      ∧ u = { s with ctxs := u.ctxs, fresh := u.fresh }
      ∧ (s.reachedStreams ≠ [] → ∃ n, u.grantChoice = some n ∧ n ∈ u.dueStreams
          ∧ (∀ m ∈ u.dueStreams, m ≠ n →
              let d := ((s.ctx m).tNext - (s.ctx n).tNext).toInt
              0 < d ∨ (d = 0 ∧ (s.ctx n).isFixed = true ∧ (s.ctx m).isFixed = false)
                ∨ (d = 0 ∧ (s.ctx n).isFixed = (s.ctx m).isFixed ∧ n < m))
          ∧ ∀ t, s.live = true → s.egress.slot = none → exec .grant s = .next t →
              ∀ m, (t.ctx m).counts.released = (s.ctx m).counts.released + if m = n then 1 else 0)

/-- A grant of stream n's head r, taken whole (R70). The record leaves the ring and i_next rises (R32). Without the
frame-end flag the stream stays SENDING with the next release time (R49); with it the stream is DRAINED, or, with the
owing flag set and a record of index 0 behind, starts the owed frame at once (R56). Released rises; late rises with
the late bit where T lies more than Tlate past the release time (R72); the sequence counter rises (R74); unstamped
rises once where a configured field does not fit an emitted packet (R75), and dropped where the link is down (R82).
Every other stream whose head was due when the grant was taken, a stream of `u`, counts a collision with its bit
(R71), and no other context changes. -/
def Obligations.GrantDoesTheStreamsWork : Prop :=
  ∀ (s : State) (n : Stream) (cfg : StreamCfg) (r : Record) (rest : List Record), s.live = true →
    let u := s.takeDue
    s.egress.slot = none → u.grantChoice = some n → (s.ctx n).cfg = some cfg → (s.ctx n).ring = r :: rest →
    r.len ≤ 256 * (s.store.chain r.first).length →
    let c := u.ctx n
    let isLate : Bool := decide (s.cfg.tlate < (s.t - c.tNext).toNat)
    let misfit : Bool := (match cfg.stampOffset with | none => false | some o => decide (r.len < o + 4))
      || (match cfg.seqOffset with | none => false | some o => decide (r.len < o + 2))
    let after1 : Context := { c with
      ring := rest, iNext := c.iNext + 1, seq := c.seq + 1,
      counts := { c.counts with
        released := c.counts.released + 1,
        late := if isLate = true then c.counts.late + 1 else c.counts.late,
        unstamped := if s.egress.linkUp = true ∧ misfit = true then c.counts.unstamped + 1 else c.counts.unstamped,
        dropped := if s.egress.linkUp = true then c.counts.dropped else c.counts.dropped + 1 } }
    ∃ t, exec .grant s = .next t
      ∧ (r.frameEnd = false → t.ctx n = { after1 with tNext := releaseTime cfg c (c.iNext + 1) })
      ∧ (r.frameEnd = true → c.owing = false → t.ctx n = { after1 with st := .drained })
      ∧ (r.frameEnd = true → c.owing = true → rest = [] → t.ctx n = { after1 with st := .drained, owing := false })
      ∧ (∀ r2 rest2, r.frameEnd = true → c.owing = true → rest = r2 :: rest2 → r2.index = 0 →
          t.ctx n = startFrame cfg c.owed { after1 with owing := false })
      ∧ (∀ m, m ≠ n → t.ctx m = if m ∈ u.dueStreams then
            { u.ctx m with counts := { (u.ctx m).counts with collisions := (u.ctx m).counts.collisions + 1 } }
          else u.ctx m)
      ∧ (∀ m : Stream, t.egress.collision.getLsbD m
          = (s.egress.collision.getLsbD m || (decide (m ≠ n) && decide (m ∈ u.dueStreams))))
      ∧ (∀ m : Stream, t.egress.late.getLsbD m = (s.egress.late.getLsbD m || (decide (m = n) && isLate)))
      ∧ t.egress = { s.egress with
          collision := t.egress.collision, late := t.egress.late, slot := t.egress.slot, offer := t.egress.offer }
      ∧ t = { s with ctxs := t.ctxs, egress := t.egress, store := t.store, fresh := t.fresh }

/-- While the link is up a grant fills the slot with the packet's record, taken 0, at T, and asserts OFFER, at once
or, where the slot emptied at this tick, from the next (R66, R70, R76); of the store only bytes and parities may
change. While it is down the slot stays EMPTY and the packet's chain is freed (R82, R84). -/
def Obligations.GrantFillsTheSlotOrDropsThePacket : Prop :=
  ∀ (s t : State) (n : Stream) (r : Record) (rest : List Record), s.live = true → s.egress.slot = none →
    s.takeDue.grantChoice = some n → (s.ctx n).ring = r :: rest → exec .grant s = .next t →
    (s.egress.linkUp = true →
        t.egress.slot = some {
          stream := n, first := r.first, len := r.len, seq := (s.ctx n).seq, grantTime := s.t, taken := 0 }
          ∧ t.egress.offer = !s.egress.emptied
          ∧ t.store = { s.store with bytes := t.store.bytes, parity := t.store.parity })
      ∧ (s.egress.linkUp = false →
        t.egress.slot = none ∧ t.egress.offer = s.egress.offer ∧ t.store = s.store.freeChain r.first)

/-- A packet granted while the link is up carries, where each field is configured and fits, the stamp floor(B × Mn /
Md) mod 2^32 and the sequence number, most significant byte first, the number over the stamp where they overlap; each
written byte has its parity (R73 to R75, R151). Every other byte of the store is as it was. -/
def Obligations.StampAndNumberAreWritten : Prop :=
  ∀ (s t : State) (n : Stream) (cfg : StreamCfg) (r : Record) (rest : List Record), s.live = true →
    s.egress.slot = none → s.egress.linkUp = true → s.takeDue.grantChoice = some n → (s.ctx n).cfg = some cfg →
    (s.ctx n).ring = r :: rest → r.len ≤ 256 * (s.store.chain r.first).length → (s.store.chain r.first).Nodup →
    s.store.wf = true → exec .grant s = .next t →
    let chain := s.store.chain r.first
    let stamp := (s.ctx n).base.toNat * s.cfg.mn / s.cfg.md % 2 ^ 32
    let seq := (s.ctx n).seq.toNat
    let inStamp (x : Nat) : Prop := ∃ o, cfg.stampOffset = some o ∧ o + 4 ≤ r.len ∧ o ≤ x ∧ x < o + 4
    let inSeq (x : Nat) : Prop := ∃ o, cfg.seqOffset = some o ∧ o + 2 ≤ r.len ∧ o ≤ x ∧ x < o + 2
    (∀ o i, cfg.seqOffset = some o → o + 2 ≤ r.len → i < 2 →
        t.store.readByte chain (o + i) = some (BitVec.ofNat 8 (seq / 256 ^ (1 - i)), true))
      ∧ (∀ o i, cfg.stampOffset = some o → o + 4 ≤ r.len → i < 4 → ¬inSeq (o + i) →
        t.store.readByte chain (o + i) = some (BitVec.ofNat 8 (stamp / 256 ^ (3 - i)), true))
      ∧ (∀ x, ¬inStamp x → ¬inSeq x → t.store.readByte chain x = s.store.readByte chain x)
      ∧ ∀ a, (∀ x, cellOf chain x = some a → ¬inStamp x ∧ ¬inSeq x) →
          readCell 0 t.store.bytes a = readCell 0 s.store.bytes a
            ∧ readCell false t.store.parity a = readCell false s.store.parity a

/-- The MAC takes the next byte while OFFER is asserted. A byte whose parity matches is driven on DATA and the count
of bytes taken rises, and nothing else changes (R76, R151). A byte whose parity fails abandons the packet: OFFER is
withdrawn, ABANDON asserted, the slot EMPTY, the abandoned counter one higher (R79); the store records the error
against the block's bank and raises PARITY_ERROR (R152), and the chain is freed (R84). That DATA then holds the last
byte is the model's choice (log entry 14). -/
def Obligations.EgressByteIsSentOrAbandonsThePacket : Prop :=
  ∀ (s : State) (sl : Slot), s.live = true → s.egress.slot = some sl → s.egress.offer = true → sl.taken < sl.len →
    sl.len ≤ 256 * (s.store.chain sl.first).length →
    ∃ v ok b, s.store.readByte (s.store.chain sl.first) sl.taken = some (v, ok)
      ∧ (s.store.chain sl.first)[sl.taken / 256]? = some b
      ∧ (ok = true → exec .egressByte s =
          .next { s with egress := { s.egress with data := v, slot := some { sl with taken := sl.taken + 1 } } })
      ∧ (ok = false → ∃ t, exec .egressByte s = .next t ∧ t.egress = { s.egress with
            slot := none, offer := false, abandon := true, emptied := true }
          ∧ t.ctx sl.stream = { s.ctx sl.stream with counts := { (s.ctx sl.stream).counts with
              abandoned := (s.ctx sl.stream).counts.abandoned + 1 } }
          ∧ (∀ m, m ≠ sl.stream → t.ctx m = s.ctx m)
          ∧ (t.store.bank (bankOf b)).integrity = true
          ∧ (t.store.bank (bankOf b)).errors = min ((s.store.bank (bankOf b)).errors + 1) 2
          ∧ Shows s t .parityError (bankOf b).val b.toNat
          ∧ t.store = ((s.parityError b).store).freeChain sl.first ∧ t.link = (s.parityError b).link
          ∧ t = { s with ctxs := t.ctxs, egress := t.egress, store := t.store, link := t.link })

/-- DONE completes the packet in the slot, whether all its bytes were taken or not: OFFER is withdrawn, the chain
freed and the slot EMPTY, with no counter changed and no event; a DONE while the slot is EMPTY is ignored (R76, R77).
At the stall limit, measured from the grant, the emission is abandoned: ABANDON asserted and OFFER withdrawn, the
chain freed, the abandoned counter one higher, the EGRESS_STALL latch set with FAULT, and the event raised with the
stream and the sequence number (R78, R183). That DATA holds the last byte after either is the model's choice (log
entry 14). -/
def Obligations.EmissionEndsByDoneOrByStall : Prop :=
  (∀ s : State, s.live = true →
     (∀ sl, s.egress.slot = some sl →
         exec .done s = .next { s with
           store := s.store.freeChain sl.first,
           egress := { s.egress with slot := none, offer := false, emptied := true, doneEdge := false } })
       ∧ (s.egress.slot = none → exec .done s = .next { s with egress := { s.egress with doneEdge := false } }))
    ∧ ∀ (s : State) (sl : Slot), s.live = true → s.egress.slot = some sl →
        reached s.t (after sl.grantTime s.cfg.stallLimit) = true →
        ∃ t, exec .egressStall s = .next t
          ∧ t.egress = { s.egress with slot := none, offer := false, abandon := true, emptied := true }
          ∧ t.store = s.store.freeChain sl.first
          ∧ t.ctx sl.stream = { s.ctx sl.stream with counts := { (s.ctx sl.stream).counts with
              abandoned := (s.ctx sl.stream).counts.abandoned + 1 } }
          ∧ (∀ m, m ≠ sl.stream → t.ctx m = s.ctx m)
          ∧ t.link.latches = { s.link.latches with egressStall := true } ∧ t.faultLine = true
          ∧ Raises s t [⟨.egressStall, sl.stream.val, sl.seq.toNat⟩]
          ∧ t = { s with
              ctxs := t.ctxs, egress := t.egress, store := t.store,
              link := { s.link with latches := t.link.latches, queue := t.link.queue, overflow := t.link.overflow } }

/-- In RUN a change of LINK_UP changes the link state at that tick and raises LINK_UP or LINK_DOWN, and nothing else,
the packet in emission among it (R81, R83); the line at its old level changes nothing. Outside RUN only the line
moves. -/
def Obligations.LinkChangeSetsTheLinkState : Prop :=
  ∀ (s : State) (up : Bool), s.live = true →
    (s.loader.part = .run → s.egress.linkUp ≠ up →
        ∃ t, exec (.linkChange up) s = .next t ∧ t.egress = { s.egress with linkUp := up }
          ∧ Raises s t [⟨if up then .linkUp else .linkDown, 0, 0⟩]
          ∧ t = { s with
              pins := { s.pins with linkUp := up }, egress := t.egress,
              link := { s.link with queue := t.link.queue, overflow := t.link.overflow } })
      ∧ (s.loader.part = .run → s.egress.linkUp = up →
        exec (.linkChange up) s = .next { s with pins := { s.pins with linkUp := up } })
      ∧ (s.loader.part ≠ .run → exec (.linkChange up) s = .next { s with pins := { s.pins with linkUp := up } })

/-! ### Feed Intake (Chapter 7) -/

/-- OFFER asserted on an EMPTY channel, after being seen deasserted, makes the offer PENDING with its length, mark and
bytes; each offer gets one answer, so OFFER still asserted after it changes nothing. OFFER deasserted arms the channel
again, and withdraws a PENDING offer with nothing else changed (R129, R142). -/
def Obligations.OfferWaitsUntilAnswered : Prop :=
  ∀ (s : State) (n : Stream) (len : BitVec 16) (last : Bool) (data : List Byte), s.live = true →
    data.length = len.toNat →
    ((s.chan n).st = .empty → (s.chan n).armed = true →
        exec (.offerPresented n len last data) s = .next (s.setChan n { s.chan n with
          pin := some { len := len.toNat, frameEnd := last, data := data }, st := .pending, armed := false }))
      ∧ ((s.chan n).st ≠ .empty ∨ (s.chan n).armed = false → exec (.offerPresented n len last data) s = .next s)
      ∧ ((s.chan n).st = .pending →
        exec (.offerDeasserted n) s = .next (s.setChan n { s.chan n with pin := none, st := .empty, armed := true }))
      ∧ ((s.chan n).st = .empty →
        exec (.offerDeasserted n) s = .next (s.setChan n { s.chan n with pin := none, armed := true }))

/-- While the write path is FREE and some offer is answerable, the arbiter selects the first answerable one from the
pointer on, mod 16, and sets the pointer behind it (R131). A PENDING offer is answerable when the table of R133 gives
it no hold: in RUN, with a bank in service, on a channel that is disabled, or discarding, or whose offer has a bad
length, or whose ring and whose store have room. -/
def Obligations.SelectionServesInRoundRobinOrder : Prop :=
  ∀ s : State, s.live = true → s.feed.write = none → (∃ n, s.answerable n = true) →
    ∃ (i : Fin 16) (t : State), exec .intakeSelection s = .next t ∧ s.selectChoice = some (s.feed.ptr + i)
      ∧ s.answerable (s.feed.ptr + i) = true ∧ (∀ j : Fin 16, j < i → s.answerable (s.feed.ptr + j) = false)
      ∧ t.feed.ptr = s.feed.ptr + i + 1
      ∧ ∀ m o, (s.chan m).st = .pending → (s.chan m).pin = some o →
          (s.answerable m = true ↔ s.loader.part = .run ∧ s.store.exhausted = false
            ∧ ∀ cfg, (s.ctx m).cfg = some cfg → (s.ctx m).discard = false → 16 ≤ o.len → o.len ≤ 2048 →
                (s.ctx m).ring.length < cfg.depth ∧ (o.len + 255) / 256 ≤ s.store.usableFree)

/-- The outcome of a selection, by the row of R133. A disabled stream's offer is taken and discarded, the first
reported (R134). Under the discard-to-end flag it is indexed, discarded and counted trimmed, and a FRAME_END, the
overlength cut among them, clears the flag (R135, R139). A bad length is discarded unindexed with FEED_LENGTH (R136).
Otherwise blocks are allocated, the offer is indexed, and the write begins (R138, R140). A discarded offer is answered
with TAKE (R129). -/
def Obligations.SelectionCarriesOutTheRow : Prop :=
  ∀ (s : State) (n : Stream) (o : Offer), s.live = true → s.feed.write = none → s.selectChoice = some n →
    (s.chan n).pin = some o →
    let ch := s.chan n
    let c := s.ctx n
    let ends : Bool := o.frameEnd || decide (ch.index = 32767)
    let next := if ends = true then 0 else ch.index + 1
    let take := s.feed.take ||| BitVec.twoPow 16 n.val
    ∃ t, exec .intakeSelection s = .next t ∧ (∀ m, m ≠ n → t.chan m = s.chan m ∧ t.ctx m = s.ctx m)
      ∧ t = { s with ctxs := t.ctxs, feed := t.feed, store := t.store, link := { s.link with
            queue := t.link.queue, overflow := t.link.overflow } }
      ∧ (c.cfg = none → t.chan n = { ch with st := .empty, armed := false, reported := true } ∧ t.feed.take = take
          ∧ t.feed.write = none ∧ t.ctxs = s.ctxs ∧ t.store = s.store
          ∧ (ch.reported = false → Raises s t [⟨.feedUnconfigured, n.val, o.len⟩])
          ∧ (ch.reported = true → t.link = s.link))
      ∧ (c.cfg.isSome = true → c.discard = true →
          t.chan n = { ch with st := .empty, armed := false, index := next } ∧ t.feed.take = take
            ∧ t.feed.write = none ∧ t.store = s.store
            ∧ t.ctx n = { c with
                discard := !ends, counts := { c.counts with trimmed := c.counts.trimmed + 1 } }
            ∧ Raises s t (if ch.index = 32767 ∧ o.frameEnd = false then [⟨.feedOverlength, n.val, o.len⟩] else []))
      ∧ (c.cfg.isSome = true → c.discard = false → o.len < 16 ∨ 2048 < o.len →
          t.chan n = { ch with st := .empty, armed := false } ∧ t.feed.take = take ∧ t.feed.write = none
            ∧ t.ctxs = s.ctxs ∧ t.store = s.store ∧ Raises s t [⟨.feedLength, n.val, o.len⟩])
      ∧ (c.cfg.isSome = true → c.discard = false → 16 ≤ o.len → o.len ≤ 2048 →
          ∃ first, s.store.allocate ((o.len + 255) / 256) = some (first, t.store)
            ∧ t.chan n = { ch with st := .writing, index := next } ∧ t.feed.take = s.feed.take ∧ t.ctxs = s.ctxs
            ∧ t.feed.write = some {
                channel := n, stream := n, index := ch.index, frameEnd := ends, len := o.len, first := first,
                start := s.t, read := 0 }
            ∧ Raises s t (if ch.index = 32767 ∧ o.frameEnd = false then [⟨.feedOverlength, n.val, o.len⟩] else []))

/-- At each tick of a write 16 more of the offer's bytes, or the last few, go into the chain in order, each with its
parity, byte x at its place of R145; every other byte of the store, its lists and its links stand (R140, R151). The
write of L bytes thus takes ceil(L / 16) ticks. -/
def Obligations.WriteStoresSixteenBytesATick : Prop :=
  ∀ (s : State) (w : WriteRec) (o : Offer), s.live = true → s.pending = [] → s.dueNow = [] →
    s.feed.write = some w → (s.chan w.channel).pin = some o → w.len ≤ o.data.length → w.read < w.len →
    w.len ≤ 256 * (s.store.chain w.first).length → (s.store.chain w.first).Nodup → s.store.wf = true →
    let chain := s.store.chain w.first
    let n := min 16 (w.len - w.read)
    ∃ t, step s = .next t ∧ t.feed.write = some { w with read := w.read + n }
      ∧ (w.len - (w.read + n) + 15) / 16 + 1 = (w.len - w.read + 15) / 16
      ∧ (∀ i, i < n → t.store.readByte chain (w.read + i) = (o.data[w.read + i]?).map fun v => (v, true))
      ∧ (∀ x, x < w.read ∨ w.read + n ≤ x → t.store.readByte chain x = s.store.readByte chain x)
      ∧ (∀ a, (∀ i, i < n → cellOf chain (w.read + i) ≠ some a) →
          readCell 0 t.store.bytes a = readCell 0 s.store.bytes a
            ∧ readCell false t.store.parity a = readCell false s.store.parity a)
      ∧ t.store = { s.store with bytes := t.store.bytes, parity := t.store.parity }

/-- A write that has read all its bytes is completed (R141). With the discard-to-end flag clear its record joins the
tail of the ring with T as its arrival, a QUIET stream becomes PRIMED and a STARVED one SENDING (R27). With the flag
set its chain is freed, it counts as trimmed, and a frame end clears the flag. Either way the offer is answered and
the write path is FREE. OFFER withdrawn during its write undoes it: the chain is freed, the channel's index counter
returns to the index the offer received, the write path is FREE and the channel EMPTY without TAKE, and FEED_WITHDRAWN
tells the bytes read; no context changes (R142). -/
def Obligations.WriteEndsByCompletionOrWithdrawal : Prop :=
  (∀ (s : State) (w : WriteRec), s.live = true → s.feed.write = some w → w.read = w.len →
     let c := s.ctx w.stream
     ∃ t, exec .writeComplete s = .next t ∧ t.feed.write = none ∧ t.feed.ptr = s.feed.ptr
       ∧ t.chan w.channel = { s.chan w.channel with st := .empty, armed := false }
       ∧ t.feed.take = (s.feed.take ||| BitVec.twoPow 16 w.channel.val)
       ∧ (∀ m, m ≠ w.channel → t.chan m = s.chan m) ∧ (∀ m, m ≠ w.stream → t.ctx m = s.ctx m)
       ∧ (c.discard = false → t.store = s.store ∧ t.ctx w.stream = { c with
           ring := c.ring ++ [{
             index := w.index, frameEnd := w.frameEnd, len := w.len, first := w.first, arrival := s.t }],
           st := if c.st = .quiet then .primed else if c.st = .starved then .sending else c.st })
       ∧ (c.discard = true → t.store = s.store.freeChain w.first ∧ t.ctx w.stream = { c with
           discard := !w.frameEnd, counts := { c.counts with trimmed := c.counts.trimmed + 1 } })
       ∧ t = { s with ctxs := t.ctxs, feed := t.feed, store := t.store })
    ∧ ∀ (s : State) (n : Stream) (w : WriteRec), s.live = true → (s.chan n).st = .writing → s.feed.write = some w →
        w.channel = n →
        ∃ t, exec (.feedWithdrawn n) s = .next t
          ∧ t.chan n = { s.chan n with pin := none, st := .empty, armed := true, index := w.index }
          ∧ (∀ m, m ≠ n → t.chan m = s.chan m) ∧ t.feed = { s.feed with chans := t.feed.chans, write := none }
          ∧ t.store = s.store.freeChain w.first ∧ Raises s t [⟨.feedWithdrawn, w.stream.val, w.read⟩]
          ∧ t = { s with
              feed := t.feed, store := t.store,
              link := { s.link with queue := t.link.queue, overflow := t.link.overflow } }

/-! ### The Packet Store (Chapter 8) -/

/-- An allocation of n blocks while n usable ones are free takes the first n usable blocks of the free list, in order,
and links them into the packet's chain; the blocks of RETIRED banks met on the way join the retired set, and the
usable free count falls by n (R146, R147, R150). A freed chain leaves use whole and in chain order: its blocks of
banks in service join the tail of the free list, its blocks of RETIRED banks the retired set, and the usable free
count rises by those that join the list (R148, R150). No byte changes in either. -/
def Obligations.AllocationAndFreeingOfChains : Prop :=
  (∀ (st : Store) (n : Nat), 1 ≤ n → n ≤ 8 → n ≤ st.usableFree → st.headUsable → st.free.Nodup → st.wf = true →
     let usable (l : List Block) : List Block := l.filter fun b => !st.isRetired b
     ∃ first st', st.allocate n = some (first, st') ∧ st'.chain first = (usable st.free).take n
       ∧ usable st'.free = (usable st.free).drop n ∧ st'.usableFree + n = st.usableFree ∧ st'.headUsable
       ∧ (∀ b, b ∈ st'.retired ↔ b ∈ st.retired ∨ (b ∈ st.free ∧ b ∉ st'.free ∧ st.isRetired b = true))
       ∧ (∀ b, b ∉ st'.chain first → st'.next b = st.next b)
       ∧ st' = { st with free := st'.free, retired := st'.retired, links := st'.links })
    ∧ ∀ (st : Store) (first : Block),
        let st' := st.freeChain first
        st'.free = st.free ++ (st.chain first).filter (fun b => !st.isRetired b)
          ∧ (∀ b, b ∈ st'.retired ↔ b ∈ st.retired ∨ (b ∈ st.chain first ∧ st.isRetired b = true))
          ∧ st'.usableFree = st.usableFree + (st.chain first).countP (fun b => !st.isRetired b)
          ∧ (st.headUsable → st'.headUsable)
          ∧ st' = { st with free := st'.free, retired := st'.retired }

/-- Each of the 8,192 blocks is free, retired or in use by one packet, and no block stands twice (R144); a packet in a
ring, in the write path or in the slot has a length from 16 to 2,048 and a chain of ceil(L / 256) blocks (R66, R145).
Every step of the powered part keeps this, and a power-up makes it so. Where power is removed the slot is emptied with
its chain not freed, the model's choice of a state that only a cold start leaves (log entry 11). That the tables keep
their canonical form, the premise `wf`, is kept by every step, as another statement says. -/
def Obligations.BlocksAreFreeRetiredOrInUse : Prop :=
  ∀ s t : State, s.coldOutsideRun → s.store.wf = true → (s.powered = true → s.blocksConserved) → step s = .next t → t.powered = true →
    t.blocksConserved

/-- Every step keeps the store's sparse tables in their canonical form, and no step leaves a block of a RETIRED bank
at the head of the free list (R146); the event queue never holds more than 32 entries, nor the input buffer more than
64 bytes (R174, R182). The form of the tables is the model's own (log entry 6). Entries leave the queue by EVENTS alone
and by cold start (R182): a step of any other kind lets new entries join the tail behind all that stand, and neither
clears the overflow flag nor sets it but where an event meets a full queue. A cold start empties the queue and clears
the flag, and an EVENTS served takes entries from the head and clears the flag (R180); only a byte on MRX, or the end of
a response, can bring that. -/
def Obligations.StoreAndQueuesKeepTheirForm : Prop :=
  (∀ s t : State, step s = .next t →
     (s.store.wf = true → t.store.wf = true) ∧ (s.store.headUsable → t.store.headUsable))
    ∧ (∀ s t : State, s.link.wf → step s = .next t → t.link.wf)
    ∧ ∀ s t : State, step s = .next t →
        let front (c : Instr) : Prop := ∃ rest, s.pending = c :: rest
        (∃ raised, Raises s t raised)
          ∨ ((front .powerUp ∨ (front .coldAssert ∧ s.live = true)) ∧ t.link.queue = [] ∧ t.link.overflow = false)
          ∨ ((front .responseComplete ∨ ∃ b, front (.requestByte b) ∨ front (.imageByte b))
            ∧ ∃ (n : Nat) (r : Response), 1 ≤ n ∧ n ≤ 32 ∧ t.link.queue = s.link.queue.drop n
              ∧ t.link.overflow = false ∧ t.link.responder = some r ∧ r.start = s.t
              ∧ r.bytes.take 2 = [0x83, 0x00])

/-- A parity error in a bank in service whose error count is 1 retires the bank at once: its blocks on the free list
are usable no more, the BANK_RETIRED latch is set and the event raised (R153), and with the fourth bank the free list
is empty, the STORE_EXHAUSTED latch set and the event raised with the blocks in use (R156). With any other count, or
in a RETIRED bank, no bank is retired and no latch set (R152). No other bank changes. The events enter the queue in the
order PARITY_ERROR, BANK_RETIRED, STORE_EXHAUSTED (R157). FAULT is asserted with any
parity error, since the bank's integrity bit is set (R183). -/
def Obligations.SecondParityErrorRetiresTheBank : Prop :=
  ∀ (s : State) (b : Block),
    let j := bankOf b
    let t := s.parityError b
    let bk := s.store.bank j
    (bk.retired = false → bk.errors = 1 →
        t.store.bank j = { integrity := true, errors := 2, retired := true }
          ∧ t.store.usableFree + s.store.free.countP (fun x => decide (bankOf x = j)) = s.store.usableFree
          ∧ t.store.headUsable ∧ t.link.latches.bankRetired = true
          ∧ ((∀ k, k ≠ j → (s.store.bank k).retired = true) →
              t.store.free = [] ∧ t.store.usableFree = 0
                ∧ t.link.latches = { s.link.latches with bankRetired := true, storeExhausted := true }
                ∧ Raises s t [⟨.parityError, j.val, b.toNat⟩, ⟨.bankRetired, j.val, b.toNat⟩,
                  ⟨.storeExhausted, 0, t.store.inUse⟩])
          ∧ ((∃ k, k ≠ j ∧ (s.store.bank k).retired = false) →
              t.link.latches = { s.link.latches with bankRetired := true }
                ∧ Raises s t [⟨.parityError, j.val, b.toNat⟩, ⟨.bankRetired, j.val, b.toNat⟩]))
      ∧ (bk.retired = true ∨ bk.errors ≠ 1 →
        t.store.bank j = { integrity := true, errors := min (bk.errors + 1) 2, retired := bk.retired }
          ∧ t.store = { s.store with banks := t.store.banks } ∧ t.link.latches = s.link.latches
          ∧ Raises s t [⟨.parityError, j.val, b.toNat⟩])
      ∧ (∀ k, k ≠ j → t.store.bank k = s.store.bank k)
      ∧ (s.live = true → t.faultLine = true)
      ∧ t = { s with store := t.store, link := { s.link with
          latches := t.link.latches, queue := t.link.queue, overflow := t.link.overflow } }

/-! ### The Share Computer (Chapter 5) -/

/-- The share factor k and OVERCOMMIT, by the first row of R100 that holds: the whole load in the budget B leaves k at
256; otherwise, with nothing stretchable k is 256 and OVERCOMMIT set, with no budget left beside the fixed load k is
1,024 and OVERCOMMIT set, and else k is the least factor that brings the stretched load into A = B − F, if it is at
most 1,024, and 1,024 with OVERCOMMIT set if not. k lies from 256 to 1,024 (R100). -/
def Obligations.ShareFactorMeetsTheBudget : Prop :=
  ∀ budget f x : Nat,
    let k := (shareFactor budget f x).1
    let oc := (shareFactor budget f x).2.1
    let cause := (shareFactor budget f x).2.2
    256 ≤ k ∧ k ≤ 1024
      ∧ (f + x ≤ budget → k = 256 ∧ oc = false)
      ∧ (budget < f + x → x = 0 → k = 256 ∧ oc = true ∧ cause = 0)
      ∧ (x ≠ 0 → budget ≤ f → k = 1024 ∧ oc = true ∧ cause = 1)
      ∧ (budget < f + x → x ≠ 0 → f < budget → x * 256 ≤ (budget - f) * 1024 →
          oc = false ∧ 256 < k ∧ x * 256 ≤ (budget - f) * k ∧ ∀ j, x * 256 ≤ (budget - f) * j → k ≤ j)
      ∧ (f < budget → (budget - f) * 1024 < x * 256 → k = 1024 ∧ oc = true ∧ cause = 2)

/-- The Share Computer's work at a frame epoch: every peer ages by R95, the one unheard at missed count 3 is removed
with PEER_LOST (R96); k and OVERCOMMIT come from the own claims and those of the entries left (R99, R100); a change of
OVERCOMMIT raises its event (R101); and every enabled FLEX context takes k as its staged factor, no other anything
(R102). While the bus is STUCK the epoch is passed over (R97). -/
def Obligations.ShareEpochAgesThenStages : Prop :=
  ∀ s : State,
    let t := s.shareEpoch
    let lost (p : Peer) : Prop := p.heard = false ∧ 3 ≤ p.missed
    let aged (p : Peer) : Peer := { p with
      heard := false, missed := if p.heard = true then 0 else p.missed + 1,
      st := if p.heard = true then .present else .held }
    let factor := shareFactor s.cfg.budget (s.ownClaim .fixed + (t.share.peers.map (·.f)).sum)
      (s.ownClaim .flex + (t.share.peers.map (·.x)).sum)
    let removed : List Raised := (s.share.peers.filter fun p => !p.heard && decide (3 ≤ p.missed)).map fun p =>
      ⟨.peerLost, p.id, min (p.f + p.x) 65535⟩
    (s.pace.bus = .stuck → t = s)
      ∧ (s.pace.bus ≠ .stuck →
        (∀ q, q ∈ t.share.peers ↔ ∃ p ∈ s.share.peers, ¬lost p ∧ q = aged p)
          ∧ t.share.k = factor.1 ∧ t.share.overcommit = factor.2.1
          ∧ (∃ raised, Raises s t raised ∧ raised.Perm (removed
              ++ if s.share.overcommit = false ∧ factor.2.1 = true then [⟨.overcommitOn, 0, factor.2.2⟩]
                else if s.share.overcommit = true ∧ factor.2.1 = false then [⟨.overcommitOff, 0, factor.1⟩] else []))
          ∧ (∀ n cfg, (s.ctx n).cfg = some cfg →
              t.ctx n = if cfg.cls = .flex then { s.ctx n with ks := factor.1 } else s.ctx n)
          ∧ (∀ n, (s.ctx n).cfg = none → t.ctx n = s.ctx n)
          ∧ t = { s with
              share := t.share, ctxs := t.ctxs, fresh := t.fresh,
              link := { s.link with queue := t.link.queue, overflow := t.link.overflow } })

/-- A notice handed over acts by its id. The own id is a clash: the latch is set with FAULT, the event raised, nothing
stored (R92, R183). Otherwise the peer's entry holds the notice's claims, flags and offset, heard, PRESENT, missed 0
(R90, R91), with the misaligned flag judged by the two offsets (R94); every other entry stands; a new entry raises
PEER_NEW, and a flag going from clear to set PEER_MISALIGNED. -/
def Obligations.NoticeActsByItsId : Prop :=
  ∀ (s : State) (n : Heard), s.peersWf →
    let t := s.takeNotice n
    let diff := if n.offset ≤ n.recvOffset then n.recvOffset - n.offset else n.offset - n.recvOffset
    let judged (was : Bool) : Bool := if n.offset = 65535 ∨ n.recvOffset = 65535 then was
      else decide ((s.cfg.wlock + 63) / 64 + 1 < diff)
    let entry (was : Bool) : Peer := {
      id := n.id, f := n.f, x := n.x, flags := n.flags, offset := n.offset, misaligned := judged was, heard := true,
      missed := 0, st := .present }
    let misaligned : List Raised := if judged false = true then [⟨.peerMisaligned, n.id, diff⟩] else []
    (n.id = s.cfg.stationId → t.share = s.share ∧ t.link.latches = { s.link.latches with idClash := true }
        ∧ Raises s t [⟨.idClash, n.id, n.offset⟩] ∧ (s.live = true → t.faultLine = true))
      ∧ (∀ p ∈ s.share.peers, p.id = n.id → entry p.misaligned ∈ t.share.peers
          ∧ Raises s t (if p.misaligned = false then misaligned else []))
      ∧ (n.id ≠ s.cfg.stationId → (∀ p ∈ s.share.peers, p.id ≠ n.id) → entry false ∈ t.share.peers
          ∧ ∃ raised, Raises s t raised ∧ raised.Perm (⟨.peerNew, n.id, min (n.f + n.x) 65535⟩ :: misaligned))
      ∧ (∀ q, q.id ≠ n.id → (q ∈ t.share.peers ↔ q ∈ s.share.peers))
      ∧ (n.id ≠ s.cfg.stationId → t.share = { s.share with peers := t.share.peers }
          ∧ t.link.latches = s.link.latches)
      ∧ t = { s with
          share := t.share, fresh := t.fresh, link := { s.link with
            latches := t.link.latches, queue := t.link.queue, overflow := t.link.overflow } }

/-- Every step keeps the peer table in ascending order of id, with no entry of the own id and no missed count above 3
(R88). -/
def Obligations.PeerTableStaysOrdered : Prop :=
  ∀ s t : State, s.coldOutsideRun → s.peersWf → step s = .next t → t.peersWf

/-! ### The Pace Bus Interface (Chapter 6) -/

/-- The 64 bits a station sends for its id, offset, claims and flags give a receiver those same values, and the 8
check bits after them are the check of the 56 bits before (R110, R111, R114). The check is the remainder of those
bits, read as a polynomial over the integers mod 2 with the first bit highest and multiplied by x^8, on division by
x^8 + x^2 + x + 1: some multiple of the divisor makes up the difference, and the check has degree below 8. So the
check of zeros is 0, and the check of a sum is the sum of the checks (R111). -/
def Obligations.NoticeBitsRoundTripWithTheirCheck : Prop :=
  let poly (bs : List Bool) : Polynomial (ZMod 2) :=
    bs.foldl (fun p b => p * Polynomial.X + if b = true then 1 else 0) 0
  let checkBits (bs : List Bool) : List Bool := toBits 8 (noticeCheck bs).toNat
  (∀ (id offset f x recv : Nat) (flags : NoticeFlags), id < 16 → offset < 65536 → f < 65536 → x < 65536 →
     let bits := noticeBits id offset f x flags
     bits.length = 64
       ∧ heardOf bits recv = { id := id, offset := offset, f := f, x := x, flags := flags, recvOffset := recv }
       ∧ bitField bits 56 8 = (noticeCheck (bits.take 56)).toNat
       ∧ bits.take 4 = [id.testBit 3, id.testBit 2, id.testBit 1, id.testBit 0]
       ∧ (bits.drop 52).take 4 = [flags.locked, flags.overcommit, flags.capped, flags.alert])
    ∧ (∀ bs : List Bool, ∃ q : Polynomial (ZMod 2),
        poly bs * Polynomial.X ^ 8
          = q * (Polynomial.X ^ 8 + Polynomial.X ^ 2 + Polynomial.X + 1) + poly (checkBits bs)
          ∧ (checkBits bs).length = 8)
    ∧ (∀ n, noticeCheck (List.replicate n false) = 0)
    ∧ ∀ as bs : List Bool, as.length = bs.length →
        noticeCheck (List.zipWith xor as bs) = noticeCheck as ^^^ noticeCheck bs

/-- The line. A sender pulls PACE low for 2b from s0, and from the start of bit j, at s0 + (2 + j) b, for 3b/4 where
the bit is 0 and b/4 where it is 1; after 66b the line is released (R109). PACE is the wired-AND of this drive and the
others', or theirs alone where the line does not follow (R108, R120). Each sample of it counts the run of its level,
keeping the high run before it, and a low sample behind a high one is a falling edge (R108). In DATA that edge begins
a bit anew, the hard-sync of R113, and at the very tick of a bit's sample it is taken before the sample or after it
(log entry 4). That one high run serves every count of high ticks, whatever the receive state, is the model's reading
(log entry 8). While the bus is OFF nothing is sampled (R108). -/
def Obligations.PaceLineIsDrivenAndSampled : Prop :=
  (∀ (a : Attempt) (b : Nat), 64 ≤ b → a.bits.length = 64 →
     (∀ d, d < 2 * b → a.lowAt b d = true)
       ∧ (∀ j v o, a.bits[j]? = some v → o < b →
           a.lowAt b ((2 + j) * b + o) = decide (o < if v = true then b / 4 else 3 * b / 4))
       ∧ ∀ d, 66 * b ≤ d → a.lowAt b d = false)
    ∧ (∀ s : State, s.live = true →
        s.paceLow = (s.pace.attempt.elim false fun a => a.lowAt s.cfg.bitTime (s.t - a.s0).toNat))
    ∧ ∀ (p : Pace) (b : Nat) (now : Time) (pins : Pins) (first : Bool),
        let q := p.sample b now pins first
        let on := p.attempt.filter fun a => decide ((now - a.s0).toNat < 66 * b)
        let low := on.elim false fun a => a.lowAt b (now - a.s0).toNat
        let line := pins.paceOthers && !(low && pins.paceFollows)
        let edge := p.level && !line
        let sampled : Prop := ∃ e, p.bitStart = some e ∧ now = after e (b / 2)
        (p.bus = .off → q = p)
          ∧ (p.bus ≠ .off →
            q.attempt = on ∧ q.level = line ∧ q.highBefore = p.highRun
              ∧ q.highRun = (if line = true then p.highRun + 1 else 0)
              ∧ q.lowRun = (if line = true then 0 else p.lowRun + 1)
              ∧ (p.recv ≠ .data ∨ edge = false → q.fell = edge ∧ q.bitStart = p.bitStart)
              ∧ (p.recv = .data → edge = true → ¬sampled ∨ first = true → q.fell = false ∧ q.bitStart = some now)
              ∧ (p.recv = .data → edge = true → sampled → first = false → q.fell = true ∧ q.bitStart = p.bitStart)
              ∧ q = { p with
                  attempt := q.attempt, level := q.level, highBefore := q.highBefore, highRun := q.highRun,
                  lowRun := q.lowRun, fell := q.fell, bitStart := q.bitStart })

/-- A SCHEDULED record whose due time has been reached becomes WAITING (R116). A WAITING record goes on the line after
8b + holdoff high ticks since it began to wait: it becomes ON_LINE, and the attempt carries the notice formed at this
tick, own id, epoch offset, own claims and flags (R103, R104, R110, R117); where the high line then follows the drive,
an idle receive side takes its own start mark (R112). That the high ticks are those of the line's one high run before
this tick, bounded by the time since the record waits, and that a start needs no attempt of the station's own on the
line, are the model's readings (log entries 8 and 10). -/
def Obligations.NoticeRecordGoesOnTheLine : Prop :=
  ∀ (s : State) (r : Notice), s.live = true → s.pace.bus = .normal → s.pace.cur = some r → 64 ≤ s.cfg.bitTime →
    (r.st = .scheduled → reached s.t r.due = true →
        exec .noticeDue s = .next { s with pace := { s.pace with
          cur := some { r with st := .waiting, since := s.t } } })
      ∧ (r.st = .waiting → s.pace.attempt = none → 8 * s.cfg.bitTime + r.holdoff ≤ s.pace.highBefore →
          8 * s.cfg.bitTime + r.holdoff ≤ elapsed s.t r.since →
          ∃ t, exec .noticeStart s = .next t ∧ t.pace.cur = some { r with st := .onLine }
            ∧ t.pace.attempt = some {
                s0 := s.t, comparing := true,
                bits := noticeBits s.cfg.stationId (min ((s.t - s.grid.eTaken).toNat / 64) 65535) (s.ownClaim .fixed)
                  (s.ownClaim .flex) s.ownFlags }
            ∧ t.paceLow = true
            ∧ (s.pace.level = true → s.pins.paceFollows = true → s.pace.recv = .idle →
                t.pace.level = false ∧ t.pace.recv = .start ∧ t.pace.edge = s.t ∧ t.pace.bits = []
                  ∧ t.pace.recvOffset = min ((s.t - s.grid.eTaken).toNat / 64) 65535)
            ∧ t.pace = { s.pace with
                cur := t.pace.cur, attempt := t.pace.attempt, level := t.pace.level, highRun := t.pace.highRun,
                lowRun := t.pace.lowRun, fell := t.pace.fell, recv := t.pace.recv, bits := t.pace.bits,
                edge := t.pace.edge, recvOffset := t.pace.recvOffset, bitStart := t.pace.bitStart }
            ∧ t = { s with pace := t.pace })

/-- At the sample of bit j by its own schedule, s0 + (2 + j) b + b/2, a sender compares the bit it sent with the line
(R118). A 1 read low in the id is a lost arbitration: the record waits again with no holdoff and its failed attempts
as they were (R119). A 0 read high, or a 1 read low after the id, is a bit error: NOTICE_BITERR, and the record waits
with the holdoff of R121, or after the third is given up with NOTICE_SKIPPED, which enters the queue behind
NOTICE_BITERR (R120, R127). The line is released either way.
A superseded attempt that loses arbitration or meets a bit error is abandoned at that tick with NOTICE_SKIPPED, its
failed attempts counting the error itself, and the current record stands (R122); the order in which NOTICE_BITERR and
NOTICE_SKIPPED then enter the queue is the model's choice (log entry 15) and is not claimed. -/
def Obligations.LossesAndBitErrorsReleaseTheLine : Prop :=
  ∀ (s : State) (a : Attempt) (j : Nat) (sent : Bool), s.live = true → s.pace.bus = .normal →
    s.pace.attempt = some a → a.comparing = true → j ≤ 63 → a.bits[j]? = some sent →
    64 ≤ s.cfg.bitTime → s.cfg.bitTime ≤ 1024 →
    s.t = after a.s0 ((2 + j) * s.cfg.bitTime + s.cfg.bitTime / 2) →
    (∀ r, s.pace.cur = some r → s.pace.old = none →
        (sent = true → s.pace.level = false → j < 4 →
            exec .arbitrationLost s = .next { s with pace := { s.pace with
              attempt := none, cur := some { r with st := .waiting, holdoff := 0, since := s.t } } })
          ∧ ((sent = false ∧ s.pace.level = true) ∨ (sent = true ∧ s.pace.level = false ∧ 4 ≤ j) →
            ∃ t, exec .noticeBiterr s = .next t ∧ t.pace.attempt = none ∧ t.paceLow = false
              ∧ (r.failed + 1 < 3 → Raises s t [⟨.noticeBiterr, s.cfg.stationId, j⟩] ∧ t.pace.cur = some { r with
                  st := .waiting, failed := r.failed + 1, since := s.t,
                  holdoff := if r.failed = 0 then (s.cfg.stationId + 1) * (4 * s.cfg.bitTime)
                    else 32 * s.cfg.bitTime })
              ∧ (r.failed = 2 → t.pace.cur = some { r with st := .givenUp, failed := 3 }
                  ∧ Raises s t [⟨.noticeBiterr, s.cfg.stationId, j⟩, ⟨.noticeSkipped, s.cfg.stationId, 3⟩])
              ∧ t = { s with
                  pace := { s.pace with attempt := none, cur := t.pace.cur },
                  link := { s.link with queue := t.link.queue, overflow := t.link.overflow } }))
      ∧ ∀ old, s.pace.old = some old → sent ≠ s.pace.level →
          ∃ t, (if sent = true ∧ j < 4 then exec .arbitrationLost s else exec .noticeBiterr s) = .next t
            ∧ t.pace = { s.pace with attempt := none, old := none }
            ∧ (sent = true ∧ j < 4 → Raises s t [⟨.noticeSkipped, s.cfg.stationId, old.failed⟩])
            ∧ (¬(sent = true ∧ j < 4) → ∃ raised, Raises s t raised
              ∧ raised.Perm [⟨.noticeBiterr, s.cfg.stationId, j⟩, ⟨.noticeSkipped, s.cfg.stationId, old.failed + 1⟩])
            ∧ t = { s with
                pace := t.pace, link := { s.link with queue := t.link.queue, overflow := t.link.overflow } }

/-- At the sample of bit 63 a notice is complete and the receive side enters SETTLING (R114). With no attempt of its
own on the line the station judges it: check bits that match hand the notice over with the receiver offset, others
raise NOTICE_CHECK. At s0 + 65b + b/2 an attempt whose bit 63 matches has succeeded: its record is SENT, or discarded
where superseded, and the receive side, wherever its own sampling stands, ends the notice, which is neither handed
over nor judged (R118, R122). That the notice is not judged either where the receive side samples bit 63 at another
tick, while the attempt that has met no mismatch is still on the line, is the model's reading (log entry 10). -/
def Obligations.CompleteNoticeIsJudgedOrSent : Prop :=
  (∀ (s : State) (start : Time), s.live = true → s.pace.bus = .normal → s.pace.recv = .data →
     s.pace.bitStart = some start → s.t = after start (s.cfg.bitTime / 2) → s.pace.bits.length = 63 →
     let bits := s.pace.bits ++ [s.pace.level]
     let quiet : Pace := { s.pace with recv := .settling, bits := [], bitStart := none, fell := false }
     let computed := (noticeCheck (bits.take 56)).toNat
     (s.pace.attempt = none → bitField bits 56 8 = computed →
         exec .noticeComplete s = .next (State.takeNotice { s with pace := quiet } (heardOf bits s.pace.recvOffset)))
       ∧ (s.pace.attempt = none → bitField bits 56 8 ≠ computed →
         ∃ t, exec .noticeComplete s = .next t
           ∧ Raises s t [⟨.noticeCheck, bitField bits 0 4, bitField bits 56 8 * 256 + computed⟩]
           ∧ t = { s with
               pace := quiet, link := { s.link with queue := t.link.queue, overflow := t.link.overflow } })
       ∧ ∀ a, s.pace.attempt = some a →
           (a.comparing = false ∨ ∀ j sent, a.bits[j]? = some sent →
             s.t ≠ after a.s0 ((2 + j) * s.cfg.bitTime + s.cfg.bitTime / 2)) →
           (s.t - a.s0).toNat < 66 * s.cfg.bitTime → exec .noticeComplete s = .next { s with pace := quiet })
    ∧ ∀ (s : State) (a : Attempt) (r : Notice), s.live = true → s.pace.bus = .normal → s.pace.attempt = some a →
        a.comparing = true → 64 ≤ s.cfg.bitTime → s.cfg.bitTime ≤ 1024 → s.pace.cur = some r →
        s.t = after a.s0 (65 * s.cfg.bitTime + s.cfg.bitTime / 2) → a.bits[63]? = some s.pace.level →
        exec .noticeComplete s = .next { s with pace := { s.pace with
          recv := .settling, bits := [], bitStart := none, fell := false,
          attempt := some { a with comparing := false }, old := none,
          cur := if s.pace.old = none then some { r with st := .sent } else s.pace.cur } }

/-- The receive side. 2b high samples end SETTLING; a falling edge in IDLE or START begins a start mark, from which
the receiver offset is formed (R112, R113); bit 0 is sampled 2b + b/2 after it, and a later bit b/2 after its own edge
(R113); a high run over 3b/2 in START or DATA is a framing error with the bits so far as detail (R115). That the 2b high
samples of SETTLING are those of the line's run since its last low sample, which entering SETTLING does not restart, is
the model's reading of R112 (log entry 8). An edge at the very tick of a bit's sample, which the spec orders neither
before it nor after it, is not spoken of here (log entry 4). -/
def Obligations.ReceiveSideFollowsTheLine : Prop :=
  ∀ s : State, s.live = true → s.pace.bus = .normal →
    (s.pace.recv = .settling → 2 * s.cfg.bitTime ≤ s.pace.highRun →
        exec .receiveSettled s = .next { s with pace := { s.pace with recv := .idle } })
      ∧ (s.pace.recv = .idle ∨ s.pace.recv = .start → s.pace.fell = true →
        exec .startMarkEdge s = .next { s with pace := { s.pace with
          recv := .start, edge := s.t, bits := [], bitStart := none, fell := false,
          recvOffset := min ((s.t - s.grid.eTaken).toNat / 64) 65535 } })
      ∧ (s.pace.recv = .start → s.t = after s.pace.edge (2 * s.cfg.bitTime + s.cfg.bitTime / 2) →
        s.pace.fell = false →
        exec .dataBitSampled s = .next { s with pace := { s.pace with
          recv := .data, bits := s.pace.bits ++ [s.pace.level], bitStart := none } })
      ∧ (∀ e, s.pace.recv = .data → s.pace.bitStart = some e → s.t = after e (s.cfg.bitTime / 2) →
        s.pace.bits.length < 63 → s.pace.fell = false →
        exec .dataBitSampled s = .next { s with pace := { s.pace with
          bits := s.pace.bits ++ [s.pace.level], bitStart := none } })
      ∧ (s.pace.recv = .start ∨ s.pace.recv = .data → 3 * s.cfg.bitTime / 2 < s.pace.highRun →
        ∃ t, exec .noticeFraming s = .next t ∧ Raises s t [⟨.noticeFraming, 0, s.pace.bits.length⟩]
          ∧ t = { s with
              pace := { s.pace with recv := .settling, bits := [], bitStart := none, fell := false },
              link := { s.link with queue := t.link.queue, overflow := t.link.overflow } })

/-- A line low for more than 16b makes the bus STUCK: the line is released, every record and the reception discarded
without their events, and the BUS_STUCK latch set with FAULT and its event (R124). The 8b-th high sample in a row
makes it NORMAL again, the receive side IDLE, with BUS_RESTORED; the latch stands (R125). -/
def Obligations.StuckLineStopsTheBus : Prop :=
  ∀ s : State, s.live = true →
    (s.pace.bus = .normal → 16 * s.cfg.bitTime < s.pace.lowRun →
        ∃ t, exec .busStuck s = .next t ∧ t.pace.bus = .stuck ∧ t.pace.attempt = none ∧ t.pace.cur = none
          ∧ t.pace.old = none ∧ t.pace.bits = [] ∧ t.paceLow = false ∧ t.faultLine = true
          ∧ t.link.latches = { s.link.latches with busStuck := true } ∧ Raises s t [⟨.busStuck, 0, 0⟩]
          ∧ t = { s with
              pace := t.pace, link := { s.link with
                latches := t.link.latches, queue := t.link.queue, overflow := t.link.overflow } })
      ∧ (s.pace.bus = .stuck → 8 * s.cfg.bitTime ≤ s.pace.highRun →
        ∃ t, exec .busRestored s = .next t ∧ Raises s t [⟨.busRestored, 0, 0⟩]
          ∧ t = { s with
              pace := { s.pace with bus := .normal, recv := .idle, fell := false },
              link := { s.link with queue := t.link.queue, overflow := t.link.overflow } })

/-! ### The Maintenance Link (Chapters 10 and 11) -/

/-- The receive side of MRX times a character from the falling edge of its start bit: bit k is sampled 125k + 62 ticks
after it, nothing is handed on before the stop bit, and at the stop bit's sample, 1,187 ticks after the edge, the byte
is handed on, its bits least significant first, or a line error where the stop bit is low; a new start bit may begin
at the next change from high to low (R173). That this is the first change after the stop bit's sample, and not after
the stop bit's end at tick 1,250, is the model's choice (log entry 20). A start bit that begins while COLD is asserted, `held`, brings nothing (R158). MTX is high
while no response is sent, and carries the response's bytes back to back in the same form, 125 ticks a bit (R172,
R173). -/
def Obligations.CharactersOnMrxAndMtx : Prop :=
  (∀ (r : Rx) (held level : Bool), r.busy = none → r.was = false ∨ level = true →
     r.tick held level = { was := level, busy := none, ready := none })
    ∧ (∀ (r : Rx) (held later : Bool) (level : Nat → Bool), r.busy = none → r.was = true → level 0 = false →
        let rx (d : Nat) : Rx := (List.range d).foldl (fun r i => r.tick later (level (i + 1))) (r.tick held (level 0))
        (∀ d, d < 1187 → (rx d).ready = none ∧ (rx d).busy.isSome = true)
          ∧ (rx 1187).busy = none ∧ (rx 1187).was = level 1187
          ∧ (held = true → (rx 1187).ready = none)
          ∧ (held = false → level 1187 = false → (rx 1187).ready = some .error)
          ∧ (held = false → level 1187 = true → ∃ b : Byte, (rx 1187).ready = some (.byte b)
              ∧ ∀ k, k < 8 → b.getLsbD k = level (125 * (k + 1) + 62)))
    ∧ ∀ s : State, (s.link.responder = none → s.mtx = true)
        ∧ ∀ r, s.live = true → s.link.responder = some r → 1250 * r.bytes.length < 2 ^ 47 →
            (∀ i b k o, r.bytes[i]? = some b → k < 10 → o < 125 → s.t = after r.start (1250 * i + 125 * k + o) →
                s.mtx = if k = 0 then false else if k = 9 then true else b.getLsbD (k - 1))
              ∧ (1250 * r.bytes.length ≤ (s.t - r.start).toNat → s.mtx = true)

/-- A byte received on MRX in RUN or HALTED starts the silence timer (R176) and is handled by R174: dropped in
DISCARD; taken by the parser at once when the responder is IDLE and the buffer empty, as code, operand count or
operand, the last of which completes the request; otherwise buffered, or, with 64 bytes buffered, dropped with a gap
mark on the last (R175), unless a mark stands already that the parser has not reached. R175 says so of further drops
after a drop's own mark; that any mark, a line error's or a gap at the head among them, keeps a drop from adding one
is the model's reading (log entry 13). Up to the request it completes, no other block is touched. -/
def Obligations.RequestByteFeedsTheParser : Prop :=
  ∀ (s : State) (b : Byte), s.live = true → s.loader.part ≠ .load →
    ∃ t, exec (.requestByte b) s = .next t ∧
      let rx : Rx := { s.link.rx with ready := if s.link.rx.ready = some (.byte b) then none else s.link.rx.ready }
      let with_ (l : Link) : State := { s with link := { l with rx := rx, silence := some s.t } }
      let l := s.link
      (l.parser = .discard → t = with_ l)
        ∧ (l.takesAtOnce = true → l.parser = .awaitCode → t = with_ { l with parser := .awaitLength b })
        ∧ (∀ code, l.takesAtOnce = true → l.parser = .awaitLength code →
            t = if b = 0 then State.judgeRequest (with_ { l with parser := .awaitCode }) code []
              else with_ { l with parser := .operands code b.toNat [] })
        ∧ (∀ code left taken, l.takesAtOnce = true → l.parser = .operands code left taken → 1 ≤ left →
            t = if left = 1 then State.judgeRequest (with_ { l with parser := .awaitCode }) code (taken ++ [b])
              else with_ { l with parser := .operands code (left - 1) (taken ++ [b]) })
        ∧ (l.takesAtOnce = false → l.parser ≠ .discard → l.buffer.length < 64 →
            t = with_ { l with buffer := l.buffer ++ [(b, false)] })
        ∧ (∀ front last, l.parser ≠ .discard → 64 ≤ l.buffer.length → l.gap = false →
            l.buffer = front ++ [(last, false)] → (∀ e ∈ front, e.2 = false) →
            t = with_ { l with buffer := front ++ [(last, true)] })
        ∧ (l.parser ≠ .discard → 64 ≤ l.buffer.length → (l.gap = true ∨ ∃ e ∈ l.buffer, e.2 = true) → t = with_ l)

/-- A completed request is answered by the first row of R177 that applies: REFUSED_HALTED, UNKNOWN and GARBLED with an
empty body, the code plus 0x80 before (R185). STATUS is answered with the 13 bytes of R186, the values of R178; DUMP
with the 16 contexts, each a block of 68 bytes with its ring records behind it, the four sets, the peer entries and
the store's six bytes (R179, R188): 1,103 bytes, and 12 for each ring record and 10 for each peer. A value stands most
significant byte first (R184). Apart from the responder none of these changes anything (R177, R178). -/
def Obligations.RequestIsJudgedAndAnswered : Prop :=
  ∀ (s : State) (code : Byte) (ops : List Byte),
    let t := s.judgeRequest code ops
    let answer (status : Byte) (body : List Byte) : Prop :=
      t = { s with link := { s.link with responder := some {
        bytes := [code + 0x80, status, BitVec.ofNat 8 (body.length / 256), BitVec.ofNat 8 body.length] ++ body,
        start := s.t } } }
    let be (n v : Nat) : List Byte := (List.range n).map fun i => BitVec.ofNat 8 (v / 256 ^ (n - 1 - i))
    let flag (i : Nat) (b : Bool) : Nat := if b = true then 2 ^ i else 0
    let imageFault : Nat := match s.loader.fault with
      | none => 0
      | some (.stalled, _) => 1
      | some (.blank, _) => 2
      | some (.unknown, _) => 3
      | some (.truncated, _) => 4
      | some (.noEnd, _) => 5
      | some (.sum, _) => 6
      | some (.part, _) => 7
      | some (.duplicate, _) => 8
      | some (.range, _) => 9
    let l := s.link.latches
    let bk (j : Fin 4) : Bank := s.store.bank j
    let status : List Byte :=
      be 1 (if s.loader.part = .run then 1 else 2) ++ be 1 imageFault ++ be 2 ((s.loader.fault.map (·.2)).getD 0)
        ++ be 1 (match s.grid.lock with | .free => 0 | .seek => 1 | .locked => 2 | .holdover => 3)
        ++ be 1 (match s.pace.bus with | .off => 0 | .normal => 1 | .stuck => 2) ++ be 2 s.share.k
        ++ be 1 (flag 0 ((bk 0).integrity || (bk 1).integrity || (bk 2).integrity || (bk 3).integrity)
          + flag 1 l.bankRetired + flag 2 l.storeExhausted + flag 3 l.busStuck + flag 4 l.idClash + flag 5 l.egressStall)
        ++ be 1 (flag 0 s.share.overcommit + flag 1 s.link.overflow) ++ be 2 s.store.usableFree
        ++ be 1 s.link.queue.length
    let record (r : Record) : List Byte :=
      be 2 (flag 15 r.frameEnd + r.index) ++ be 2 r.len ++ be 2 r.first.toNat ++ be 6 r.arrival.toNat
    let context (n : Stream) : List Byte :=
      let c := s.ctx n
      let k := c.counts
      be 1 n.val
        ++ be 1 (match c.st with
          | .disabled => 0 | .quiet => 1 | .primed => 2 | .sending => 3 | .starved => 4 | .drained => 5)
        ++ be 1 (flag 0 c.owing + flag 1 c.discard + flag 3 c.starveCounted + flag 4 c.capped) ++ be 1 c.idle
        ++ be 6 c.base.toNat ++ be 2 c.iNext ++ be 6 c.tNext.toNat ++ be 2 c.ks ++ be 2 c.ka ++ be 4 c.wEff
        ++ be 6 c.owed.toNat ++ be 2 c.seq.toNat
        ++ ([k.released, k.late, k.trimmed, k.starvedFrames, k.collisions, k.unstamped, k.dropped, k.abandoned].flatMap
          fun x => be 4 x.toNat)
        ++ be 2 c.ring.length
    let peer (p : Peer) : List Byte :=
      be 1 p.id ++ be 2 p.f ++ be 2 p.x
        ++ be 1 (flag 3 p.flags.locked + flag 2 p.flags.overcommit + flag 1 p.flags.capped + flag 0 p.flags.alert)
        ++ be 2 p.offset ++ be 1 (flag 0 p.misaligned + flag 1 p.heard + flag 2 (decide (p.st = .held))) ++ be 1 p.missed
    let banks (f : Bank → Bool) : List Byte := be 1 (flag 0 (f (bk 0)) + flag 1 (f (bk 1)) + flag 2 (f (bk 2)) + flag 3 (f (bk 3)))
    let dump : List Byte :=
      (allStreams.flatMap fun n => context n ++ (s.ctx n).ring.flatMap record)
        ++ ([s.egress.collision, s.egress.late, s.egress.starve, s.egress.trim].flatMap fun x => be 2 x.toNat)
        ++ be 1 s.share.peers.length ++ s.share.peers.flatMap peer
        ++ banks (·.integrity) ++ ([bk 0, bk 1, bk 2, bk 3].flatMap fun b => be 1 b.errors) ++ banks (·.retired)
    (s.loader.part = .halted → code ≠ 0x01 → answer 0x02 [])
      ∧ (s.loader.part ≠ .halted → code ≠ 0x01 → code ≠ 0x02 → code ≠ 0x03 → code ≠ 0x04 → answer 0x01 [])
      ∧ (s.loader.part ≠ .load → code = 0x01 → ops = [] → answer 0x00 status)
      ∧ (s.loader.part ≠ .halted → code = 0x02 → ops = [] → answer 0x00 dump)
      ∧ ((code = 0x01 ∨ (s.loader.part ≠ .halted ∧ code = 0x02)) → ops ≠ [] → answer 0x03 [])
      ∧ (s.loader.part ≠ .halted → code = 0x03 → ops.length ≠ 1 → answer 0x03 [])
      ∧ (s.loader.part ≠ .halted → code = 0x04 → ops.length ≠ 2 → answer 0x03 [])
      ∧ status.length = 13 ∧ (∀ n, (context n).length = 68) ∧ (∀ r, (record r).length = 12)
      ∧ dump.length = 1103 + 12 * (allStreams.map fun n => (s.ctx n).ring.length).sum + 10 * s.share.peers.length

/-- EVENTS with operand n from 1 to 32 removes the min(n, occupancy) oldest entries, clears the overflow flag, and
answers with the flag as it stood, the number of entries and the entries, oldest first, each with its code of the
catalogue (R182), T, subject and detail; a value of 0 or above 32 is answered GARBLED with nothing removed (R180,
R187). -/
def Obligations.EventsRemovesTheOldestEntries : Prop :=
  ∀ (s : State) (n : Byte), s.loader.part = .run →
    let t := s.judgeRequest 0x03 [n]
    let taken := s.link.queue.take n.toNat
    let code : EventCode → Byte
      | .refLock => 0x01 | .refHoldover => 0x02 | .refStep => 0x03
      | .overrunFinish => 0x10 | .overrunTrim => 0x11
      | .egressStall => 0x20 | .linkDown => 0x21 | .linkUp => 0x22
      | .peerNew => 0x30 | .peerLost => 0x31 | .peerMisaligned => 0x32 | .idClash => 0x33
      | .overcommitOn => 0x34 | .overcommitOff => 0x35
      | .noticeBiterr => 0x40 | .noticeSkipped => 0x41 | .noticeCheck => 0x42 | .noticeFraming => 0x43
      | .busStuck => 0x44 | .busRestored => 0x45
      | .feedUnconfigured => 0x50 | .feedLength => 0x51 | .feedOverlength => 0x53 | .feedWithdrawn => 0x54
      | .parityError => 0x60 | .bankRetired => 0x61 | .storeExhausted => 0x62
    let body : List Byte := [if s.link.overflow = true then 1 else 0, BitVec.ofNat 8 taken.length]
      ++ taken.flatMap fun e =>
          [code e.code] ++ beBytes 6 e.time.toNat ++ [BitVec.ofNat 8 e.subject.toNat]
            ++ beBytes 2 e.detail.toNat
    (1 ≤ n.toNat → n.toNat ≤ 32 →
        t = { s with link := { s.link with
          queue := s.link.queue.drop n.toNat, overflow := false, responder := some {
            bytes := [0x83, 0x00] ++ beBytes 2 (2 + 10 * taken.length) ++ body, start := s.t } } }
          ∧ taken.length = min n.toNat s.link.queue.length ∧ taken ++ t.link.queue = s.link.queue)
      ∧ (n = 0 ∨ 32 < n.toNat → t = { s with link := { s.link with
          responder := some { bytes := [0x83, 0x03, 0x00, 0x00], start := s.t } } })

/-- CLEAR clears, at acceptance, each latch or set its mask names: the four stream sets, an integrity bit with its
bank's error count (R154), EGRESS_STALL, BUS_STUCK and ID_CLASH; it has no position for STORE_EXHAUSTED and
BANK_RETIRED, leaves the retire states and the counters, and answers with the latch word as it stands after (R181,
R185). Only what is left then asserts FAULT: in every state of the powered part with COLD released, FAULT is asserted
exactly where one of the five latches or some bank's integrity bit is set or the part is HALTED, and no stream set,
OVERCOMMIT, lock, bus or link state asserts it; while COLD is held, and through LOAD, it is released (R183). -/
def Obligations.ClearClearsWhatItsMaskNames : Prop :=
  (∀ s : State,
     let l := s.link.latches
     (s.live = true →
        (s.faultLine = true ↔ l.egressStall = true ∨ l.busStuck = true ∨ l.idClash = true ∨ l.bankRetired = true
          ∨ l.storeExhausted = true ∨ (∃ j : Fin 4, (s.store.bank j).integrity = true) ∨ s.loader.part = .halted))
       ∧ (s.cold = true → s.faultLine = false)
       ∧ (s.coldOutsideRun → s.loader.part = .load → s.faultLine = false))
    ∧ ∀ (s : State) (hi lo : Byte), s.loader.part = .run →
    let t := s.judgeRequest 0x04 [hi, lo]
    let m : BitVec 16 := hi ++ lo
    let keep (i : Nat) (x : BitVec 16) : BitVec 16 := if m.getLsbD i = true then 0 else x
    let word (i : Nat) : Bool := (BitVec.ofNat 16 t.latchWord).getLsbD i
    t.egress = { s.egress with
        collision := keep 0 s.egress.collision, late := keep 1 s.egress.late, starve := keep 2 s.egress.starve,
        trim := keep 3 s.egress.trim }
      ∧ (∀ j : Fin 4, t.store.bank j = if m.getLsbD (4 + j.val) = true
          then { s.store.bank j with integrity := false, errors := 0 } else s.store.bank j)
      ∧ t.link.latches = { s.link.latches with
          egressStall := s.link.latches.egressStall && !m.getLsbD 8,
          busStuck := s.link.latches.busStuck && !m.getLsbD 9,
          idClash := s.link.latches.idClash && !m.getLsbD 10 }
      ∧ t.link.responder = some { bytes := [0x84, 0x00, 0x00, 0x02] ++ beBytes 2 t.latchWord, start := s.t }
      ∧ t.latchWord < 8192
      ∧ (word 0 = decide (t.egress.collision ≠ 0) ∧ word 1 = decide (t.egress.late ≠ 0)
          ∧ word 2 = decide (t.egress.starve ≠ 0) ∧ word 3 = decide (t.egress.trim ≠ 0)
          ∧ (∀ j : Fin 4, word (4 + j.val) = (t.store.bank j).integrity)
          ∧ word 8 = t.link.latches.egressStall ∧ word 9 = t.link.latches.busStuck
          ∧ word 10 = t.link.latches.idClash ∧ word 11 = t.link.latches.storeExhausted
          ∧ word 12 = t.link.latches.bankRetired)
      ∧ t = { s with
          egress := t.egress, store := { s.store with banks := t.store.banks },
          link := { s.link with latches := t.link.latches, responder := t.link.responder } }

/-- A line error. In LOAD it leaves no trace. In RUN and HALTED it makes a gap: acted on at once where a byte would
have been taken at once, with a GARBLED answer to the request being assembled, or with code 0x80 to none, and DISCARD;
marked on the byte last buffered, or at the head of an empty buffer, otherwise (R173, R175). -/
def Obligations.LineErrorMakesAGap : Prop :=
  ∀ s : State, s.live = true →
    ∃ t, exec .lineError s = .next t ∧
      let rx : Rx := { s.link.rx with ready := if s.link.rx.ready = some .error then none else s.link.rx.ready }
      let with_ (l : Link) : State := { s with link := { l with rx := rx, silence := some s.t } }
      let l := s.link
      let garbled (code : Byte) : Option Response := some { bytes := [code, 0x03, 0x00, 0x00], start := s.t }
      (s.loader.part = .load → t = { s with link := { l with rx := rx } })
        ∧ (s.loader.part ≠ .load → l.parser = .discard → t = with_ l)
        ∧ (s.loader.part ≠ .load → l.takesAtOnce = true → l.parser = .awaitCode →
            t = with_ { l with parser := .discard, responder := garbled 0x80 })
        ∧ (∀ code, s.loader.part ≠ .load → l.takesAtOnce = true → l.parser.assembling = some code →
            t = with_ { l with parser := .discard, responder := garbled (code + 0x80) })
        ∧ (s.loader.part ≠ .load → l.takesAtOnce = false → l.parser ≠ .discard → l.buffer = [] →
            t = with_ { l with gap := true })
        ∧ (∀ front last mark, s.loader.part ≠ .load → l.takesAtOnce = false → l.parser ≠ .discard →
            l.buffer = front ++ [(last, mark)] → t = with_ { l with buffer := front ++ [(last, true)] })

/-- At the end of a response's last stop bit, 1,250 ticks a byte after acceptance, the responder is IDLE (R177) and
the parser goes on with the buffer: it takes byte after byte, each by the table of R174, to the byte that completes a
request, which is judged at once, or to the buffer's end; at a gap the request being assembled is answered GARBLED, or
code 0x80 where there is none, the buffer emptied and DISCARD entered (R175). That a mark on the last byte buffered is
met as soon as that byte is taken is the model's reading (log entry 13). After 125,000 ticks of silence DISCARD ends
(R175), and a partial request with nothing buffered expires without an answer (R176). `quiet` is that silence; that an
IDLE silence timer counts as silence, its 125,000 ticks having passed, is the model's reading (log entry 11). -/
def Obligations.ResponseAndSilenceFreeTheParser : Prop :=
  ∀ s : State, s.live = true →
    let l := s.link
    let quiet : Prop := ∀ last, l.silence = some last → reached s.t (after last 125000) = true
    (∀ r, l.responder = some r → reached s.t (after r.start (1250 * r.bytes.length)) = true →
        let done := exec .responseComplete s
        let garbled (code : Byte) : Prop :=
          ∃ t, done = .next t ∧ (quiet → t.link.parser = .awaitCode) ∧ (¬quiet → t.link.parser = .discard)
            ∧ t = { s with link := { l with
                buffer := [], gap := false, parser := t.link.parser,
                responder := some { bytes := [code, 0x03, 0x00, 0x00], start := s.t } } }
        (l.buffer = [] → l.gap = false → done = .next { s with link := { l with responder := none } })
          ∧ (l.gap = true → l.parser = .awaitCode → garbled 0x80)
          ∧ (∀ code, l.gap = true → l.parser.assembling = some code → garbled (code + 0x80))
          ∧ ∀ b mark rest, l.gap = false → l.buffer = (b, mark) :: rest →
              let left (p : Parser) : State := { s with link := { l with buffer := rest, gap := mark, parser := p } }
              let goesOn (p : Parser) : Prop := done = exec .responseComplete (left p)
              let judged (code : Byte) (ops : List Byte) : Prop :=
                done = .next (State.judgeRequest
                  { left .awaitCode with link := { (left .awaitCode).link with responder := none } } code ops)
              (l.parser = .awaitCode → goesOn (.awaitLength b))
                ∧ (∀ code, l.parser = .awaitLength code →
                    if b = 0 then judged code [] else goesOn (.operands code b.toNat []))
                ∧ ∀ code n taken, l.parser = .operands code n taken → 1 ≤ n →
                    if n = 1 then judged code (taken ++ [b]) else goesOn (.operands code (n - 1) (taken ++ [b])))
      ∧ (l.parser = .discard → quiet →
        exec .discardEnd s = .next { s with link := { l with parser := .awaitCode } })
      ∧ (l.parser.assembling.isSome = true → l.responder = none → l.buffer = [] → l.gap = false → quiet →
        exec .requestExpired s = .next { s with link := { l with parser := .awaitCode } })
end

