-- ==== Sys2Proof/Laws/Cells.lean ====
section
/-! SUPPORT. Sparse cells: a read after a write, and that every write keeps the canonical form. -/

namespace Sys2Proof.Machine

variable {α : Type} [DecidableEq α] {dflt : α}

/-- Every address of a list is above `k`. -/
def AllAbove (k : Nat) (l : List (Nat × α)) : Prop := ∀ p ∈ l, k < p.1

/-- The canonical form, entry by entry. -/
theorem cellsWf_cons (k : Nat) (v : α) (rest : List (Nat × α)) :
    cellsWf dflt ((k, v) :: rest) = true ↔ AllAbove k rest ∧ v ≠ dflt ∧ cellsWf dflt rest = true := by
  induction rest generalizing k v with
  | nil => simp [cellsWf, AllAbove]
  | cons q rest ih =>
    obtain ⟨k', v'⟩ := q
    rw [cellsWf]
    simp only [Bool.and_eq_true, decide_eq_true_eq, ih k' v']
    constructor
    · rintro ⟨⟨hk, hv⟩, ha, hv', hw⟩
      refine ⟨?_, hv, ha, hv', hw⟩
      intro p hp
      rcases List.mem_cons.mp hp with rfl | hp
      · exact hk
      · exact Nat.lt_trans hk (ha p hp)
    · rintro ⟨ha, hv, hb, hv', hw⟩
      exact ⟨⟨ha _ List.mem_cons_self, hv⟩, hb, hv', hw⟩

omit [DecidableEq α] in
/-- An address below every listed one reads the default. -/
theorem readCell_of_allAbove {l : List (Nat × α)} {a : Nat} (h : ∀ p ∈ l, a < p.1) : readCell dflt l a = dflt := by
  cases l with
  | nil => rfl
  | cons q rest =>
    obtain ⟨k, v⟩ := q
    have hk : a < k := h _ List.mem_cons_self
    simp [readCell, Nat.ne_of_lt hk, hk]

/-- What a write lists is the address written or was listed before. -/
theorem mem_writeCell {l : List (Nat × α)} {a : Nat} {v : α} {p : Nat × α} (h : p ∈ writeCell dflt a v l) :
    p.1 = a ∨ p ∈ l := by
  induction l with
  | nil =>
    simp only [writeCell] at h
    split at h <;> simp_all
  | cons q rest ih =>
    obtain ⟨k, w⟩ := q
    simp only [writeCell] at h
    split at h
    · split at h
      · exact .inr h
      · rcases List.mem_cons.mp h with rfl | h
        · exact .inl rfl
        · exact .inr h
    · split at h
      · split at h
        · exact .inr (List.mem_cons_of_mem _ h)
        · rcases List.mem_cons.mp h with rfl | h
          · exact .inl rfl
          · exact .inr (List.mem_cons_of_mem _ h)
      · rcases List.mem_cons.mp h with rfl | h
        · exact .inr List.mem_cons_self
        · rcases ih h with h | h
          · exact .inl h
          · exact .inr (List.mem_cons_of_mem _ h)

/-- A write keeps the canonical form. -/
theorem cellsWf_writeCell {l : List (Nat × α)} (a : Nat) (v : α) (h : cellsWf dflt l = true) :
    cellsWf dflt (writeCell dflt a v l) = true := by
  induction l with
  | nil =>
    by_cases hv : v = dflt <;> simp [writeCell, cellsWf, hv]
  | cons q rest ih =>
    obtain ⟨k, w⟩ := q
    obtain ⟨ha, hw, hr⟩ := (cellsWf_cons k w rest).mp h
    simp only [writeCell]
    split
    · rename_i hlt
      split
      · exact h
      · rename_i hv
        refine (cellsWf_cons ..).mpr ⟨?_, hv, h⟩
        intro p hp
        rcases List.mem_cons.mp hp with rfl | hp
        · exact hlt
        · exact Nat.lt_trans hlt (ha p hp)
    · split
      · rename_i heq
        subst heq
        split
        · exact hr
        · rename_i hv
          exact (cellsWf_cons ..).mpr ⟨ha, hv, hr⟩
      · rename_i hlt hne
        refine (cellsWf_cons ..).mpr ⟨?_, hw, ih hr⟩
        intro p hp
        rcases mem_writeCell hp with h | h
        · omega
        · exact ha p h

/-- A read after a write gives the value written at that address, and what was there elsewhere. -/
theorem readCell_writeCell {l : List (Nat × α)} (a : Nat) (v : α) (h : cellsWf dflt l = true) (x : Nat) :
    readCell dflt (writeCell dflt a v l) x = if x = a then v else readCell dflt l x := by
  induction l with
  | nil =>
    by_cases hv : v = dflt <;> by_cases hx : x = a <;> simp [writeCell, readCell, hv, hx]
  | cons q rest ih =>
    obtain ⟨k, w⟩ := q
    obtain ⟨ha, hw, hr⟩ := (cellsWf_cons k w rest).mp h
    simp only [writeCell]
    split
    · rename_i hlt
      split
      · rename_i hv
        by_cases hx : x = a
        · subst hx
          simp [readCell, Nat.ne_of_lt hlt, hlt, hv]
        · simp [hx]
      · by_cases hx : x = a
        · simp [readCell, hx]
        · by_cases hxa : x < a
          · have : x < k := Nat.lt_trans hxa hlt
            simp [readCell, hx, hxa, this, Nat.ne_of_lt this]
          · simp [readCell, hx, hxa]
    · split
      · rename_i heq
        subst heq
        split
        · rename_i hv
          by_cases hx : x = a
          · subst hx
            simp [readCell_of_allAbove ha, hv]
          · by_cases hxa : x < a
            · simp [readCell, hx, hxa]
              exact readCell_of_allAbove fun p hp => Nat.lt_trans hxa (ha p hp)
            · simp [readCell, hx, hxa]
        · by_cases hx : x = a <;> simp [readCell, hx]
      · rename_i hlt hne
        by_cases hxk : x = k
        · have : x ≠ a := by omega
          simp [readCell, hxk]
          intro e; omega
        · by_cases hx : x < k
          · have : x ≠ a := by omega
            simp [readCell, hxk, hx, this]
          · simp [readCell, hxk, hx, ih hr]

end Sys2Proof.Machine
end

