-- ==== Sys2Proof/Laws/State.lean ====
section
/-! SUPPORT. One lemma for each field and each named update of the state: what the update leaves as it was. -/

namespace Sys2Proof.Machine

open Sys2Proof

@[simp] theorem setCtx_t (s : State) (n : Stream) (c : Context) : (s.setCtx n c).t = s.t := rfl
@[simp] theorem setCtx_powered (s : State) (n : Stream) (c : Context) : (s.setCtx n c).powered = s.powered := rfl
@[simp] theorem setCtx_cold (s : State) (n : Stream) (c : Context) : (s.setCtx n c).cold = s.cold := rfl
@[simp] theorem setCtx_pins (s : State) (n : Stream) (c : Context) : (s.setCtx n c).pins = s.pins := rfl
@[simp] theorem setCtx_cfg (s : State) (n : Stream) (c : Context) : (s.setCtx n c).cfg = s.cfg := rfl
@[simp] theorem setCtx_grid (s : State) (n : Stream) (c : Context) : (s.setCtx n c).grid = s.grid := rfl
@[simp] theorem setCtx_egress (s : State) (n : Stream) (c : Context) : (s.setCtx n c).egress = s.egress := rfl
@[simp] theorem setCtx_share (s : State) (n : Stream) (c : Context) : (s.setCtx n c).share = s.share := rfl
@[simp] theorem setCtx_pace (s : State) (n : Stream) (c : Context) : (s.setCtx n c).pace = s.pace := rfl
@[simp] theorem setCtx_feed (s : State) (n : Stream) (c : Context) : (s.setCtx n c).feed = s.feed := rfl
@[simp] theorem setCtx_store (s : State) (n : Stream) (c : Context) : (s.setCtx n c).store = s.store := rfl
@[simp] theorem setCtx_loader (s : State) (n : Stream) (c : Context) : (s.setCtx n c).loader = s.loader := rfl
@[simp] theorem setCtx_link (s : State) (n : Stream) (c : Context) : (s.setCtx n c).link = s.link := rfl
@[simp] theorem setCtx_fresh (s : State) (n : Stream) (c : Context) : (s.setCtx n c).fresh = s.fresh := rfl
@[simp] theorem setCtx_pending (s : State) (n : Stream) (c : Context) : (s.setCtx n c).pending = s.pending := rfl

@[simp] theorem setChan_t (s : State) (n : Stream) (c : Channel) : (s.setChan n c).t = s.t := rfl
@[simp] theorem setChan_powered (s : State) (n : Stream) (c : Channel) : (s.setChan n c).powered = s.powered := rfl
@[simp] theorem setChan_cold (s : State) (n : Stream) (c : Channel) : (s.setChan n c).cold = s.cold := rfl
@[simp] theorem setChan_pins (s : State) (n : Stream) (c : Channel) : (s.setChan n c).pins = s.pins := rfl
@[simp] theorem setChan_cfg (s : State) (n : Stream) (c : Channel) : (s.setChan n c).cfg = s.cfg := rfl
@[simp] theorem setChan_grid (s : State) (n : Stream) (c : Channel) : (s.setChan n c).grid = s.grid := rfl
@[simp] theorem setChan_ctxs (s : State) (n : Stream) (c : Channel) : (s.setChan n c).ctxs = s.ctxs := rfl
@[simp] theorem setChan_egress (s : State) (n : Stream) (c : Channel) : (s.setChan n c).egress = s.egress := rfl
@[simp] theorem setChan_share (s : State) (n : Stream) (c : Channel) : (s.setChan n c).share = s.share := rfl
@[simp] theorem setChan_pace (s : State) (n : Stream) (c : Channel) : (s.setChan n c).pace = s.pace := rfl
@[simp] theorem setChan_store (s : State) (n : Stream) (c : Channel) : (s.setChan n c).store = s.store := rfl
@[simp] theorem setChan_loader (s : State) (n : Stream) (c : Channel) : (s.setChan n c).loader = s.loader := rfl
@[simp] theorem setChan_link (s : State) (n : Stream) (c : Channel) : (s.setChan n c).link = s.link := rfl
@[simp] theorem setChan_fresh (s : State) (n : Stream) (c : Channel) : (s.setChan n c).fresh = s.fresh := rfl
@[simp] theorem setChan_pending (s : State) (n : Stream) (c : Channel) : (s.setChan n c).pending = s.pending := rfl

@[simp] theorem chosen_t (s : State) (n : Nat) : (s.chosen n).t = s.t := rfl
@[simp] theorem chosen_powered (s : State) (n : Nat) : (s.chosen n).powered = s.powered := rfl
@[simp] theorem chosen_cold (s : State) (n : Nat) : (s.chosen n).cold = s.cold := rfl
@[simp] theorem chosen_pins (s : State) (n : Nat) : (s.chosen n).pins = s.pins := rfl
@[simp] theorem chosen_cfg (s : State) (n : Nat) : (s.chosen n).cfg = s.cfg := rfl
@[simp] theorem chosen_grid (s : State) (n : Nat) : (s.chosen n).grid = s.grid := rfl
@[simp] theorem chosen_ctxs (s : State) (n : Nat) : (s.chosen n).ctxs = s.ctxs := rfl
@[simp] theorem chosen_egress (s : State) (n : Nat) : (s.chosen n).egress = s.egress := rfl
@[simp] theorem chosen_share (s : State) (n : Nat) : (s.chosen n).share = s.share := rfl
@[simp] theorem chosen_pace (s : State) (n : Nat) : (s.chosen n).pace = s.pace := rfl
@[simp] theorem chosen_feed (s : State) (n : Nat) : (s.chosen n).feed = s.feed := rfl
@[simp] theorem chosen_store (s : State) (n : Nat) : (s.chosen n).store = s.store := rfl
@[simp] theorem chosen_loader (s : State) (n : Nat) : (s.chosen n).loader = s.loader := rfl
@[simp] theorem chosen_link (s : State) (n : Nat) : (s.chosen n).link = s.link := rfl
@[simp] theorem chosen_pending (s : State) (n : Nat) : (s.chosen n).pending = s.pending := rfl

@[simp] theorem raise_t (s : State) (c : EventCode) (a b : Nat) : (s.raise c a b).t = s.t := by unfold State.raise; split <;> rfl
@[simp] theorem raise_powered (s : State) (c : EventCode) (a b : Nat) : (s.raise c a b).powered = s.powered := by unfold State.raise; split <;> rfl
@[simp] theorem raise_cold (s : State) (c : EventCode) (a b : Nat) : (s.raise c a b).cold = s.cold := by unfold State.raise; split <;> rfl
@[simp] theorem raise_pins (s : State) (c : EventCode) (a b : Nat) : (s.raise c a b).pins = s.pins := by unfold State.raise; split <;> rfl
@[simp] theorem raise_cfg (s : State) (c : EventCode) (a b : Nat) : (s.raise c a b).cfg = s.cfg := by unfold State.raise; split <;> rfl
@[simp] theorem raise_grid (s : State) (c : EventCode) (a b : Nat) : (s.raise c a b).grid = s.grid := by unfold State.raise; split <;> rfl
@[simp] theorem raise_ctxs (s : State) (c : EventCode) (a b : Nat) : (s.raise c a b).ctxs = s.ctxs := by unfold State.raise; split <;> rfl
@[simp] theorem raise_egress (s : State) (c : EventCode) (a b : Nat) : (s.raise c a b).egress = s.egress := by unfold State.raise; split <;> rfl
@[simp] theorem raise_share (s : State) (c : EventCode) (a b : Nat) : (s.raise c a b).share = s.share := by unfold State.raise; split <;> rfl
@[simp] theorem raise_pace (s : State) (c : EventCode) (a b : Nat) : (s.raise c a b).pace = s.pace := by unfold State.raise; split <;> rfl
@[simp] theorem raise_feed (s : State) (c : EventCode) (a b : Nat) : (s.raise c a b).feed = s.feed := by unfold State.raise; split <;> rfl
@[simp] theorem raise_store (s : State) (c : EventCode) (a b : Nat) : (s.raise c a b).store = s.store := by unfold State.raise; split <;> rfl
@[simp] theorem raise_loader (s : State) (c : EventCode) (a b : Nat) : (s.raise c a b).loader = s.loader := by unfold State.raise; split <;> rfl
@[simp] theorem raise_fresh (s : State) (c : EventCode) (a b : Nat) : (s.raise c a b).fresh = s.fresh := by unfold State.raise; split <;> rfl
@[simp] theorem raise_pending (s : State) (c : EventCode) (a b : Nat) : (s.raise c a b).pending = s.pending := by unfold State.raise; split <;> rfl

@[simp] theorem coldStart_pins (s : State)  : (s.coldStart).pins = s.pins := rfl
@[simp] theorem coldStart_fresh (s : State)  : (s.coldStart).fresh = s.fresh := rfl
@[simp] theorem coldStart_pending (s : State)  : (s.coldStart).pending = s.pending := rfl

@[simp] theorem respond_t (s : State) (c : Byte) (k : Nat) (b : List Byte) : (s.respond c k b).t = s.t := rfl
@[simp] theorem respond_powered (s : State) (c : Byte) (k : Nat) (b : List Byte) : (s.respond c k b).powered = s.powered := rfl
@[simp] theorem respond_cold (s : State) (c : Byte) (k : Nat) (b : List Byte) : (s.respond c k b).cold = s.cold := rfl
@[simp] theorem respond_pins (s : State) (c : Byte) (k : Nat) (b : List Byte) : (s.respond c k b).pins = s.pins := rfl
@[simp] theorem respond_cfg (s : State) (c : Byte) (k : Nat) (b : List Byte) : (s.respond c k b).cfg = s.cfg := rfl
@[simp] theorem respond_grid (s : State) (c : Byte) (k : Nat) (b : List Byte) : (s.respond c k b).grid = s.grid := rfl
@[simp] theorem respond_ctxs (s : State) (c : Byte) (k : Nat) (b : List Byte) : (s.respond c k b).ctxs = s.ctxs := rfl
@[simp] theorem respond_egress (s : State) (c : Byte) (k : Nat) (b : List Byte) : (s.respond c k b).egress = s.egress := rfl
@[simp] theorem respond_share (s : State) (c : Byte) (k : Nat) (b : List Byte) : (s.respond c k b).share = s.share := rfl
@[simp] theorem respond_pace (s : State) (c : Byte) (k : Nat) (b : List Byte) : (s.respond c k b).pace = s.pace := rfl
@[simp] theorem respond_feed (s : State) (c : Byte) (k : Nat) (b : List Byte) : (s.respond c k b).feed = s.feed := rfl
@[simp] theorem respond_store (s : State) (c : Byte) (k : Nat) (b : List Byte) : (s.respond c k b).store = s.store := rfl
@[simp] theorem respond_loader (s : State) (c : Byte) (k : Nat) (b : List Byte) : (s.respond c k b).loader = s.loader := rfl
@[simp] theorem respond_fresh (s : State) (c : Byte) (k : Nat) (b : List Byte) : (s.respond c k b).fresh = s.fresh := rfl
@[simp] theorem respond_pending (s : State) (c : Byte) (k : Nat) (b : List Byte) : (s.respond c k b).pending = s.pending := rfl

@[simp] theorem freePath_t (s : State)  : (s.freePath).t = s.t := rfl
@[simp] theorem freePath_powered (s : State)  : (s.freePath).powered = s.powered := rfl
@[simp] theorem freePath_cold (s : State)  : (s.freePath).cold = s.cold := rfl
@[simp] theorem freePath_pins (s : State)  : (s.freePath).pins = s.pins := rfl
@[simp] theorem freePath_cfg (s : State)  : (s.freePath).cfg = s.cfg := rfl
@[simp] theorem freePath_grid (s : State)  : (s.freePath).grid = s.grid := rfl
@[simp] theorem freePath_ctxs (s : State)  : (s.freePath).ctxs = s.ctxs := rfl
@[simp] theorem freePath_egress (s : State)  : (s.freePath).egress = s.egress := rfl
@[simp] theorem freePath_share (s : State)  : (s.freePath).share = s.share := rfl
@[simp] theorem freePath_pace (s : State)  : (s.freePath).pace = s.pace := rfl
@[simp] theorem freePath_store (s : State)  : (s.freePath).store = s.store := rfl
@[simp] theorem freePath_loader (s : State)  : (s.freePath).loader = s.loader := rfl
@[simp] theorem freePath_link (s : State)  : (s.freePath).link = s.link := rfl
@[simp] theorem freePath_fresh (s : State)  : (s.freePath).fresh = s.fresh := rfl
@[simp] theorem freePath_pending (s : State)  : (s.freePath).pending = s.pending := rfl

@[simp] theorem answer_t (s : State) (n : Stream) : (s.answer n).t = s.t := rfl
@[simp] theorem answer_powered (s : State) (n : Stream) : (s.answer n).powered = s.powered := rfl
@[simp] theorem answer_cold (s : State) (n : Stream) : (s.answer n).cold = s.cold := rfl
@[simp] theorem answer_pins (s : State) (n : Stream) : (s.answer n).pins = s.pins := rfl
@[simp] theorem answer_cfg (s : State) (n : Stream) : (s.answer n).cfg = s.cfg := rfl
@[simp] theorem answer_grid (s : State) (n : Stream) : (s.answer n).grid = s.grid := rfl
@[simp] theorem answer_ctxs (s : State) (n : Stream) : (s.answer n).ctxs = s.ctxs := rfl
@[simp] theorem answer_egress (s : State) (n : Stream) : (s.answer n).egress = s.egress := rfl
@[simp] theorem answer_share (s : State) (n : Stream) : (s.answer n).share = s.share := rfl
@[simp] theorem answer_pace (s : State) (n : Stream) : (s.answer n).pace = s.pace := rfl
@[simp] theorem answer_store (s : State) (n : Stream) : (s.answer n).store = s.store := rfl
@[simp] theorem answer_loader (s : State) (n : Stream) : (s.answer n).loader = s.loader := rfl
@[simp] theorem answer_link (s : State) (n : Stream) : (s.answer n).link = s.link := rfl
@[simp] theorem answer_fresh (s : State) (n : Stream) : (s.answer n).fresh = s.fresh := rfl
@[simp] theorem answer_pending (s : State) (n : Stream) : (s.answer n).pending = s.pending := rfl

/-! ### The stream table -/

@[simp] theorem ctx_setCtx_self (s : State) (n : Stream) (c : Context) : (s.setCtx n c).ctx n = c := by
  simp [State.ctx, State.setCtx]

@[simp] theorem ctx_setCtx_ne (s : State) {n m : Stream} (c : Context) (h : m ≠ n) :
    (s.setCtx n c).ctx m = s.ctx m := by
  have : n.val ≠ m.val := fun e => h (Fin.ext e.symm)
  simp [State.ctx, State.setCtx, this]

theorem ctx_setCtx (s : State) (n m : Stream) (c : Context) :
    (s.setCtx n c).ctx m = if m = n then c else s.ctx m := by
  by_cases h : m = n
  · subst h; simp
  · simp [h]

/-- A context depends on the stream table alone. -/
theorem ctx_congr {s s' : State} (h : s'.ctxs = s.ctxs) (n : Stream) : s'.ctx n = s.ctx n := by
  simp [State.ctx, h]

@[simp] theorem ctx_raise (s : State) (c : EventCode) (a b : Nat) (n : Stream) : (s.raise c a b).ctx n = s.ctx n :=
  ctx_congr (raise_ctxs s c a b) n

@[simp] theorem ctx_chosen (s : State) (k : Nat) (n : Stream) : (s.chosen k).ctx n = s.ctx n := rfl

@[simp] theorem ctx_setChan (s : State) (m : Stream) (c : Channel) (n : Stream) : (s.setChan m c).ctx n = s.ctx n := rfl

/-! ### The feed channels -/

@[simp] theorem chan_setChan_self (s : State) (n : Stream) (c : Channel) : (s.setChan n c).chan n = c := by
  simp [State.chan, State.setChan]

@[simp] theorem chan_setChan_ne (s : State) {n m : Stream} (c : Channel) (h : m ≠ n) :
    (s.setChan n c).chan m = s.chan m := by
  have : n.val ≠ m.val := fun e => h (Fin.ext e.symm)
  simp [State.chan, State.setChan, this]

@[simp] theorem chan_setCtx (s : State) (m : Stream) (c : Context) (n : Stream) : (s.setCtx m c).chan n = s.chan n := rfl

@[simp] theorem chan_raise (s : State) (c : EventCode) (a b : Nat) (n : Stream) : (s.raise c a b).chan n = s.chan n := by
  simp [State.chan]

@[simp] theorem setChan_write (s : State) (n : Stream) (c : Channel) : (s.setChan n c).feed.write = s.feed.write := rfl

@[simp] theorem setChan_ptr (s : State) (n : Stream) (c : Channel) : (s.setChan n c).feed.ptr = s.feed.ptr := rfl

@[simp] theorem setChan_take (s : State) (n : Stream) (c : Channel) : (s.setChan n c).feed.take = s.feed.take := rfl

/-- After cold start every context is at its cold-start value. -/
@[simp] theorem ctx_coldStart (s : State) (n : Stream) : s.coldStart.ctx n = Context.cold := by
  simp [State.ctx, State.coldStart]

/-- Right after reset every context is at its cold-start value. -/
@[simp] theorem ctx_reset (n : Stream) : State.reset.ctx n = Context.cold := by
  simp [State.ctx, State.reset]

/-! ### Equality of states -/

/-- Two states that agree field by field are equal. -/
theorem state_eq {s u : State} (h1 : s.t = u.t) (h2 : s.powered = u.powered) (h3 : s.cold = u.cold)
    (h4 : s.pins = u.pins) (h5 : s.cfg = u.cfg) (h6 : s.grid = u.grid) (h7 : s.ctxs = u.ctxs)
    (h8 : s.egress = u.egress) (h9 : s.share = u.share) (h10 : s.pace = u.pace) (h11 : s.feed = u.feed)
    (h12 : s.store = u.store) (h13 : s.loader = u.loader) (h14 : s.link = u.link) (h15 : s.fresh = u.fresh)
    (h16 : s.pending = u.pending) : s = u := by
  cases s
  cases u
  simp_all

/-- Two stream tables that agree stream by stream are equal. -/
theorem ctxs_eq {s u : State} (h : ∀ n, s.ctx n = u.ctx n) : s.ctxs = u.ctxs :=
  Vector.ext fun i hi => h ⟨i, hi⟩

/-- Two lists of channels that agree channel by channel are equal. -/
theorem chans_eq {s u : State} (h : ∀ n, s.chan n = u.chan n) : s.feed.chans = u.feed.chans :=
  Vector.ext fun i hi => h ⟨i, hi⟩

end Sys2Proof.Machine
end

