-- ==== Sys2Proof/Laws/Frames.lean ====
section
/-! SUPPORT. What each shared operation leaves as it was, field by field. -/

namespace Sys2Proof.Machine

open Sys2Proof

/-- A fold of steps that each leave a view of the state as it was leaves it as it was. -/
theorem foldl_keeps {β γ : Type} {f : State → β → State} (g : State → γ) (h : ∀ s x, g (f s x) = g s) (l : List β)
    (s : State) : g (l.foldl f s) = g s := by
  induction l generalizing s with
  | nil => rfl
  | cons x xs ih => rw [List.foldl_cons, ih, h]

@[simp] theorem raiseAll_t (s : State) (es : List Raised) : (s.raiseAll es).t = s.t := by
  exact foldl_keeps (·.t) (fun s e => raise_t s e.code e.subject e.detail) es s
@[simp] theorem raiseAll_powered (s : State) (es : List Raised) : (s.raiseAll es).powered = s.powered := by
  exact foldl_keeps (·.powered) (fun s e => raise_powered s e.code e.subject e.detail) es s
@[simp] theorem raiseAll_cold (s : State) (es : List Raised) : (s.raiseAll es).cold = s.cold := by
  exact foldl_keeps (·.cold) (fun s e => raise_cold s e.code e.subject e.detail) es s
@[simp] theorem raiseAll_pins (s : State) (es : List Raised) : (s.raiseAll es).pins = s.pins := by
  exact foldl_keeps (·.pins) (fun s e => raise_pins s e.code e.subject e.detail) es s
@[simp] theorem raiseAll_cfg (s : State) (es : List Raised) : (s.raiseAll es).cfg = s.cfg := by
  exact foldl_keeps (·.cfg) (fun s e => raise_cfg s e.code e.subject e.detail) es s
@[simp] theorem raiseAll_grid (s : State) (es : List Raised) : (s.raiseAll es).grid = s.grid := by
  exact foldl_keeps (·.grid) (fun s e => raise_grid s e.code e.subject e.detail) es s
@[simp] theorem raiseAll_ctxs (s : State) (es : List Raised) : (s.raiseAll es).ctxs = s.ctxs := by
  exact foldl_keeps (·.ctxs) (fun s e => raise_ctxs s e.code e.subject e.detail) es s
@[simp] theorem raiseAll_egress (s : State) (es : List Raised) : (s.raiseAll es).egress = s.egress := by
  exact foldl_keeps (·.egress) (fun s e => raise_egress s e.code e.subject e.detail) es s
@[simp] theorem raiseAll_share (s : State) (es : List Raised) : (s.raiseAll es).share = s.share := by
  exact foldl_keeps (·.share) (fun s e => raise_share s e.code e.subject e.detail) es s
@[simp] theorem raiseAll_pace (s : State) (es : List Raised) : (s.raiseAll es).pace = s.pace := by
  exact foldl_keeps (·.pace) (fun s e => raise_pace s e.code e.subject e.detail) es s
@[simp] theorem raiseAll_feed (s : State) (es : List Raised) : (s.raiseAll es).feed = s.feed := by
  exact foldl_keeps (·.feed) (fun s e => raise_feed s e.code e.subject e.detail) es s
@[simp] theorem raiseAll_store (s : State) (es : List Raised) : (s.raiseAll es).store = s.store := by
  exact foldl_keeps (·.store) (fun s e => raise_store s e.code e.subject e.detail) es s
@[simp] theorem raiseAll_loader (s : State) (es : List Raised) : (s.raiseAll es).loader = s.loader := by
  exact foldl_keeps (·.loader) (fun s e => raise_loader s e.code e.subject e.detail) es s
@[simp] theorem raiseAll_fresh (s : State) (es : List Raised) : (s.raiseAll es).fresh = s.fresh := by
  exact foldl_keeps (·.fresh) (fun s e => raise_fresh s e.code e.subject e.detail) es s
@[simp] theorem raiseAll_pending (s : State) (es : List Raised) : (s.raiseAll es).pending = s.pending := by
  exact foldl_keeps (·.pending) (fun s e => raise_pending s e.code e.subject e.detail) es s

@[simp] theorem trimWork_t (s : State) (n : Stream) (cut : List Record) : (s.trimWork n cut).t = s.t := by
  simp [State.trimWork]
@[simp] theorem trimWork_powered (s : State) (n : Stream) (cut : List Record) : (s.trimWork n cut).powered = s.powered := by
  simp [State.trimWork]
@[simp] theorem trimWork_cold (s : State) (n : Stream) (cut : List Record) : (s.trimWork n cut).cold = s.cold := by
  simp [State.trimWork]
@[simp] theorem trimWork_pins (s : State) (n : Stream) (cut : List Record) : (s.trimWork n cut).pins = s.pins := by
  simp [State.trimWork]
@[simp] theorem trimWork_cfg (s : State) (n : Stream) (cut : List Record) : (s.trimWork n cut).cfg = s.cfg := by
  simp [State.trimWork]
@[simp] theorem trimWork_grid (s : State) (n : Stream) (cut : List Record) : (s.trimWork n cut).grid = s.grid := by
  simp [State.trimWork]
@[simp] theorem trimWork_ctxs (s : State) (n : Stream) (cut : List Record) : (s.trimWork n cut).ctxs = s.ctxs := by
  simp [State.trimWork]
@[simp] theorem trimWork_share (s : State) (n : Stream) (cut : List Record) : (s.trimWork n cut).share = s.share := by
  simp [State.trimWork]
@[simp] theorem trimWork_pace (s : State) (n : Stream) (cut : List Record) : (s.trimWork n cut).pace = s.pace := by
  simp [State.trimWork]
@[simp] theorem trimWork_feed (s : State) (n : Stream) (cut : List Record) : (s.trimWork n cut).feed = s.feed := by
  simp [State.trimWork]
@[simp] theorem trimWork_loader (s : State) (n : Stream) (cut : List Record) : (s.trimWork n cut).loader = s.loader := by
  simp [State.trimWork]
@[simp] theorem trimWork_fresh (s : State) (n : Stream) (cut : List Record) : (s.trimWork n cut).fresh = s.fresh := by
  simp [State.trimWork]
@[simp] theorem trimWork_pending (s : State) (n : Stream) (cut : List Record) : (s.trimWork n cut).pending = s.pending := by
  simp [State.trimWork]

@[simp] theorem streamEpoch_t (s : State) (n : Stream) (e : Time) : (s.streamEpoch n e).t = s.t := by
  unfold State.streamEpoch; simp only []; (repeat' split) <;> simp
@[simp] theorem streamEpoch_powered (s : State) (n : Stream) (e : Time) : (s.streamEpoch n e).powered = s.powered := by
  unfold State.streamEpoch; simp only []; (repeat' split) <;> simp
@[simp] theorem streamEpoch_cold (s : State) (n : Stream) (e : Time) : (s.streamEpoch n e).cold = s.cold := by
  unfold State.streamEpoch; simp only []; (repeat' split) <;> simp
@[simp] theorem streamEpoch_pins (s : State) (n : Stream) (e : Time) : (s.streamEpoch n e).pins = s.pins := by
  unfold State.streamEpoch; simp only []; (repeat' split) <;> simp
@[simp] theorem streamEpoch_cfg (s : State) (n : Stream) (e : Time) : (s.streamEpoch n e).cfg = s.cfg := by
  unfold State.streamEpoch; simp only []; (repeat' split) <;> simp
@[simp] theorem streamEpoch_grid (s : State) (n : Stream) (e : Time) : (s.streamEpoch n e).grid = s.grid := by
  unfold State.streamEpoch; simp only []; (repeat' split) <;> simp
@[simp] theorem streamEpoch_share (s : State) (n : Stream) (e : Time) : (s.streamEpoch n e).share = s.share := by
  unfold State.streamEpoch; simp only []; (repeat' split) <;> simp
@[simp] theorem streamEpoch_pace (s : State) (n : Stream) (e : Time) : (s.streamEpoch n e).pace = s.pace := by
  unfold State.streamEpoch; simp only []; (repeat' split) <;> simp
@[simp] theorem streamEpoch_feed (s : State) (n : Stream) (e : Time) : (s.streamEpoch n e).feed = s.feed := by
  unfold State.streamEpoch; simp only []; (repeat' split) <;> simp
@[simp] theorem streamEpoch_loader (s : State) (n : Stream) (e : Time) : (s.streamEpoch n e).loader = s.loader := by
  unfold State.streamEpoch; simp only []; (repeat' split) <;> simp
@[simp] theorem streamEpoch_fresh (s : State) (n : Stream) (e : Time) : (s.streamEpoch n e).fresh = s.fresh := by
  unfold State.streamEpoch; simp only []; (repeat' split) <;> simp
@[simp] theorem streamEpoch_pending (s : State) (n : Stream) (e : Time) : (s.streamEpoch n e).pending = s.pending := by
  unfold State.streamEpoch; simp only []; (repeat' split) <;> simp

@[simp] theorem starveStream_t (s : State) (n : Stream) : (s.starveStream n).t = s.t := by
  simp [State.starveStream]
@[simp] theorem starveStream_powered (s : State) (n : Stream) : (s.starveStream n).powered = s.powered := by
  simp [State.starveStream]
@[simp] theorem starveStream_cold (s : State) (n : Stream) : (s.starveStream n).cold = s.cold := by
  simp [State.starveStream]
@[simp] theorem starveStream_pins (s : State) (n : Stream) : (s.starveStream n).pins = s.pins := by
  simp [State.starveStream]
@[simp] theorem starveStream_cfg (s : State) (n : Stream) : (s.starveStream n).cfg = s.cfg := by
  simp [State.starveStream]
@[simp] theorem starveStream_grid (s : State) (n : Stream) : (s.starveStream n).grid = s.grid := by
  simp [State.starveStream]
@[simp] theorem starveStream_share (s : State) (n : Stream) : (s.starveStream n).share = s.share := by
  simp [State.starveStream]
@[simp] theorem starveStream_pace (s : State) (n : Stream) : (s.starveStream n).pace = s.pace := by
  simp [State.starveStream]
@[simp] theorem starveStream_feed (s : State) (n : Stream) : (s.starveStream n).feed = s.feed := by
  simp [State.starveStream]
@[simp] theorem starveStream_store (s : State) (n : Stream) : (s.starveStream n).store = s.store := by
  simp [State.starveStream]
@[simp] theorem starveStream_loader (s : State) (n : Stream) : (s.starveStream n).loader = s.loader := by
  simp [State.starveStream]
@[simp] theorem starveStream_link (s : State) (n : Stream) : (s.starveStream n).link = s.link := by
  simp [State.starveStream]
@[simp] theorem starveStream_fresh (s : State) (n : Stream) : (s.starveStream n).fresh = s.fresh := by
  simp [State.starveStream]
@[simp] theorem starveStream_pending (s : State) (n : Stream) : (s.starveStream n).pending = s.pending := by
  simp [State.starveStream]

@[simp] theorem collide_t (s : State) (n : Stream) : (s.collide n).t = s.t := by
  simp [State.collide]
@[simp] theorem collide_powered (s : State) (n : Stream) : (s.collide n).powered = s.powered := by
  simp [State.collide]
@[simp] theorem collide_cold (s : State) (n : Stream) : (s.collide n).cold = s.cold := by
  simp [State.collide]
@[simp] theorem collide_pins (s : State) (n : Stream) : (s.collide n).pins = s.pins := by
  simp [State.collide]
@[simp] theorem collide_cfg (s : State) (n : Stream) : (s.collide n).cfg = s.cfg := by
  simp [State.collide]
@[simp] theorem collide_grid (s : State) (n : Stream) : (s.collide n).grid = s.grid := by
  simp [State.collide]
@[simp] theorem collide_share (s : State) (n : Stream) : (s.collide n).share = s.share := by
  simp [State.collide]
@[simp] theorem collide_pace (s : State) (n : Stream) : (s.collide n).pace = s.pace := by
  simp [State.collide]
@[simp] theorem collide_feed (s : State) (n : Stream) : (s.collide n).feed = s.feed := by
  simp [State.collide]
@[simp] theorem collide_store (s : State) (n : Stream) : (s.collide n).store = s.store := by
  simp [State.collide]
@[simp] theorem collide_loader (s : State) (n : Stream) : (s.collide n).loader = s.loader := by
  simp [State.collide]
@[simp] theorem collide_link (s : State) (n : Stream) : (s.collide n).link = s.link := by
  simp [State.collide]
@[simp] theorem collide_fresh (s : State) (n : Stream) : (s.collide n).fresh = s.fresh := by
  simp [State.collide]
@[simp] theorem collide_pending (s : State) (n : Stream) : (s.collide n).pending = s.pending := by
  simp [State.collide]

@[simp] theorem grantWork_t (s : State) (n : Stream) (cfg : StreamCfg) (r : Record) (rest : List Record) : (s.grantWork n cfg r rest).t = s.t := by
  unfold State.grantWork; simp only []; rw [foldl_keeps (·.t) (fun s m => collide_t s m)]; simp
@[simp] theorem grantWork_powered (s : State) (n : Stream) (cfg : StreamCfg) (r : Record) (rest : List Record) : (s.grantWork n cfg r rest).powered = s.powered := by
  unfold State.grantWork; simp only []; rw [foldl_keeps (·.powered) (fun s m => collide_powered s m)]; simp
@[simp] theorem grantWork_cold (s : State) (n : Stream) (cfg : StreamCfg) (r : Record) (rest : List Record) : (s.grantWork n cfg r rest).cold = s.cold := by
  unfold State.grantWork; simp only []; rw [foldl_keeps (·.cold) (fun s m => collide_cold s m)]; simp
@[simp] theorem grantWork_pins (s : State) (n : Stream) (cfg : StreamCfg) (r : Record) (rest : List Record) : (s.grantWork n cfg r rest).pins = s.pins := by
  unfold State.grantWork; simp only []; rw [foldl_keeps (·.pins) (fun s m => collide_pins s m)]; simp
@[simp] theorem grantWork_cfg (s : State) (n : Stream) (cfg : StreamCfg) (r : Record) (rest : List Record) : (s.grantWork n cfg r rest).cfg = s.cfg := by
  unfold State.grantWork; simp only []; rw [foldl_keeps (·.cfg) (fun s m => collide_cfg s m)]; simp
@[simp] theorem grantWork_grid (s : State) (n : Stream) (cfg : StreamCfg) (r : Record) (rest : List Record) : (s.grantWork n cfg r rest).grid = s.grid := by
  unfold State.grantWork; simp only []; rw [foldl_keeps (·.grid) (fun s m => collide_grid s m)]; simp
@[simp] theorem grantWork_share (s : State) (n : Stream) (cfg : StreamCfg) (r : Record) (rest : List Record) : (s.grantWork n cfg r rest).share = s.share := by
  unfold State.grantWork; simp only []; rw [foldl_keeps (·.share) (fun s m => collide_share s m)]; simp
@[simp] theorem grantWork_pace (s : State) (n : Stream) (cfg : StreamCfg) (r : Record) (rest : List Record) : (s.grantWork n cfg r rest).pace = s.pace := by
  unfold State.grantWork; simp only []; rw [foldl_keeps (·.pace) (fun s m => collide_pace s m)]; simp
@[simp] theorem grantWork_feed (s : State) (n : Stream) (cfg : StreamCfg) (r : Record) (rest : List Record) : (s.grantWork n cfg r rest).feed = s.feed := by
  unfold State.grantWork; simp only []; rw [foldl_keeps (·.feed) (fun s m => collide_feed s m)]; simp
@[simp] theorem grantWork_store (s : State) (n : Stream) (cfg : StreamCfg) (r : Record) (rest : List Record) : (s.grantWork n cfg r rest).store = s.store := by
  unfold State.grantWork; simp only []; rw [foldl_keeps (·.store) (fun s m => collide_store s m)]; simp
@[simp] theorem grantWork_loader (s : State) (n : Stream) (cfg : StreamCfg) (r : Record) (rest : List Record) : (s.grantWork n cfg r rest).loader = s.loader := by
  unfold State.grantWork; simp only []; rw [foldl_keeps (·.loader) (fun s m => collide_loader s m)]; simp
@[simp] theorem grantWork_link (s : State) (n : Stream) (cfg : StreamCfg) (r : Record) (rest : List Record) : (s.grantWork n cfg r rest).link = s.link := by
  unfold State.grantWork; simp only []; rw [foldl_keeps (·.link) (fun s m => collide_link s m)]; simp
@[simp] theorem grantWork_fresh (s : State) (n : Stream) (cfg : StreamCfg) (r : Record) (rest : List Record) : (s.grantWork n cfg r rest).fresh = s.fresh := by
  unfold State.grantWork; simp only []; rw [foldl_keeps (·.fresh) (fun s m => collide_fresh s m)]; simp
@[simp] theorem grantWork_pending (s : State) (n : Stream) (cfg : StreamCfg) (r : Record) (rest : List Record) : (s.grantWork n cfg r rest).pending = s.pending := by
  unfold State.grantWork; simp only []; rw [foldl_keeps (·.pending) (fun s m => collide_pending s m)]; simp

@[simp] theorem releaseSlot_t (s : State) (sl : Slot) : (s.releaseSlot sl).t = s.t := by
  simp [State.releaseSlot]
@[simp] theorem releaseSlot_powered (s : State) (sl : Slot) : (s.releaseSlot sl).powered = s.powered := by
  simp [State.releaseSlot]
@[simp] theorem releaseSlot_cold (s : State) (sl : Slot) : (s.releaseSlot sl).cold = s.cold := by
  simp [State.releaseSlot]
@[simp] theorem releaseSlot_pins (s : State) (sl : Slot) : (s.releaseSlot sl).pins = s.pins := by
  simp [State.releaseSlot]
@[simp] theorem releaseSlot_cfg (s : State) (sl : Slot) : (s.releaseSlot sl).cfg = s.cfg := by
  simp [State.releaseSlot]
@[simp] theorem releaseSlot_grid (s : State) (sl : Slot) : (s.releaseSlot sl).grid = s.grid := by
  simp [State.releaseSlot]
@[simp] theorem releaseSlot_ctxs (s : State) (sl : Slot) : (s.releaseSlot sl).ctxs = s.ctxs := by
  simp [State.releaseSlot]
@[simp] theorem releaseSlot_share (s : State) (sl : Slot) : (s.releaseSlot sl).share = s.share := by
  simp [State.releaseSlot]
@[simp] theorem releaseSlot_pace (s : State) (sl : Slot) : (s.releaseSlot sl).pace = s.pace := by
  simp [State.releaseSlot]
@[simp] theorem releaseSlot_feed (s : State) (sl : Slot) : (s.releaseSlot sl).feed = s.feed := by
  simp [State.releaseSlot]
@[simp] theorem releaseSlot_loader (s : State) (sl : Slot) : (s.releaseSlot sl).loader = s.loader := by
  simp [State.releaseSlot]
@[simp] theorem releaseSlot_link (s : State) (sl : Slot) : (s.releaseSlot sl).link = s.link := by
  simp [State.releaseSlot]
@[simp] theorem releaseSlot_fresh (s : State) (sl : Slot) : (s.releaseSlot sl).fresh = s.fresh := by
  simp [State.releaseSlot]
@[simp] theorem releaseSlot_pending (s : State) (sl : Slot) : (s.releaseSlot sl).pending = s.pending := by
  simp [State.releaseSlot]

@[simp] theorem abandonSlot_t (s : State) (sl : Slot) : (s.abandonSlot sl).t = s.t := by
  simp [State.abandonSlot]
@[simp] theorem abandonSlot_powered (s : State) (sl : Slot) : (s.abandonSlot sl).powered = s.powered := by
  simp [State.abandonSlot]
@[simp] theorem abandonSlot_cold (s : State) (sl : Slot) : (s.abandonSlot sl).cold = s.cold := by
  simp [State.abandonSlot]
@[simp] theorem abandonSlot_pins (s : State) (sl : Slot) : (s.abandonSlot sl).pins = s.pins := by
  simp [State.abandonSlot]
@[simp] theorem abandonSlot_cfg (s : State) (sl : Slot) : (s.abandonSlot sl).cfg = s.cfg := by
  simp [State.abandonSlot]
@[simp] theorem abandonSlot_grid (s : State) (sl : Slot) : (s.abandonSlot sl).grid = s.grid := by
  simp [State.abandonSlot]
@[simp] theorem abandonSlot_share (s : State) (sl : Slot) : (s.abandonSlot sl).share = s.share := by
  simp [State.abandonSlot]
@[simp] theorem abandonSlot_pace (s : State) (sl : Slot) : (s.abandonSlot sl).pace = s.pace := by
  simp [State.abandonSlot]
@[simp] theorem abandonSlot_feed (s : State) (sl : Slot) : (s.abandonSlot sl).feed = s.feed := by
  simp [State.abandonSlot]
@[simp] theorem abandonSlot_loader (s : State) (sl : Slot) : (s.abandonSlot sl).loader = s.loader := by
  simp [State.abandonSlot]
@[simp] theorem abandonSlot_link (s : State) (sl : Slot) : (s.abandonSlot sl).link = s.link := by
  simp [State.abandonSlot]
@[simp] theorem abandonSlot_fresh (s : State) (sl : Slot) : (s.abandonSlot sl).fresh = s.fresh := by
  simp [State.abandonSlot]
@[simp] theorem abandonSlot_pending (s : State) (sl : Slot) : (s.abandonSlot sl).pending = s.pending := by
  simp [State.abandonSlot]

@[simp] theorem retireBank_t (s : State) (j : Fin 4) (b : Block) : (s.retireBank j b).t = s.t := by
  unfold State.retireBank; simp only []; (repeat' split) <;> simp
@[simp] theorem retireBank_powered (s : State) (j : Fin 4) (b : Block) : (s.retireBank j b).powered = s.powered := by
  unfold State.retireBank; simp only []; (repeat' split) <;> simp
@[simp] theorem retireBank_cold (s : State) (j : Fin 4) (b : Block) : (s.retireBank j b).cold = s.cold := by
  unfold State.retireBank; simp only []; (repeat' split) <;> simp
@[simp] theorem retireBank_pins (s : State) (j : Fin 4) (b : Block) : (s.retireBank j b).pins = s.pins := by
  unfold State.retireBank; simp only []; (repeat' split) <;> simp
@[simp] theorem retireBank_cfg (s : State) (j : Fin 4) (b : Block) : (s.retireBank j b).cfg = s.cfg := by
  unfold State.retireBank; simp only []; (repeat' split) <;> simp
@[simp] theorem retireBank_grid (s : State) (j : Fin 4) (b : Block) : (s.retireBank j b).grid = s.grid := by
  unfold State.retireBank; simp only []; (repeat' split) <;> simp
@[simp] theorem retireBank_ctxs (s : State) (j : Fin 4) (b : Block) : (s.retireBank j b).ctxs = s.ctxs := by
  unfold State.retireBank; simp only []; (repeat' split) <;> simp
@[simp] theorem retireBank_egress (s : State) (j : Fin 4) (b : Block) : (s.retireBank j b).egress = s.egress := by
  unfold State.retireBank; simp only []; (repeat' split) <;> simp
@[simp] theorem retireBank_share (s : State) (j : Fin 4) (b : Block) : (s.retireBank j b).share = s.share := by
  unfold State.retireBank; simp only []; (repeat' split) <;> simp
@[simp] theorem retireBank_pace (s : State) (j : Fin 4) (b : Block) : (s.retireBank j b).pace = s.pace := by
  unfold State.retireBank; simp only []; (repeat' split) <;> simp
@[simp] theorem retireBank_feed (s : State) (j : Fin 4) (b : Block) : (s.retireBank j b).feed = s.feed := by
  unfold State.retireBank; simp only []; (repeat' split) <;> simp
@[simp] theorem retireBank_loader (s : State) (j : Fin 4) (b : Block) : (s.retireBank j b).loader = s.loader := by
  unfold State.retireBank; simp only []; (repeat' split) <;> simp
@[simp] theorem retireBank_fresh (s : State) (j : Fin 4) (b : Block) : (s.retireBank j b).fresh = s.fresh := by
  unfold State.retireBank; simp only []; (repeat' split) <;> simp
@[simp] theorem retireBank_pending (s : State) (j : Fin 4) (b : Block) : (s.retireBank j b).pending = s.pending := by
  unfold State.retireBank; simp only []; (repeat' split) <;> simp

@[simp] theorem parityError_t (s : State) (b : Block) : (s.parityError b).t = s.t := by
  unfold State.parityError; simp only []; (repeat' split) <;> simp
@[simp] theorem parityError_powered (s : State) (b : Block) : (s.parityError b).powered = s.powered := by
  unfold State.parityError; simp only []; (repeat' split) <;> simp
@[simp] theorem parityError_cold (s : State) (b : Block) : (s.parityError b).cold = s.cold := by
  unfold State.parityError; simp only []; (repeat' split) <;> simp
@[simp] theorem parityError_pins (s : State) (b : Block) : (s.parityError b).pins = s.pins := by
  unfold State.parityError; simp only []; (repeat' split) <;> simp
@[simp] theorem parityError_cfg (s : State) (b : Block) : (s.parityError b).cfg = s.cfg := by
  unfold State.parityError; simp only []; (repeat' split) <;> simp
@[simp] theorem parityError_grid (s : State) (b : Block) : (s.parityError b).grid = s.grid := by
  unfold State.parityError; simp only []; (repeat' split) <;> simp
@[simp] theorem parityError_ctxs (s : State) (b : Block) : (s.parityError b).ctxs = s.ctxs := by
  unfold State.parityError; simp only []; (repeat' split) <;> simp
@[simp] theorem parityError_egress (s : State) (b : Block) : (s.parityError b).egress = s.egress := by
  unfold State.parityError; simp only []; (repeat' split) <;> simp
@[simp] theorem parityError_share (s : State) (b : Block) : (s.parityError b).share = s.share := by
  unfold State.parityError; simp only []; (repeat' split) <;> simp
@[simp] theorem parityError_pace (s : State) (b : Block) : (s.parityError b).pace = s.pace := by
  unfold State.parityError; simp only []; (repeat' split) <;> simp
@[simp] theorem parityError_feed (s : State) (b : Block) : (s.parityError b).feed = s.feed := by
  unfold State.parityError; simp only []; (repeat' split) <;> simp
@[simp] theorem parityError_loader (s : State) (b : Block) : (s.parityError b).loader = s.loader := by
  unfold State.parityError; simp only []; (repeat' split) <;> simp
@[simp] theorem parityError_fresh (s : State) (b : Block) : (s.parityError b).fresh = s.fresh := by
  unfold State.parityError; simp only []; (repeat' split) <;> simp
@[simp] theorem parityError_pending (s : State) (b : Block) : (s.parityError b).pending = s.pending := by
  unfold State.parityError; simp only []; (repeat' split) <;> simp

@[simp] theorem followLink_t (s : State)  : (s.followLink).t = s.t := by
  unfold State.followLink; simp only []; (repeat' split) <;> simp
@[simp] theorem followLink_powered (s : State)  : (s.followLink).powered = s.powered := by
  unfold State.followLink; simp only []; (repeat' split) <;> simp
@[simp] theorem followLink_cold (s : State)  : (s.followLink).cold = s.cold := by
  unfold State.followLink; simp only []; (repeat' split) <;> simp
@[simp] theorem followLink_pins (s : State)  : (s.followLink).pins = s.pins := by
  unfold State.followLink; simp only []; (repeat' split) <;> simp
@[simp] theorem followLink_cfg (s : State)  : (s.followLink).cfg = s.cfg := by
  unfold State.followLink; simp only []; (repeat' split) <;> simp
@[simp] theorem followLink_grid (s : State)  : (s.followLink).grid = s.grid := by
  unfold State.followLink; simp only []; (repeat' split) <;> simp
@[simp] theorem followLink_ctxs (s : State)  : (s.followLink).ctxs = s.ctxs := by
  unfold State.followLink; simp only []; (repeat' split) <;> simp
@[simp] theorem followLink_share (s : State)  : (s.followLink).share = s.share := by
  unfold State.followLink; simp only []; (repeat' split) <;> simp
@[simp] theorem followLink_pace (s : State)  : (s.followLink).pace = s.pace := by
  unfold State.followLink; simp only []; (repeat' split) <;> simp
@[simp] theorem followLink_feed (s : State)  : (s.followLink).feed = s.feed := by
  unfold State.followLink; simp only []; (repeat' split) <;> simp
@[simp] theorem followLink_store (s : State)  : (s.followLink).store = s.store := by
  unfold State.followLink; simp only []; (repeat' split) <;> simp
@[simp] theorem followLink_loader (s : State)  : (s.followLink).loader = s.loader := by
  unfold State.followLink; simp only []; (repeat' split) <;> simp
@[simp] theorem followLink_fresh (s : State)  : (s.followLink).fresh = s.fresh := by
  unfold State.followLink; simp only []; (repeat' split) <;> simp
@[simp] theorem followLink_pending (s : State)  : (s.followLink).pending = s.pending := by
  unfold State.followLink; simp only []; (repeat' split) <;> simp

@[simp] theorem takeNotice_t (s : State) (n : Heard) : (s.takeNotice n).t = s.t := by
  unfold State.takeNotice; simp only []; (repeat' split) <;> simp
@[simp] theorem takeNotice_powered (s : State) (n : Heard) : (s.takeNotice n).powered = s.powered := by
  unfold State.takeNotice; simp only []; (repeat' split) <;> simp
@[simp] theorem takeNotice_cold (s : State) (n : Heard) : (s.takeNotice n).cold = s.cold := by
  unfold State.takeNotice; simp only []; (repeat' split) <;> simp
@[simp] theorem takeNotice_pins (s : State) (n : Heard) : (s.takeNotice n).pins = s.pins := by
  unfold State.takeNotice; simp only []; (repeat' split) <;> simp
@[simp] theorem takeNotice_cfg (s : State) (n : Heard) : (s.takeNotice n).cfg = s.cfg := by
  unfold State.takeNotice; simp only []; (repeat' split) <;> simp
@[simp] theorem takeNotice_grid (s : State) (n : Heard) : (s.takeNotice n).grid = s.grid := by
  unfold State.takeNotice; simp only []; (repeat' split) <;> simp
@[simp] theorem takeNotice_ctxs (s : State) (n : Heard) : (s.takeNotice n).ctxs = s.ctxs := by
  unfold State.takeNotice; simp only []; (repeat' split) <;> simp
@[simp] theorem takeNotice_egress (s : State) (n : Heard) : (s.takeNotice n).egress = s.egress := by
  unfold State.takeNotice; simp only []; (repeat' split) <;> simp
@[simp] theorem takeNotice_pace (s : State) (n : Heard) : (s.takeNotice n).pace = s.pace := by
  unfold State.takeNotice; simp only []; (repeat' split) <;> simp
@[simp] theorem takeNotice_feed (s : State) (n : Heard) : (s.takeNotice n).feed = s.feed := by
  unfold State.takeNotice; simp only []; (repeat' split) <;> simp
@[simp] theorem takeNotice_store (s : State) (n : Heard) : (s.takeNotice n).store = s.store := by
  unfold State.takeNotice; simp only []; (repeat' split) <;> simp
@[simp] theorem takeNotice_loader (s : State) (n : Heard) : (s.takeNotice n).loader = s.loader := by
  unfold State.takeNotice; simp only []; (repeat' split) <;> simp
@[simp] theorem takeNotice_pending (s : State) (n : Heard) : (s.takeNotice n).pending = s.pending := by
  unfold State.takeNotice; simp only []; (repeat' split) <;> simp

@[simp] theorem mapCtxs_t (s : State) (f : Stream → Context → Context) : (s.mapCtxs f).t = s.t := by
  exact foldl_keeps (·.t) (fun s n => setCtx_t s n _) _ s
@[simp] theorem mapCtxs_powered (s : State) (f : Stream → Context → Context) : (s.mapCtxs f).powered = s.powered := by
  exact foldl_keeps (·.powered) (fun s n => setCtx_powered s n _) _ s
@[simp] theorem mapCtxs_cold (s : State) (f : Stream → Context → Context) : (s.mapCtxs f).cold = s.cold := by
  exact foldl_keeps (·.cold) (fun s n => setCtx_cold s n _) _ s
@[simp] theorem mapCtxs_pins (s : State) (f : Stream → Context → Context) : (s.mapCtxs f).pins = s.pins := by
  exact foldl_keeps (·.pins) (fun s n => setCtx_pins s n _) _ s
@[simp] theorem mapCtxs_cfg (s : State) (f : Stream → Context → Context) : (s.mapCtxs f).cfg = s.cfg := by
  exact foldl_keeps (·.cfg) (fun s n => setCtx_cfg s n _) _ s
@[simp] theorem mapCtxs_grid (s : State) (f : Stream → Context → Context) : (s.mapCtxs f).grid = s.grid := by
  exact foldl_keeps (·.grid) (fun s n => setCtx_grid s n _) _ s
@[simp] theorem mapCtxs_egress (s : State) (f : Stream → Context → Context) : (s.mapCtxs f).egress = s.egress := by
  exact foldl_keeps (·.egress) (fun s n => setCtx_egress s n _) _ s
@[simp] theorem mapCtxs_share (s : State) (f : Stream → Context → Context) : (s.mapCtxs f).share = s.share := by
  exact foldl_keeps (·.share) (fun s n => setCtx_share s n _) _ s
@[simp] theorem mapCtxs_pace (s : State) (f : Stream → Context → Context) : (s.mapCtxs f).pace = s.pace := by
  exact foldl_keeps (·.pace) (fun s n => setCtx_pace s n _) _ s
@[simp] theorem mapCtxs_feed (s : State) (f : Stream → Context → Context) : (s.mapCtxs f).feed = s.feed := by
  exact foldl_keeps (·.feed) (fun s n => setCtx_feed s n _) _ s
@[simp] theorem mapCtxs_store (s : State) (f : Stream → Context → Context) : (s.mapCtxs f).store = s.store := by
  exact foldl_keeps (·.store) (fun s n => setCtx_store s n _) _ s
@[simp] theorem mapCtxs_loader (s : State) (f : Stream → Context → Context) : (s.mapCtxs f).loader = s.loader := by
  exact foldl_keeps (·.loader) (fun s n => setCtx_loader s n _) _ s
@[simp] theorem mapCtxs_link (s : State) (f : Stream → Context → Context) : (s.mapCtxs f).link = s.link := by
  exact foldl_keeps (·.link) (fun s n => setCtx_link s n _) _ s
@[simp] theorem mapCtxs_fresh (s : State) (f : Stream → Context → Context) : (s.mapCtxs f).fresh = s.fresh := by
  exact foldl_keeps (·.fresh) (fun s n => setCtx_fresh s n _) _ s
@[simp] theorem mapCtxs_pending (s : State) (f : Stream → Context → Context) : (s.mapCtxs f).pending = s.pending := by
  exact foldl_keeps (·.pending) (fun s n => setCtx_pending s n _) _ s

/-- Changing contexts one by one reaches each listed one once. -/
theorem ctx_foldl_map (f : Stream → Context → Context) (l : List Stream) (s : State) (n : Stream) (hn : l.Nodup) :
    (l.foldl (fun s n => s.setCtx n (f n (s.ctx n))) s).ctx n = if n ∈ l then f n (s.ctx n) else s.ctx n := by
  induction l generalizing s with
  | nil => rfl
  | cons x xs ih =>
    obtain ⟨hx, hn⟩ := List.nodup_cons.mp hn
    rw [List.foldl_cons, ih _ hn]
    by_cases h : n = x
    · subst h; simp [hx]
    · by_cases h2 : n ∈ xs <;> simp [h, h2]

/-- Changing every context changes each by its own number. -/
@[simp] theorem ctx_mapCtxs (s : State) (f : Stream → Context → Context) (n : Stream) :
    (s.mapCtxs f).ctx n = f n (s.ctx n) := by
  unfold State.mapCtxs allStreams
  rw [ctx_foldl_map _ _ _ _ (List.nodup_finRange 16), if_pos (List.mem_finRange n)]

/-- Changing contexts changes nothing but the stream table. -/
theorem mapCtxs_frame (s : State) (f : Stream → Context → Context) :
    s.mapCtxs f = { s with ctxs := (s.mapCtxs f).ctxs } := by
  unfold State.mapCtxs
  induction allStreams generalizing s with
  | nil => rfl
  | cons x xs ih => rw [List.foldl_cons, ih]; rfl

@[simp] theorem stageAll_t (s : State) (k : Nat) : (s.stageAll k).t = s.t := mapCtxs_t ..
@[simp] theorem stageAll_powered (s : State) (k : Nat) : (s.stageAll k).powered = s.powered := mapCtxs_powered ..
@[simp] theorem stageAll_cold (s : State) (k : Nat) : (s.stageAll k).cold = s.cold := mapCtxs_cold ..
@[simp] theorem stageAll_pins (s : State) (k : Nat) : (s.stageAll k).pins = s.pins := mapCtxs_pins ..
@[simp] theorem stageAll_cfg (s : State) (k : Nat) : (s.stageAll k).cfg = s.cfg := mapCtxs_cfg ..
@[simp] theorem stageAll_grid (s : State) (k : Nat) : (s.stageAll k).grid = s.grid := mapCtxs_grid ..
@[simp] theorem stageAll_egress (s : State) (k : Nat) : (s.stageAll k).egress = s.egress := mapCtxs_egress ..
@[simp] theorem stageAll_share (s : State) (k : Nat) : (s.stageAll k).share = s.share := mapCtxs_share ..
@[simp] theorem stageAll_pace (s : State) (k : Nat) : (s.stageAll k).pace = s.pace := mapCtxs_pace ..
@[simp] theorem stageAll_feed (s : State) (k : Nat) : (s.stageAll k).feed = s.feed := mapCtxs_feed ..
@[simp] theorem stageAll_store (s : State) (k : Nat) : (s.stageAll k).store = s.store := mapCtxs_store ..
@[simp] theorem stageAll_loader (s : State) (k : Nat) : (s.stageAll k).loader = s.loader := mapCtxs_loader ..
@[simp] theorem stageAll_link (s : State) (k : Nat) : (s.stageAll k).link = s.link := mapCtxs_link ..
@[simp] theorem stageAll_fresh (s : State) (k : Nat) : (s.stageAll k).fresh = s.fresh := mapCtxs_fresh ..
@[simp] theorem stageAll_pending (s : State) (k : Nat) : (s.stageAll k).pending = s.pending := mapCtxs_pending ..

/-- Staging the factor into every context (R102). -/
theorem ctx_stageAll (s : State) (k : Nat) (n : Stream) : (s.stageAll k).ctx n = (s.ctx n).stage k := ctx_mapCtxs ..

@[simp] theorem takeDue_t (s : State) : s.takeDue.t = s.t := by simp [State.takeDue]
@[simp] theorem takeDue_powered (s : State) : s.takeDue.powered = s.powered := by simp [State.takeDue]
@[simp] theorem takeDue_cold (s : State) : s.takeDue.cold = s.cold := by simp [State.takeDue]
@[simp] theorem takeDue_pins (s : State) : s.takeDue.pins = s.pins := by simp [State.takeDue]
@[simp] theorem takeDue_cfg (s : State) : s.takeDue.cfg = s.cfg := by simp [State.takeDue]
@[simp] theorem takeDue_grid (s : State) : s.takeDue.grid = s.grid := by simp [State.takeDue]
@[simp] theorem takeDue_egress (s : State) : s.takeDue.egress = s.egress := by simp [State.takeDue]
@[simp] theorem takeDue_share (s : State) : s.takeDue.share = s.share := by simp [State.takeDue]
@[simp] theorem takeDue_pace (s : State) : s.takeDue.pace = s.pace := by simp [State.takeDue]
@[simp] theorem takeDue_feed (s : State) : s.takeDue.feed = s.feed := by simp [State.takeDue]
@[simp] theorem takeDue_store (s : State) : s.takeDue.store = s.store := by simp [State.takeDue]
@[simp] theorem takeDue_loader (s : State) : s.takeDue.loader = s.loader := by simp [State.takeDue]
@[simp] theorem takeDue_link (s : State) : s.takeDue.link = s.link := by simp [State.takeDue]
@[simp] theorem takeDue_pending (s : State) : s.takeDue.pending = s.pending := by simp [State.takeDue]

/-- Before a grant nothing changes but the stream table and the choices (R69). -/
theorem takeDue_frame (s : State) : s.takeDue = { s with ctxs := s.takeDue.ctxs, fresh := s.takeDue.fresh } := by
  unfold State.takeDue
  simp only []
  rw [mapCtxs_frame]; rfl

/-- Before a grant, a context that comes due loses the mark that it does so at this tick; no other changes (R69). -/
theorem ctx_takeDue (s : State) (n : Stream) :
    s.takeDue.ctx n = if n ∈ s.comingDue then (s.ctx n).seen else s.ctx n := by
  have h : ∀ (u : State) (k : Nat), (u.chosen k).ctx n = u.ctx n := fun _ _ => rfl
  unfold State.takeDue
  rw [h, ctx_mapCtxs]

@[simp] theorem shareEpoch_t (s : State)  : (s.shareEpoch).t = s.t := by
  unfold State.shareEpoch; simp only []; (repeat' split) <;> simp
@[simp] theorem shareEpoch_powered (s : State)  : (s.shareEpoch).powered = s.powered := by
  unfold State.shareEpoch; simp only []; (repeat' split) <;> simp
@[simp] theorem shareEpoch_cold (s : State)  : (s.shareEpoch).cold = s.cold := by
  unfold State.shareEpoch; simp only []; (repeat' split) <;> simp
@[simp] theorem shareEpoch_pins (s : State)  : (s.shareEpoch).pins = s.pins := by
  unfold State.shareEpoch; simp only []; (repeat' split) <;> simp
@[simp] theorem shareEpoch_cfg (s : State)  : (s.shareEpoch).cfg = s.cfg := by
  unfold State.shareEpoch; simp only []; (repeat' split) <;> simp
@[simp] theorem shareEpoch_grid (s : State)  : (s.shareEpoch).grid = s.grid := by
  unfold State.shareEpoch; simp only []; (repeat' split) <;> simp
@[simp] theorem shareEpoch_egress (s : State)  : (s.shareEpoch).egress = s.egress := by
  unfold State.shareEpoch; simp only []; (repeat' split) <;> simp
@[simp] theorem shareEpoch_pace (s : State)  : (s.shareEpoch).pace = s.pace := by
  unfold State.shareEpoch; simp only []; (repeat' split) <;> simp
@[simp] theorem shareEpoch_feed (s : State)  : (s.shareEpoch).feed = s.feed := by
  unfold State.shareEpoch; simp only []; (repeat' split) <;> simp
@[simp] theorem shareEpoch_store (s : State)  : (s.shareEpoch).store = s.store := by
  unfold State.shareEpoch; simp only []; (repeat' split) <;> simp
@[simp] theorem shareEpoch_loader (s : State)  : (s.shareEpoch).loader = s.loader := by
  unfold State.shareEpoch; simp only []; (repeat' split) <;> simp
@[simp] theorem shareEpoch_pending (s : State)  : (s.shareEpoch).pending = s.pending := by
  unfold State.shareEpoch; simp only []; (repeat' split) <;> simp

@[simp] theorem judgeNotice_t (s : State) (bits : List Bool) (o : Nat) : (s.judgeNotice bits o).t = s.t := by
  unfold State.judgeNotice; simp only []; (repeat' split) <;> simp
@[simp] theorem judgeNotice_powered (s : State) (bits : List Bool) (o : Nat) : (s.judgeNotice bits o).powered = s.powered := by
  unfold State.judgeNotice; simp only []; (repeat' split) <;> simp
@[simp] theorem judgeNotice_cold (s : State) (bits : List Bool) (o : Nat) : (s.judgeNotice bits o).cold = s.cold := by
  unfold State.judgeNotice; simp only []; (repeat' split) <;> simp
@[simp] theorem judgeNotice_pins (s : State) (bits : List Bool) (o : Nat) : (s.judgeNotice bits o).pins = s.pins := by
  unfold State.judgeNotice; simp only []; (repeat' split) <;> simp
@[simp] theorem judgeNotice_cfg (s : State) (bits : List Bool) (o : Nat) : (s.judgeNotice bits o).cfg = s.cfg := by
  unfold State.judgeNotice; simp only []; (repeat' split) <;> simp
@[simp] theorem judgeNotice_grid (s : State) (bits : List Bool) (o : Nat) : (s.judgeNotice bits o).grid = s.grid := by
  unfold State.judgeNotice; simp only []; (repeat' split) <;> simp
@[simp] theorem judgeNotice_ctxs (s : State) (bits : List Bool) (o : Nat) : (s.judgeNotice bits o).ctxs = s.ctxs := by
  unfold State.judgeNotice; simp only []; (repeat' split) <;> simp
@[simp] theorem judgeNotice_egress (s : State) (bits : List Bool) (o : Nat) : (s.judgeNotice bits o).egress = s.egress := by
  unfold State.judgeNotice; simp only []; (repeat' split) <;> simp
@[simp] theorem judgeNotice_pace (s : State) (bits : List Bool) (o : Nat) : (s.judgeNotice bits o).pace = s.pace := by
  unfold State.judgeNotice; simp only []; (repeat' split) <;> simp
@[simp] theorem judgeNotice_feed (s : State) (bits : List Bool) (o : Nat) : (s.judgeNotice bits o).feed = s.feed := by
  unfold State.judgeNotice; simp only []; (repeat' split) <;> simp
@[simp] theorem judgeNotice_store (s : State) (bits : List Bool) (o : Nat) : (s.judgeNotice bits o).store = s.store := by
  unfold State.judgeNotice; simp only []; (repeat' split) <;> simp
@[simp] theorem judgeNotice_loader (s : State) (bits : List Bool) (o : Nat) : (s.judgeNotice bits o).loader = s.loader := by
  unfold State.judgeNotice; simp only []; (repeat' split) <;> simp
@[simp] theorem judgeNotice_pending (s : State) (bits : List Bool) (o : Nat) : (s.judgeNotice bits o).pending = s.pending := by
  unfold State.judgeNotice; simp only []; (repeat' split) <;> simp

@[simp] theorem paceEpoch_t (s : State) (e : Time) : (s.paceEpoch e).t = s.t := by
  unfold State.paceEpoch; simp only []; (repeat' split) <;> simp
@[simp] theorem paceEpoch_powered (s : State) (e : Time) : (s.paceEpoch e).powered = s.powered := by
  unfold State.paceEpoch; simp only []; (repeat' split) <;> simp
@[simp] theorem paceEpoch_cold (s : State) (e : Time) : (s.paceEpoch e).cold = s.cold := by
  unfold State.paceEpoch; simp only []; (repeat' split) <;> simp
@[simp] theorem paceEpoch_pins (s : State) (e : Time) : (s.paceEpoch e).pins = s.pins := by
  unfold State.paceEpoch; simp only []; (repeat' split) <;> simp
@[simp] theorem paceEpoch_cfg (s : State) (e : Time) : (s.paceEpoch e).cfg = s.cfg := by
  unfold State.paceEpoch; simp only []; (repeat' split) <;> simp
@[simp] theorem paceEpoch_grid (s : State) (e : Time) : (s.paceEpoch e).grid = s.grid := by
  unfold State.paceEpoch; simp only []; (repeat' split) <;> simp
@[simp] theorem paceEpoch_ctxs (s : State) (e : Time) : (s.paceEpoch e).ctxs = s.ctxs := by
  unfold State.paceEpoch; simp only []; (repeat' split) <;> simp
@[simp] theorem paceEpoch_egress (s : State) (e : Time) : (s.paceEpoch e).egress = s.egress := by
  unfold State.paceEpoch; simp only []; (repeat' split) <;> simp
@[simp] theorem paceEpoch_share (s : State) (e : Time) : (s.paceEpoch e).share = s.share := by
  unfold State.paceEpoch; simp only []; (repeat' split) <;> simp
@[simp] theorem paceEpoch_feed (s : State) (e : Time) : (s.paceEpoch e).feed = s.feed := by
  unfold State.paceEpoch; simp only []; (repeat' split) <;> simp
@[simp] theorem paceEpoch_store (s : State) (e : Time) : (s.paceEpoch e).store = s.store := by
  unfold State.paceEpoch; simp only []; (repeat' split) <;> simp
@[simp] theorem paceEpoch_loader (s : State) (e : Time) : (s.paceEpoch e).loader = s.loader := by
  unfold State.paceEpoch; simp only []; (repeat' split) <;> simp
@[simp] theorem paceEpoch_fresh (s : State) (e : Time) : (s.paceEpoch e).fresh = s.fresh := by
  unfold State.paceEpoch; simp only []; (repeat' split) <;> simp
@[simp] theorem paceEpoch_pending (s : State) (e : Time) : (s.paceEpoch e).pending = s.pending := by
  unfold State.paceEpoch; simp only []; (repeat' split) <;> simp

@[simp] theorem deliver_t (s : State) (e : Time) (d : Delivery) : (s.deliver e d).t = s.t := by
  cases d <;> simp [State.deliver]
@[simp] theorem deliver_powered (s : State) (e : Time) (d : Delivery) : (s.deliver e d).powered = s.powered := by
  cases d <;> simp [State.deliver]
@[simp] theorem deliver_cold (s : State) (e : Time) (d : Delivery) : (s.deliver e d).cold = s.cold := by
  cases d <;> simp [State.deliver]
@[simp] theorem deliver_pins (s : State) (e : Time) (d : Delivery) : (s.deliver e d).pins = s.pins := by
  cases d <;> simp [State.deliver]
@[simp] theorem deliver_cfg (s : State) (e : Time) (d : Delivery) : (s.deliver e d).cfg = s.cfg := by
  cases d <;> simp [State.deliver]
@[simp] theorem deliver_grid (s : State) (e : Time) (d : Delivery) : (s.deliver e d).grid = s.grid := by
  cases d <;> simp [State.deliver]
@[simp] theorem deliver_feed (s : State) (e : Time) (d : Delivery) : (s.deliver e d).feed = s.feed := by
  cases d <;> simp [State.deliver]
@[simp] theorem deliver_loader (s : State) (e : Time) (d : Delivery) : (s.deliver e d).loader = s.loader := by
  cases d <;> simp [State.deliver]
@[simp] theorem deliver_pending (s : State) (e : Time) (d : Delivery) : (s.deliver e d).pending = s.pending := by
  cases d <;> simp [State.deliver]

@[simp] theorem deliverAll_t (s : State) (e : Time) (ds : List Delivery) : (s.deliverAll e ds).t = s.t := by
  exact foldl_keeps (·.t) (fun s d => deliver_t s e d) ds s
@[simp] theorem deliverAll_powered (s : State) (e : Time) (ds : List Delivery) : (s.deliverAll e ds).powered = s.powered := by
  exact foldl_keeps (·.powered) (fun s d => deliver_powered s e d) ds s
@[simp] theorem deliverAll_cold (s : State) (e : Time) (ds : List Delivery) : (s.deliverAll e ds).cold = s.cold := by
  exact foldl_keeps (·.cold) (fun s d => deliver_cold s e d) ds s
@[simp] theorem deliverAll_pins (s : State) (e : Time) (ds : List Delivery) : (s.deliverAll e ds).pins = s.pins := by
  exact foldl_keeps (·.pins) (fun s d => deliver_pins s e d) ds s
@[simp] theorem deliverAll_cfg (s : State) (e : Time) (ds : List Delivery) : (s.deliverAll e ds).cfg = s.cfg := by
  exact foldl_keeps (·.cfg) (fun s d => deliver_cfg s e d) ds s
@[simp] theorem deliverAll_grid (s : State) (e : Time) (ds : List Delivery) : (s.deliverAll e ds).grid = s.grid := by
  exact foldl_keeps (·.grid) (fun s d => deliver_grid s e d) ds s
@[simp] theorem deliverAll_feed (s : State) (e : Time) (ds : List Delivery) : (s.deliverAll e ds).feed = s.feed := by
  exact foldl_keeps (·.feed) (fun s d => deliver_feed s e d) ds s
@[simp] theorem deliverAll_loader (s : State) (e : Time) (ds : List Delivery) : (s.deliverAll e ds).loader = s.loader := by
  exact foldl_keeps (·.loader) (fun s d => deliver_loader s e d) ds s
@[simp] theorem deliverAll_pending (s : State) (e : Time) (ds : List Delivery) : (s.deliverAll e ds).pending = s.pending := by
  exact foldl_keeps (·.pending) (fun s d => deliver_pending s e d) ds s

@[simp] theorem takeFrameEpoch_t (s : State) (es : List Raised) : (s.takeFrameEpoch es).t = s.t := by
  simp [State.takeFrameEpoch]
@[simp] theorem takeFrameEpoch_powered (s : State) (es : List Raised) : (s.takeFrameEpoch es).powered = s.powered := by
  simp [State.takeFrameEpoch]
@[simp] theorem takeFrameEpoch_cold (s : State) (es : List Raised) : (s.takeFrameEpoch es).cold = s.cold := by
  simp [State.takeFrameEpoch]
@[simp] theorem takeFrameEpoch_pins (s : State) (es : List Raised) : (s.takeFrameEpoch es).pins = s.pins := by
  simp [State.takeFrameEpoch]
@[simp] theorem takeFrameEpoch_cfg (s : State) (es : List Raised) : (s.takeFrameEpoch es).cfg = s.cfg := by
  simp [State.takeFrameEpoch]
@[simp] theorem takeFrameEpoch_feed (s : State) (es : List Raised) : (s.takeFrameEpoch es).feed = s.feed := by
  simp [State.takeFrameEpoch]
@[simp] theorem takeFrameEpoch_loader (s : State) (es : List Raised) : (s.takeFrameEpoch es).loader = s.loader := by
  simp [State.takeFrameEpoch]
@[simp] theorem takeFrameEpoch_pending (s : State) (es : List Raised) : (s.takeFrameEpoch es).pending = s.pending := by
  simp [State.takeFrameEpoch]

@[simp] theorem takeFieldEpoch_t (s : State) (h : Time) : (s.takeFieldEpoch h).t = s.t := by
  simp [State.takeFieldEpoch]
@[simp] theorem takeFieldEpoch_powered (s : State) (h : Time) : (s.takeFieldEpoch h).powered = s.powered := by
  simp [State.takeFieldEpoch]
@[simp] theorem takeFieldEpoch_cold (s : State) (h : Time) : (s.takeFieldEpoch h).cold = s.cold := by
  simp [State.takeFieldEpoch]
@[simp] theorem takeFieldEpoch_pins (s : State) (h : Time) : (s.takeFieldEpoch h).pins = s.pins := by
  simp [State.takeFieldEpoch]
@[simp] theorem takeFieldEpoch_cfg (s : State) (h : Time) : (s.takeFieldEpoch h).cfg = s.cfg := by
  simp [State.takeFieldEpoch]
@[simp] theorem takeFieldEpoch_feed (s : State) (h : Time) : (s.takeFieldEpoch h).feed = s.feed := by
  simp [State.takeFieldEpoch]
@[simp] theorem takeFieldEpoch_loader (s : State) (h : Time) : (s.takeFieldEpoch h).loader = s.loader := by
  simp [State.takeFieldEpoch]
@[simp] theorem takeFieldEpoch_pending (s : State) (h : Time) : (s.takeFieldEpoch h).pending = s.pending := by
  simp [State.takeFieldEpoch]

@[simp] theorem slew_t (s : State) (e : Int) (es : List Raised) : (s.slew e es).t = s.t := by
  unfold State.slew; simp only []; (repeat' split) <;> simp
@[simp] theorem slew_powered (s : State) (e : Int) (es : List Raised) : (s.slew e es).powered = s.powered := by
  unfold State.slew; simp only []; (repeat' split) <;> simp
@[simp] theorem slew_cold (s : State) (e : Int) (es : List Raised) : (s.slew e es).cold = s.cold := by
  unfold State.slew; simp only []; (repeat' split) <;> simp
@[simp] theorem slew_pins (s : State) (e : Int) (es : List Raised) : (s.slew e es).pins = s.pins := by
  unfold State.slew; simp only []; (repeat' split) <;> simp
@[simp] theorem slew_cfg (s : State) (e : Int) (es : List Raised) : (s.slew e es).cfg = s.cfg := by
  unfold State.slew; simp only []; (repeat' split) <;> simp
@[simp] theorem slew_feed (s : State) (e : Int) (es : List Raised) : (s.slew e es).feed = s.feed := by
  unfold State.slew; simp only []; (repeat' split) <;> simp
@[simp] theorem slew_loader (s : State) (e : Int) (es : List Raised) : (s.slew e es).loader = s.loader := by
  unfold State.slew; simp only []; (repeat' split) <;> simp
@[simp] theorem slew_pending (s : State) (e : Int) (es : List Raised) : (s.slew e es).pending = s.pending := by
  unfold State.slew; simp only []; (repeat' split) <;> simp

@[simp] theorem stepAndLock_t (s : State) (cr : Time) (a b : Nat) : (s.stepAndLock cr a b).t = s.t := by
  simp [State.stepAndLock]
@[simp] theorem stepAndLock_powered (s : State) (cr : Time) (a b : Nat) : (s.stepAndLock cr a b).powered = s.powered := by
  simp [State.stepAndLock]
@[simp] theorem stepAndLock_cold (s : State) (cr : Time) (a b : Nat) : (s.stepAndLock cr a b).cold = s.cold := by
  simp [State.stepAndLock]
@[simp] theorem stepAndLock_pins (s : State) (cr : Time) (a b : Nat) : (s.stepAndLock cr a b).pins = s.pins := by
  simp [State.stepAndLock]
@[simp] theorem stepAndLock_cfg (s : State) (cr : Time) (a b : Nat) : (s.stepAndLock cr a b).cfg = s.cfg := by
  simp [State.stepAndLock]
@[simp] theorem stepAndLock_ctxs (s : State) (cr : Time) (a b : Nat) : (s.stepAndLock cr a b).ctxs = s.ctxs := by
  simp [State.stepAndLock]
@[simp] theorem stepAndLock_egress (s : State) (cr : Time) (a b : Nat) : (s.stepAndLock cr a b).egress = s.egress := by
  simp [State.stepAndLock]
@[simp] theorem stepAndLock_share (s : State) (cr : Time) (a b : Nat) : (s.stepAndLock cr a b).share = s.share := by
  simp [State.stepAndLock]
@[simp] theorem stepAndLock_pace (s : State) (cr : Time) (a b : Nat) : (s.stepAndLock cr a b).pace = s.pace := by
  simp [State.stepAndLock]
@[simp] theorem stepAndLock_feed (s : State) (cr : Time) (a b : Nat) : (s.stepAndLock cr a b).feed = s.feed := by
  simp [State.stepAndLock]
@[simp] theorem stepAndLock_store (s : State) (cr : Time) (a b : Nat) : (s.stepAndLock cr a b).store = s.store := by
  simp [State.stepAndLock]
@[simp] theorem stepAndLock_loader (s : State) (cr : Time) (a b : Nat) : (s.stepAndLock cr a b).loader = s.loader := by
  simp [State.stepAndLock]
@[simp] theorem stepAndLock_pending (s : State) (cr : Time) (a b : Nat) : (s.stepAndLock cr a b).pending = s.pending := by
  simp [State.stepAndLock]

@[simp] theorem lockPulse_t (s : State) (cr : Time) : (s.lockPulse cr).t = s.t := by
  unfold State.lockPulse; simp only []; (repeat' split) <;> simp
@[simp] theorem lockPulse_powered (s : State) (cr : Time) : (s.lockPulse cr).powered = s.powered := by
  unfold State.lockPulse; simp only []; (repeat' split) <;> simp
@[simp] theorem lockPulse_cold (s : State) (cr : Time) : (s.lockPulse cr).cold = s.cold := by
  unfold State.lockPulse; simp only []; (repeat' split) <;> simp
@[simp] theorem lockPulse_pins (s : State) (cr : Time) : (s.lockPulse cr).pins = s.pins := by
  unfold State.lockPulse; simp only []; (repeat' split) <;> simp
@[simp] theorem lockPulse_cfg (s : State) (cr : Time) : (s.lockPulse cr).cfg = s.cfg := by
  unfold State.lockPulse; simp only []; (repeat' split) <;> simp
@[simp] theorem lockPulse_feed (s : State) (cr : Time) : (s.lockPulse cr).feed = s.feed := by
  unfold State.lockPulse; simp only []; (repeat' split) <;> simp
@[simp] theorem lockPulse_loader (s : State) (cr : Time) : (s.lockPulse cr).loader = s.loader := by
  unfold State.lockPulse; simp only []; (repeat' split) <;> simp
@[simp] theorem lockPulse_pending (s : State) (cr : Time) : (s.lockPulse cr).pending = s.pending := by
  unfold State.lockPulse; simp only []; (repeat' split) <;> simp

@[simp] theorem acceptPulse_t (s : State)  : (s.acceptPulse).t = s.t := by
  simp [State.acceptPulse]
@[simp] theorem acceptPulse_powered (s : State)  : (s.acceptPulse).powered = s.powered := by
  simp [State.acceptPulse]
@[simp] theorem acceptPulse_cold (s : State)  : (s.acceptPulse).cold = s.cold := by
  simp [State.acceptPulse]
@[simp] theorem acceptPulse_pins (s : State)  : (s.acceptPulse).pins = s.pins := by
  simp [State.acceptPulse]
@[simp] theorem acceptPulse_cfg (s : State)  : (s.acceptPulse).cfg = s.cfg := by
  simp [State.acceptPulse]
@[simp] theorem acceptPulse_feed (s : State)  : (s.acceptPulse).feed = s.feed := by
  simp [State.acceptPulse]
@[simp] theorem acceptPulse_loader (s : State)  : (s.acceptPulse).loader = s.loader := by
  simp [State.acceptPulse]
@[simp] theorem acceptPulse_pending (s : State)  : (s.acceptPulse).pending = s.pending := by
  simp [State.acceptPulse]

@[simp] theorem sampleRef_t (s : State) (b : Bool) : (s.sampleRef b).t = s.t := by
  unfold State.sampleRef; simp only []; (repeat' split) <;> simp
@[simp] theorem sampleRef_powered (s : State) (b : Bool) : (s.sampleRef b).powered = s.powered := by
  unfold State.sampleRef; simp only []; (repeat' split) <;> simp
@[simp] theorem sampleRef_cold (s : State) (b : Bool) : (s.sampleRef b).cold = s.cold := by
  unfold State.sampleRef; simp only []; (repeat' split) <;> simp
@[simp] theorem sampleRef_pins (s : State) (b : Bool) : (s.sampleRef b).pins = s.pins := by
  unfold State.sampleRef; simp only []; (repeat' split) <;> simp
@[simp] theorem sampleRef_cfg (s : State) (b : Bool) : (s.sampleRef b).cfg = s.cfg := by
  unfold State.sampleRef; simp only []; (repeat' split) <;> simp
@[simp] theorem sampleRef_feed (s : State) (b : Bool) : (s.sampleRef b).feed = s.feed := by
  unfold State.sampleRef; simp only []; (repeat' split) <;> simp
@[simp] theorem sampleRef_loader (s : State) (b : Bool) : (s.sampleRef b).loader = s.loader := by
  unfold State.sampleRef; simp only []; (repeat' split) <;> simp
@[simp] theorem sampleRef_pending (s : State) (b : Bool) : (s.sampleRef b).pending = s.pending := by
  unfold State.sampleRef; simp only []; (repeat' split) <;> simp

@[simp] theorem indexOffer_t (s : State) (n : Stream) (o : Offer) : (s.indexOffer n o).t = s.t := by
  unfold State.indexOffer; simp only []; (repeat' split) <;> simp
@[simp] theorem indexOffer_powered (s : State) (n : Stream) (o : Offer) : (s.indexOffer n o).powered = s.powered := by
  unfold State.indexOffer; simp only []; (repeat' split) <;> simp
@[simp] theorem indexOffer_cold (s : State) (n : Stream) (o : Offer) : (s.indexOffer n o).cold = s.cold := by
  unfold State.indexOffer; simp only []; (repeat' split) <;> simp
@[simp] theorem indexOffer_pins (s : State) (n : Stream) (o : Offer) : (s.indexOffer n o).pins = s.pins := by
  unfold State.indexOffer; simp only []; (repeat' split) <;> simp
@[simp] theorem indexOffer_cfg (s : State) (n : Stream) (o : Offer) : (s.indexOffer n o).cfg = s.cfg := by
  unfold State.indexOffer; simp only []; (repeat' split) <;> simp
@[simp] theorem indexOffer_grid (s : State) (n : Stream) (o : Offer) : (s.indexOffer n o).grid = s.grid := by
  unfold State.indexOffer; simp only []; (repeat' split) <;> simp
@[simp] theorem indexOffer_ctxs (s : State) (n : Stream) (o : Offer) : (s.indexOffer n o).ctxs = s.ctxs := by
  unfold State.indexOffer; simp only []; (repeat' split) <;> simp
@[simp] theorem indexOffer_egress (s : State) (n : Stream) (o : Offer) : (s.indexOffer n o).egress = s.egress := by
  unfold State.indexOffer; simp only []; (repeat' split) <;> simp
@[simp] theorem indexOffer_share (s : State) (n : Stream) (o : Offer) : (s.indexOffer n o).share = s.share := by
  unfold State.indexOffer; simp only []; (repeat' split) <;> simp
@[simp] theorem indexOffer_pace (s : State) (n : Stream) (o : Offer) : (s.indexOffer n o).pace = s.pace := by
  unfold State.indexOffer; simp only []; (repeat' split) <;> simp
@[simp] theorem indexOffer_store (s : State) (n : Stream) (o : Offer) : (s.indexOffer n o).store = s.store := by
  unfold State.indexOffer; simp only []; (repeat' split) <;> simp
@[simp] theorem indexOffer_loader (s : State) (n : Stream) (o : Offer) : (s.indexOffer n o).loader = s.loader := by
  unfold State.indexOffer; simp only []; (repeat' split) <;> simp
@[simp] theorem indexOffer_fresh (s : State) (n : Stream) (o : Offer) : (s.indexOffer n o).fresh = s.fresh := by
  unfold State.indexOffer; simp only []; (repeat' split) <;> simp
@[simp] theorem indexOffer_pending (s : State) (n : Stream) (o : Offer) : (s.indexOffer n o).pending = s.pending := by
  unfold State.indexOffer; simp only []; (repeat' split) <;> simp

@[simp] theorem takeUnconfigured_t (s : State) (n : Stream) (o : Offer) : (s.takeUnconfigured n o).t = s.t := by
  unfold State.takeUnconfigured; simp only []; (repeat' split) <;> simp
@[simp] theorem takeUnconfigured_powered (s : State) (n : Stream) (o : Offer) : (s.takeUnconfigured n o).powered = s.powered := by
  unfold State.takeUnconfigured; simp only []; (repeat' split) <;> simp
@[simp] theorem takeUnconfigured_cold (s : State) (n : Stream) (o : Offer) : (s.takeUnconfigured n o).cold = s.cold := by
  unfold State.takeUnconfigured; simp only []; (repeat' split) <;> simp
@[simp] theorem takeUnconfigured_pins (s : State) (n : Stream) (o : Offer) : (s.takeUnconfigured n o).pins = s.pins := by
  unfold State.takeUnconfigured; simp only []; (repeat' split) <;> simp
@[simp] theorem takeUnconfigured_cfg (s : State) (n : Stream) (o : Offer) : (s.takeUnconfigured n o).cfg = s.cfg := by
  unfold State.takeUnconfigured; simp only []; (repeat' split) <;> simp
@[simp] theorem takeUnconfigured_grid (s : State) (n : Stream) (o : Offer) : (s.takeUnconfigured n o).grid = s.grid := by
  unfold State.takeUnconfigured; simp only []; (repeat' split) <;> simp
@[simp] theorem takeUnconfigured_ctxs (s : State) (n : Stream) (o : Offer) : (s.takeUnconfigured n o).ctxs = s.ctxs := by
  unfold State.takeUnconfigured; simp only []; (repeat' split) <;> simp
@[simp] theorem takeUnconfigured_egress (s : State) (n : Stream) (o : Offer) : (s.takeUnconfigured n o).egress = s.egress := by
  unfold State.takeUnconfigured; simp only []; (repeat' split) <;> simp
@[simp] theorem takeUnconfigured_share (s : State) (n : Stream) (o : Offer) : (s.takeUnconfigured n o).share = s.share := by
  unfold State.takeUnconfigured; simp only []; (repeat' split) <;> simp
@[simp] theorem takeUnconfigured_pace (s : State) (n : Stream) (o : Offer) : (s.takeUnconfigured n o).pace = s.pace := by
  unfold State.takeUnconfigured; simp only []; (repeat' split) <;> simp
@[simp] theorem takeUnconfigured_store (s : State) (n : Stream) (o : Offer) : (s.takeUnconfigured n o).store = s.store := by
  unfold State.takeUnconfigured; simp only []; (repeat' split) <;> simp
@[simp] theorem takeUnconfigured_loader (s : State) (n : Stream) (o : Offer) : (s.takeUnconfigured n o).loader = s.loader := by
  unfold State.takeUnconfigured; simp only []; (repeat' split) <;> simp
@[simp] theorem takeUnconfigured_fresh (s : State) (n : Stream) (o : Offer) : (s.takeUnconfigured n o).fresh = s.fresh := by
  unfold State.takeUnconfigured; simp only []; (repeat' split) <;> simp
@[simp] theorem takeUnconfigured_pending (s : State) (n : Stream) (o : Offer) : (s.takeUnconfigured n o).pending = s.pending := by
  unfold State.takeUnconfigured; simp only []; (repeat' split) <;> simp

@[simp] theorem takeDiscard_t (s : State) (n : Stream) (o : Offer) : (s.takeDiscard n o).t = s.t := by
  unfold State.takeDiscard; simp only []; (repeat' split) <;> simp
@[simp] theorem takeDiscard_powered (s : State) (n : Stream) (o : Offer) : (s.takeDiscard n o).powered = s.powered := by
  unfold State.takeDiscard; simp only []; (repeat' split) <;> simp
@[simp] theorem takeDiscard_cold (s : State) (n : Stream) (o : Offer) : (s.takeDiscard n o).cold = s.cold := by
  unfold State.takeDiscard; simp only []; (repeat' split) <;> simp
@[simp] theorem takeDiscard_pins (s : State) (n : Stream) (o : Offer) : (s.takeDiscard n o).pins = s.pins := by
  unfold State.takeDiscard; simp only []; (repeat' split) <;> simp
@[simp] theorem takeDiscard_cfg (s : State) (n : Stream) (o : Offer) : (s.takeDiscard n o).cfg = s.cfg := by
  unfold State.takeDiscard; simp only []; (repeat' split) <;> simp
@[simp] theorem takeDiscard_grid (s : State) (n : Stream) (o : Offer) : (s.takeDiscard n o).grid = s.grid := by
  unfold State.takeDiscard; simp only []; (repeat' split) <;> simp
@[simp] theorem takeDiscard_egress (s : State) (n : Stream) (o : Offer) : (s.takeDiscard n o).egress = s.egress := by
  unfold State.takeDiscard; simp only []; (repeat' split) <;> simp
@[simp] theorem takeDiscard_share (s : State) (n : Stream) (o : Offer) : (s.takeDiscard n o).share = s.share := by
  unfold State.takeDiscard; simp only []; (repeat' split) <;> simp
@[simp] theorem takeDiscard_pace (s : State) (n : Stream) (o : Offer) : (s.takeDiscard n o).pace = s.pace := by
  unfold State.takeDiscard; simp only []; (repeat' split) <;> simp
@[simp] theorem takeDiscard_store (s : State) (n : Stream) (o : Offer) : (s.takeDiscard n o).store = s.store := by
  unfold State.takeDiscard; simp only []; (repeat' split) <;> simp
@[simp] theorem takeDiscard_loader (s : State) (n : Stream) (o : Offer) : (s.takeDiscard n o).loader = s.loader := by
  unfold State.takeDiscard; simp only []; (repeat' split) <;> simp
@[simp] theorem takeDiscard_fresh (s : State) (n : Stream) (o : Offer) : (s.takeDiscard n o).fresh = s.fresh := by
  unfold State.takeDiscard; simp only []; (repeat' split) <;> simp
@[simp] theorem takeDiscard_pending (s : State) (n : Stream) (o : Offer) : (s.takeDiscard n o).pending = s.pending := by
  unfold State.takeDiscard; simp only []; (repeat' split) <;> simp

@[simp] theorem takeBadLength_t (s : State) (n : Stream) (o : Offer) : (s.takeBadLength n o).t = s.t := by
  simp [State.takeBadLength]
@[simp] theorem takeBadLength_powered (s : State) (n : Stream) (o : Offer) : (s.takeBadLength n o).powered = s.powered := by
  simp [State.takeBadLength]
@[simp] theorem takeBadLength_cold (s : State) (n : Stream) (o : Offer) : (s.takeBadLength n o).cold = s.cold := by
  simp [State.takeBadLength]
@[simp] theorem takeBadLength_pins (s : State) (n : Stream) (o : Offer) : (s.takeBadLength n o).pins = s.pins := by
  simp [State.takeBadLength]
@[simp] theorem takeBadLength_cfg (s : State) (n : Stream) (o : Offer) : (s.takeBadLength n o).cfg = s.cfg := by
  simp [State.takeBadLength]
@[simp] theorem takeBadLength_grid (s : State) (n : Stream) (o : Offer) : (s.takeBadLength n o).grid = s.grid := by
  simp [State.takeBadLength]
@[simp] theorem takeBadLength_ctxs (s : State) (n : Stream) (o : Offer) : (s.takeBadLength n o).ctxs = s.ctxs := by
  simp [State.takeBadLength]
@[simp] theorem takeBadLength_egress (s : State) (n : Stream) (o : Offer) : (s.takeBadLength n o).egress = s.egress := by
  simp [State.takeBadLength]
@[simp] theorem takeBadLength_share (s : State) (n : Stream) (o : Offer) : (s.takeBadLength n o).share = s.share := by
  simp [State.takeBadLength]
@[simp] theorem takeBadLength_pace (s : State) (n : Stream) (o : Offer) : (s.takeBadLength n o).pace = s.pace := by
  simp [State.takeBadLength]
@[simp] theorem takeBadLength_store (s : State) (n : Stream) (o : Offer) : (s.takeBadLength n o).store = s.store := by
  simp [State.takeBadLength]
@[simp] theorem takeBadLength_loader (s : State) (n : Stream) (o : Offer) : (s.takeBadLength n o).loader = s.loader := by
  simp [State.takeBadLength]
@[simp] theorem takeBadLength_fresh (s : State) (n : Stream) (o : Offer) : (s.takeBadLength n o).fresh = s.fresh := by
  simp [State.takeBadLength]
@[simp] theorem takeBadLength_pending (s : State) (n : Stream) (o : Offer) : (s.takeBadLength n o).pending = s.pending := by
  simp [State.takeBadLength]

@[simp] theorem storeOffer_t (s : State) (n : Stream) (o : Offer) : (s.storeOffer n o).t = s.t := by
  unfold State.storeOffer; simp only []; (repeat' split) <;> simp
@[simp] theorem storeOffer_powered (s : State) (n : Stream) (o : Offer) : (s.storeOffer n o).powered = s.powered := by
  unfold State.storeOffer; simp only []; (repeat' split) <;> simp
@[simp] theorem storeOffer_cold (s : State) (n : Stream) (o : Offer) : (s.storeOffer n o).cold = s.cold := by
  unfold State.storeOffer; simp only []; (repeat' split) <;> simp
@[simp] theorem storeOffer_pins (s : State) (n : Stream) (o : Offer) : (s.storeOffer n o).pins = s.pins := by
  unfold State.storeOffer; simp only []; (repeat' split) <;> simp
@[simp] theorem storeOffer_cfg (s : State) (n : Stream) (o : Offer) : (s.storeOffer n o).cfg = s.cfg := by
  unfold State.storeOffer; simp only []; (repeat' split) <;> simp
@[simp] theorem storeOffer_grid (s : State) (n : Stream) (o : Offer) : (s.storeOffer n o).grid = s.grid := by
  unfold State.storeOffer; simp only []; (repeat' split) <;> simp
@[simp] theorem storeOffer_ctxs (s : State) (n : Stream) (o : Offer) : (s.storeOffer n o).ctxs = s.ctxs := by
  unfold State.storeOffer; simp only []; (repeat' split) <;> simp
@[simp] theorem storeOffer_egress (s : State) (n : Stream) (o : Offer) : (s.storeOffer n o).egress = s.egress := by
  unfold State.storeOffer; simp only []; (repeat' split) <;> simp
@[simp] theorem storeOffer_share (s : State) (n : Stream) (o : Offer) : (s.storeOffer n o).share = s.share := by
  unfold State.storeOffer; simp only []; (repeat' split) <;> simp
@[simp] theorem storeOffer_pace (s : State) (n : Stream) (o : Offer) : (s.storeOffer n o).pace = s.pace := by
  unfold State.storeOffer; simp only []; (repeat' split) <;> simp
@[simp] theorem storeOffer_loader (s : State) (n : Stream) (o : Offer) : (s.storeOffer n o).loader = s.loader := by
  unfold State.storeOffer; simp only []; (repeat' split) <;> simp
@[simp] theorem storeOffer_fresh (s : State) (n : Stream) (o : Offer) : (s.storeOffer n o).fresh = s.fresh := by
  unfold State.storeOffer; simp only []; (repeat' split) <;> simp
@[simp] theorem storeOffer_pending (s : State) (n : Stream) (o : Offer) : (s.storeOffer n o).pending = s.pending := by
  unfold State.storeOffer; simp only []; (repeat' split) <;> simp

@[simp] theorem carryOut_t (s : State) (n : Stream) (o : Offer) (j : Judgement) : (s.carryOut n o j).t = s.t := by
  cases j <;> simp [State.carryOut]
@[simp] theorem carryOut_powered (s : State) (n : Stream) (o : Offer) (j : Judgement) : (s.carryOut n o j).powered = s.powered := by
  cases j <;> simp [State.carryOut]
@[simp] theorem carryOut_cold (s : State) (n : Stream) (o : Offer) (j : Judgement) : (s.carryOut n o j).cold = s.cold := by
  cases j <;> simp [State.carryOut]
@[simp] theorem carryOut_pins (s : State) (n : Stream) (o : Offer) (j : Judgement) : (s.carryOut n o j).pins = s.pins := by
  cases j <;> simp [State.carryOut]
@[simp] theorem carryOut_cfg (s : State) (n : Stream) (o : Offer) (j : Judgement) : (s.carryOut n o j).cfg = s.cfg := by
  cases j <;> simp [State.carryOut]
@[simp] theorem carryOut_grid (s : State) (n : Stream) (o : Offer) (j : Judgement) : (s.carryOut n o j).grid = s.grid := by
  cases j <;> simp [State.carryOut]
@[simp] theorem carryOut_egress (s : State) (n : Stream) (o : Offer) (j : Judgement) : (s.carryOut n o j).egress = s.egress := by
  cases j <;> simp [State.carryOut]
@[simp] theorem carryOut_share (s : State) (n : Stream) (o : Offer) (j : Judgement) : (s.carryOut n o j).share = s.share := by
  cases j <;> simp [State.carryOut]
@[simp] theorem carryOut_pace (s : State) (n : Stream) (o : Offer) (j : Judgement) : (s.carryOut n o j).pace = s.pace := by
  cases j <;> simp [State.carryOut]
@[simp] theorem carryOut_loader (s : State) (n : Stream) (o : Offer) (j : Judgement) : (s.carryOut n o j).loader = s.loader := by
  cases j <;> simp [State.carryOut]
@[simp] theorem carryOut_fresh (s : State) (n : Stream) (o : Offer) (j : Judgement) : (s.carryOut n o j).fresh = s.fresh := by
  cases j <;> simp [State.carryOut]
@[simp] theorem carryOut_pending (s : State) (n : Stream) (o : Offer) (j : Judgement) : (s.carryOut n o j).pending = s.pending := by
  cases j <;> simp [State.carryOut]

@[simp] theorem select_t (s : State) (n : Stream) : (s.select n).t = s.t := by
  unfold State.select; (repeat' split) <;> simp
@[simp] theorem select_powered (s : State) (n : Stream) : (s.select n).powered = s.powered := by
  unfold State.select; (repeat' split) <;> simp
@[simp] theorem select_cold (s : State) (n : Stream) : (s.select n).cold = s.cold := by
  unfold State.select; (repeat' split) <;> simp
@[simp] theorem select_pins (s : State) (n : Stream) : (s.select n).pins = s.pins := by
  unfold State.select; (repeat' split) <;> simp
@[simp] theorem select_cfg (s : State) (n : Stream) : (s.select n).cfg = s.cfg := by
  unfold State.select; (repeat' split) <;> simp
@[simp] theorem select_grid (s : State) (n : Stream) : (s.select n).grid = s.grid := by
  unfold State.select; (repeat' split) <;> simp
@[simp] theorem select_egress (s : State) (n : Stream) : (s.select n).egress = s.egress := by
  unfold State.select; (repeat' split) <;> simp
@[simp] theorem select_share (s : State) (n : Stream) : (s.select n).share = s.share := by
  unfold State.select; (repeat' split) <;> simp
@[simp] theorem select_pace (s : State) (n : Stream) : (s.select n).pace = s.pace := by
  unfold State.select; (repeat' split) <;> simp
@[simp] theorem select_loader (s : State) (n : Stream) : (s.select n).loader = s.loader := by
  unfold State.select; (repeat' split) <;> simp
@[simp] theorem select_fresh (s : State) (n : Stream) : (s.select n).fresh = s.fresh := by
  unfold State.select; (repeat' split) <;> simp
@[simp] theorem select_pending (s : State) (n : Stream) : (s.select n).pending = s.pending := by
  unfold State.select; (repeat' split) <;> simp

@[simp] theorem completeWrite_t (s : State) (w : WriteRec) : (s.completeWrite w).t = s.t := by
  unfold State.completeWrite; simp only []; (repeat' split) <;> simp
@[simp] theorem completeWrite_powered (s : State) (w : WriteRec) : (s.completeWrite w).powered = s.powered := by
  unfold State.completeWrite; simp only []; (repeat' split) <;> simp
@[simp] theorem completeWrite_cold (s : State) (w : WriteRec) : (s.completeWrite w).cold = s.cold := by
  unfold State.completeWrite; simp only []; (repeat' split) <;> simp
@[simp] theorem completeWrite_pins (s : State) (w : WriteRec) : (s.completeWrite w).pins = s.pins := by
  unfold State.completeWrite; simp only []; (repeat' split) <;> simp
@[simp] theorem completeWrite_cfg (s : State) (w : WriteRec) : (s.completeWrite w).cfg = s.cfg := by
  unfold State.completeWrite; simp only []; (repeat' split) <;> simp
@[simp] theorem completeWrite_grid (s : State) (w : WriteRec) : (s.completeWrite w).grid = s.grid := by
  unfold State.completeWrite; simp only []; (repeat' split) <;> simp
@[simp] theorem completeWrite_egress (s : State) (w : WriteRec) : (s.completeWrite w).egress = s.egress := by
  unfold State.completeWrite; simp only []; (repeat' split) <;> simp
@[simp] theorem completeWrite_share (s : State) (w : WriteRec) : (s.completeWrite w).share = s.share := by
  unfold State.completeWrite; simp only []; (repeat' split) <;> simp
@[simp] theorem completeWrite_pace (s : State) (w : WriteRec) : (s.completeWrite w).pace = s.pace := by
  unfold State.completeWrite; simp only []; (repeat' split) <;> simp
@[simp] theorem completeWrite_loader (s : State) (w : WriteRec) : (s.completeWrite w).loader = s.loader := by
  unfold State.completeWrite; simp only []; (repeat' split) <;> simp
@[simp] theorem completeWrite_link (s : State) (w : WriteRec) : (s.completeWrite w).link = s.link := by
  unfold State.completeWrite; simp only []; (repeat' split) <;> simp
@[simp] theorem completeWrite_fresh (s : State) (w : WriteRec) : (s.completeWrite w).fresh = s.fresh := by
  unfold State.completeWrite; simp only []; (repeat' split) <;> simp
@[simp] theorem completeWrite_pending (s : State) (w : WriteRec) : (s.completeWrite w).pending = s.pending := by
  unfold State.completeWrite; simp only []; (repeat' split) <;> simp

@[simp] theorem withdraw_t (s : State) (n : Stream) (w : WriteRec) : (s.withdraw n w).t = s.t := by
  simp [State.withdraw]
@[simp] theorem withdraw_powered (s : State) (n : Stream) (w : WriteRec) : (s.withdraw n w).powered = s.powered := by
  simp [State.withdraw]
@[simp] theorem withdraw_cold (s : State) (n : Stream) (w : WriteRec) : (s.withdraw n w).cold = s.cold := by
  simp [State.withdraw]
@[simp] theorem withdraw_pins (s : State) (n : Stream) (w : WriteRec) : (s.withdraw n w).pins = s.pins := by
  simp [State.withdraw]
@[simp] theorem withdraw_cfg (s : State) (n : Stream) (w : WriteRec) : (s.withdraw n w).cfg = s.cfg := by
  simp [State.withdraw]
@[simp] theorem withdraw_grid (s : State) (n : Stream) (w : WriteRec) : (s.withdraw n w).grid = s.grid := by
  simp [State.withdraw]
@[simp] theorem withdraw_ctxs (s : State) (n : Stream) (w : WriteRec) : (s.withdraw n w).ctxs = s.ctxs := by
  simp [State.withdraw]
@[simp] theorem withdraw_egress (s : State) (n : Stream) (w : WriteRec) : (s.withdraw n w).egress = s.egress := by
  simp [State.withdraw]
@[simp] theorem withdraw_share (s : State) (n : Stream) (w : WriteRec) : (s.withdraw n w).share = s.share := by
  simp [State.withdraw]
@[simp] theorem withdraw_pace (s : State) (n : Stream) (w : WriteRec) : (s.withdraw n w).pace = s.pace := by
  simp [State.withdraw]
@[simp] theorem withdraw_loader (s : State) (n : Stream) (w : WriteRec) : (s.withdraw n w).loader = s.loader := by
  simp [State.withdraw]
@[simp] theorem withdraw_fresh (s : State) (n : Stream) (w : WriteRec) : (s.withdraw n w).fresh = s.fresh := by
  simp [State.withdraw]
@[simp] theorem withdraw_pending (s : State) (n : Stream) (w : WriteRec) : (s.withdraw n w).pending = s.pending := by
  simp [State.withdraw]

@[simp] theorem offerFalls_t (s : State) (n : Stream) : (s.offerFalls n).t = s.t := by
  unfold State.offerFalls; (repeat' split) <;> simp
@[simp] theorem offerFalls_powered (s : State) (n : Stream) : (s.offerFalls n).powered = s.powered := by
  unfold State.offerFalls; (repeat' split) <;> simp
@[simp] theorem offerFalls_cold (s : State) (n : Stream) : (s.offerFalls n).cold = s.cold := by
  unfold State.offerFalls; (repeat' split) <;> simp
@[simp] theorem offerFalls_pins (s : State) (n : Stream) : (s.offerFalls n).pins = s.pins := by
  unfold State.offerFalls; (repeat' split) <;> simp
@[simp] theorem offerFalls_cfg (s : State) (n : Stream) : (s.offerFalls n).cfg = s.cfg := by
  unfold State.offerFalls; (repeat' split) <;> simp
@[simp] theorem offerFalls_grid (s : State) (n : Stream) : (s.offerFalls n).grid = s.grid := by
  unfold State.offerFalls; (repeat' split) <;> simp
@[simp] theorem offerFalls_ctxs (s : State) (n : Stream) : (s.offerFalls n).ctxs = s.ctxs := by
  unfold State.offerFalls; (repeat' split) <;> simp
@[simp] theorem offerFalls_egress (s : State) (n : Stream) : (s.offerFalls n).egress = s.egress := by
  unfold State.offerFalls; (repeat' split) <;> simp
@[simp] theorem offerFalls_share (s : State) (n : Stream) : (s.offerFalls n).share = s.share := by
  unfold State.offerFalls; (repeat' split) <;> simp
@[simp] theorem offerFalls_pace (s : State) (n : Stream) : (s.offerFalls n).pace = s.pace := by
  unfold State.offerFalls; (repeat' split) <;> simp
@[simp] theorem offerFalls_loader (s : State) (n : Stream) : (s.offerFalls n).loader = s.loader := by
  unfold State.offerFalls; (repeat' split) <;> simp
@[simp] theorem offerFalls_fresh (s : State) (n : Stream) : (s.offerFalls n).fresh = s.fresh := by
  unfold State.offerFalls; (repeat' split) <;> simp
@[simp] theorem offerFalls_pending (s : State) (n : Stream) : (s.offerFalls n).pending = s.pending := by
  unfold State.offerFalls; (repeat' split) <;> simp

@[simp] theorem reject_t (s : State) (f : ImageFault) (p : Nat) : (s.reject f p).t = s.t := by
  rfl
@[simp] theorem reject_powered (s : State) (f : ImageFault) (p : Nat) : (s.reject f p).powered = s.powered := by
  rfl
@[simp] theorem reject_cold (s : State) (f : ImageFault) (p : Nat) : (s.reject f p).cold = s.cold := by
  rfl
@[simp] theorem reject_pins (s : State) (f : ImageFault) (p : Nat) : (s.reject f p).pins = s.pins := by
  rfl
@[simp] theorem reject_cfg (s : State) (f : ImageFault) (p : Nat) : (s.reject f p).cfg = s.cfg := by
  rfl
@[simp] theorem reject_grid (s : State) (f : ImageFault) (p : Nat) : (s.reject f p).grid = s.grid := by
  rfl
@[simp] theorem reject_ctxs (s : State) (f : ImageFault) (p : Nat) : (s.reject f p).ctxs = s.ctxs := by
  rfl
@[simp] theorem reject_egress (s : State) (f : ImageFault) (p : Nat) : (s.reject f p).egress = s.egress := by
  rfl
@[simp] theorem reject_share (s : State) (f : ImageFault) (p : Nat) : (s.reject f p).share = s.share := by
  rfl
@[simp] theorem reject_pace (s : State) (f : ImageFault) (p : Nat) : (s.reject f p).pace = s.pace := by
  rfl
@[simp] theorem reject_feed (s : State) (f : ImageFault) (p : Nat) : (s.reject f p).feed = s.feed := by
  rfl
@[simp] theorem reject_store (s : State) (f : ImageFault) (p : Nat) : (s.reject f p).store = s.store := by
  rfl
@[simp] theorem reject_link (s : State) (f : ImageFault) (p : Nat) : (s.reject f p).link = s.link := by
  rfl
@[simp] theorem reject_fresh (s : State) (f : ImageFault) (p : Nat) : (s.reject f p).fresh = s.fresh := by
  rfl
@[simp] theorem reject_pending (s : State) (f : ImageFault) (p : Nat) : (s.reject f p).pending = s.pending := by
  rfl

@[simp] theorem enableStream_t (s : State) (q : Nat) (r : ImageRecord) : (s.enableStream q r).t = s.t := by
  simp [State.enableStream]
@[simp] theorem enableStream_powered (s : State) (q : Nat) (r : ImageRecord) : (s.enableStream q r).powered = s.powered := by
  simp [State.enableStream]
@[simp] theorem enableStream_cold (s : State) (q : Nat) (r : ImageRecord) : (s.enableStream q r).cold = s.cold := by
  simp [State.enableStream]
@[simp] theorem enableStream_pins (s : State) (q : Nat) (r : ImageRecord) : (s.enableStream q r).pins = s.pins := by
  simp [State.enableStream]
@[simp] theorem enableStream_cfg (s : State) (q : Nat) (r : ImageRecord) : (s.enableStream q r).cfg = s.cfg := by
  simp [State.enableStream]
@[simp] theorem enableStream_grid (s : State) (q : Nat) (r : ImageRecord) : (s.enableStream q r).grid = s.grid := by
  simp [State.enableStream]
@[simp] theorem enableStream_egress (s : State) (q : Nat) (r : ImageRecord) : (s.enableStream q r).egress = s.egress := by
  simp [State.enableStream]
@[simp] theorem enableStream_share (s : State) (q : Nat) (r : ImageRecord) : (s.enableStream q r).share = s.share := by
  simp [State.enableStream]
@[simp] theorem enableStream_pace (s : State) (q : Nat) (r : ImageRecord) : (s.enableStream q r).pace = s.pace := by
  simp [State.enableStream]
@[simp] theorem enableStream_feed (s : State) (q : Nat) (r : ImageRecord) : (s.enableStream q r).feed = s.feed := by
  simp [State.enableStream]
@[simp] theorem enableStream_store (s : State) (q : Nat) (r : ImageRecord) : (s.enableStream q r).store = s.store := by
  simp [State.enableStream]
@[simp] theorem enableStream_loader (s : State) (q : Nat) (r : ImageRecord) : (s.enableStream q r).loader = s.loader := by
  simp [State.enableStream]
@[simp] theorem enableStream_link (s : State) (q : Nat) (r : ImageRecord) : (s.enableStream q r).link = s.link := by
  simp [State.enableStream]
@[simp] theorem enableStream_fresh (s : State) (q : Nat) (r : ImageRecord) : (s.enableStream q r).fresh = s.fresh := by
  simp [State.enableStream]
@[simp] theorem enableStream_pending (s : State) (q : Nat) (r : ImageRecord) : (s.enableStream q r).pending = s.pending := by
  simp [State.enableStream]

@[simp] theorem enterRun_t (s : State) (p : ImageRecord) (rs : List ImageRecord) : (s.enterRun p rs).t = s.t := by
  unfold State.enterRun; simp only []; rw [foldl_keeps (·.t) (fun s r => enableStream_t s _ r)]
@[simp] theorem enterRun_powered (s : State) (p : ImageRecord) (rs : List ImageRecord) : (s.enterRun p rs).powered = s.powered := by
  unfold State.enterRun; simp only []; rw [foldl_keeps (·.powered) (fun s r => enableStream_powered s _ r)]
@[simp] theorem enterRun_cold (s : State) (p : ImageRecord) (rs : List ImageRecord) : (s.enterRun p rs).cold = s.cold := by
  unfold State.enterRun; simp only []; rw [foldl_keeps (·.cold) (fun s r => enableStream_cold s _ r)]
@[simp] theorem enterRun_pins (s : State) (p : ImageRecord) (rs : List ImageRecord) : (s.enterRun p rs).pins = s.pins := by
  unfold State.enterRun; simp only []; rw [foldl_keeps (·.pins) (fun s r => enableStream_pins s _ r)]
@[simp] theorem enterRun_share (s : State) (p : ImageRecord) (rs : List ImageRecord) : (s.enterRun p rs).share = s.share := by
  unfold State.enterRun; simp only []; rw [foldl_keeps (·.share) (fun s r => enableStream_share s _ r)]
@[simp] theorem enterRun_feed (s : State) (p : ImageRecord) (rs : List ImageRecord) : (s.enterRun p rs).feed = s.feed := by
  unfold State.enterRun; simp only []; rw [foldl_keeps (·.feed) (fun s r => enableStream_feed s _ r)]
@[simp] theorem enterRun_store (s : State) (p : ImageRecord) (rs : List ImageRecord) : (s.enterRun p rs).store = s.store := by
  unfold State.enterRun; simp only []; rw [foldl_keeps (·.store) (fun s r => enableStream_store s _ r)]
@[simp] theorem enterRun_link (s : State) (p : ImageRecord) (rs : List ImageRecord) : (s.enterRun p rs).link = s.link := by
  unfold State.enterRun; simp only []; rw [foldl_keeps (·.link) (fun s r => enableStream_link s _ r)]
@[simp] theorem enterRun_fresh (s : State) (p : ImageRecord) (rs : List ImageRecord) : (s.enterRun p rs).fresh = s.fresh := by
  unfold State.enterRun; simp only []; rw [foldl_keeps (·.fresh) (fun s r => enableStream_fresh s _ r)]
@[simp] theorem enterRun_pending (s : State) (p : ImageRecord) (rs : List ImageRecord) : (s.enterRun p rs).pending = s.pending := by
  unfold State.enterRun; simp only []; rw [foldl_keeps (·.pending) (fun s r => enableStream_pending s _ r)]

@[simp] theorem endLoading_t (s : State)  : (s.endLoading).t = s.t := by
  unfold State.endLoading; (repeat' split) <;> simp
@[simp] theorem endLoading_powered (s : State)  : (s.endLoading).powered = s.powered := by
  unfold State.endLoading; (repeat' split) <;> simp
@[simp] theorem endLoading_cold (s : State)  : (s.endLoading).cold = s.cold := by
  unfold State.endLoading; (repeat' split) <;> simp
@[simp] theorem endLoading_pins (s : State)  : (s.endLoading).pins = s.pins := by
  unfold State.endLoading; (repeat' split) <;> simp
@[simp] theorem endLoading_share (s : State)  : (s.endLoading).share = s.share := by
  unfold State.endLoading; (repeat' split) <;> simp
@[simp] theorem endLoading_feed (s : State)  : (s.endLoading).feed = s.feed := by
  unfold State.endLoading; (repeat' split) <;> simp
@[simp] theorem endLoading_store (s : State)  : (s.endLoading).store = s.store := by
  unfold State.endLoading; (repeat' split) <;> simp
@[simp] theorem endLoading_link (s : State)  : (s.endLoading).link = s.link := by
  unfold State.endLoading; (repeat' split) <;> simp
@[simp] theorem endLoading_fresh (s : State)  : (s.endLoading).fresh = s.fresh := by
  unfold State.endLoading; (repeat' split) <;> simp
@[simp] theorem endLoading_pending (s : State)  : (s.endLoading).pending = s.pending := by
  unfold State.endLoading; (repeat' split) <;> simp

@[simp] theorem imageByte_t (s : State) (b : Byte) : (s.imageByte b).t = s.t := by
  unfold State.imageByte; simp only []; (repeat' split) <;> simp
@[simp] theorem imageByte_powered (s : State) (b : Byte) : (s.imageByte b).powered = s.powered := by
  unfold State.imageByte; simp only []; (repeat' split) <;> simp
@[simp] theorem imageByte_cold (s : State) (b : Byte) : (s.imageByte b).cold = s.cold := by
  unfold State.imageByte; simp only []; (repeat' split) <;> simp
@[simp] theorem imageByte_pins (s : State) (b : Byte) : (s.imageByte b).pins = s.pins := by
  unfold State.imageByte; simp only []; (repeat' split) <;> simp
@[simp] theorem imageByte_share (s : State) (b : Byte) : (s.imageByte b).share = s.share := by
  unfold State.imageByte; simp only []; (repeat' split) <;> simp
@[simp] theorem imageByte_feed (s : State) (b : Byte) : (s.imageByte b).feed = s.feed := by
  unfold State.imageByte; simp only []; (repeat' split) <;> simp
@[simp] theorem imageByte_store (s : State) (b : Byte) : (s.imageByte b).store = s.store := by
  unfold State.imageByte; simp only []; (repeat' split) <;> simp
@[simp] theorem imageByte_link (s : State) (b : Byte) : (s.imageByte b).link = s.link := by
  unfold State.imageByte; simp only []; (repeat' split) <;> simp
@[simp] theorem imageByte_fresh (s : State) (b : Byte) : (s.imageByte b).fresh = s.fresh := by
  unfold State.imageByte; simp only []; (repeat' split) <;> simp
@[simp] theorem imageByte_pending (s : State) (b : Byte) : (s.imageByte b).pending = s.pending := by
  unfold State.imageByte; simp only []; (repeat' split) <;> simp

@[simp] theorem serveEvents_t (s : State) (c : Byte) (n : Nat) : (s.serveEvents c n).t = s.t := by
  simp [State.serveEvents]
@[simp] theorem serveEvents_powered (s : State) (c : Byte) (n : Nat) : (s.serveEvents c n).powered = s.powered := by
  simp [State.serveEvents]
@[simp] theorem serveEvents_cold (s : State) (c : Byte) (n : Nat) : (s.serveEvents c n).cold = s.cold := by
  simp [State.serveEvents]
@[simp] theorem serveEvents_pins (s : State) (c : Byte) (n : Nat) : (s.serveEvents c n).pins = s.pins := by
  simp [State.serveEvents]
@[simp] theorem serveEvents_cfg (s : State) (c : Byte) (n : Nat) : (s.serveEvents c n).cfg = s.cfg := by
  simp [State.serveEvents]
@[simp] theorem serveEvents_grid (s : State) (c : Byte) (n : Nat) : (s.serveEvents c n).grid = s.grid := by
  simp [State.serveEvents]
@[simp] theorem serveEvents_ctxs (s : State) (c : Byte) (n : Nat) : (s.serveEvents c n).ctxs = s.ctxs := by
  simp [State.serveEvents]
@[simp] theorem serveEvents_egress (s : State) (c : Byte) (n : Nat) : (s.serveEvents c n).egress = s.egress := by
  simp [State.serveEvents]
@[simp] theorem serveEvents_share (s : State) (c : Byte) (n : Nat) : (s.serveEvents c n).share = s.share := by
  simp [State.serveEvents]
@[simp] theorem serveEvents_pace (s : State) (c : Byte) (n : Nat) : (s.serveEvents c n).pace = s.pace := by
  simp [State.serveEvents]
@[simp] theorem serveEvents_feed (s : State) (c : Byte) (n : Nat) : (s.serveEvents c n).feed = s.feed := by
  simp [State.serveEvents]
@[simp] theorem serveEvents_store (s : State) (c : Byte) (n : Nat) : (s.serveEvents c n).store = s.store := by
  simp [State.serveEvents]
@[simp] theorem serveEvents_loader (s : State) (c : Byte) (n : Nat) : (s.serveEvents c n).loader = s.loader := by
  simp [State.serveEvents]
@[simp] theorem serveEvents_fresh (s : State) (c : Byte) (n : Nat) : (s.serveEvents c n).fresh = s.fresh := by
  simp [State.serveEvents]
@[simp] theorem serveEvents_pending (s : State) (c : Byte) (n : Nat) : (s.serveEvents c n).pending = s.pending := by
  simp [State.serveEvents]

@[simp] theorem applyClear_t (s : State) (m : Nat) : (s.applyClear m).t = s.t := by
  simp [State.applyClear]
@[simp] theorem applyClear_powered (s : State) (m : Nat) : (s.applyClear m).powered = s.powered := by
  simp [State.applyClear]
@[simp] theorem applyClear_cold (s : State) (m : Nat) : (s.applyClear m).cold = s.cold := by
  simp [State.applyClear]
@[simp] theorem applyClear_pins (s : State) (m : Nat) : (s.applyClear m).pins = s.pins := by
  simp [State.applyClear]
@[simp] theorem applyClear_cfg (s : State) (m : Nat) : (s.applyClear m).cfg = s.cfg := by
  simp [State.applyClear]
@[simp] theorem applyClear_grid (s : State) (m : Nat) : (s.applyClear m).grid = s.grid := by
  simp [State.applyClear]
@[simp] theorem applyClear_ctxs (s : State) (m : Nat) : (s.applyClear m).ctxs = s.ctxs := by
  simp [State.applyClear]
@[simp] theorem applyClear_share (s : State) (m : Nat) : (s.applyClear m).share = s.share := by
  simp [State.applyClear]
@[simp] theorem applyClear_pace (s : State) (m : Nat) : (s.applyClear m).pace = s.pace := by
  simp [State.applyClear]
@[simp] theorem applyClear_feed (s : State) (m : Nat) : (s.applyClear m).feed = s.feed := by
  simp [State.applyClear]
@[simp] theorem applyClear_loader (s : State) (m : Nat) : (s.applyClear m).loader = s.loader := by
  simp [State.applyClear]
@[simp] theorem applyClear_fresh (s : State) (m : Nat) : (s.applyClear m).fresh = s.fresh := by
  simp [State.applyClear]
@[simp] theorem applyClear_pending (s : State) (m : Nat) : (s.applyClear m).pending = s.pending := by
  simp [State.applyClear]

@[simp] theorem serveClear_t (s : State) (c : Byte) (m : Nat) : (s.serveClear c m).t = s.t := by
  simp [State.serveClear]
@[simp] theorem serveClear_powered (s : State) (c : Byte) (m : Nat) : (s.serveClear c m).powered = s.powered := by
  simp [State.serveClear]
@[simp] theorem serveClear_cold (s : State) (c : Byte) (m : Nat) : (s.serveClear c m).cold = s.cold := by
  simp [State.serveClear]
@[simp] theorem serveClear_pins (s : State) (c : Byte) (m : Nat) : (s.serveClear c m).pins = s.pins := by
  simp [State.serveClear]
@[simp] theorem serveClear_cfg (s : State) (c : Byte) (m : Nat) : (s.serveClear c m).cfg = s.cfg := by
  simp [State.serveClear]
@[simp] theorem serveClear_grid (s : State) (c : Byte) (m : Nat) : (s.serveClear c m).grid = s.grid := by
  simp [State.serveClear]
@[simp] theorem serveClear_ctxs (s : State) (c : Byte) (m : Nat) : (s.serveClear c m).ctxs = s.ctxs := by
  simp [State.serveClear]
@[simp] theorem serveClear_share (s : State) (c : Byte) (m : Nat) : (s.serveClear c m).share = s.share := by
  simp [State.serveClear]
@[simp] theorem serveClear_pace (s : State) (c : Byte) (m : Nat) : (s.serveClear c m).pace = s.pace := by
  simp [State.serveClear]
@[simp] theorem serveClear_feed (s : State) (c : Byte) (m : Nat) : (s.serveClear c m).feed = s.feed := by
  simp [State.serveClear]
@[simp] theorem serveClear_loader (s : State) (c : Byte) (m : Nat) : (s.serveClear c m).loader = s.loader := by
  simp [State.serveClear]
@[simp] theorem serveClear_fresh (s : State) (c : Byte) (m : Nat) : (s.serveClear c m).fresh = s.fresh := by
  simp [State.serveClear]
@[simp] theorem serveClear_pending (s : State) (c : Byte) (m : Nat) : (s.serveClear c m).pending = s.pending := by
  simp [State.serveClear]

@[simp] theorem judgeRequest_t (s : State) (c : Byte) (ops : List Byte) : (s.judgeRequest c ops).t = s.t := by
  unfold State.judgeRequest; (repeat' split) <;> simp
@[simp] theorem judgeRequest_powered (s : State) (c : Byte) (ops : List Byte) : (s.judgeRequest c ops).powered = s.powered := by
  unfold State.judgeRequest; (repeat' split) <;> simp
@[simp] theorem judgeRequest_cold (s : State) (c : Byte) (ops : List Byte) : (s.judgeRequest c ops).cold = s.cold := by
  unfold State.judgeRequest; (repeat' split) <;> simp
@[simp] theorem judgeRequest_pins (s : State) (c : Byte) (ops : List Byte) : (s.judgeRequest c ops).pins = s.pins := by
  unfold State.judgeRequest; (repeat' split) <;> simp
@[simp] theorem judgeRequest_cfg (s : State) (c : Byte) (ops : List Byte) : (s.judgeRequest c ops).cfg = s.cfg := by
  unfold State.judgeRequest; (repeat' split) <;> simp
@[simp] theorem judgeRequest_grid (s : State) (c : Byte) (ops : List Byte) : (s.judgeRequest c ops).grid = s.grid := by
  unfold State.judgeRequest; (repeat' split) <;> simp
@[simp] theorem judgeRequest_ctxs (s : State) (c : Byte) (ops : List Byte) : (s.judgeRequest c ops).ctxs = s.ctxs := by
  unfold State.judgeRequest; (repeat' split) <;> simp
@[simp] theorem judgeRequest_share (s : State) (c : Byte) (ops : List Byte) : (s.judgeRequest c ops).share = s.share := by
  unfold State.judgeRequest; (repeat' split) <;> simp
@[simp] theorem judgeRequest_pace (s : State) (c : Byte) (ops : List Byte) : (s.judgeRequest c ops).pace = s.pace := by
  unfold State.judgeRequest; (repeat' split) <;> simp
@[simp] theorem judgeRequest_feed (s : State) (c : Byte) (ops : List Byte) : (s.judgeRequest c ops).feed = s.feed := by
  unfold State.judgeRequest; (repeat' split) <;> simp
@[simp] theorem judgeRequest_loader (s : State) (c : Byte) (ops : List Byte) : (s.judgeRequest c ops).loader = s.loader := by
  unfold State.judgeRequest; (repeat' split) <;> simp
@[simp] theorem judgeRequest_fresh (s : State) (c : Byte) (ops : List Byte) : (s.judgeRequest c ops).fresh = s.fresh := by
  unfold State.judgeRequest; (repeat' split) <;> simp
@[simp] theorem judgeRequest_pending (s : State) (c : Byte) (ops : List Byte) : (s.judgeRequest c ops).pending = s.pending := by
  unfold State.judgeRequest; (repeat' split) <;> simp

@[simp] theorem actOnGap_t (s : State)  : (s.actOnGap).t = s.t := by
  simp [State.actOnGap]
@[simp] theorem actOnGap_powered (s : State)  : (s.actOnGap).powered = s.powered := by
  simp [State.actOnGap]
@[simp] theorem actOnGap_cold (s : State)  : (s.actOnGap).cold = s.cold := by
  simp [State.actOnGap]
@[simp] theorem actOnGap_pins (s : State)  : (s.actOnGap).pins = s.pins := by
  simp [State.actOnGap]
@[simp] theorem actOnGap_cfg (s : State)  : (s.actOnGap).cfg = s.cfg := by
  simp [State.actOnGap]
@[simp] theorem actOnGap_grid (s : State)  : (s.actOnGap).grid = s.grid := by
  simp [State.actOnGap]
@[simp] theorem actOnGap_ctxs (s : State)  : (s.actOnGap).ctxs = s.ctxs := by
  simp [State.actOnGap]
@[simp] theorem actOnGap_egress (s : State)  : (s.actOnGap).egress = s.egress := by
  simp [State.actOnGap]
@[simp] theorem actOnGap_share (s : State)  : (s.actOnGap).share = s.share := by
  simp [State.actOnGap]
@[simp] theorem actOnGap_pace (s : State)  : (s.actOnGap).pace = s.pace := by
  simp [State.actOnGap]
@[simp] theorem actOnGap_feed (s : State)  : (s.actOnGap).feed = s.feed := by
  simp [State.actOnGap]
@[simp] theorem actOnGap_store (s : State)  : (s.actOnGap).store = s.store := by
  simp [State.actOnGap]
@[simp] theorem actOnGap_loader (s : State)  : (s.actOnGap).loader = s.loader := by
  simp [State.actOnGap]
@[simp] theorem actOnGap_fresh (s : State)  : (s.actOnGap).fresh = s.fresh := by
  simp [State.actOnGap]
@[simp] theorem actOnGap_pending (s : State)  : (s.actOnGap).pending = s.pending := by
  simp [State.actOnGap]

@[simp] theorem parserRuns_t (s : State)  : (s.parserRuns).t = s.t := by
  unfold State.parserRuns; simp only []; (repeat' split) <;> simp
@[simp] theorem parserRuns_powered (s : State)  : (s.parserRuns).powered = s.powered := by
  unfold State.parserRuns; simp only []; (repeat' split) <;> simp
@[simp] theorem parserRuns_cold (s : State)  : (s.parserRuns).cold = s.cold := by
  unfold State.parserRuns; simp only []; (repeat' split) <;> simp
@[simp] theorem parserRuns_pins (s : State)  : (s.parserRuns).pins = s.pins := by
  unfold State.parserRuns; simp only []; (repeat' split) <;> simp
@[simp] theorem parserRuns_cfg (s : State)  : (s.parserRuns).cfg = s.cfg := by
  unfold State.parserRuns; simp only []; (repeat' split) <;> simp
@[simp] theorem parserRuns_grid (s : State)  : (s.parserRuns).grid = s.grid := by
  unfold State.parserRuns; simp only []; (repeat' split) <;> simp
@[simp] theorem parserRuns_ctxs (s : State)  : (s.parserRuns).ctxs = s.ctxs := by
  unfold State.parserRuns; simp only []; (repeat' split) <;> simp
@[simp] theorem parserRuns_share (s : State)  : (s.parserRuns).share = s.share := by
  unfold State.parserRuns; simp only []; (repeat' split) <;> simp
@[simp] theorem parserRuns_pace (s : State)  : (s.parserRuns).pace = s.pace := by
  unfold State.parserRuns; simp only []; (repeat' split) <;> simp
@[simp] theorem parserRuns_feed (s : State)  : (s.parserRuns).feed = s.feed := by
  unfold State.parserRuns; simp only []; (repeat' split) <;> simp
@[simp] theorem parserRuns_loader (s : State)  : (s.parserRuns).loader = s.loader := by
  unfold State.parserRuns; simp only []; (repeat' split) <;> simp
@[simp] theorem parserRuns_fresh (s : State)  : (s.parserRuns).fresh = s.fresh := by
  unfold State.parserRuns; simp only []; (repeat' split) <;> simp
@[simp] theorem parserRuns_pending (s : State)  : (s.parserRuns).pending = s.pending := by
  unfold State.parserRuns; simp only []; (repeat' split) <;> simp

@[simp] theorem startSilence_t (s : State)  : (s.startSilence).t = s.t := by
  rfl
@[simp] theorem startSilence_powered (s : State)  : (s.startSilence).powered = s.powered := by
  rfl
@[simp] theorem startSilence_cold (s : State)  : (s.startSilence).cold = s.cold := by
  rfl
@[simp] theorem startSilence_pins (s : State)  : (s.startSilence).pins = s.pins := by
  rfl
@[simp] theorem startSilence_cfg (s : State)  : (s.startSilence).cfg = s.cfg := by
  rfl
@[simp] theorem startSilence_grid (s : State)  : (s.startSilence).grid = s.grid := by
  rfl
@[simp] theorem startSilence_ctxs (s : State)  : (s.startSilence).ctxs = s.ctxs := by
  rfl
@[simp] theorem startSilence_egress (s : State)  : (s.startSilence).egress = s.egress := by
  rfl
@[simp] theorem startSilence_share (s : State)  : (s.startSilence).share = s.share := by
  rfl
@[simp] theorem startSilence_pace (s : State)  : (s.startSilence).pace = s.pace := by
  rfl
@[simp] theorem startSilence_feed (s : State)  : (s.startSilence).feed = s.feed := by
  rfl
@[simp] theorem startSilence_store (s : State)  : (s.startSilence).store = s.store := by
  rfl
@[simp] theorem startSilence_loader (s : State)  : (s.startSilence).loader = s.loader := by
  rfl
@[simp] theorem startSilence_fresh (s : State)  : (s.startSilence).fresh = s.fresh := by
  rfl
@[simp] theorem startSilence_pending (s : State)  : (s.startSilence).pending = s.pending := by
  rfl

@[simp] theorem requestByte_t (s : State) (b : Byte) : (s.requestByte b).t = s.t := by
  unfold State.requestByte; simp only []; (repeat' split) <;> simp
@[simp] theorem requestByte_powered (s : State) (b : Byte) : (s.requestByte b).powered = s.powered := by
  unfold State.requestByte; simp only []; (repeat' split) <;> simp
@[simp] theorem requestByte_cold (s : State) (b : Byte) : (s.requestByte b).cold = s.cold := by
  unfold State.requestByte; simp only []; (repeat' split) <;> simp
@[simp] theorem requestByte_pins (s : State) (b : Byte) : (s.requestByte b).pins = s.pins := by
  unfold State.requestByte; simp only []; (repeat' split) <;> simp
@[simp] theorem requestByte_cfg (s : State) (b : Byte) : (s.requestByte b).cfg = s.cfg := by
  unfold State.requestByte; simp only []; (repeat' split) <;> simp
@[simp] theorem requestByte_grid (s : State) (b : Byte) : (s.requestByte b).grid = s.grid := by
  unfold State.requestByte; simp only []; (repeat' split) <;> simp
@[simp] theorem requestByte_ctxs (s : State) (b : Byte) : (s.requestByte b).ctxs = s.ctxs := by
  unfold State.requestByte; simp only []; (repeat' split) <;> simp
@[simp] theorem requestByte_share (s : State) (b : Byte) : (s.requestByte b).share = s.share := by
  unfold State.requestByte; simp only []; (repeat' split) <;> simp
@[simp] theorem requestByte_pace (s : State) (b : Byte) : (s.requestByte b).pace = s.pace := by
  unfold State.requestByte; simp only []; (repeat' split) <;> simp
@[simp] theorem requestByte_feed (s : State) (b : Byte) : (s.requestByte b).feed = s.feed := by
  unfold State.requestByte; simp only []; (repeat' split) <;> simp
@[simp] theorem requestByte_loader (s : State) (b : Byte) : (s.requestByte b).loader = s.loader := by
  unfold State.requestByte; simp only []; (repeat' split) <;> simp
@[simp] theorem requestByte_fresh (s : State) (b : Byte) : (s.requestByte b).fresh = s.fresh := by
  unfold State.requestByte; simp only []; (repeat' split) <;> simp
@[simp] theorem requestByte_pending (s : State) (b : Byte) : (s.requestByte b).pending = s.pending := by
  unfold State.requestByte; simp only []; (repeat' split) <;> simp

@[simp] theorem lineErrorGap_t (s : State)  : (s.lineErrorGap).t = s.t := by
  unfold State.lineErrorGap; simp only []; (repeat' split) <;> simp
@[simp] theorem lineErrorGap_powered (s : State)  : (s.lineErrorGap).powered = s.powered := by
  unfold State.lineErrorGap; simp only []; (repeat' split) <;> simp
@[simp] theorem lineErrorGap_cold (s : State)  : (s.lineErrorGap).cold = s.cold := by
  unfold State.lineErrorGap; simp only []; (repeat' split) <;> simp
@[simp] theorem lineErrorGap_pins (s : State)  : (s.lineErrorGap).pins = s.pins := by
  unfold State.lineErrorGap; simp only []; (repeat' split) <;> simp
@[simp] theorem lineErrorGap_cfg (s : State)  : (s.lineErrorGap).cfg = s.cfg := by
  unfold State.lineErrorGap; simp only []; (repeat' split) <;> simp
@[simp] theorem lineErrorGap_grid (s : State)  : (s.lineErrorGap).grid = s.grid := by
  unfold State.lineErrorGap; simp only []; (repeat' split) <;> simp
@[simp] theorem lineErrorGap_ctxs (s : State)  : (s.lineErrorGap).ctxs = s.ctxs := by
  unfold State.lineErrorGap; simp only []; (repeat' split) <;> simp
@[simp] theorem lineErrorGap_egress (s : State)  : (s.lineErrorGap).egress = s.egress := by
  unfold State.lineErrorGap; simp only []; (repeat' split) <;> simp
@[simp] theorem lineErrorGap_share (s : State)  : (s.lineErrorGap).share = s.share := by
  unfold State.lineErrorGap; simp only []; (repeat' split) <;> simp
@[simp] theorem lineErrorGap_pace (s : State)  : (s.lineErrorGap).pace = s.pace := by
  unfold State.lineErrorGap; simp only []; (repeat' split) <;> simp
@[simp] theorem lineErrorGap_feed (s : State)  : (s.lineErrorGap).feed = s.feed := by
  unfold State.lineErrorGap; simp only []; (repeat' split) <;> simp
@[simp] theorem lineErrorGap_store (s : State)  : (s.lineErrorGap).store = s.store := by
  unfold State.lineErrorGap; simp only []; (repeat' split) <;> simp
@[simp] theorem lineErrorGap_loader (s : State)  : (s.lineErrorGap).loader = s.loader := by
  unfold State.lineErrorGap; simp only []; (repeat' split) <;> simp
@[simp] theorem lineErrorGap_fresh (s : State)  : (s.lineErrorGap).fresh = s.fresh := by
  unfold State.lineErrorGap; simp only []; (repeat' split) <;> simp
@[simp] theorem lineErrorGap_pending (s : State)  : (s.lineErrorGap).pending = s.pending := by
  unfold State.lineErrorGap; simp only []; (repeat' split) <;> simp

@[simp] theorem takeChar_t (s : State) (c : RxChar) : (s.takeChar c).t = s.t := by
  unfold State.takeChar; simp only []; (repeat' split) <;> simp
@[simp] theorem takeChar_powered (s : State) (c : RxChar) : (s.takeChar c).powered = s.powered := by
  unfold State.takeChar; simp only []; (repeat' split) <;> simp
@[simp] theorem takeChar_cold (s : State) (c : RxChar) : (s.takeChar c).cold = s.cold := by
  unfold State.takeChar; simp only []; (repeat' split) <;> simp
@[simp] theorem takeChar_pins (s : State) (c : RxChar) : (s.takeChar c).pins = s.pins := by
  unfold State.takeChar; simp only []; (repeat' split) <;> simp
@[simp] theorem takeChar_cfg (s : State) (c : RxChar) : (s.takeChar c).cfg = s.cfg := by
  unfold State.takeChar; simp only []; (repeat' split) <;> simp
@[simp] theorem takeChar_grid (s : State) (c : RxChar) : (s.takeChar c).grid = s.grid := by
  unfold State.takeChar; simp only []; (repeat' split) <;> simp
@[simp] theorem takeChar_ctxs (s : State) (c : RxChar) : (s.takeChar c).ctxs = s.ctxs := by
  unfold State.takeChar; simp only []; (repeat' split) <;> simp
@[simp] theorem takeChar_egress (s : State) (c : RxChar) : (s.takeChar c).egress = s.egress := by
  unfold State.takeChar; simp only []; (repeat' split) <;> simp
@[simp] theorem takeChar_share (s : State) (c : RxChar) : (s.takeChar c).share = s.share := by
  unfold State.takeChar; simp only []; (repeat' split) <;> simp
@[simp] theorem takeChar_pace (s : State) (c : RxChar) : (s.takeChar c).pace = s.pace := by
  unfold State.takeChar; simp only []; (repeat' split) <;> simp
@[simp] theorem takeChar_feed (s : State) (c : RxChar) : (s.takeChar c).feed = s.feed := by
  unfold State.takeChar; simp only []; (repeat' split) <;> simp
@[simp] theorem takeChar_store (s : State) (c : RxChar) : (s.takeChar c).store = s.store := by
  unfold State.takeChar; simp only []; (repeat' split) <;> simp
@[simp] theorem takeChar_loader (s : State) (c : RxChar) : (s.takeChar c).loader = s.loader := by
  unfold State.takeChar; simp only []; (repeat' split) <;> simp
@[simp] theorem takeChar_fresh (s : State) (c : RxChar) : (s.takeChar c).fresh = s.fresh := by
  unfold State.takeChar; simp only []; (repeat' split) <;> simp
@[simp] theorem takeChar_pending (s : State) (c : RxChar) : (s.takeChar c).pending = s.pending := by
  unfold State.takeChar; simp only []; (repeat' split) <;> simp

@[simp] theorem receiveByte_t (s : State) (b : Byte) : (s.receiveByte b).t = s.t := by
  unfold State.receiveByte; simp only []; (repeat' split) <;> simp
@[simp] theorem receiveByte_powered (s : State) (b : Byte) : (s.receiveByte b).powered = s.powered := by
  unfold State.receiveByte; simp only []; (repeat' split) <;> simp
@[simp] theorem receiveByte_cold (s : State) (b : Byte) : (s.receiveByte b).cold = s.cold := by
  unfold State.receiveByte; simp only []; (repeat' split) <;> simp
@[simp] theorem receiveByte_pins (s : State) (b : Byte) : (s.receiveByte b).pins = s.pins := by
  unfold State.receiveByte; simp only []; (repeat' split) <;> simp
@[simp] theorem receiveByte_share (s : State) (b : Byte) : (s.receiveByte b).share = s.share := by
  unfold State.receiveByte; simp only []; (repeat' split) <;> simp
@[simp] theorem receiveByte_feed (s : State) (b : Byte) : (s.receiveByte b).feed = s.feed := by
  unfold State.receiveByte; simp only []; (repeat' split) <;> simp
@[simp] theorem receiveByte_fresh (s : State) (b : Byte) : (s.receiveByte b).fresh = s.fresh := by
  unfold State.receiveByte; simp only []; (repeat' split) <;> simp
@[simp] theorem receiveByte_pending (s : State) (b : Byte) : (s.receiveByte b).pending = s.pending := by
  unfold State.receiveByte; simp only []; (repeat' split) <;> simp

end Sys2Proof.Machine
end

