-- ==== Sys2Proof/Laws/Events.lean ====
section
/-! SUPPORT. What raising events does to the maintenance link, and what every shared operation leaves of the event
queue (R182). -/

namespace Sys2Proof.Machine

open Sys2Proof

/-- Raising an event changes nothing of the link but the queue and the overflow flag. -/
theorem raise_link (s : State) (c : EventCode) (a b : Nat) :
    (s.raise c a b).link = { s.link with
      queue := if s.link.queue.length < 32 then s.link.queue ++ [s.entry c a b] else s.link.queue,
      overflow := if s.link.queue.length < 32 then s.link.overflow else true } := by
  unfold State.raise State.entry
  by_cases h : s.link.queue.length < 32 <;> simp [h, Config.queueDepth]

@[simp] theorem raise_latches (s : State) (c : EventCode) (a b : Nat) :
    (s.raise c a b).link.latches = s.link.latches := by rw [raise_link]
@[simp] theorem raise_parser (s : State) (c : EventCode) (a b : Nat) :
    (s.raise c a b).link.parser = s.link.parser := by rw [raise_link]
@[simp] theorem raise_buffer (s : State) (c : EventCode) (a b : Nat) :
    (s.raise c a b).link.buffer = s.link.buffer := by rw [raise_link]
@[simp] theorem raise_rx (s : State) (c : EventCode) (a b : Nat) : (s.raise c a b).link.rx = s.link.rx := by
  rw [raise_link]

/-- Nothing is raised where the queue and the flag are as they were. -/
theorem Raises.none {s t : State} (h1 : t.link.queue = s.link.queue) (h2 : t.link.overflow = s.link.overflow) :
    Raises s t [] := by
  unfold Raises
  rw [h1, h2]
  simp

/-- One event raised (R182). -/
theorem raises_raise (s : State) (c : EventCode) (a b : Nat) : Raises s (s.raise c a b) [⟨c, a, b⟩] := by
  unfold Raises
  rw [raise_link]
  by_cases h : s.link.queue.length < 32
  · obtain ⟨k, hk⟩ : ∃ k, 32 - s.link.queue.length = k + 1 := ⟨31 - s.link.queue.length, by omega⟩
    simp [h, Config.queueDepth, hk]
  · have h0 : 32 - s.link.queue.length = 0 := by omega
    simp [h, Config.queueDepth, h0]

/-- What is raised at one T in two parts is raised in all (R182). -/
theorem Raises.trans {s t u : State} {es fs : List Raised} (h1 : Raises s t es) (h2 : Raises t u fs) (h : t.t = s.t) :
    Raises s u (es ++ fs) := by
  have he : ∀ c a b, t.entry c a b = s.entry c a b := fun c a b => by unfold State.entry; rw [h]
  unfold Raises at *
  obtain ⟨q1, o1⟩ := h1
  obtain ⟨q2, o2⟩ := h2
  have hl : Config.queueDepth - t.link.queue.length
      = Config.queueDepth - s.link.queue.length - es.length := by
    rw [q1]
    simp only [List.length_append, List.length_take, List.length_map]
    omega
  rw [hl] at q2 o2
  constructor
  · rw [q2, q1]
    simp [he, List.take_append]
  · rw [o2, o1, Bool.or_assoc, ← Bool.decide_or]
    congr 1
    apply decide_eq_decide.mpr
    rw [List.length_append]
    omega

/-- Nothing but T and the link enters into what is raised. -/
theorem Raises.congr {s s' t t' : State} {es : List Raised} (h : Raises s t es) (h1 : s'.t = s.t)
    (h2 : s'.link.queue = s.link.queue) (h3 : s'.link.overflow = s.link.overflow)
    (h4 : t'.link.queue = t.link.queue) (h5 : t'.link.overflow = t.link.overflow) : Raises s' t' es := by
  unfold Raises State.entry at *
  rw [h1, h2, h3, h4, h5]
  exact h

/-- What is raised from a state of the same T, queue and flag is raised. -/
theorem Raises.of_same {s s' t : State} {es : List Raised} (h : Raises s' t es) (h1 : s'.t = s.t)
    (h2 : s'.link.queue = s.link.queue) (h3 : s'.link.overflow = s.link.overflow) : Raises s t es :=
  h.congr h1.symm h2.symm h3.symm rfl rfl

/-- Several events raised, in the order given (R182). -/
theorem raises_raiseAll (s : State) (es : List Raised) : Raises s (s.raiseAll es) es := by
  unfold State.raiseAll
  induction es generalizing s with
  | nil => exact .none rfl rfl
  | cons e es ih => exact (raises_raise s e.code e.subject e.detail).trans (ih _) (raise_t ..)

/-- What is shown stands in the queue, or the queue is full and the overflow flag set (R182). -/
theorem Shows.in_queue {s t : State} {c : EventCode} {a b : Nat} (h : Shows s t c a b) :
    s.entry c a b ∈ t.link.queue ∨ Config.queueDepth ≤ t.link.queue.length ∧ t.link.overflow = true := by
  obtain ⟨es, ⟨hq, ho⟩, hm⟩ := h
  by_cases hr : Config.queueDepth - s.link.queue.length < es.length
  · right
    constructor
    · rw [hq]
      simp only [List.length_append, List.length_take, List.length_map]
      omega
    · rw [ho]
      simp [hr]
  · left
    rw [hq, List.take_of_length_le (by rw [List.length_map]; omega)]
    exact List.mem_append.mpr (.inr (List.mem_map.mpr ⟨_, hm, rfl⟩))

/-- An event raised is shown. -/
theorem shows_raise (s : State) (c : EventCode) (a b : Nat) : Shows s (s.raise c a b) c a b :=
  ⟨_, raises_raise s c a b, by simp⟩

/-- From `s` to `t`, at one T, events have been raised and no entry has left. -/
def Grows (s t : State) : Prop := t.t = s.t ∧ ∃ es, Raises s t es

/-- Nothing of the queue, the flag and T has changed. -/
theorem Grows.of_eq {s t : State} (h1 : t.t = s.t) (h2 : t.link.queue = s.link.queue)
    (h3 : t.link.overflow = s.link.overflow) : Grows s t := ⟨h1, [], .none h2 h3⟩

theorem Grows.refl (s : State) : Grows s s := .of_eq rfl rfl rfl

theorem Grows.trans {s t u : State} (h1 : Grows s t) (h2 : Grows t u) : Grows s u := by
  obtain ⟨a, es, ha⟩ := h1
  obtain ⟨b, fs, hb⟩ := h2
  exact ⟨b.trans a, es ++ fs, ha.trans hb a⟩

/-- An entry that stands afterwards stood before or carries the T of the step (R182). -/
theorem Grows.entries {s t : State} (h : Grows s t) : ∀ e ∈ t.link.queue, e ∈ s.link.queue ∨ e.time = s.t := by
  obtain ⟨_, es, hq, _⟩ := h
  intro e he
  rw [hq] at he
  rcases List.mem_append.mp he with he | he
  · exact .inl he
  · obtain ⟨x, _, rfl⟩ := List.mem_map.mp (List.mem_of_mem_take he)
    exact .inr rfl

theorem Grows.of_link {s t : State} (h1 : t.t = s.t) (h2 : t.link = s.link) : Grows s t :=
  .of_eq h1 (by rw [h2]) (by rw [h2])

theorem Grows.then_link {s t u : State} (h : Grows s t) (h1 : u.t = t.t) (h2 : u.link = t.link) : Grows s u :=
  h.trans (.of_link h1 h2)

theorem Shows.grows {s t u : State} {c : EventCode} {a b : Nat} (h : Shows s t c a b) (h1 : t.t = s.t)
    (h2 : Grows t u) : Shows s u c a b := by
  obtain ⟨es, he, hm⟩ := h
  obtain ⟨_, fs, hf⟩ := h2
  exact ⟨es ++ fs, he.trans hf h1, List.mem_append.mpr (.inl hm)⟩

/-- An event shown from a later state of the same T is shown from the earlier one. -/
theorem Shows.after {s t u : State} {c : EventCode} {a b : Nat} (h : Shows t u c a b) (h1 : Grows s t) :
    Shows s u c a b := by
  obtain ⟨es, he, hm⟩ := h
  obtain ⟨ht, fs, hf⟩ := h1
  exact ⟨fs ++ es, hf.trans he ht, List.mem_append.mpr (.inr hm)⟩

theorem grows_raise (s : State) (c : EventCode) (a b : Nat) : Grows s (s.raise c a b) :=
  ⟨raise_t .., _, raises_raise s c a b⟩

/-- A fold of steps that each only add to the queue only adds to the queue. -/
theorem grows_foldl {β : Type} {f : State → β → State} (h : ∀ s x, Grows s (f s x)) (l : List β) (s : State) :
    Grows s (l.foldl f s) := by
  induction l generalizing s with
  | nil => exact .refl s
  | cons x xs ih => exact (h s x).trans (ih _)

theorem grows_raiseAll (s : State) (es : List Raised) : Grows s (s.raiseAll es) :=
  ⟨raiseAll_t .., es, raises_raiseAll s es⟩

/-- Raising events leaves the link but for the queue and the flag. -/
theorem raiseAll_link (s : State) (es : List Raised) :
    (s.raiseAll es).link =
      { s.link with queue := (s.raiseAll es).link.queue, overflow := (s.raiseAll es).link.overflow } := by
  unfold State.raiseAll
  induction es generalizing s with
  | nil => rfl
  | cons x xs ih =>
    rw [List.foldl_cons, ih]
    rw [raise_link]

theorem grows_trimWork (s : State) (n : Stream) (cut : List Record) : Grows s (s.trimWork n cut) :=
  (Grows.of_link rfl rfl).trans (grows_raise ..)

theorem grows_streamEpoch (s : State) (n : Stream) (e : Time) : Grows s (s.streamEpoch n e) := by
  unfold State.streamEpoch
  simp only []
  (repeat' split) <;> first
    | exact .refl _
    | exact (Grows.of_link (by simp) (by simp)).trans (grows_trimWork ..)
    | exact (Grows.of_link (by simp) (by simp)).trans (grows_raise ..)

theorem grows_shareEpoch (s : State) : Grows s s.shareEpoch := by
  unfold State.shareEpoch
  split
  · exact .refl _
  · refine Grows.then_link ?_ (stageAll_t ..) (stageAll_link ..)
    refine Grows.then_link ?_ (chosen_t ..) (chosen_link ..)
    exact (Grows.of_link rfl rfl).trans (grows_raiseAll ..)

theorem grows_paceEpoch (s : State) (e : Time) : Grows s (s.paceEpoch e) := by
  unfold State.paceEpoch
  split
  · exact (Grows.of_link rfl rfl).trans (grows_raiseAll ..)
  · exact .refl _

theorem grows_deliver (s : State) (e : Time) (d : Delivery) : Grows s (s.deliver e d) := by
  cases d with
  | stream n => exact grows_streamEpoch ..
  | share => exact grows_shareEpoch ..
  | pace => exact grows_paceEpoch ..
  | event r => exact grows_raise ..

theorem grows_deliverAll (s : State) (e : Time) (ds : List Delivery) : Grows s (s.deliverAll e ds) :=
  grows_foldl (fun s d => grows_deliver s e d) ds s

theorem grows_takeFrameEpoch (s : State) (es : List Raised) : Grows s (s.takeFrameEpoch es) := by
  exact (Grows.of_link rfl rfl).trans (grows_deliverAll ..)

theorem grows_takeFieldEpoch (s : State) (h : Time) : Grows s (s.takeFieldEpoch h) := by
  exact (Grows.of_link rfl rfl).trans (grows_deliverAll ..)

theorem grows_slew (s : State) (e : Int) (es : List Raised) : Grows s (s.slew e es) := by
  unfold State.slew
  simp only []
  split
  · exact (Grows.of_link rfl rfl).trans (grows_takeFrameEpoch ..)
  · exact (Grows.of_link rfl rfl).trans (grows_raiseAll ..)

theorem grows_stepAndLock (s : State) (cr : Time) (a b : Nat) : Grows s (s.stepAndLock cr a b) := by
  refine Grows.then_link ?_ (chosen_t ..) (chosen_link ..)
  exact (Grows.of_link rfl rfl).trans (grows_raiseAll ..)

theorem grows_lockPulse (s : State) (cr : Time) : Grows s (s.lockPulse cr) := by
  unfold State.lockPulse
  simp only []
  (repeat' split) <;> first
    | exact .refl _
    | exact grows_stepAndLock ..
    | exact (Grows.of_link rfl rfl).trans (grows_slew ..)
    | exact (Grows.of_link rfl rfl).trans (grows_raise ..)

theorem grows_sampleRef (s : State) (b : Bool) : Grows s (s.sampleRef b) := by
  unfold State.sampleRef
  simp only []
  (repeat' split) <;> first
    | exact .of_link rfl rfl
    | exact (Grows.of_link rfl rfl).trans (grows_lockPulse ..)

theorem grows_retireBank (s : State) (j : Fin 4) (b : Block) : Grows s (s.retireBank j b) := by
  unfold State.retireBank
  simp only []
  split
  · refine Grows.trans ?_ (grows_raise ..)
    refine Grows.trans (t := State.raise _ _ _ _) ?_ (.of_eq rfl rfl rfl)
    exact (Grows.of_eq rfl rfl rfl).trans (grows_raise ..)
  · exact (Grows.of_eq rfl rfl rfl).trans (grows_raise ..)

theorem grows_parityError (s : State) (b : Block) : Grows s (s.parityError b) := by
  unfold State.parityError
  simp only []
  split
  · refine Grows.trans ?_ (grows_retireBank ..)
    exact (Grows.of_link rfl rfl).trans (grows_raise ..)
  · exact (Grows.of_link rfl rfl).trans (grows_raise ..)

theorem grows_takeNotice (s : State) (n : Heard) : Grows s (s.takeNotice n) := by
  unfold State.takeNotice
  simp only []
  (repeat' split) <;> first
    | exact (Grows.of_eq rfl rfl rfl).trans (grows_raise ..)
    | exact (Grows.of_link rfl rfl).trans (grows_raiseAll ..)

theorem grows_judgeNotice (s : State) (bits : List Bool) (o : Nat) : Grows s (s.judgeNotice bits o) := by
  unfold State.judgeNotice
  simp only []
  split
  · exact grows_takeNotice ..
  · exact grows_raise ..

theorem grows_indexOffer (s : State) (n : Stream) (o : Offer) : Grows s (s.indexOffer n o) := by
  unfold State.indexOffer
  simp only []
  split
  · exact (Grows.of_link rfl rfl).trans (grows_raise ..)
  · exact .of_link rfl rfl

theorem grows_select (s : State) (n : Stream) : Grows s (s.select n) := by
  unfold State.select
  split
  · exact .refl _
  · rename_i o _
    cases s.judge n o with
    | hold => exact .of_link rfl rfl
    | unconfigured =>
      simp only [State.carryOut, State.takeUnconfigured]
      split
      · exact .of_link rfl rfl
      · exact (Grows.of_link rfl rfl).trans (grows_raise ..)
    | discard =>
      refine Grows.then_link (t := State.indexOffer { s with feed := { s.feed with ptr := n + 1 } } n o) ?_
        (by simp [State.carryOut, State.takeDiscard]) (by simp [State.carryOut, State.takeDiscard])
      exact (Grows.of_link rfl rfl).trans (grows_indexOffer ..)
    | badLength => exact (Grows.of_link rfl rfl).trans (grows_raise ..)
    | store =>
      simp only [State.carryOut, State.storeOffer]
      split
      · exact .of_link rfl rfl
      · rename_i st _
        refine Grows.then_link
          (t := State.indexOffer { s with feed := { s.feed with ptr := n + 1 }, store := st } n o) ?_
          (by simp) (by simp)
        exact (Grows.of_link rfl rfl).trans (grows_indexOffer ..)

theorem grows_followLink (s : State) : Grows s s.followLink := by
  unfold State.followLink
  split
  · exact .refl _
  · exact (Grows.of_link rfl rfl).trans (grows_raise ..)

end Sys2Proof.Machine
end

