-- ==== Sys2Proof/Laws/Store.lean ====
section
/-! SUPPORT. The Packet Store's operations: what each one does, said once. -/

namespace Sys2Proof.Machine

open Sys2Proof

/-! ### The cascade and freeing -/

/-- The cascade takes away the leading blocks of RETIRED banks (R146). -/
theorem cascadeSplit_eq (ret : Block → Bool) (l : List Block) :
    cascadeSplit ret l = (l.dropWhile ret, l.takeWhile ret) := by
  induction l with
  | nil => rfl
  | cons b bs ih =>
    unfold cascadeSplit
    cases h : ret b <;> simp [ih, h]

/-- Blocks join the retired set one after another. -/
def retireBlocks (bs : List Block) (set : List Block) : List Block := bs.foldl (fun acc b => insertBlock b acc) set

/-- The whole effect of the cascade (R146). -/
theorem cascade_eq (st : Store) :
    st.cascade = { st with
      free := st.free.dropWhile st.isRetired
      retired := retireBlocks (st.free.takeWhile st.isRetired) st.retired } := by
  unfold Store.cascade
  rw [cascadeSplit_eq]
  rfl

@[simp] theorem cascade_banks (st : Store) : st.cascade.banks = st.banks := by rw [cascade_eq]
@[simp] theorem cascade_links (st : Store) : st.cascade.links = st.links := by rw [cascade_eq]
@[simp] theorem cascade_bytes (st : Store) : st.cascade.bytes = st.bytes := by rw [cascade_eq]
@[simp] theorem cascade_parity (st : Store) : st.cascade.parity = st.parity := by rw [cascade_eq]

/-- Whether a block's bank is RETIRED depends on the banks alone. -/
theorem isRetired_congr {st st' : Store} (h : st'.banks = st.banks) (b : Block) : st'.isRetired b = st.isRetired b := by
  unfold Store.isRetired Store.bank
  rw [h]

/-- A chain depends on the link table alone. -/
theorem chain_congr {st st' : Store} (h : st'.links = st.links) (b : Block) : st'.chain b = st.chain b := by
  have : ∀ (fuel : Nat) (b : Block), st'.chainFrom fuel b = st.chainFrom fuel b := by
    intro fuel
    induction fuel with
    | zero => intro b; rfl
    | succ n ih =>
      intro b
      unfold Store.chainFrom Store.next
      rw [h]
      split
      · rfl
      · rw [ih]
  exact this _ b

/-- After the cascade the head of the free list is no block of a RETIRED bank (R146). -/
theorem headUsable_cascade (st : Store) : st.cascade.headUsable := by
  intro b hb
  rw [isRetired_congr (cascade_banks st)]
  rw [cascade_eq] at hb
  simp only [] at hb
  cases hl : st.free.dropWhile st.isRetired with
  | nil => rw [hl] at hb; cases hb
  | cons c cs =>
    rw [hl] at hb
    cases hb
    have h := List.head_dropWhile_not (p := st.isRetired) (l := st.free) (by rw [hl]; exact List.cons_ne_nil _ _)
    simpa [hl] using h

/-- The cascade takes away no usable block (R150). -/
theorem usableFree_cascade (st : Store) : st.cascade.usableFree = st.usableFree := by
  unfold Store.usableFree
  have h1 : (fun b => !st.cascade.isRetired b) = fun b => !st.isRetired b := by
    funext b
    rw [isRetired_congr (cascade_banks st)]
  rw [h1]
  have h2 : st.cascade.free = st.free.dropWhile st.isRetired := by rw [cascade_eq]
  rw [h2]
  have h3 := congrArg (List.countP fun b => !st.isRetired b) (List.takeWhile_append_dropWhile (p := st.isRetired) (l := st.free))
  rw [List.countP_append] at h3
  have h4 : (st.free.takeWhile st.isRetired).countP (fun b => !st.isRetired b) = 0 := by
    rw [List.countP_eq_zero]
    intro b hb
    simpa using List.mem_takeWhile_imp hb
  omega

/-- Freeing one block after another: the usable blocks join the tail in order, the others the retired set (R148). -/
theorem foldl_freeBlock (bs : List Block) (st : Store) :
    bs.foldl Store.freeBlock st = { st with
      free := st.free ++ bs.filter fun b => !st.isRetired b
      retired := retireBlocks (bs.filter st.isRetired) st.retired } := by
  induction bs generalizing st with
  | nil => simp [retireBlocks]
  | cons b bs ih =>
    rw [List.foldl_cons, ih]
    have hr : (st.freeBlock b).isRetired = st.isRetired := by
      funext c
      apply isRetired_congr
      unfold Store.freeBlock
      split <;> rfl
    rw [hr]
    unfold Store.freeBlock
    cases h : st.isRetired b <;> simp [h, retireBlocks]

/-- The whole effect of freeing a chain (R148). -/
theorem freeChain_eq (st : Store) (first : Block) :
    st.freeChain first = { st with
      free := st.free ++ (st.chain first).filter fun b => !st.isRetired b
      retired := retireBlocks ((st.chain first).filter st.isRetired) st.retired } :=
  foldl_freeBlock _ _

@[simp] theorem freeChain_banks (st : Store) (b : Block) : (st.freeChain b).banks = st.banks := by rw [freeChain_eq]
@[simp] theorem freeChain_links (st : Store) (b : Block) : (st.freeChain b).links = st.links := by rw [freeChain_eq]
@[simp] theorem freeChain_bytes (st : Store) (b : Block) : (st.freeChain b).bytes = st.bytes := by rw [freeChain_eq]
@[simp] theorem freeChain_parity (st : Store) (b : Block) : (st.freeChain b).parity = st.parity := by rw [freeChain_eq]

/-- Freeing a chain keeps the head usable (R146, R148). -/
theorem headUsable_freeChain (st : Store) (first : Block) (h : st.headUsable) : (st.freeChain first).headUsable := by
  intro b hb
  rw [isRetired_congr (freeChain_banks st first)]
  rw [freeChain_eq] at hb
  simp only [List.head?_append] at hb
  cases hf : st.free.head? with
  | some c => rw [hf] at hb; cases hb; exact h _ hf
  | none =>
    rw [hf] at hb
    simp only [Option.none_or] at hb
    have := List.mem_of_mem_head? hb
    simpa using (List.mem_filter.mp this).2

/-- Freeing many chains one after another. -/
theorem foldl_freeChain (cut : List Record) (st : Store) :
    let u := cut.foldl (fun st r => st.freeChain r.first) st
    u.banks = st.banks ∧ u.links = st.links ∧ u.bytes = st.bytes ∧ u.parity = st.parity
      ∧ (st.headUsable → u.headUsable) := by
  induction cut generalizing st with
  | nil => exact ⟨rfl, rfl, rfl, rfl, fun h => h⟩
  | cons r cut ih =>
    obtain ⟨h1, h2, h3, h4, h5⟩ := ih (st.freeChain r.first)
    exact ⟨h1.trans (freeChain_banks ..), h2.trans (freeChain_links ..), h3.trans (freeChain_bytes ..),
      h4.trans (freeChain_parity ..), fun h => h5 (headUsable_freeChain _ _ h)⟩

/-! ### Allocation -/

/-- Taking blocks changes the free list and the retired set alone, and leaves a usable head (R147). -/
theorem takeBlocks_keeps {n : Nat} {st st' : Store} {bs : List Block} (h : st.takeBlocks n = some (bs, st')) :
    st' = { st with free := st'.free, retired := st'.retired } ∧ bs.length = n
      ∧ (st.headUsable → st'.headUsable) := by
  induction n generalizing st st' bs with
  | zero => simp only [Store.takeBlocks] at h; cases h; exact ⟨rfl, rfl, fun h => h⟩
  | succ n ih =>
    unfold Store.takeBlocks at h
    cases ht : st.takeHead with
    | none => simp [ht] at h
    | some r =>
      obtain ⟨b, st1⟩ := r
      simp only [ht] at h
      cases hk : st1.takeBlocks n with
      | none => simp [hk] at h
      | some q =>
        obtain ⟨bs1, st2⟩ := q
        simp only [hk] at h
        cases h
        obtain ⟨h1, h2, h3⟩ := ih hk
        unfold Store.takeHead at ht
        cases hf : st.free with
        | nil => simp [hf] at ht
        | cons c cs =>
          simp only [hf] at ht
          cases ht
          refine ⟨?_, by simp [h2], fun _ => h3 (headUsable_cascade _)⟩
          rw [h1, cascade_eq]

/-- Blocks can be taken while there are enough usable ones (R147). -/
theorem takeBlocks_some {n : Nat} {st : Store} (h : n ≤ st.usableFree) : ∃ bs st', st.takeBlocks n = some (bs, st') := by
  induction n generalizing st with
  | zero => exact ⟨[], st, rfl⟩
  | succ n ih =>
    cases hf : st.free with
    | nil => simp [Store.usableFree, hf] at h
    | cons b bs =>
      have hu : n ≤ (Store.cascade { st with free := bs }).usableFree := by
        rw [usableFree_cascade]
        unfold Store.usableFree at h ⊢
        rw [hf, List.countP_cons] at h
        have : List.countP (fun b => !st.isRetired b) bs = List.countP (fun b => !Store.isRetired { st with free := bs } b) bs := rfl
        rw [← this]
        split at h <;> omega
      obtain ⟨bs', st', h'⟩ := ih hu
      exact ⟨b :: bs', st', by simp [Store.takeBlocks, Store.takeHead, hf, h']⟩

/-- Linking blocks writes the link table alone, and keeps its canonical form (R147). -/
theorem linkBlocks_keeps (bs : List Block) (st : Store) :
    Store.linkBlocks bs st = { st with links := (Store.linkBlocks bs st).links }
      ∧ (cellsWf none st.links = true → cellsWf none (Store.linkBlocks bs st).links = true) := by
  induction bs generalizing st with
  | nil => exact ⟨rfl, fun h => h⟩
  | cons b bs ih =>
    cases bs with
    | nil => exact ⟨rfl, fun h => cellsWf_writeCell _ _ h⟩
    | cons c cs =>
      obtain ⟨h1, h2⟩ := ih (st.setNext b (some c))
      refine ⟨?_, fun h => h2 (cellsWf_writeCell _ _ h)⟩
      simp only [Store.linkBlocks]
      rw [h1]
      rfl

/-- Allocation changes the free list, the retired set and the link table alone; it leaves a usable head and keeps the
canonical form (R147). -/
theorem allocate_keeps {n : Nat} {st st' : Store} {first : Block} (h : st.allocate n = some (first, st')) :
    st' = { st with free := st'.free, retired := st'.retired, links := st'.links }
      ∧ (st.headUsable → st'.headUsable) ∧ (cellsWf none st.links = true → cellsWf none st'.links = true) := by
  unfold Store.allocate at h
  cases hk : st.takeBlocks n with
  | none => simp [hk] at h
  | some q =>
    obtain ⟨bs, st1⟩ := q
    cases bs with
    | nil => simp [hk] at h
    | cons b bs =>
      simp only [hk] at h
      cases h
      obtain ⟨h1, _, h3⟩ := takeBlocks_keeps hk
      obtain ⟨h4, h5⟩ := linkBlocks_keeps (first :: bs) st1
      refine ⟨?_, fun h => ?_, fun h => h5 (by rw [h1]; exact h)⟩
      · rw [h4, h1]
      · intro b hb
        rw [h4] at hb ⊢
        exact h3 h b hb

/-- Allocation succeeds while there are enough usable blocks (R147). -/
theorem allocate_some {n : Nat} {st : Store} (hn : 1 ≤ n) (h : n ≤ st.usableFree) :
    ∃ first st', st.allocate n = some (first, st') := by
  obtain ⟨bs, st', hb⟩ := takeBlocks_some h
  have hl := (takeBlocks_keeps hb).2.1
  cases bs with
  | nil => simp at hl; omega
  | cons b bs => exact ⟨b, Store.linkBlocks (b :: bs) st', by simp [Store.allocate, hb]⟩

/-! ### Bytes -/

/-- Writing a byte changes the bytes and the parity alone, at the byte's cell (R145, R151). -/
theorem writeByte_spec {chain : List Block} {st st' : Store} {x : Nat} {v : Byte}
    (h : st.writeByte chain x v = some st') :
    ∃ a, cellOf chain x = some a
      ∧ st' = { st with bytes := writeCell 0 a v st.bytes, parity := writeCell false a (parityOf v) st.parity } := by
  unfold Store.writeByte at h
  cases ha : cellOf chain x with
  | none => simp [ha] at h
  | some a => simp only [ha, Option.map_some] at h; cases h; exact ⟨a, rfl, rfl⟩

/-- Writing bytes changes the bytes and the parity alone, and keeps their canonical form. -/
theorem writeBytes_keeps {chain : List Block} {vs : List Byte} {st st' : Store} {x : Nat}
    (h : Store.writeBytes chain x vs st = some st') :
    st' = { st with bytes := st'.bytes, parity := st'.parity }
      ∧ (cellsWf 0 st.bytes = true → cellsWf 0 st'.bytes = true)
      ∧ (cellsWf false st.parity = true → cellsWf false st'.parity = true) := by
  induction vs generalizing st x with
  | nil => simp only [Store.writeBytes] at h; cases h; exact ⟨rfl, fun h => h, fun h => h⟩
  | cons v vs ih =>
    unfold Store.writeBytes at h
    cases hw : st.writeByte chain x v with
    | none => simp [hw] at h
    | some st1 =>
      simp only [hw] at h
      obtain ⟨a, -, h1⟩ := writeByte_spec hw
      obtain ⟨h2, h3, h4⟩ := ih h
      refine ⟨?_, fun h => h3 ?_, fun h => h4 ?_⟩
      · rw [h2, h1]
      · rw [h1]; exact cellsWf_writeCell _ _ h
      · rw [h1]; exact cellsWf_writeCell _ _ h

/-- Bytes can be written wherever the chain has blocks for them. -/
theorem writeBytes_some {chain : List Block} {vs : List Byte} {st : Store} {x : Nat}
    (h : x + vs.length ≤ 256 * chain.length) : ∃ st', Store.writeBytes chain x vs st = some st' := by
  induction vs generalizing st x with
  | nil => exact ⟨st, rfl⟩
  | cons v vs ih =>
    have hx : x / 256 < chain.length := by
      rw [Nat.div_lt_iff_lt_mul (by decide)]
      simp only [List.length_cons] at h
      omega
    have hc : cellOf chain x = some (chain[x / 256].toNat * 256 + x % 256) := by
      simp [cellOf, Config.blockBytes, hx]
    obtain ⟨st', h'⟩ := ih (st := { st with
        bytes := writeCell 0 (chain[x / 256].toNat * 256 + x % 256) v st.bytes
        parity := writeCell false (chain[x / 256].toNat * 256 + x % 256) (parityOf v) st.parity }) (x := x + 1)
      (by simp only [List.length_cons] at h; omega)
    exact ⟨st', by simpa [Store.writeBytes, Store.writeByte, hc] using h'⟩

/-- In a chain without repeats each byte of the packet has a cell of its own (R145). -/
theorem cellOf_inj {chain : List Block} (hn : chain.Nodup) {x y a : Nat} (hx : cellOf chain x = some a)
    (hy : cellOf chain y = some a) : x = y := by
  simp only [cellOf, Config.blockBytes, Option.map_eq_some_iff] at hx hy
  obtain ⟨b, hb, rfl⟩ := hx
  obtain ⟨c, hc, he⟩ := hy
  have h1 : c.toNat = b.toNat := by omega
  have h2 : x % 256 = y % 256 := by omega
  have h3 : c = b := BitVec.eq_of_toNat_eq h1
  subst h3
  obtain ⟨l1, e1⟩ := List.getElem?_eq_some_iff.mp hb
  obtain ⟨l2, e2⟩ := List.getElem?_eq_some_iff.mp hc
  have h4 : x / 256 = y / 256 := (List.Nodup.getElem_inj_iff hn).mp (e1.trans e2.symm)
  omega

/-- A packet byte written reads back with a matching parity; every other cell reads as before (R145, R151). -/
theorem writeByte_read {chain : List Block} {st st' : Store} {x : Nat} {v : Byte} (hn : chain.Nodup)
    (hw : st.wf = true) (h : st.writeByte chain x v = some st') :
    st'.wf = true
      ∧ (∀ y, st'.readByte chain y = if y = x then some (v, true) else st.readByte chain y)
      ∧ ∀ a, cellOf chain x ≠ some a →
          readCell 0 st'.bytes a = readCell 0 st.bytes a ∧ readCell false st'.parity a = readCell false st.parity a := by
  obtain ⟨a, ha, rfl⟩ := writeByte_spec h
  simp only [Store.wf, Bool.and_eq_true] at hw
  have h1 := readCell_writeCell a v hw.1.1
  have h2 := readCell_writeCell a (parityOf v) hw.1.2
  refine ⟨?_, fun y => ?_, fun b hb => ?_⟩
  · simp only [Store.wf, Bool.and_eq_true]
    exact ⟨⟨cellsWf_writeCell _ _ hw.1.1, cellsWf_writeCell _ _ hw.1.2⟩, hw.2⟩
  · unfold Store.readByte
    by_cases hy : y = x
    · subst hy
      simp only [ha, Option.map_some, h1, h2, if_true, beq_self_eq_true]
    · rw [if_neg hy]
      cases hc : cellOf chain y with
      | none => rfl
      | some b =>
        have hb : b ≠ a := by
          rintro rfl
          exact hy (cellOf_inj hn hc ha)
        simp only [Option.map_some, h1, h2, if_neg hb]
  · have hb : b ≠ a := by
      rintro rfl
      exact hb ha
    simp only [h1, h2, if_neg hb, and_self]

/-- Packet bytes written read back with matching parities; every other cell reads as before (R145, R151). -/
theorem writeBytes_read {chain : List Block} {vs : List Byte} {st st' : Store} {x : Nat} (hn : chain.Nodup)
    (hw : st.wf = true) (h : Store.writeBytes chain x vs st = some st') :
    (∀ y, st'.readByte chain y =
        if x ≤ y ∧ y < x + vs.length then (vs[y - x]?).map fun v => (v, true) else st.readByte chain y)
      ∧ ∀ a, (∀ i, i < vs.length → cellOf chain (x + i) ≠ some a) →
          readCell 0 st'.bytes a = readCell 0 st.bytes a ∧ readCell false st'.parity a = readCell false st.parity a := by
  induction vs generalizing st x with
  | nil =>
    simp only [Store.writeBytes] at h
    cases h
    exact ⟨fun y => by rw [if_neg (by simp)], fun _ _ => ⟨rfl, rfl⟩⟩
  | cons v vs ih =>
    unfold Store.writeBytes at h
    cases hb : st.writeByte chain x v with
    | none => simp [hb] at h
    | some st1 =>
      simp only [hb] at h
      obtain ⟨h1, h2, h3⟩ := writeByte_read hn hw hb
      obtain ⟨h4, h5⟩ := ih h1 h
      refine ⟨fun y => ?_, fun a ha => ?_⟩
      · rw [h4]
        by_cases hy : y = x
        · subst hy
          rw [if_neg (by omega), h2, if_pos rfl, if_pos (by simp)]
          simp
        · by_cases hy2 : x + 1 ≤ y ∧ y < x + 1 + vs.length
          · rw [if_pos hy2, if_pos (by simp only [List.length_cons]; omega)]
            have : y - x = (y - (x + 1)) + 1 := by omega
            rw [this, List.getElem?_cons_succ]
          · rw [if_neg hy2, h2, if_neg hy, if_neg (by simp only [List.length_cons]; omega)]
      · obtain ⟨q1, q2⟩ := h5 a fun i hi => by
          have := ha (i + 1) (by simp only [List.length_cons]; omega)
          rwa [show x + 1 + i = x + (i + 1) by omega]
        obtain ⟨q3, q4⟩ := h3 a (by simpa using ha 0 (by simp))
        exact ⟨q1.trans q3, q2.trans q4⟩

/-- The store right after cold start has its canonical form and a usable head. -/
theorem wf_cold : Store.cold.wf = true := by decide

end Sys2Proof.Machine
end

