-- ==== Sys2Proof/Laws/Chains.lean ====
section
/-! SUPPORT. The whole effect of taking blocks, of linking them, and of retiring a bank. -/

namespace Sys2Proof.Machine

open Sys2Proof

theorem mem_insertBlock (b c : Block) (l) : c ∈ insertBlock b l ↔ c = b ∨ c ∈ l := by
  induction l with
  | nil => simp [insertBlock]
  | cons d ds ih =>
    unfold insertBlock
    split
    · simp
    · split
      · rename_i h; subst h; simp
      · rw [List.mem_cons, ih]; simp; tauto

/-- The retired set after blocks join it. -/
theorem mem_retireBlocks (bs : List Block) (l) (c) : c ∈ retireBlocks bs l ↔ c ∈ bs ∨ c ∈ l := by
  unfold retireBlocks
  induction bs generalizing l with
  | nil => simp
  | cons b bs ih => rw [List.foldl_cons, ih, mem_insertBlock]; simp; tauto

/-- Taking n blocks: the first n usable ones; the blocks of RETIRED banks met leave for the retired set (R146, R147). -/
theorem takeBlocks_spec (n : Nat) (st : Store) (bs : List Block) (st' : Store) (h : st.takeBlocks n = some (bs, st'))
    (hh : st.headUsable) (hnd : st.free.Nodup) :
    bs = (st.free.filter fun b => !st.isRetired b).take n ∧
    (st'.free.filter fun b => !st.isRetired b) = (st.free.filter fun b => !st.isRetired b).drop n ∧
    (∀ b, b ∈ st'.retired ↔ b ∈ st.retired ∨ (b ∈ st.free ∧ b ∉ st'.free ∧ st.isRetired b = true))
      ∧ st'.banks = st.banks ∧ st'.free <:+ st.free := by
  induction n generalizing st bs with
  | zero => cases h; simp; tauto
  | succ n ih =>
    unfold Store.takeBlocks at h
    cases hf : st.free with
    | nil => simp [Store.takeHead, hf] at h
    | cons b fs =>
      simp only [Store.takeHead, hf] at h
      set st1 : Store := Store.cascade { st with free := fs } with hst1
      have hbk : st1.banks = st.banks := by rw [hst1]; simp
      have hret : st1.isRetired = st.isRetired := by funext c; exact isRetired_congr hbk c
      have hfree : st1.free = fs.dropWhile st.isRetired := by rw [hst1, cascade_eq]; rfl
      have hretd : st1.retired = retireBlocks (fs.takeWhile st.isRetired) st.retired := by rw [hst1, cascade_eq]; rfl
      rw [hf] at hnd
      have hnd' := List.nodup_cons.mp hnd
      have hsuf : st1.free <:+ fs := by rw [hfree]; exact List.dropWhile_suffix ..
      have hu : st.isRetired b = false := hh b (by rw [hf]; rfl)
      cases hk : st1.takeBlocks n with
      | none => simp [hk] at h
      | some q =>
        obtain ⟨bs1, st2⟩ := q
        simp only [hk] at h
        cases h
        obtain ⟨g1, g2, g3, g4, g5⟩ := ih st1 bs1 hk (by rw [hst1]; exact headUsable_cascade _)
          (hnd'.2.sublist hsuf.sublist)
        rw [hret] at g1 g2 g3
        have hfil : st1.free.filter (fun b => !st.isRetired b) = fs.filter (fun b => !st.isRetired b) := by
          rw [hfree]
          conv_rhs => rw [← List.takeWhile_append_dropWhile (p := st.isRetired) (l := fs)]
          rw [List.filter_append]
          have : (fs.takeWhile st.isRetired).filter (fun b => !st.isRetired b) = [] := by
            rw [List.filter_eq_nil_iff]; intro a ha; simpa using List.mem_takeWhile_imp ha
          rw [this]; rfl
        rw [hfil] at g1 g2
        refine ⟨?_, ?_, ?_, g4.trans hbk, ?_⟩
        · rw [List.filter_cons, if_pos (by simp [hu]), List.take_succ_cons, g1]
        · rw [List.filter_cons, if_pos (by simp [hu]), List.drop_succ_cons, g2]
        · intro c
          rw [g3, hretd, mem_retireBlocks]
          have hmem : c ∈ fs ↔ c ∈ fs.takeWhile st.isRetired ∨ c ∈ st1.free := by
            rw [hfree, ← List.mem_append, List.takeWhile_append_dropWhile]
          have htw : c ∈ fs.takeWhile st.isRetired → st.isRetired c = true := fun h => List.mem_takeWhile_imp h
          have hdis : c ∈ fs.takeWhile st.isRetired → c ∉ st1.free := by
            intro h1 h2
            have := hnd'.2
            rw [← List.takeWhile_append_dropWhile (p := st.isRetired) (l := fs), ← hfree] at this
            exact (List.nodup_append.mp this).2.2 _ h1 _ h2 rfl
          have hs2 : c ∈ st'.free → c ∈ st1.free := fun h => g5.subset h
          have hbc : c = b → st.isRetired c = false := by rintro rfl; exact hu
          simp only [List.mem_cons]
          constructor
          · rintro ((h | h) | ⟨h1, h2, h3⟩)
            · exact .inr ⟨.inr (hmem.mpr (.inl h)), fun h' => hdis h (hs2 h'), htw h⟩
            · exact .inl h
            · exact .inr ⟨.inr (hmem.mpr (.inr h1)), h2, h3⟩
          · rintro (h | ⟨h1 | h1, h2, h3⟩)
            · exact .inl (.inr h)
            · rw [hbc h1] at h3; cases h3
            · rcases hmem.mp h1 with h | h
              · exact .inl (.inl h)
              · exact .inr ⟨h, h2, h3⟩
        · exact (g5.trans hsuf).trans (List.suffix_cons ..)

/-! ### The link table -/

theorem next_setNext (st : Store) (b : Block) (v) (hw : cellsWf none st.links = true) (c : Block) :
    (st.setNext b v).next c = if c = b then v else st.next c := by
  unfold Store.next Store.setNext
  simp only []
  rw [readCell_writeCell _ _ hw]
  by_cases h : c = b
  · subst h; simp
  · have : c.toNat ≠ b.toNat := fun e => h (BitVec.eq_of_toNat_eq e)
    simp [h, this]

/-- Linked blocks lead each to the next and the last to END; no other link changes (R147). -/
theorem linkBlocks_spec (bs : List Block) (st : Store) (hn : bs.Nodup) (hw : cellsWf none st.links = true) :
   (∀ i, (h : i < bs.length) → (Store.linkBlocks bs st).next bs[i] = bs[i+1]?)
     ∧ (∀ b, b ∉ bs → (Store.linkBlocks bs st).next b = st.next b) := by
  induction bs generalizing st with
  | nil => exact ⟨(fun i h => by simp at h), (fun _ _ => rfl)⟩
  | cons b bs ih =>
    cases bs with
    | nil =>
      refine ⟨?_, ?_⟩
      · intro i h; simp at h; subst h; simp [Store.linkBlocks, next_setNext _ _ _ hw]
      · intro c hc; simp at hc; simp [Store.linkBlocks, next_setNext _ _ _ hw, hc]
    | cons c cs =>
      have hn := List.nodup_cons.mp hn
      obtain ⟨h1, h2⟩ := ih (st.setNext b (some c)) hn.2 (cellsWf_writeCell _ _ hw)
      refine ⟨?_, ?_⟩
      · intro i h
        cases i with
        | zero =>
          show (Store.linkBlocks (c :: cs) (st.setNext b (some c))).next b = some c
          rw [h2 b hn.1, next_setNext _ _ _ hw, if_pos rfl]
        | succ i =>
          show (Store.linkBlocks (c :: cs) (st.setNext b (some c))).next ((c :: cs)[i]'(by simpa using h)) =
            (c :: cs)[i+1]?
          exact h1 i (by simpa using h)
      · intro d hd
        simp only [List.mem_cons, not_or] at hd
        show (Store.linkBlocks (c :: cs) (st.setNext b (some c))).next d = _
        rw [h2 d (by simp [hd.2.1, hd.2.2]), next_setNext _ _ _ hw, if_neg hd.1]

/-- Blocks linked in a row are the chain of the first (R145). -/
theorem chainFrom_list (st : Store) (l : List Block) (fuel : Nat) (b : Block) (bs : List Block) (hl : l = b :: bs)
    (hf : l.length ≤ fuel) (h : ∀ i, (h : i < l.length) → st.next l[i] = l[i+1]?) : st.chainFrom fuel b = l := by
  induction bs generalizing l fuel b with
  | nil =>
    subst hl
    cases fuel with
    | zero => simp at hf
    | succ f =>
      have := h 0 (by simp)
      simp at this
      simp [Store.chainFrom, this]
  | cons c cs ih =>
    subst hl
    cases fuel with
    | zero => simp at hf
    | succ f =>
      have h0 := h 0 (by simp)
      simp at h0
      rw [Store.chainFrom, h0]; simp only []
      rw [ih (c :: cs) f c rfl (by simpa using hf) (fun i hi => by
        have := h (i+1) (by simp at hi ⊢; omega)
        simpa using this)]

/-! ### Banks -/

theorem bank_setBank (st : Store) (j k : Fin 4) (b : Bank) :
    (st.setBank j b).bank k = if k = j then b else st.bank k := by
  unfold Store.bank Store.setBank
  simp only []
  by_cases h : k = j
  · subst h; simp
  · have : j.val ≠ k.val := fun e => h (Fin.ext e.symm)
    simp [h, this]

theorem bank_congr {st st' : Store} (h : st'.banks = st.banks) (j) : st'.bank j = st.bank j := by
  unfold Store.bank; rw [h]

theorem exhausted_iff (st : Store) : st.exhausted = true ↔ ∀ k : Fin 4, (st.bank k).retired = true := by
  unfold Store.exhausted Store.bank
  constructor
  · intro h k; simp only [Bool.and_eq_true] at h
    fin_cases k <;> simp [h]
  · intro h; simp only [Bool.and_eq_true]
    exact ⟨⟨⟨h 0, h 1⟩, h 2⟩, h 3⟩

theorem retireBank_store (s : State) (j : Fin 4) (b : Block) :
    (s.retireBank j b).store = (s.store.setBank j { s.store.bank j with retired := true }).cascade := by
  unfold State.retireBank; simp only []; split <;> simp

theorem raise_link_frame (s : State) (c a b) :
    (s.raise c a b).link = { s.link with queue := (s.raise c a b).link.queue, overflow :=
    (s.raise c a b).link.overflow } := by
  rw [raise_link]

theorem link_frame {l l' : Link} (h1 : l'.parser = l.parser) (h2 : l'.buffer = l.buffer) (h3 : l'.gap = l.gap)
    (h4 : l'.responder = l.responder) (h5 : l'.silence = l.silence) (h6 : l'.rx = l.rx) :
    l' = { l with latches := l'.latches, queue := l'.queue, overflow := l'.overflow } := by
  cases l; cases l'; simp_all

/-- The retirement of a bank: the store, the latches, the events in their order, and nothing else (R153, R156, R157). -/
theorem retireBank_facts (s : State) (j : Fin 4) (b : Block) :
   let t := s.retireBank j b
   let st := (s.store.setBank j { s.store.bank j with retired := true }).cascade
   t.store = st
     ∧ Raises s t (⟨.bankRetired, j.val, b.toNat⟩ :: if st.exhausted then [⟨.storeExhausted, 0, st.inUse⟩] else [])
     ∧ t.link.latches = { s.link.latches with
         bankRetired := true, storeExhausted := s.link.latches.storeExhausted || st.exhausted }
     ∧ t = { s with store := t.store, link :=
       { s.link with latches := t.link.latches, queue := t.link.queue, overflow := t.link.overflow } } := by
  intro t st
  have hts : t.store = st := retireBank_store s j b
  let u : State := { s with store := st, link :=
    { s.link with latches := { s.link.latches with bankRetired := true } } }
  let v := u.raise .bankRetired j.val b.toNat
  let w : State := { v with link := { v.link with latches := { v.link.latches with storeExhausted := true } } }
  have hv : Raises s v [⟨.bankRetired, j.val, b.toNat⟩] :=
    (raises_raise u .bankRetired j.val b.toNat).congr rfl rfl rfl rfl rfl
  have ht : t = if st.exhausted then w.raise .storeExhausted 0 st.inUse else v := rfl
  have hvl : v.link = { s.link with
      latches := { s.link.latches with bankRetired := true }
      queue := v.link.queue
      overflow := v.link.overflow } := raise_link_frame ..
  have hvt : v.t = s.t := raise_t ..
  refine ⟨hts, ?_, ?_, ?_⟩
  · rw [ht]
    split
    · exact hv.trans ((raises_raise w .storeExhausted 0 st.inUse).congr rfl rfl rfl rfl rfl) hvt
    · exact hv
  · rw [ht]
    split
    · rename_i he
      rw [raise_latches, he]
      simp only [w]
      rw [hvl]
      simp
    · rename_i he
      rw [hvl]
      simp [he]
  · apply state_eq <;> first | rfl | (rw [ht]; split <;> simp [w, v, u]; done) | skip
    show t.link = { s.link with latches := t.link.latches, queue := t.link.queue, overflow := t.link.overflow }
    rw [ht]
    split
    · apply link_frame <;> (rw [raise_link_frame]; simp only [w]; rw [hvl])
    · apply link_frame <;> rw [hvl]

/-- A failed read raises PARITY_ERROR, then what the retirement of its bank raises (R152, R157). -/
theorem parityError_raises (s : State) (b : Block) :
    let j := bankOf b
    let bk := s.store.bank j
    let st := ((s.store.setBank j { bk with integrity := true, errors := min (bk.errors + 1) 2 }).setBank j
      { bk with integrity := true, errors := min (bk.errors + 1) 2, retired := true }).cascade
    Raises s (s.parityError b) (⟨.parityError, j.val, b.toNat⟩ ::
      if bk.retired = false ∧ bk.errors = 1 then
        ⟨.bankRetired, j.val, b.toNat⟩ :: if st.exhausted then [⟨.storeExhausted, 0, st.inUse⟩] else []
      else []) := by
  intro j bk st
  let u : State := { s with store := s.store.setBank j { bk with integrity := true, errors := min (bk.errors + 1) 2 } }
  have h1 : Raises s (u.raise .parityError j.val b.toNat) [⟨.parityError, j.val, b.toNat⟩] :=
    (raises_raise u .parityError j.val b.toNat).congr rfl rfl rfl rfl rfl
  have hu : s.parityError b = if bk.retired = false ∧ bk.errors = 1
      then (u.raise .parityError j.val b.toNat).retireBank j b else u.raise .parityError j.val b.toNat := rfl
  rw [hu]
  split
  · have h2 := (retireBank_facts (u.raise .parityError j.val b.toNat) j b).2.1
    rw [raise_store, show u.store.bank j = { bk with integrity := true, errors := min (bk.errors + 1) 2 } by
      simp [u, bank_setBank]] at h2
    exact h1.trans h2 (raise_t ..)
  · exact h1

/-- Every failed read raises PARITY_ERROR (R152). -/
theorem parityError_shows (s : State) (b : Block) : Shows s (s.parityError b) .parityError (bankOf b).val b.toNat :=
  ⟨_, parityError_raises s b, List.mem_cons_self ..⟩

/-- A failed read sets the integrity bit and counts, up to 2 (R152). -/
theorem parityError_banks (s : State) (b : Block) : ((s.parityError b).store.bank (bankOf b)).integrity = true
    ∧ ((s.parityError b).store.bank (bankOf b)).errors = min ((s.store.bank (bankOf b)).errors + 1) 2 := by
  unfold State.parityError
  simp only []
  split
  · refine ⟨?_, ?_⟩
    · rw [retireBank_store, bank_congr (cascade_banks _), bank_setBank, if_pos rfl]; simp [bank_setBank]
    · rw [retireBank_store, bank_congr (cascade_banks _), bank_setBank, if_pos rfl]; simp [bank_setBank]
  · refine ⟨?_, ?_⟩
    · simp [bank_setBank]
    · simp [bank_setBank]

/-- A failed read acts on the store and the link alone. -/
theorem parityError_keeps (s : State) (b) :
    s.parityError b = { s with store := (s.parityError b).store, link := (s.parityError b).link } := by
  apply state_eq <;> simp

end Sys2Proof.Machine
end

