-- ==== Sys2Proof/Laws/Choices.lean ====
section
/-! SUPPORT. An arrangement has each piece of work exactly once, whatever the choices. -/

namespace Sys2Proof.Machine

open Sys2Proof

/-- An arrangement of a list is a permutation of it. -/
theorem arrange_perm {α : Type} (choose : Nat → Nat) (l : List α) : (arrange choose l).Perm l := by
  induction l with
  | nil => exact .refl _
  | cons x xs ih =>
    rw [arrange]
    refine .trans (List.perm_insertIdx _ _ ?_) (ih.cons x)
    rw [ih.length_eq]
    exact Nat.le_of_lt_succ (Nat.mod_lt _ (Nat.succ_pos _))

/-- The order the free value gives a list is a permutation of it. -/
theorem order_perm {α : Type} (s : State) (l : List α) : (s.order l).Perm l := arrange_perm _ l

/-- Making deliveries one after another. -/
theorem deliverAll_cons (s : State) (e : Time) (d : Delivery) (ds : List Delivery) :
    s.deliverAll e (d :: ds) = (s.deliver e d).deliverAll e ds := rfl

/-- Deliveries to stream contexts alone leave the Share Computer and the Pace Bus Interface. -/
theorem deliverAll_streams (s : State) (e : Time) (ds : List Delivery) (h : ∀ d ∈ ds, ∃ n, d = .stream n) :
    (s.deliverAll e ds).share = s.share ∧ (s.deliverAll e ds).pace = s.pace ∧ (s.deliverAll e ds).fresh = s.fresh := by
  induction ds generalizing s with
  | nil => exact ⟨rfl, rfl, rfl⟩
  | cons d ds ih =>
    obtain ⟨n, rfl⟩ := h d List.mem_cons_self
    rw [deliverAll_cons]
    obtain ⟨h1, h2, h3⟩ := ih (s.deliver e (.stream n)) (fun d hd => h d (List.mem_cons_of_mem _ hd))
    exact ⟨h1.trans (streamEpoch_share ..), h2.trans (streamEpoch_pace ..), h3.trans (streamEpoch_fresh ..)⟩

/-- A field epoch leaves the Share Computer and the Pace Bus Interface (R7). -/
theorem takeFieldEpoch_others (s : State) (h : Time) :
    (s.takeFieldEpoch h).share = s.share ∧ (s.takeFieldEpoch h).pace = s.pace := by
  have := deliverAll_streams
    (State.chosen { s with grid := { s.grid with h := none } } (s.fieldStreams.map Delivery.stream).length) h
    (s.order (s.fieldStreams.map Delivery.stream)) (by
      intro d hd
      obtain ⟨n, _, rfl⟩ := List.mem_map.mp ((order_perm s _).mem_iff.mp hd)
      exact ⟨n, rfl⟩)
  exact ⟨this.1, this.2.1⟩

@[simp] theorem takeFieldEpoch_share (s : State) (h : Time) : (s.takeFieldEpoch h).share = s.share :=
  (takeFieldEpoch_others s h).1

@[simp] theorem takeFieldEpoch_pace (s : State) (h : Time) : (s.takeFieldEpoch h).pace = s.pace :=
  (takeFieldEpoch_others s h).2

end Sys2Proof.Machine
end

