-- ==== Sys2Proof/Laws/Cold.lean ====
section
/-! SUPPORT. Blocks at their cold-start values: the steps they do not take. -/

namespace Sys2Proof.Machine

open Sys2Proof

/-- The blocks hold their cold-start values (R3, R85, R108, R130, R143, R163, R171). -/
def BlocksCold (s : State) : Prop :=
    s.grid = .cold ∧ (∀ n, s.ctx n = .cold) ∧ s.share = .cold ∧ s.pace = .cold ∧ s.store = .cold
      ∧ s.egress.slot = none ∧ s.egress.linkUp = false ∧ s.egress.offer = false ∧ s.feed.write = none
      ∧ s.feed.take = 0 ∧ s.link.queue = [] ∧ s.link.overflow = false ∧ s.link.latches = .cold
      ∧ s.egress.collision = 0 ∧ s.egress.late = 0 ∧ s.egress.starve = 0 ∧ s.egress.trim = 0
      ∧ s.feed.ptr = 0 ∧ (∀ n, (s.chan n).index = 0 ∧ (s.chan n).reported = false) ∧ s.cfg = .cold

/-- A channel at cold start (R130, R142). -/
theorem chan_coldStart (s : State) (n : Stream) : s.coldStart.chan n = .cold (s.chan n).pin := by
  have h : ∀ (l : List Stream) (v : Vector Channel 16), n ∈ l →
      (l.foldl (fun v n => v.set n.val (Channel.cold (s.feed.chans[n.val]).pin)) v)[n.val]
        = Channel.cold (s.feed.chans[n.val]).pin := by
    have hk : ∀ (l : List Stream) (v : Vector Channel 16), n ∉ l →
        (l.foldl (fun v n => v.set n.val (Channel.cold (s.feed.chans[n.val]).pin)) v)[n.val] = v[n.val] := by
      intro l
      induction l with
      | nil => intro v _; rfl
      | cons x xs ih =>
        intro v hn
        rw [List.foldl_cons, ih _ (fun h => hn (List.mem_cons_of_mem _ h)), Vector.getElem_set_ne]
        exact fun e => hn (by rw [Fin.ext e]; exact List.mem_cons_self)
    intro l
    induction l with
    | nil => intro v h; cases h
    | cons x xs ih =>
      intro v hn
      rw [List.foldl_cons]
      by_cases hx : n ∈ xs
      · exact ih _ hx
      · rw [hk _ _ hx]
        obtain rfl : n = x := by
          rcases List.mem_cons.mp hn with h | h
          · exact h
          · exact absurd h hx
        simp
  exact h allStreams Feed.cold.chans (List.mem_finRange n)

/-- A cold start leaves every block cold (R158). -/
theorem blocksCold_start (s : State) : BlocksCold s.coldStart :=
  ⟨rfl, by intro n; simp, rfl, rfl, rfl, rfl, rfl, rfl, rfl, rfl, rfl, rfl, rfl, rfl, rfl, rfl, rfl, rfl,
    by intro n; rw [chan_coldStart]; exact ⟨rfl, rfl⟩, rfl⟩

/-- A part that differs from a cold one in none of these is cold. -/
theorem blocksCold_of {s t : State} (h : BlocksCold s) (h1 : t.grid = s.grid) (h2 : ∀ n, t.ctx n = s.ctx n)
    (h3 : t.share = s.share) (h4 : t.pace = s.pace) (h5 : t.store = s.store)
    (h6 : t.egress.slot = s.egress.slot) (h7 : t.egress.linkUp = s.egress.linkUp)
    (h8 : t.egress.offer = s.egress.offer ∨ t.egress.offer = false) (h9 : t.feed.write = s.feed.write)
    (h10 : t.feed.take = s.feed.take ∨ t.feed.take = 0)
    (h11 : t.link.queue = s.link.queue) (h12 : t.link.overflow = s.link.overflow)
    (h13 : t.link.latches = s.link.latches)
    (h14 : t.egress.collision = s.egress.collision ∨ t.egress.collision = 0)
    (h15 : t.egress.late = s.egress.late ∨ t.egress.late = 0)
    (h16 : t.egress.starve = s.egress.starve ∨ t.egress.starve = 0)
    (h17 : t.egress.trim = s.egress.trim ∨ t.egress.trim = 0) (h18 : t.feed.ptr = s.feed.ptr)
    (h19 : ∀ n, (t.chan n).index = (s.chan n).index ∧ (t.chan n).reported = (s.chan n).reported)
    (h20 : t.cfg = s.cfg) : BlocksCold t := by
  obtain ⟨a1,a2,a3,a4,a5,a6,a7,a8,a9,a10,a11,a12,a13,a14,a15,a16,a17,a18,a19,a20⟩ := h
  refine ⟨h1.trans a1, fun n => (h2 n).trans (a2 n), h3.trans a3, h4.trans a4, h5.trans a5, h6.trans a6,
    h7.trans a7, ?_, h9.trans a9, ?_, h11.trans a11, h12.trans a12, h13.trans a13, ?_, ?_, ?_, ?_, h18.trans a18,
    fun n => ⟨(h19 n).1.trans (a19 n).1, (h19 n).2.trans (a19 n).2⟩, h20.trans a20⟩
  · rcases h8 with h | h <;> rw [h]; exact a8
  · rcases h10 with h | h <;> rw [h]; exact a10
  · rcases h14 with h | h <;> rw [h]; exact a14
  · rcases h15 with h | h <;> rw [h]; exact a15
  · rcases h16 with h | h <;> rw [h]; exact a16
  · rcases h17 with h | h <;> rw [h]; exact a17

/-- No head is due in a cold part. -/
theorem grantReady_cold {s : State} (h : BlocksCold s) : s.grantReady = false := by
  have : s.reachedStreams = [] := by
    unfold State.reachedStreams
    rw [List.filter_eq_nil_iff]
    intro n _
    rw [h.2.1 n]; simp [Context.headReached, Context.enabled, Context.cold]
  unfold State.grantReady; rw [this]; simp

/-- Outside RUN, with the blocks cold, these steps of the table change nothing. -/
theorem exec_idle_cold (c : Instr) (s : State) (h : BlocksCold s) (hr : s.loader.part ≠ .run) :
   (c = .frameEpoch ∨ c = .fieldEpoch ∨ c = .refPulseAccepted ∨ (∃ b, c = .refSampled b) ∨ (∃ n, c = .starve n)
     ∨ c = .grant ∨ c = .egressByte ∨ c = .egressStall
    ∨ c = .intakeSelection ∨ c = .writeComplete ∨ c = .noticeDue ∨ c = .noticeStart ∨ c = .arbitrationLost
      ∨ c = .noticeBiterr ∨ c = .noticeComplete ∨ c = .noticeFraming
    ∨ c = .receiveSettled ∨ c = .busStuck ∨ c = .busRestored ∨ c = .startMarkEdge ∨ c = .dataBitSampled)
      → exec c s = .next s := by
  obtain ⟨a1, a2, -, a4, -, a6, -, -, a9, -⟩ := id h
  have hbn : s.busNormal = false := by unfold State.busNormal; rw [a4]; simp [Pace.cold]
  have href : s.refReady = false := by unfold State.refReady; rw [a1]; simp [Grid.cold]
  rintro (rfl | rfl | rfl | ⟨b, rfl⟩ | ⟨n, rfl⟩ | rfl | rfl | rfl | rfl | rfl | rfl | rfl | rfl | rfl | rfl | rfl |
    rfl | rfl | rfl | rfl | rfl)
  · have : s.frameReady = false := by unfold State.frameReady; rw [a1]; simp [Grid.cold]
    simp [exec, execFrameEpoch, this]
  · have : s.fieldReady = false := by unfold State.fieldReady; rw [a1]; simp [Grid.cold]
    simp [exec, execFieldEpoch, this]
  · simp [exec, execRefPulseAccepted, href]
  · simp [exec, execRefSampled, href]
  · have : (s.ctx n).starves s.t = false := by rw [a2]; simp [Context.starves, Context.enabled, Context.cold]
    simp [exec, execStarve, this]
  · simp [exec, execGrant, grantReady_cold h]
  · simp [exec, execEgressByte, a6]
  · have : s.stallReady = false := by unfold State.stallReady; rw [a6]; simp
    simp [exec, execEgressStall, this]
  · have hj : ∀ n, s.answerable n = false := by
      intro n; unfold State.answerable
      split
      · unfold State.judge; rw [if_pos hr]; simp
      · rfl
    have : s.selectReady = false := by
      unfold State.selectReady State.selectChoice
      have : s.channelOrder.find? s.answerable = none := by
        rw [List.find?_eq_none]; intro n _; rw [hj]; simp
      rw [this]; simp
    simp [exec, execIntakeSelection, this]
  · have : s.writeDone = false := by unfold State.writeDone; rw [a9]; simp
    simp [exec, execWriteComplete, this]
  · simp [exec, execNoticeDue, State.noticeDueReady, hbn]
  · simp [exec, execNoticeStart, State.noticeStartReady, hbn]
  · simp [exec, execArbitrationLost, State.arbitrationReady, hbn]
  · simp only [exec, execNoticeBiterr, hbn]; split <;> rfl
  · simp [exec, execNoticeComplete, State.completeReady, hbn]
  · simp [exec, execNoticeFraming, State.framingReady, hbn]
  · simp [exec, execReceiveSettled, State.settledReady, hbn]
  · simp [exec, execBusStuck, State.stuckReady, hbn]
  · have : s.restoredReady = false := by unfold State.restoredReady; rw [a4]; simp [Pace.cold]
    simp [exec, execBusRestored, this]
  · simp [exec, execStartMarkEdge, State.startMarkReady, hbn]
  · simp [exec, execDataBitSampled, State.dataBitReady, hbn]

end Sys2Proof.Machine
end

