-- ==== Sys2Proof/Laws/Commands.lean ====
section
/-! SUPPORT. The frame of each command: the parts of the state that it leaves as they were when it gives a next state. -/

namespace Sys2Proof.Machine

open Sys2Proof

theorem coldRelease_keeps {s t : State} (h : exec (.coldRelease) s = .next t) :
    t.t = s.t ∧ t.powered = s.powered ∧ t.pins = s.pins ∧ t.cfg = s.cfg ∧ t.grid = s.grid ∧ t.ctxs = s.ctxs
      ∧ t.egress = s.egress ∧ t.share = s.share ∧ t.pace = s.pace ∧ t.feed = s.feed ∧ t.store = s.store
      ∧ t.loader = s.loader ∧ t.link = s.link ∧ t.fresh = s.fresh ∧ t.pending = s.pending := by
  simp only [exec, execColdRelease] at h
  (repeat' split at h) <;> cases h <;> simp

theorem imageByte_keeps {s t : State} {b : Byte} (h : exec (.imageByte b) s = .next t) :
    t.t = s.t ∧ t.powered = s.powered ∧ t.cold = s.cold ∧ t.pins = s.pins ∧ t.share = s.share ∧ t.feed = s.feed
      ∧ t.fresh = s.fresh ∧ t.pending = s.pending := by
  simp only [exec, execImageByte] at h
  (repeat' split at h) <;> cases h <;> simp

theorem imageStalled_keeps {s t : State} (h : exec (.imageStalled) s = .next t) :
    t.t = s.t ∧ t.powered = s.powered ∧ t.cold = s.cold ∧ t.pins = s.pins ∧ t.cfg = s.cfg ∧ t.grid = s.grid
      ∧ t.ctxs = s.ctxs ∧ t.egress = s.egress ∧ t.share = s.share ∧ t.pace = s.pace ∧ t.feed = s.feed
      ∧ t.store = s.store ∧ t.link = s.link ∧ t.fresh = s.fresh ∧ t.pending = s.pending := by
  simp only [exec, execImageStalled] at h
  (repeat' split at h) <;> cases h <;> simp

theorem frameEpoch_keeps {s t : State} (h : exec (.frameEpoch) s = .next t) :
    t.t = s.t ∧ t.powered = s.powered ∧ t.cold = s.cold ∧ t.pins = s.pins ∧ t.cfg = s.cfg ∧ t.feed = s.feed
      ∧ t.loader = s.loader ∧ t.pending = s.pending := by
  simp only [exec, execFrameEpoch] at h
  (repeat' split at h) <;> cases h <;> simp

theorem fieldEpoch_keeps {s t : State} (h : exec (.fieldEpoch) s = .next t) :
    t.t = s.t ∧ t.powered = s.powered ∧ t.cold = s.cold ∧ t.pins = s.pins ∧ t.cfg = s.cfg ∧ t.share = s.share
      ∧ t.pace = s.pace ∧ t.feed = s.feed ∧ t.loader = s.loader ∧ t.pending = s.pending := by
  simp only [exec, execFieldEpoch] at h
  (repeat' split at h) <;> cases h <;> simp

theorem refPulseAccepted_keeps {s t : State} (h : exec (.refPulseAccepted) s = .next t) :
    t.t = s.t ∧ t.powered = s.powered ∧ t.cold = s.cold ∧ t.pins = s.pins ∧ t.cfg = s.cfg ∧ t.feed = s.feed
      ∧ t.loader = s.loader ∧ t.pending = s.pending := by
  simp only [exec, execRefPulseAccepted] at h
  (repeat' split at h) <;> cases h <;> simp

theorem starve_keeps {s t : State} {n : Stream} (h : exec (.starve n) s = .next t) :
    t.t = s.t ∧ t.powered = s.powered ∧ t.cold = s.cold ∧ t.pins = s.pins ∧ t.cfg = s.cfg ∧ t.grid = s.grid
      ∧ t.share = s.share ∧ t.pace = s.pace ∧ t.feed = s.feed ∧ t.store = s.store ∧ t.loader = s.loader
      ∧ t.link = s.link ∧ t.fresh = s.fresh ∧ t.pending = s.pending := by
  simp only [exec, execStarve] at h
  (repeat' split at h) <;> cases h <;> simp

theorem grant_keeps {s t : State} (h : exec (.grant) s = .next t) :
    t.t = s.t ∧ t.powered = s.powered ∧ t.cold = s.cold ∧ t.pins = s.pins ∧ t.cfg = s.cfg ∧ t.grid = s.grid
      ∧ t.share = s.share ∧ t.pace = s.pace ∧ t.feed = s.feed ∧ t.loader = s.loader ∧ t.link = s.link
      ∧ t.pending = s.pending := by
  simp only [exec, execGrant] at h
  have hd : s.takeDue.t = s.t := takeDue_t s
  generalize hu : s.takeDue = u at h
  have hk : u.powered = s.powered ∧ u.cold = s.cold ∧ u.pins = s.pins ∧ u.cfg = s.cfg ∧ u.grid = s.grid
      ∧ u.share = s.share ∧ u.pace = s.pace ∧ u.feed = s.feed ∧ u.loader = s.loader ∧ u.link = s.link
      ∧ u.pending = s.pending := by subst hu; simp
  rw [hu] at hd
  obtain ⟨h1, h2, h3, h4, h5, h6, h7, h8, h9, h10, h11⟩ := hk
  simp only [State.grantHead] at h
  (repeat' split at h) <;> cases h <;> simp [*]

theorem egressByte_keeps {s t : State} (h : exec (.egressByte) s = .next t) :
    t.t = s.t ∧ t.powered = s.powered ∧ t.cold = s.cold ∧ t.pins = s.pins ∧ t.cfg = s.cfg ∧ t.grid = s.grid
      ∧ t.share = s.share ∧ t.pace = s.pace ∧ t.feed = s.feed ∧ t.loader = s.loader ∧ t.fresh = s.fresh
      ∧ t.pending = s.pending := by
  simp only [exec, execEgressByte] at h
  (repeat' split at h) <;> cases h <;> simp

theorem done_keeps {s t : State} (h : exec (.done) s = .next t) :
    t.t = s.t ∧ t.powered = s.powered ∧ t.cold = s.cold ∧ t.pins = s.pins ∧ t.cfg = s.cfg ∧ t.grid = s.grid
      ∧ t.ctxs = s.ctxs ∧ t.share = s.share ∧ t.pace = s.pace ∧ t.feed = s.feed ∧ t.loader = s.loader
      ∧ t.link = s.link ∧ t.fresh = s.fresh ∧ t.pending = s.pending := by
  simp only [exec, execDone] at h
  (repeat' split at h) <;> cases h <;> simp

theorem egressStall_keeps {s t : State} (h : exec (.egressStall) s = .next t) :
    t.t = s.t ∧ t.powered = s.powered ∧ t.cold = s.cold ∧ t.pins = s.pins ∧ t.cfg = s.cfg ∧ t.grid = s.grid
      ∧ t.share = s.share ∧ t.pace = s.pace ∧ t.feed = s.feed ∧ t.loader = s.loader ∧ t.fresh = s.fresh
      ∧ t.pending = s.pending := by
  simp only [exec, execEgressStall] at h
  (repeat' split at h) <;> cases h <;> simp

theorem linkChange_keeps {s t : State} {up : Bool} (h : exec (.linkChange up) s = .next t) :
    t.t = s.t ∧ t.powered = s.powered ∧ t.cold = s.cold ∧ t.cfg = s.cfg ∧ t.grid = s.grid ∧ t.ctxs = s.ctxs
      ∧ t.share = s.share ∧ t.pace = s.pace ∧ t.feed = s.feed ∧ t.store = s.store ∧ t.loader = s.loader
      ∧ t.fresh = s.fresh ∧ t.pending = s.pending := by
  simp only [exec, execLinkChange] at h
  (repeat' split at h) <;> cases h <;> simp

theorem offerPresented_keeps {s t : State} {n : Stream} {l : BitVec 16} {f : Bool} {d : List Byte} (h : exec (.offerPresented n l f d) s = .next t) :
    t.t = s.t ∧ t.powered = s.powered ∧ t.cold = s.cold ∧ t.pins = s.pins ∧ t.cfg = s.cfg ∧ t.grid = s.grid
      ∧ t.ctxs = s.ctxs ∧ t.egress = s.egress ∧ t.share = s.share ∧ t.pace = s.pace ∧ t.store = s.store
      ∧ t.loader = s.loader ∧ t.link = s.link ∧ t.fresh = s.fresh ∧ t.pending = s.pending := by
  simp only [exec, execOfferPresented] at h
  (repeat' split at h) <;> cases h <;> simp

theorem intakeSelection_keeps {s t : State} (h : exec (.intakeSelection) s = .next t) :
    t.t = s.t ∧ t.powered = s.powered ∧ t.cold = s.cold ∧ t.pins = s.pins ∧ t.cfg = s.cfg ∧ t.grid = s.grid
      ∧ t.egress = s.egress ∧ t.share = s.share ∧ t.pace = s.pace ∧ t.loader = s.loader ∧ t.fresh = s.fresh
      ∧ t.pending = s.pending := by
  simp only [exec, execIntakeSelection] at h
  (repeat' split at h) <;> cases h <;> simp

theorem writeComplete_keeps {s t : State} (h : exec (.writeComplete) s = .next t) :
    t.t = s.t ∧ t.powered = s.powered ∧ t.cold = s.cold ∧ t.pins = s.pins ∧ t.cfg = s.cfg ∧ t.grid = s.grid
      ∧ t.egress = s.egress ∧ t.share = s.share ∧ t.pace = s.pace ∧ t.loader = s.loader ∧ t.link = s.link
      ∧ t.fresh = s.fresh ∧ t.pending = s.pending := by
  simp only [exec, execWriteComplete] at h
  (repeat' split at h) <;> cases h <;> simp

theorem feedWithdrawn_keeps {s t : State} {n : Stream} (h : exec (.feedWithdrawn n) s = .next t) :
    t.t = s.t ∧ t.powered = s.powered ∧ t.cold = s.cold ∧ t.pins = s.pins ∧ t.cfg = s.cfg ∧ t.grid = s.grid
      ∧ t.ctxs = s.ctxs ∧ t.egress = s.egress ∧ t.share = s.share ∧ t.pace = s.pace ∧ t.loader = s.loader
      ∧ t.fresh = s.fresh ∧ t.pending = s.pending := by
  simp only [exec, execFeedWithdrawn] at h
  cases h
  simp

theorem noticeDue_keeps {s t : State} (h : exec (.noticeDue) s = .next t) :
    t.t = s.t ∧ t.powered = s.powered ∧ t.cold = s.cold ∧ t.pins = s.pins ∧ t.cfg = s.cfg ∧ t.grid = s.grid
      ∧ t.ctxs = s.ctxs ∧ t.egress = s.egress ∧ t.share = s.share ∧ t.feed = s.feed ∧ t.store = s.store
      ∧ t.loader = s.loader ∧ t.link = s.link ∧ t.fresh = s.fresh ∧ t.pending = s.pending := by
  simp only [exec, execNoticeDue] at h
  (repeat' split at h) <;> cases h <;> simp

theorem noticeStart_keeps {s t : State} (h : exec (.noticeStart) s = .next t) :
    t.t = s.t ∧ t.powered = s.powered ∧ t.cold = s.cold ∧ t.pins = s.pins ∧ t.cfg = s.cfg ∧ t.grid = s.grid
      ∧ t.ctxs = s.ctxs ∧ t.egress = s.egress ∧ t.share = s.share ∧ t.feed = s.feed ∧ t.store = s.store
      ∧ t.loader = s.loader ∧ t.link = s.link ∧ t.fresh = s.fresh ∧ t.pending = s.pending := by
  simp only [exec, execNoticeStart] at h
  (repeat' split at h) <;> cases h <;> simp

theorem arbitrationLost_keeps {s t : State} (h : exec (.arbitrationLost) s = .next t) :
    t.t = s.t ∧ t.powered = s.powered ∧ t.cold = s.cold ∧ t.pins = s.pins ∧ t.cfg = s.cfg ∧ t.grid = s.grid
      ∧ t.ctxs = s.ctxs ∧ t.egress = s.egress ∧ t.share = s.share ∧ t.feed = s.feed ∧ t.store = s.store
      ∧ t.loader = s.loader ∧ t.fresh = s.fresh ∧ t.pending = s.pending := by
  simp only [exec, execArbitrationLost] at h
  (repeat' split at h) <;> cases h <;> simp

theorem noticeBiterr_keeps {s t : State} (h : exec (.noticeBiterr) s = .next t) :
    t.t = s.t ∧ t.powered = s.powered ∧ t.cold = s.cold ∧ t.pins = s.pins ∧ t.cfg = s.cfg ∧ t.grid = s.grid
      ∧ t.ctxs = s.ctxs ∧ t.egress = s.egress ∧ t.share = s.share ∧ t.feed = s.feed ∧ t.store = s.store
      ∧ t.loader = s.loader ∧ t.fresh = s.fresh ∧ t.pending = s.pending := by
  simp only [exec, execNoticeBiterr] at h
  (repeat' split at h) <;> cases h <;> simp

theorem noticeComplete_keeps {s t : State} (h : exec (.noticeComplete) s = .next t) :
    t.t = s.t ∧ t.powered = s.powered ∧ t.cold = s.cold ∧ t.pins = s.pins ∧ t.cfg = s.cfg ∧ t.grid = s.grid
      ∧ t.ctxs = s.ctxs ∧ t.egress = s.egress ∧ t.feed = s.feed ∧ t.store = s.store ∧ t.loader = s.loader
      ∧ t.pending = s.pending := by
  simp only [exec, execNoticeComplete] at h
  (repeat' split at h) <;> cases h <;> simp

theorem noticeFraming_keeps {s t : State} (h : exec (.noticeFraming) s = .next t) :
    t.t = s.t ∧ t.powered = s.powered ∧ t.cold = s.cold ∧ t.pins = s.pins ∧ t.cfg = s.cfg ∧ t.grid = s.grid
      ∧ t.ctxs = s.ctxs ∧ t.egress = s.egress ∧ t.share = s.share ∧ t.feed = s.feed ∧ t.store = s.store
      ∧ t.loader = s.loader ∧ t.fresh = s.fresh ∧ t.pending = s.pending := by
  simp only [exec, execNoticeFraming] at h
  (repeat' split at h) <;> cases h <;> simp

theorem receiveSettled_keeps {s t : State} (h : exec (.receiveSettled) s = .next t) :
    t.t = s.t ∧ t.powered = s.powered ∧ t.cold = s.cold ∧ t.pins = s.pins ∧ t.cfg = s.cfg ∧ t.grid = s.grid
      ∧ t.ctxs = s.ctxs ∧ t.egress = s.egress ∧ t.share = s.share ∧ t.feed = s.feed ∧ t.store = s.store
      ∧ t.loader = s.loader ∧ t.link = s.link ∧ t.fresh = s.fresh ∧ t.pending = s.pending := by
  simp only [exec, execReceiveSettled] at h
  (repeat' split at h) <;> cases h <;> simp

theorem busStuck_keeps {s t : State} (h : exec (.busStuck) s = .next t) :
    t.t = s.t ∧ t.powered = s.powered ∧ t.cold = s.cold ∧ t.pins = s.pins ∧ t.cfg = s.cfg ∧ t.grid = s.grid
      ∧ t.ctxs = s.ctxs ∧ t.egress = s.egress ∧ t.share = s.share ∧ t.feed = s.feed ∧ t.store = s.store
      ∧ t.loader = s.loader ∧ t.fresh = s.fresh ∧ t.pending = s.pending := by
  simp only [exec, execBusStuck] at h
  (repeat' split at h) <;> cases h <;> simp

theorem busRestored_keeps {s t : State} (h : exec (.busRestored) s = .next t) :
    t.t = s.t ∧ t.powered = s.powered ∧ t.cold = s.cold ∧ t.pins = s.pins ∧ t.cfg = s.cfg ∧ t.grid = s.grid
      ∧ t.ctxs = s.ctxs ∧ t.egress = s.egress ∧ t.share = s.share ∧ t.feed = s.feed ∧ t.store = s.store
      ∧ t.loader = s.loader ∧ t.fresh = s.fresh ∧ t.pending = s.pending := by
  simp only [exec, execBusRestored] at h
  (repeat' split at h) <;> cases h <;> simp

theorem requestByte_keeps {s t : State} {b : Byte} (h : exec (.requestByte b) s = .next t) :
    t.t = s.t ∧ t.powered = s.powered ∧ t.cold = s.cold ∧ t.pins = s.pins ∧ t.share = s.share ∧ t.feed = s.feed
      ∧ t.fresh = s.fresh ∧ t.pending = s.pending := by
  simp only [exec, execRequestByte] at h
  (repeat' split at h) <;> cases h <;> simp

theorem lineError_keeps {s t : State} (h : exec (.lineError) s = .next t) :
    t.t = s.t ∧ t.powered = s.powered ∧ t.cold = s.cold ∧ t.pins = s.pins ∧ t.cfg = s.cfg ∧ t.grid = s.grid
      ∧ t.ctxs = s.ctxs ∧ t.egress = s.egress ∧ t.share = s.share ∧ t.pace = s.pace ∧ t.feed = s.feed
      ∧ t.store = s.store ∧ t.loader = s.loader ∧ t.fresh = s.fresh ∧ t.pending = s.pending := by
  simp only [exec, execLineError] at h
  (repeat' split at h) <;> cases h <;> simp

theorem responseComplete_keeps {s t : State} (h : exec (.responseComplete) s = .next t) :
    t.t = s.t ∧ t.powered = s.powered ∧ t.cold = s.cold ∧ t.pins = s.pins ∧ t.cfg = s.cfg ∧ t.grid = s.grid
      ∧ t.ctxs = s.ctxs ∧ t.share = s.share ∧ t.pace = s.pace ∧ t.feed = s.feed ∧ t.loader = s.loader
      ∧ t.fresh = s.fresh ∧ t.pending = s.pending := by
  simp only [exec, execResponseComplete] at h
  (repeat' split at h) <;> cases h <;> simp

theorem discardEnd_keeps {s t : State} (h : exec (.discardEnd) s = .next t) :
    t.t = s.t ∧ t.powered = s.powered ∧ t.cold = s.cold ∧ t.pins = s.pins ∧ t.cfg = s.cfg ∧ t.grid = s.grid
      ∧ t.ctxs = s.ctxs ∧ t.egress = s.egress ∧ t.share = s.share ∧ t.pace = s.pace ∧ t.feed = s.feed
      ∧ t.store = s.store ∧ t.loader = s.loader ∧ t.fresh = s.fresh ∧ t.pending = s.pending := by
  simp only [exec, execDiscardEnd] at h
  (repeat' split at h) <;> cases h <;> simp

theorem requestExpired_keeps {s t : State} (h : exec (.requestExpired) s = .next t) :
    t.t = s.t ∧ t.powered = s.powered ∧ t.cold = s.cold ∧ t.pins = s.pins ∧ t.cfg = s.cfg ∧ t.grid = s.grid
      ∧ t.ctxs = s.ctxs ∧ t.egress = s.egress ∧ t.share = s.share ∧ t.pace = s.pace ∧ t.feed = s.feed
      ∧ t.store = s.store ∧ t.loader = s.loader ∧ t.fresh = s.fresh ∧ t.pending = s.pending := by
  simp only [exec, execRequestExpired] at h
  (repeat' split at h) <;> cases h <;> simp

theorem startMarkEdge_keeps {s t : State} (h : exec (.startMarkEdge) s = .next t) :
    t.t = s.t ∧ t.powered = s.powered ∧ t.cold = s.cold ∧ t.pins = s.pins ∧ t.cfg = s.cfg ∧ t.grid = s.grid
      ∧ t.ctxs = s.ctxs ∧ t.egress = s.egress ∧ t.share = s.share ∧ t.feed = s.feed ∧ t.store = s.store
      ∧ t.loader = s.loader ∧ t.link = s.link ∧ t.fresh = s.fresh ∧ t.pending = s.pending := by
  simp only [exec, execStartMarkEdge] at h
  (repeat' split at h) <;> cases h <;> simp

theorem dataBitSampled_keeps {s t : State} (h : exec (.dataBitSampled) s = .next t) :
    t.t = s.t ∧ t.powered = s.powered ∧ t.cold = s.cold ∧ t.pins = s.pins ∧ t.cfg = s.cfg ∧ t.grid = s.grid
      ∧ t.ctxs = s.ctxs ∧ t.egress = s.egress ∧ t.share = s.share ∧ t.feed = s.feed ∧ t.store = s.store
      ∧ t.loader = s.loader ∧ t.link = s.link ∧ t.fresh = s.fresh ∧ t.pending = s.pending := by
  simp only [exec, execDataBitSampled] at h
  (repeat' split at h) <;> cases h <;> simp

theorem refSampled_keeps {s t : State} {b : Bool} (h : exec (.refSampled b) s = .next t) :
    t.t = s.t ∧ t.powered = s.powered ∧ t.cold = s.cold ∧ t.pins = s.pins ∧ t.cfg = s.cfg ∧ t.feed = s.feed
      ∧ t.loader = s.loader ∧ t.pending = s.pending := by
  simp only [exec, execRefSampled] at h
  (repeat' split at h) <;> cases h <;> simp

theorem offerDeasserted_keeps {s t : State} {n : Stream} (h : exec (.offerDeasserted n) s = .next t) :
    t.t = s.t ∧ t.powered = s.powered ∧ t.cold = s.cold ∧ t.pins = s.pins ∧ t.cfg = s.cfg ∧ t.grid = s.grid
      ∧ t.ctxs = s.ctxs ∧ t.egress = s.egress ∧ t.share = s.share ∧ t.pace = s.pace ∧ t.loader = s.loader
      ∧ t.fresh = s.fresh ∧ t.pending = s.pending := by
  simp only [exec, execOfferDeasserted] at h
  cases h
  simp

theorem powerRemoved_keeps {s t : State} (h : exec (.powerRemoved) s = .next t) :
    t.t = s.t ∧ t.cold = s.cold ∧ t.pins = s.pins ∧ t.cfg = s.cfg ∧ t.grid = s.grid ∧ t.ctxs = s.ctxs
      ∧ t.share = s.share ∧ t.pace = s.pace ∧ t.store = s.store ∧ t.loader = s.loader ∧ t.link = s.link
      ∧ t.fresh = s.fresh ∧ t.pending = s.pending := by
  simp only [exec, execPowerRemoved] at h
  (repeat' split at h) <;> cases h <;> simp

end Sys2Proof.Machine
end

