-- ==== Sys2Proof/Laws/Epochs.lean ====
section
/-! SUPPORT. What the deliveries of an epoch do to each block, in whatever order they are made (R6, R7). -/

namespace Sys2Proof.Machine

open Sys2Proof

/-! ### What an epoch's deliveries keep -/

/-- From `s` to `t` the egress blocks keep all but the trim set, the store all but its free list and retired set, the
maintenance link all but its queue and overflow flag. -/
def EpochKeeps (s t : State) : Prop :=
  t.egress = { s.egress with trim := t.egress.trim }
    ∧ t.store = { s.store with free := t.store.free, retired := t.store.retired }
    ∧ t.link = { s.link with queue := t.link.queue, overflow := t.link.overflow }

theorem EpochKeeps.refl (s : State) : EpochKeeps s s := ⟨rfl, rfl, rfl⟩

theorem EpochKeeps.trans {s t u : State} (h1 : EpochKeeps s t) (h2 : EpochKeeps t u) : EpochKeeps s u := by
  obtain ⟨a, b, c⟩ := h1
  obtain ⟨d, e, f⟩ := h2
  exact ⟨by rw [d, a], by rw [e, b], by rw [f, c]⟩

theorem EpochKeeps.of_eq {s t : State} (h1 : t.egress = s.egress) (h2 : t.store = s.store) (h3 : t.link = s.link) :
    EpochKeeps s t := by
  refine ⟨?_, ?_, ?_⟩ <;> simp [*]

theorem epochKeeps_raise (s : State) (c : EventCode) (a b : Nat) : EpochKeeps s (s.raise c a b) :=
  ⟨by simp, by simp, by rw [raise_link]⟩

theorem epochKeeps_raiseAll (s : State) (es : List Raised) : EpochKeeps s (s.raiseAll es) :=
  ⟨by simp, by simp, raiseAll_link s es⟩

theorem epochKeeps_trimWork (s : State) (n : Stream) (cut : List Record) : EpochKeeps s (s.trimWork n cut) := by
  refine EpochKeeps.trans (t := { s with
    store := cut.foldl (fun st r => st.freeChain r.first) s.store,
    egress := { s.egress with trim := setBit s.egress.trim n } }) ?_ (epochKeeps_raise ..)
  obtain ⟨h1, h2, h3, h4, _⟩ := foldl_freeChain cut s.store
  refine ⟨rfl, ?_, rfl⟩
  simp only []
  rw [← h1, ← h2, ← h3, ← h4]

theorem epochKeeps_streamEpoch (s : State) (n : Stream) (e : Time) : EpochKeeps s (s.streamEpoch n e) := by
  unfold State.streamEpoch
  simp only []
  (repeat' split) <;> first
    | exact .refl _
    | exact (EpochKeeps.of_eq (by simp) (by simp) (by simp)).trans (epochKeeps_trimWork ..)
    | exact (EpochKeeps.of_eq (by simp) (by simp) (by simp)).trans (epochKeeps_raise ..)

theorem epochKeeps_shareEpoch (s : State) : EpochKeeps s s.shareEpoch := by
  unfold State.shareEpoch
  split
  · exact .refl _
  · refine EpochKeeps.trans ?_ (.of_eq (stageAll_egress ..) (stageAll_store ..) (stageAll_link ..))
    refine EpochKeeps.trans ?_ (.of_eq (chosen_egress ..) (chosen_store ..) (chosen_link ..))
    exact (EpochKeeps.of_eq rfl rfl rfl).trans (epochKeeps_raiseAll ..)

theorem epochKeeps_paceEpoch (s : State) (e : Time) : EpochKeeps s (s.paceEpoch e) := by
  unfold State.paceEpoch
  split
  · exact (EpochKeeps.of_eq rfl rfl rfl).trans (epochKeeps_raiseAll ..)
  · exact .refl _

theorem epochKeeps_deliver (s : State) (e : Time) (d : Delivery) : EpochKeeps s (s.deliver e d) := by
  cases d with
  | stream n => exact epochKeeps_streamEpoch ..
  | share => exact epochKeeps_shareEpoch ..
  | pace => exact epochKeeps_paceEpoch ..
  | event r => exact epochKeeps_raise ..

theorem epochKeeps_deliverAll (s : State) (e : Time) (ds : List Delivery) : EpochKeeps s (s.deliverAll e ds) := by
  unfold State.deliverAll
  induction ds generalizing s with
  | nil => exact .refl _
  | cons d ds ih => exact (epochKeeps_deliver s e d).trans (ih _)

/-! ### Events among the deliveries -/

/-- An event among the deliveries is shown after them. -/
theorem shows_deliverAll (s : State) (e : Time) (ds : List Delivery) (r : Raised) (h : Delivery.event r ∈ ds) :
    Shows s (s.deliverAll e ds) r.code r.subject r.detail := by
  induction ds generalizing s with
  | nil => cases h
  | cons d ds ih =>
    rw [deliverAll_cons]
    rcases List.mem_cons.mp h with rfl | h
    · exact (shows_raise s r.code r.subject r.detail).grows (raise_t ..) (grows_deliverAll _ e ds)
    · exact (ih _ h).after (grows_deliver ..)

/-- A frame epoch taken: the grid's own work, what the deliveries keep, and the grid's events shown (R5, R6). -/
theorem takeFrameEpoch_facts (s : State) (es : List Raised) :
    (s.takeFrameEpoch es).grid = (s.grid.takeEpoch s.cfg).1 ∧ EpochKeeps s (s.takeFrameEpoch es)
      ∧ ∀ r ∈ holdoverEvents (s.grid.takeEpoch s.cfg).2 ++ es,
          Shows s (s.takeFrameEpoch es) r.code r.subject r.detail := by
  refine ⟨?_, ?_, ?_⟩
  · simp [State.takeFrameEpoch]
  · exact (EpochKeeps.of_eq rfl rfl rfl).trans (epochKeeps_deliverAll ..)
  · intro r hr
    have hm : Delivery.event r ∈ s.order (frameDeliveries (holdoverEvents (s.grid.takeEpoch s.cfg).2 ++ es)) := by
      rw [(order_perm s _).mem_iff]
      simp only [frameDeliveries, List.mem_cons, List.mem_append, List.mem_map]
      exact .inr (.inr (.inr ⟨r, by simpa using hr, rfl⟩))
    exact (shows_deliverAll (State.chosen { s with grid := (s.grid.takeEpoch s.cfg).1 } _) s.grid.eNext _ r hm).after
      (.of_link rfl rfl)

/-! ### One context through the deliveries -/

@[simp] theorem ctx_raiseAll (s : State) (es : List Raised) (n : Stream) : (s.raiseAll es).ctx n = s.ctx n := by
  simp [State.ctx]

@[simp] theorem ctx_trimWork (s : State) (m : Stream) (cut : List Record) (n : Stream) :
    (s.trimWork m cut).ctx n = s.ctx n := by
  simp [State.ctx]

@[simp] theorem ctx_paceEpoch (s : State) (e : Time) (n : Stream) : (s.paceEpoch e).ctx n = s.ctx n := by
  simp [State.ctx]

/-- What a stream epoch makes of a context (R30); nothing of a disabled one. -/
def epochCtx (e : Time) (c : Context) : Context :=
  match c.cfg with
  | none => c
  | some cfg => c.atEpoch cfg e

/-- A stream epoch of one stream leaves the other contexts. -/
theorem ctx_streamEpoch_ne (s : State) (m n : Stream) (e : Time) (h : n ≠ m) :
    (s.streamEpoch m e).ctx n = s.ctx n := by
  unfold State.streamEpoch
  simp only []
  (repeat' split) <;> simp [h]

/-- A stream epoch acts on its own context by R30. -/
theorem ctx_streamEpoch_self (s : State) (n : Stream) (e : Time) :
    (s.streamEpoch n e).ctx n = epochCtx e (s.ctx n) := by
  unfold State.streamEpoch epochCtx
  simp only []
  cases hc : (s.ctx n).cfg with
  | none => rfl
  | some cfg =>
    simp only []
    (repeat' split) <;> simp

/-- Deliveries that are neither the stream's own nor the Share Computer's leave its context. -/
theorem ctx_deliverAll_other (e : Time) (n : Stream) (ds : List Delivery) (s : State) (h1 : Delivery.stream n ∉ ds)
    (h2 : Delivery.share ∉ ds) : (s.deliverAll e ds).ctx n = s.ctx n := by
  induction ds generalizing s with
  | nil => rfl
  | cons d ds ih =>
    rw [deliverAll_cons, ih _ (by simp_all) (by simp_all)]
    cases d with
    | stream m => exact ctx_streamEpoch_ne _ _ _ _ (by rintro rfl; simp at h1)
    | share => simp at h2
    | pace => exact ctx_paceEpoch ..
    | event r => exact ctx_raise ..

theorem stage_cfg (c : Context) (k : Nat) : (c.stage k).cfg = c.cfg := by
  unfold Context.stage
  (repeat' split) <;> simp_all

theorem atEpoch_cfg (c : Context) (cfg : StreamCfg) (e : Time) : (c.atEpoch cfg e).cfg = c.cfg := by
  unfold Context.atEpoch Context.overrun Context.trimmed Context.countIdle startFrame
  simp only []
  (repeat' split) <;> rfl

/-! ### The Share Computer and the Pace Bus Interface through the deliveries -/

theorem share_deliver (s : State) (e : Time) (d : Delivery) (h : d ≠ .share) : (s.deliver e d).share = s.share := by
  cases d <;> simp_all [State.deliver]

theorem pace_deliver (s : State) (e : Time) (d : Delivery) (h : d ≠ .pace) : (s.deliver e d).pace = s.pace := by
  cases d <;> simp_all [State.deliver]

theorem share_deliverAll (s : State) (e : Time) (ds : List Delivery) (h : Delivery.share ∉ ds) :
    (s.deliverAll e ds).share = s.share := by
  induction ds generalizing s with
  | nil => rfl
  | cons d ds ih => rw [deliverAll_cons, ih _ (by simp_all), share_deliver _ _ _ (by rintro rfl; simp at h)]

theorem pace_deliverAll (s : State) (e : Time) (ds : List Delivery) (h : Delivery.pace ∉ ds) :
    (s.deliverAll e ds).pace = s.pace := by
  induction ds generalizing s with
  | nil => rfl
  | cons d ds ih => rw [deliverAll_cons, ih _ (by simp_all), pace_deliver _ _ _ (by rintro rfl; simp at h)]

theorem bus_deliver (s : State) (e : Time) (d : Delivery) : (s.deliver e d).pace.bus = s.pace.bus := by
  cases d with
  | pace =>
    change (s.paceEpoch e).pace.bus = s.pace.bus
    unfold State.paceEpoch
    split <;> simp
  | stream n => rw [pace_deliver _ _ _ (by simp)]
  | share => rw [pace_deliver _ _ _ (by simp)]
  | event r => rw [pace_deliver _ _ _ (by simp)]

theorem bus_deliverAll (s : State) (e : Time) (ds : List Delivery) : (s.deliverAll e ds).pace.bus = s.pace.bus := by
  induction ds generalizing s with
  | nil => rfl
  | cons d ds ih => rw [deliverAll_cons, ih, bus_deliver]

/-- The Share Computer's work at a frame epoch while the bus is not STUCK: the entries aged, and the new factor staged
into every context (R95, R96, R102). -/
theorem shareEpoch_facts (s : State) (h : s.pace.bus ≠ .stuck) :
    s.shareEpoch.share.peers = s.share.peers.filterMap agePeer
      ∧ ∀ n, s.shareEpoch.ctx n = (s.ctx n).stage s.shareEpoch.share.k := by
  unfold State.shareEpoch
  rw [if_neg h]
  simp only []
  refine ⟨by simp, fun n => ?_⟩
  rw [ctx_stageAll]
  simp
  rfl

/-! ### The order of the deliveries -/

/-- A list without repeats splits at each of its elements. -/
theorem split_at {α : Type} {l : List α} {x : α} (h : x ∈ l) (hn : l.Nodup) :
    ∃ a b, l = a ++ x :: b ∧ x ∉ a ∧ x ∉ b := by
  obtain ⟨a, b, rfl⟩ := List.append_of_mem h
  have := List.nodup_append.mp hn
  exact ⟨a, b, rfl, fun hx => this.2.2 x hx x (by simp) rfl, (List.nodup_cons.mp this.2.1).1⟩

theorem deliverAll_append (s : State) (e : Time) (a b : List Delivery) :
    s.deliverAll e (a ++ b) = (s.deliverAll e a).deliverAll e b := by
  simp [State.deliverAll]

/-- Deliveries that reach a stream once, and not the Share Computer, make its stream epoch. -/
theorem ctx_deliverAll_once (e : Time) (n : Stream) (ds : List Delivery) (s : State) (hn : ds.Nodup)
    (hs : Delivery.stream n ∈ ds) (hsh : Delivery.share ∉ ds) :
    (s.deliverAll e ds).ctx n = epochCtx e (s.ctx n) := by
  obtain ⟨a, b, rfl, ha, hb⟩ := split_at hs hn
  rw [deliverAll_append, deliverAll_cons, ctx_deliverAll_other _ _ _ _ hb (by simp_all)]
  rw [show State.deliver e (State.deliverAll e s a) (.stream n) = (State.deliverAll e s a).streamEpoch n e from rfl,
    ctx_streamEpoch_self, ctx_deliverAll_other _ _ _ _ ha (by simp_all)]

/-- A context after deliveries that reach the stream and the Share Computer once each: the stream epoch before or after
the staging, or the stream epoch alone while the bus is STUCK (R29, R97, R102). -/
theorem ctx_deliverAll_frame (s : State) (e : Time) (ds : List Delivery) (n : Stream) (hn : ds.Nodup)
    (hs : Delivery.stream n ∈ ds) (hsh : Delivery.share ∈ ds) :
    (s.pace.bus = .stuck →
        (s.deliverAll e ds).ctx n = epochCtx e (s.ctx n) ∧ (s.deliverAll e ds).share = s.share)
      ∧ (s.pace.bus ≠ .stuck →
        (s.deliverAll e ds).share.peers = s.share.peers.filterMap agePeer
          ∧ ((s.deliverAll e ds).ctx n = epochCtx e ((s.ctx n).stage (s.deliverAll e ds).share.k)
            ∨ (s.deliverAll e ds).ctx n = (epochCtx e (s.ctx n)).stage (s.deliverAll e ds).share.k)) := by
  obtain ⟨a, b, rfl, ha, hb⟩ := split_at hsh hn
  have hnd := List.nodup_append.mp hn
  have hab : s.deliverAll e (a ++ Delivery.share :: b) = ((s.deliverAll e a).shareEpoch).deliverAll e b := by
    rw [deliverAll_append, deliverAll_cons]
    rfl
  rw [hab, share_deliverAll _ _ _ hb]
  have hbus : (s.deliverAll e a).pace.bus = s.pace.bus := bus_deliverAll ..
  have hshare : (s.deliverAll e a).share = s.share := share_deliverAll _ _ _ ha
  have hcase : (∀ v : State, (v.deliverAll e a).ctx n = epochCtx e (v.ctx n) ∧ (v.deliverAll e b).ctx n = v.ctx n)
      ∨ ∀ v : State, (v.deliverAll e a).ctx n = v.ctx n ∧ (v.deliverAll e b).ctx n = epochCtx e (v.ctx n) := by
    rcases List.mem_append.mp hs with h | h
    · have hnb : Delivery.stream n ∉ b := fun hx => hnd.2.2 _ h _ (List.mem_cons_of_mem _ hx) rfl
      exact .inl fun v => ⟨ctx_deliverAll_once e n a v hnd.1 h ha, ctx_deliverAll_other e n b v hnb hb⟩
    · have h : Delivery.stream n ∈ b := by simpa using h
      have hna : Delivery.stream n ∉ a := fun hx => hnd.2.2 _ hx _ (List.mem_cons_of_mem _ h) rfl
      exact .inr fun v =>
        ⟨ctx_deliverAll_other e n a v hna ha, ctx_deliverAll_once e n b v (List.nodup_cons.mp hnd.2.1).2 h hb⟩
  constructor
  · intro hst
    have : (s.deliverAll e a).shareEpoch = s.deliverAll e a := by
      unfold State.shareEpoch
      rw [if_pos (hbus.trans hst)]
    rw [this]
    refine ⟨?_, hshare⟩
    rcases hcase with h | h
    · rw [(h _).2, (h _).1]
    · rw [(h _).2, (h _).1]
  · intro hst
    obtain ⟨hp, hc⟩ := shareEpoch_facts (s.deliverAll e a) (by rw [hbus]; exact hst)
    refine ⟨by rw [hp, hshare], ?_⟩
    rcases hcase with h | h
    · exact .inr (by rw [(h _).2, hc, (h _).1])
    · exact .inl (by rw [(h _).2, hc, (h _).1])

/-! ### The events of an epoch -/

/-- The event that a stream epoch raises for the stream, by its context (R34, R35, R55, R58). -/
def streamEvents (n : Stream) (c : Context) : List Raised :=
  match c.cfg with
  | none => []
  | some cfg =>
    if c.trimsAt cfg then [⟨.overrunTrim, n.val, (cutFrame c.ring).1.length⟩]
    else if c.owesAt cfg then [⟨.overrunFinish, n.val, c.iNext⟩] else []

/-- The events that a delivery other than the Share Computer's raises, by the state it finds (R6). -/
def deliveryEvents (s : State) : Delivery → List Raised
  | .stream n => streamEvents n (s.ctx n)
  | .share => []
  | .pace => if s.pace.bus = .normal then (settleNotice s.cfg.stationId s.pace.cur s.pace.old).2 else []
  | .event r => [r]

/-- A stream epoch raises what its stream's context calls for (R30). -/
theorem raises_streamEpoch (s : State) (n : Stream) (e : Time) :
    Raises s (s.streamEpoch n e) (streamEvents n (s.ctx n)) := by
  unfold State.streamEpoch streamEvents
  cases hc : (s.ctx n).cfg with
  | none => simp only [hc]; exact .none rfl rfl
  | some cfg =>
    simp only [hc]
    by_cases h1 : (s.ctx n).trimsAt cfg = true
    · rw [if_pos h1, if_pos h1]
      exact Raises.of_same (raises_raise { s.setCtx n ((s.ctx n).atEpoch cfg e) with
          store := (cutFrame (s.ctx n).ring).1.foldl (fun st r => st.freeChain r.first) s.store
          egress := { s.egress with trim := setBit s.egress.trim n } } .overrunTrim n.val _) rfl rfl rfl
    · rw [if_neg h1, if_neg h1]
      by_cases h2 : (s.ctx n).owesAt cfg = true
      · rw [if_pos h2, if_pos h2]
        exact Raises.of_same (raises_raise (s.setCtx n ((s.ctx n).atEpoch cfg e)) .overrunFinish n.val _) rfl rfl rfl
      · rw [if_neg h2, if_neg h2]
        exact .none rfl rfl

/-- The Pace Bus Interface raises what settling its record calls for (R122). -/
theorem raises_paceEpoch (s : State) (e : Time) : Raises s (s.paceEpoch e) (deliveryEvents s .pace) := by
  unfold State.paceEpoch deliveryEvents
  split
  · exact Raises.of_same (raises_raiseAll { s with pace := { s.pace with
      cur := some (newNotice s.cfg s.t e s.grid.k), old := (settleNotice s.cfg.stationId s.pace.cur s.pace.old).1 } } _)
      rfl rfl rfl
  · exact .none rfl rfl

/-- The Share Computer raises its losses and its change of OVERCOMMIT, in either order, and nothing while the bus is
STUCK (R96, R97, R101, R107). -/
theorem raises_shareEpoch (s : State) :
    let ps := s.share.peers.filterMap agePeer
    let r := shareFactor s.cfg.budget (s.fTotal ps) (s.xTotal ps)
    Raises s s.shareEpoch (if s.pace.bus = .stuck then []
      else s.order (lostEvents s.share.peers ++ overcommitEvents s.share.overcommit r.2.1 r.2.2 r.1)) := by
  intro ps r
  unfold State.shareEpoch
  split
  · exact .none rfl rfl
  · refine (raises_raiseAll { s with share := { peers := ps, k := r.1, overcommit := r.2.1 } } _).congr rfl rfl rfl ?_ ?_
    · rw [stageAll_link]; rfl
    · rw [stageAll_link]; rfl

/-- The events of a context do not turn on the staged factor. -/
theorem streamEvents_stage (n : Stream) (c : Context) (k : Nat) : streamEvents n (c.stage k) = streamEvents n c := by
  unfold Context.stage
  (repeat' split) <;> rfl

/-- A delivery does not change the events of another. -/
theorem deliveryEvents_deliver (s : State) (e : Time) (d d' : Delivery) (h : d' ≠ d) :
    deliveryEvents (s.deliver e d) d' = deliveryEvents s d' := by
  cases d' with
  | stream n =>
    simp only [deliveryEvents]
    cases d with
    | stream m => exact congrArg _ (ctx_streamEpoch_ne _ _ _ _ (by rintro rfl; exact h rfl))
    | share =>
      simp only [State.deliver]
      by_cases hb : s.pace.bus = .stuck
      · unfold State.shareEpoch; rw [if_pos hb]
      · rw [(shareEpoch_facts s hb).2, streamEvents_stage]
    | pace => exact congrArg _ (ctx_paceEpoch ..)
    | event r => exact congrArg _ (ctx_raise ..)
  | share => rfl
  | pace =>
    simp only [deliveryEvents]
    rw [pace_deliver _ _ _ (by rintro rfl; exact h rfl), deliver_cfg]
  | event r => rfl

/-- Deliveries that reach each stream and the Pace Bus Interface at most once, the Share Computer's not among them, raise
the events of each, in their order. -/
theorem raises_deliverAll (s : State) (e : Time) (ds : List Delivery) (hn : ∀ n, ds.count (.stream n) ≤ 1)
    (hp : ds.count .pace ≤ 1) (hs : Delivery.share ∉ ds) :
    Raises s (s.deliverAll e ds) (ds.flatMap (deliveryEvents s)) := by
  induction ds generalizing s with
  | nil => exact .none rfl rfl
  | cons d ds ih =>
    have once : ∀ x : Delivery, (d :: ds).count x ≤ 1 → x ∈ ds → x ≠ d := by
      rintro x h hx rfl
      rw [List.count_cons_self] at h
      have := List.count_pos_iff.mpr hx
      omega
    have same : ∀ x ∈ ds, deliveryEvents (s.deliver e d) x = deliveryEvents s x := by
      intro x hx
      cases x with
      | stream n => exact deliveryEvents_deliver s e d _ (once _ (hn n) hx)
      | share => exact absurd (List.mem_cons_of_mem _ hx) hs
      | pace => exact deliveryEvents_deliver s e d _ (once _ hp hx)
      | event r => rfl
    rw [deliverAll_cons, List.flatMap_cons]
    have h2 := ih (s.deliver e d) (fun n => le_trans List.count_le_count_cons (hn n))
      (le_trans List.count_le_count_cons hp) fun h => hs (List.mem_cons_of_mem _ h)
    rw [List.flatMap_congr same] at h2
    refine Raises.trans ?_ h2 (deliver_t ..)
    cases d with
    | stream n => exact raises_streamEpoch ..
    | share => exact absurd List.mem_cons_self hs
    | pace => exact raises_paceEpoch ..
    | event r => exact raises_raise ..

end Sys2Proof.Machine
end

