-- ==== Sys2Proof/Laws/Image.lean ====
section
/-! SUPPORT. What an accepted image holds, and the contexts it enables. -/

namespace Sys2Proof.Machine

open Sys2Proof

/-- The stages that an accepted image passed (R166 to R169). -/
theorem accepted_parts {image off part rs} (h : judgeImage image off = .accepted part rs) :
   walkImage (Config.imageArea + 1) 0 image = .records rs ∧ countFault off rs = none ∧ partRecords rs = [part]
     ∧ rangeFault part rs = none := by
  unfold judgeImage at h
  split at h
  · cases h
  rename_i rs' hw
  split at h
  · split at h
    · cases h
    rename_i hc
    split at h
    · cases h
    rename_i p ps hp
    split at h
    · cases h
    rename_i hr
    cases h
    refine ⟨hw, hc, ?_, hr⟩
    unfold countFault at hc
    rw [hp] at hc
    cases ps with
    | nil => exact hp
    | cons q qs => simp at hc
  · cases h

/-- The ranges that stage 4 checks (R169). -/
theorem range_parts {part rs} (h : rangeFault part rs = none) : part.length = 34 ∧ partInRange part.body = true ∧
   ∀ r ∈ streamRecords rs, r.length = 23 ∧ streamInRange (readPart part.body).qMin r.body = true := by
  unfold rangeFault at h
  split at h
  · cases h
  rename_i h1
  simp only [not_not] at h1
  simp only [] at h
  split at h
  · cases h
  rename_i h2
  refine ⟨h1.1, h1.2, ?_⟩
  intro r hr
  have := List.find?_eq_none.mp h2 r hr
  simpa using this

/-- An enabled stream has W at most W_cap and Q at least 2 (R164). -/
theorem stream_range {part rs} (h : rangeFault part rs = none) : ∀ r ∈ streamRecords rs,
   (readStream (readPart part.body).qMin r.body).w ≤ (readStream (readPart part.body).qMin r.body).wCap
     ∧ 2 ≤ (readStream (readPart part.body).qMin r.body).depth := by
  intro r hr
  have := ((range_parts h).2.2 r hr).2
  unfold streamInRange at this
  simp only [Bool.and_eq_true, decide_eq_true_eq] at this
  obtain ⟨⟨⟨⟨⟨⟨⟨⟨⟨⟨⟨_, _⟩, _⟩, _⟩, _⟩, hw⟩, _⟩, hd⟩, _⟩, _⟩, _⟩, _⟩ := this
  exact ⟨hw.2, hd.1⟩

/-- After the STREAM records a context is as before, or enabled by one of them (R170). -/
theorem enableStream_fold (q : Nat) (l : List ImageRecord) (s : State) (n : Stream) :
   (l.foldl (State.enableStream q) s).ctx n = s.ctx n
     ∨ ∃ r ∈ l, (l.foldl (State.enableStream q) s).ctx n = (s.ctx n).enable (readStream q r.body) := by
  induction l generalizing s with
  | nil => exact .inl rfl
  | cons r rs ih =>
    rw [List.foldl_cons]
    have h1 : (s.enableStream q r).ctx n = s.ctx n
      ∨ (s.enableStream q r).ctx n = (s.ctx n).enable (readStream q r.body) := by
      unfold State.enableStream
      simp only []
      by_cases h : n = Fin.ofNat 16 (streamNumber r)
      · right; rw [← h, ctx_setCtx_self]
      · left; rw [ctx_setCtx_ne _ _ h]
    rcases ih (s.enableStream q r) with h2 | ⟨r', hr', h2⟩
    · rcases h1 with h1 | h1
      · exact .inl (h2.trans h1)
      · exact .inr ⟨r, List.mem_cons_self, h2.trans h1⟩
    · right
      refine ⟨r', List.mem_cons_of_mem _ hr', ?_⟩
      rw [h2]
      rcases h1 with h1 | h1 <;> rw [h1]
      rfl

/-- After an image byte a context is as before, or enabled in range. -/
theorem loadByte_ctx (s : State) (b : Byte) (hl : s.loader.part = .load) (n : Stream) :
   (s.receiveByte b).ctx n = s.ctx n ∨ ∃ cfg, cfg.w ≤ cfg.wCap ∧ 2 ≤ cfg.depth
     ∧ (s.receiveByte b).ctx n = (s.ctx n).enable cfg := by
  unfold State.receiveByte
  simp only []; rw [if_pos hl]
  have hcx : (s.takeChar (.byte b)).ctx n = s.ctx n := by simp [State.ctx]
  rw [← hcx]
  generalize s.takeChar (.byte b) = u
  unfold State.imageByte
  simp only []
  split
  · unfold State.endLoading
    split
    · exact .inl rfl
    · rename_i part rs hj
      unfold State.enterRun
      simp only []
      rcases enableStream_fold (readPart part.body).qMin (streamRecords rs) _ n with h | ⟨r, hr, h⟩
      · left; rw [h]; rfl
      · right
        obtain ⟨a, c⟩ := stream_range (accepted_parts hj).2.2.2 r hr
        exact ⟨_, a, c, by rw [h]; rfl⟩
  · exact .inl rfl

end Sys2Proof.Machine
end

