-- ==== Sys2Proof/Laws/Continues.lean ====
section
/-! SUPPORT. How far a context can change while its stream goes on: the configuration stands, the ring does
not grow, the factors stay in range. One lemma an operation. -/

namespace Sys2Proof.Machine

open Sys2Proof

/-- A context goes on: the same configuration, no more records, its factors in range if they were. -/
structure Continues (c c' : Context) : Prop where
  cfg : c'.cfg = c.cfg
  ring : c'.ring.length ≤ c.ring.length
  fac : c.factorsWf → c'.factorsWf

theorem Continues.refl (c : Context) : Continues c c := ⟨rfl, le_rfl, id⟩

theorem Continues.trans {a b c : Context} (h : Continues a b) (g : Continues b c) :
    Continues a c := ⟨g.cfg.trans h.cfg, g.ring.trans h.ring, fun x => g.fac (h.fac x)⟩

theorem Continues.of {c c' : Context} (h1 : c'.cfg = c.cfg) (h2 : c'.ring.length ≤ c.ring.length) (h3 : c'.ks = c.ks)
    (h4 : c'.ka = c.ka) (h5 : c'.wEff = c.wEff) : Continues c c' := by
  refine ⟨h1, h2, fun h => ?_⟩
  unfold Context.factorsWf at *; rw [h1, h3, h4, h5]; exact h

theorem le_stretched (cfg : StreamCfg) (k : Nat) (h : 256 ≤ k) : cfg.w ≤ stretched cfg k := by
  unfold stretched ceilDiv
  rw [Nat.le_div_iff_mul_le (by omega)]
  have : cfg.w * 256 ≤ cfg.w * k := Nat.mul_le_mul_left _ h
  omega

theorem continues_startFrame (cfg : StreamCfg) (e : Time) (c : Context) (hc : c.cfg = some cfg) :
    Continues c (startFrame cfg e c) := by
  refine ⟨rfl, le_rfl, fun h => ?_⟩
  obtain ⟨h1, h2, h3, h4, h5⟩ := h
  refine ⟨h1, h2, h1, h2, fun cfg' hc' => ?_⟩
  obtain rfl : cfg = cfg' := by
    have : c.cfg = some cfg' := hc'
    rw [hc] at this; exact Option.some.inj this
  obtain ⟨a, b, d, f⟩ := h5 cfg hc
  have hw := le_stretched cfg c.ks h1
  refine ⟨?_, ?_, d, fun hf => ⟨(f hf).1, (f hf).1⟩⟩
  · show cfg.w ≤ effectiveWindow cfg c.ks
    unfold effectiveWindow; split <;> omega
  · show effectiveWindow cfg c.ks ≤ _
    unfold effectiveWindow; split <;> omega

theorem cutFrame_length (r : List Record) : (cutFrame r).2.1.length ≤ r.length := by
  induction r with
  | nil => simp [cutFrame]
  | cons x xs ih => unfold cutFrame; simp only []; split <;> simp; exact Nat.le_succ_of_le ih

theorem continues_trimmed (cfg e) (c : Context) (hc : c.cfg = some cfg) : Continues c (c.trimmed cfg e) := by
  unfold Context.trimmed
  have hl := cutFrame_length c.ring
  rcases hr : cutFrame c.ring with ⟨cut, keep, found⟩
  rw [hr] at hl
  simp only [] at hl ⊢
  split
  · refine Continues.trans ?_ (continues_startFrame cfg e _ (by exact hc)); exact Continues.of rfl hl rfl rfl rfl
  · exact Continues.of rfl hl rfl rfl rfl

theorem continues_atEpoch (cfg e) (c : Context) (hc : c.cfg = some cfg) : Continues c (c.atEpoch cfg e) := by
  unfold Context.atEpoch Context.overrun Context.countIdle
  (repeat' split) <;> first
    | exact .refl _
    | exact continues_startFrame cfg e c hc
    | exact Continues.of rfl le_rfl rfl rfl rfl
    | exact continues_trimmed cfg e c hc
    | (refine Continues.trans ?_ (continues_trimmed cfg e _ (by exact hc)); exact Continues.of rfl le_rfl rfl rfl rfl)

theorem continues_stage (c : Context) (k : Nat) (h1 : 256 ≤ k) (h2 : k ≤ 1024) : Continues c (c.stage k) := by
  unfold Context.stage
  split
  · split
    · rename_i cfg hc hf
      refine ⟨rfl, le_rfl, fun h => ⟨h1, h2, h.2.2.1, h.2.2.2.1, fun cfg' hc' => ?_⟩⟩
      have hc'' : c.cfg = some cfg' := hc'
      obtain ⟨a, b, d, f⟩ := h.2.2.2.2 cfg' hc''
      refine ⟨a, b, d, fun hfx => ?_⟩
      rw [hc] at hc''; obtain rfl := Option.some.inj hc''
      rw [hf] at hfx; cases hfx
    · exact .refl _
  · exact .refl _

theorem continues_granted (cfg r rest) (c : Context) (hc : c.cfg = some cfg) (hr : c.ring = r :: rest) :
    Continues c (c.granted cfg r rest) := by
  unfold Context.granted
  have hl : rest.length ≤ c.ring.length := by rw [hr]; simp
  simp only []
  (repeat' split) <;> first
    | exact Continues.of rfl hl rfl rfl rfl
    | (refine Continues.trans ?_ (continues_startFrame cfg _ _ (by exact hc)); exact Continues.of rfl hl rfl rfl rfl)

/-! ### Every context -/

/-- Every context goes on. -/
structure AllContinue (s t : State) : Prop where
  all : ∀ n, Continues (s.ctx n) (t.ctx n)

theorem AllContinue.refl (s : State) : AllContinue s s := ⟨fun _ => .refl _⟩

theorem AllContinue.trans {s t u : State} (h : AllContinue s t) (g : AllContinue t u) :
    AllContinue s u := ⟨fun n => (h.all n).trans (g.all n)⟩

theorem AllContinue.of_ctxs {s t : State} (h : t.ctxs = s.ctxs) :
    AllContinue s t := ⟨fun _ => by unfold State.ctx; rw [h]; exact .refl _⟩

theorem AllContinue.set {s : State} {n : Stream} {c : Context} (h : Continues (s.ctx n) c) :
    AllContinue s (s.setCtx n c) := by
  constructor; intro m
  by_cases hm : m = n
  · subst hm; simpa using h
  · simp [hm]; exact .refl _

theorem AllContinue.then {s t u : State} (h : AllContinue s t) (g : u.ctxs = t.ctxs) :
    AllContinue s u := h.trans (.of_ctxs g)

theorem AllContinue.of_set {s u : State} {n : Stream} {c : Context} (hu : u.ctxs = s.ctxs)
    (h : Continues (s.ctx n) c) : AllContinue s (u.setCtx n c) := by
  refine AllContinue.trans (.of_ctxs hu) (.set ?_)
  have : u.ctx n = s.ctx n := by unfold State.ctx; rw [hu]
  rw [this]; exact h

theorem continues_streamEpoch (s : State) (n e) : AllContinue s (s.streamEpoch n e) := by
  constructor; intro m
  by_cases hm : m = n
  · subst hm; rw [ctx_streamEpoch_self]; unfold epochCtx
    cases hc : (s.ctx m).cfg with
    | none => exact .refl _
    | some cfg => exact continues_atEpoch cfg e _ hc
  · rw [ctx_streamEpoch_ne _ _ _ _ hm]; exact .refl _

/-- The factor lies from 256 to 1,024 (R100). -/
theorem shareFactor_range (budget f x : Nat) :
    256 ≤ (shareFactor budget f x).1 ∧ (shareFactor budget f x).1 ≤ 1024 := by
  unfold shareFactor
  (repeat' split) <;> simp only [] <;> try omega
  rename_i h1 h2 h3 h4
  refine ⟨?_, h4⟩
  unfold ceilDiv
  rw [Nat.le_div_iff_mul_le (by omega)]
  have : 256 * (budget - f) ≤ 256 * x := Nat.mul_le_mul_left _ (by omega)
  omega

theorem continues_shareEpoch (s : State) : AllContinue s s.shareEpoch := by
  constructor; intro n
  by_cases hb : s.pace.bus = .stuck
  · unfold State.shareEpoch; rw [if_pos hb]; exact .refl _
  · rw [(shareEpoch_facts s hb).2]
    have hk : s.shareEpoch.share.k =
      (shareFactor s.cfg.budget (s.fTotal (s.share.peers.filterMap agePeer))
      (s.xTotal (s.share.peers.filterMap agePeer))).1 := by
      unfold State.shareEpoch; rw [if_neg hb]; simp
    rw [hk]
    exact continues_stage _ _ (shareFactor_range ..).1 (shareFactor_range ..).2

theorem continues_deliverAll (s : State) (e ds) : AllContinue s (s.deliverAll e ds) := by
  induction ds generalizing s with
  | nil => exact .refl _
  | cons d ds ih =>
    rw [deliverAll_cons]
    refine AllContinue.trans ?_ (ih _)
    cases d with
    | stream n => exact continues_streamEpoch ..
    | share => exact continues_shareEpoch ..
    | pace =>
      constructor
      intro n
      rw [show (s.deliver e .pace) = s.paceEpoch e from rfl, ctx_paceEpoch]
      exact .refl _
    | event r =>
      constructor
      intro n
      rw [show (s.deliver e (.event r)) = s.raise r.code r.subject r.detail from rfl, ctx_raise]
      exact .refl _

theorem continues_takeFrameEpoch (s : State) (es) : AllContinue s (s.takeFrameEpoch es) := by
  unfold State.takeFrameEpoch
  refine AllContinue.trans ?_ (continues_deliverAll ..); exact .of_ctxs rfl

theorem continues_takeFieldEpoch (s : State) (h) : AllContinue s (s.takeFieldEpoch h) := by
  unfold State.takeFieldEpoch
  refine AllContinue.trans ?_ (continues_deliverAll ..); exact .of_ctxs rfl

theorem continues_slew (s : State) (e es) : AllContinue s (s.slew e es) := by
  unfold State.slew
  simp only []
  split
  · (refine AllContinue.trans ?_ (continues_takeFrameEpoch ..); exact .of_ctxs rfl)
  · exact .of_ctxs (by simp)

theorem continues_lockPulse (s : State) (cr) : AllContinue s (s.lockPulse cr) := by
  unfold State.lockPulse
  simp only []
  (repeat' split) <;> first
   | exact .refl _
   | (refine AllContinue.trans ?_ (continues_slew ..); exact .of_ctxs rfl)
   | exact .of_ctxs (by simp [State.stepAndLock])

theorem continues_sampleRef (s : State) (b) : AllContinue s (s.sampleRef b) := by
  unfold State.sampleRef State.acceptPulse
  simp only []
  (repeat' split) <;> first
   | exact .of_ctxs rfl
   | (refine AllContinue.trans ?_ (continues_lockPulse ..); exact .of_ctxs rfl)

theorem continues_starveStream (s : State) (n) : AllContinue s (s.starveStream n) := by
  unfold State.starveStream
  exact .of_set rfl (Continues.of rfl le_rfl rfl rfl rfl)

theorem continues_collide (s : State) (n) : AllContinue s (s.collide n) := by
  unfold State.collide
  exact .of_set rfl (Continues.of rfl le_rfl rfl rfl rfl)

theorem continues_grantWork (s : State) (n cfg r rest) (hc : (s.ctx n).cfg = some cfg)
    (hr : (s.ctx n).ring = r :: rest) : AllContinue s (s.grantWork n cfg r rest) := by
  unfold State.grantWork
  simp only []
  have h1 : AllContinue s (State.setCtx
    { s with egress := { s.egress with late := if s.grantLate n then setBit s.egress.late n else s.egress.late } } n
    (s.grantedCtx n cfg r rest)) := by
    refine .of_set rfl ?_
    unfold State.grantedCtx
    exact (continues_granted cfg r rest (s.ctx n) hc hr).trans (Continues.of rfl le_rfl rfl rfl rfl)
  generalize (State.setCtx { s with egress :=
    { s.egress with late := if s.grantLate n then setBit s.egress.late n else s.egress.late } } n
    (s.grantedCtx n cfg r rest)) = u at h1
  induction (s.dueStreams.filter (· ≠ n)) generalizing u with
  | nil => exact h1
  | cons x xs ih => rw [List.foldl_cons]; exact ih _ (h1.trans (continues_collide ..))

theorem continues_abandonSlot (s : State) (sl) : AllContinue s (s.abandonSlot sl) := by
  unfold State.abandonSlot State.releaseSlot
  exact .of_set rfl (Continues.of rfl le_rfl rfl rfl rfl)

theorem continues_grantHead (s t : State) (n) (h : s.grantHead n = .next t) : AllContinue s t := by
  unfold State.grantHead at h
  simp only [] at h
  split at h
  · rename_i cfg r rest hc hr
    have := continues_grantWork s n cfg r rest hc hr
    (repeat' split at h) <;> cases h <;> exact this.then rfl
  · cases h; exact .refl _

theorem continues_takeDiscard (s : State) (n o) : AllContinue s (s.takeDiscard n o) := by
  unfold State.takeDiscard
  refine .of_set (by simp [State.answer]) (Continues.of ?_ ?_ ?_ ?_ ?_) <;> simp [State.ctx, State.answer]

theorem continues_select (s : State) (n) : AllContinue s (s.select n) := by
  unfold State.select
  split
  · exact .refl _
  · rename_i o _
    unfold State.carryOut
    split
    · exact .of_ctxs rfl
    · exact .of_ctxs (by simp)
    · refine AllContinue.trans (.of_ctxs ?_) (continues_takeDiscard ..); rfl
    · exact .of_ctxs (by simp)
    · exact .of_ctxs (by simp)

/-! ### The end of a write -/

/-- The contexts after a write ends (R141). -/
theorem completeWrite_ctx (s : State) (w : WriteRec) : ∀ n, (s.completeWrite w).ctx n = if n = w.stream then
   (if (s.ctx n).discard = true then
     { s.ctx n with counts := { (s.ctx n).counts with trimmed := (s.ctx n).counts.trimmed + 1 }, discard := if
     w.frameEnd then false else true } else (s.ctx n).arrive (w.record s.t)) else s.ctx n := by
  intro n
  have ha : ∀ (u : State) (c : Stream), ((u.answer c).freePath).ctx n = u.ctx n := by
    intro u c; unfold State.ctx; simp [State.answer, State.freePath]
  unfold State.completeWrite
  simp only []
  rw [ha]
  by_cases h : n = w.stream
  · rw [if_pos h, h]
    split <;> rw [ctx_setCtx_self]
  · rw [if_neg h]
    split
    · rw [ctx_setCtx_ne _ _ h]; rfl
    · rw [ctx_setCtx_ne _ _ h]

theorem offerFalls_write (s : State) (n : Stream) : (s.offerFalls n).feed.write = s.feed.write
    ∨ (s.offerFalls n).feed.write = none := by
  unfold State.offerFalls
  (repeat' split) <;> first
   | exact .inl rfl
   | (right; unfold State.withdraw; simp [State.freePath])

/-- A selection leaves the write path as it was, or starts a write where R133 stores. -/
theorem select_write (s : State) (n : Stream) : (s.select n).feed.write = s.feed.write
    ∨ ∃ o w, (s.chan n).pin = some o ∧ s.judge n o = .store ∧ (s.select n).feed.write = some w ∧ w.stream = n := by
  unfold State.select
  split
  · exact .inl rfl
  rename_i o hp
  cases hj : s.judge n o <;> simp only [State.carryOut]
  · exact .inl trivial
  · left; unfold State.takeUnconfigured; simp only []; split <;> simp [State.answer]
  · left; unfold State.takeDiscard State.indexOffer; simp only []; split <;> simp [State.answer]
  · left; unfold State.takeBadLength; simp [State.answer]
  · unfold State.storeOffer
    split
    · exact .inl rfl
    · exact .inr ⟨o, _, hp, hj, rfl, rfl⟩

end Sys2Proof.Machine
end

