-- ==== Sys2Proof/Laws/Times.lean ====
section
/-! SUPPORT. Times: differences of reached times, and the search a step makes for its epoch. -/

namespace Sys2Proof.Machine

open Sys2Proof

/-- Two steps in time are one of their sum. -/
theorem after_after (t : Time) (a b : Nat) : after (after t a) b = after t (a + b) := by
  unfold after; rw [BitVec.add_assoc, ← BitVec.ofNat_add]

/-- The signed difference of two reached times is the difference of their ages (R2). -/
theorem diff_toInt (now a b : Time) (ha : (now - a).toNat < 2^47) (hb : (now - b).toNat < 2^47) :
    (b - a).toInt = ((now - a).toNat : Int) - (now - b).toNat := by
  have : b - a = (now - a) - (now - b) := by ring
  rw [this, BitVec.toInt_sub]
  rw [BitVec.toInt_eq_toNat_of_lt (by omega), BitVec.toInt_eq_toNat_of_lt (by omega)]
  rw [Int.bmod_eq_of_le] <;> omega

/-- Of two reached times the older is the earlier (R2). -/
theorem earlier_iff (now a b : Time) (ha : (now - a).toNat < 2^47) (hb : (now - b).toNat < 2^47) : earlier a b = true
    ↔ (now - b).toNat < (now - a).toNat := by
  unfold earlier
  have : b - a = (now - a) - (now - b) := by ring
  rw [this, BitVec.toNat_sub]
  simp only [decide_eq_true_eq]
  omega

/-- Two times are equal where their ages are. -/
theorem eq_iff_age (now a b : Time) : a = b ↔ (now - a).toNat = (now - b).toNat := by
  constructor
  · rintro rfl; rfl
  · intro h
    have := BitVec.eq_of_toNat_eq h
    have h2 : now - (now - a) = now - (now - b) := by rw [this]
    simpa using h2

/-- The search of a step ends at the first time of its series that is neither reached nor under the floor (R11). -/
theorem stepLoop_spec (now floor : Time) (q : Nat) (fuel : Nat) (e : Time) (m : Nat) (hm : m < fuel)
   (hg : (reached now (after e (m * q)) || earlier (after e (m * q)) floor) = false)
   (hb : ∀ j, j < m → (reached now (after e (j * q)) || earlier (after e (j * q)) floor) = true) :
     stepLoop now floor q fuel e = after e (m * q) := by
  induction fuel generalizing e m with
  | zero => omega
  | succ fuel ih =>
    unfold stepLoop
    have h0 : after e (0 * q) = e := by unfold after; simp
    cases m with
    | zero => rw [h0] at hg ⊢; rw [hg]; simp
    | succ m =>
      have := hb 0 (by omega)
      rw [h0] at this
      rw [if_pos this]
      have hk : ∀ j, after (after e q) (j * q) = after e ((j + 1) * q) := by
        intro j; rw [after_after]; congr 1; rw [Nat.add_mul]; omega
      rw [ih (after e q) m (by omega) (by rw [hk]; exact hg) (fun j hj => by rw [hk]; exact hb (j+1) (by omega)), hk]

end Sys2Proof.Machine
end

