-- ==== Sys2Proof/Laws/Grants.lean ====
section
/-! SUPPORT. The choice of a head, the work of a grant, and the fields written into a packet. -/

namespace Sys2Proof.Machine

open Sys2Proof

/-- A stream set with one bit set (R85). -/
theorem setBit_getLsbD (b : BitVec 16) (n m : Stream) : (setBit b n).getLsbD m = (b.getLsbD m || decide (m = n)) := by
  unfold setBit
  rw [BitVec.getLsbD_or, BitVec.getLsbD_twoPow]
  have := n.isLt
  by_cases h : m = n
  · subst h; simp
  · have h2 : n.val ≠ m.val := fun e => h (Fin.ext e.symm)
    simp [h, h2]

/-! ### The order of due heads (R68) -/

theorem mem_dueStreams (s : State) (n : Stream) : n ∈ s.dueStreams ↔ (s.ctx n).headDue s.t = true := by
  simp [State.dueStreams, allStreams]

/-- A due head has its release time reached (R51). -/
theorem dueStreams_reached (s : State) (n : Stream) (h : n ∈ s.dueStreams) : (s.t - (s.ctx n).tNext).toNat < 2^47 :=
    by
  rw [mem_dueStreams] at h; simp [Context.headDue, Context.headReached, reached] at h; exact h.1.2

/-- A due head is the first record of the ring of an enabled SENDING stream (R51). -/
theorem dueStreams_parts (s : State) (n : Stream) (h : n ∈ s.dueStreams) : ∃ cfg r rest, (s.ctx n).cfg = some cfg
    ∧ (s.ctx n).ring = r :: rest ∧ (s.ctx n).st = .sending := by
  rw [mem_dueStreams] at h
  simp [Context.headDue, Context.headReached, Context.enabled] at h
  obtain ⟨⟨⟨⟨h1, h2⟩, h3⟩, -⟩, -⟩ := h
  obtain ⟨cfg, hc⟩ := Option.isSome_iff_exists.mp h1
  cases hr : (s.ctx n).ring with
  | nil => exact absurd hr h3
  | cons r rest => exact ⟨cfg, r, rest, hc, rfl, h2⟩

theorem mem_reachedStreams (s : State) (n : Stream) :
    n ∈ s.reachedStreams ↔ (s.ctx n).headReached s.t = true := by
  simp [State.reachedStreams, allStreams]

/-- A head that comes due before the grant is one whose t_next is reached at this tick, or every head is (R69). -/
theorem comingDue_sub (s : State) (n : Stream) (h : n ∈ s.comingDue) : n ∈ s.reachedStreams := by
  unfold State.comingDue at h
  simp only [] at h
  split at h
  · exact h
  · exact (List.mem_filter.mp h).1

/-- Coming due moves nothing of a context but the mark. -/
theorem takeDue_ctx (s : State) (n : Stream) :
    s.takeDue.ctx n = { s.ctx n with justReached := (s.takeDue.ctx n).justReached } := by
  rw [ctx_takeDue]; split <;> simp [Context.seen]

theorem takeDue_headReached (s : State) (n : Stream) :
    (s.takeDue.ctx n).headReached s.t = (s.ctx n).headReached s.t := by
  rw [ctx_takeDue]; split
  · unfold Context.seen Context.headReached Context.enabled; rfl
  · rfl

/-- A head that is due stays due as others come due (R51). -/
theorem dueStreams_takeDue (s : State) (n : Stream) (h : n ∈ s.dueStreams) : n ∈ s.takeDue.dueStreams := by
  rw [mem_dueStreams] at h ⊢
  rw [Context.headDue, takeDue_t, takeDue_headReached, ctx_takeDue]
  simp only [Context.headDue, Bool.and_eq_true] at h ⊢
  refine ⟨h.1, ?_⟩
  split
  · rfl
  · exact h.2

/-- A head that comes due before the grant is due from then on. -/
theorem comingDue_takeDue (s : State) (n : Stream) (h : n ∈ s.comingDue) : n ∈ s.takeDue.dueStreams := by
  have := (mem_reachedStreams s n).mp (comingDue_sub s n h)
  rw [mem_dueStreams, takeDue_t, Context.headDue, takeDue_headReached, this, ctx_takeDue, if_pos h]
  simp [Context.seen]

/-- A head that is due when the grant is taken was due or comes due at this tick (R51). -/
theorem takeDue_reached (s : State) (n : Stream) (h : n ∈ s.takeDue.dueStreams) : n ∈ s.reachedStreams := by
  rw [mem_dueStreams, takeDue_t, Context.headDue, takeDue_headReached, Bool.and_eq_true] at h
  exact (mem_reachedStreams s n).mpr h.1

/-- Where a head is due or comes due at this tick, some head is due when the grant is taken (R67, R69). -/
theorem takeDue_nonempty (s : State) (h : s.reachedStreams ≠ []) : s.takeDue.dueStreams ≠ [] := by
  intro he
  have hc : s.comingDue = [] := by
    rw [List.eq_nil_iff_forall_not_mem]
    intro n hn
    have := comingDue_takeDue s n hn
    rw [he] at this; cases this
  have hd : s.dueStreams = [] := by
    rw [List.eq_nil_iff_forall_not_mem]
    intro n hn
    have := dueStreams_takeDue s n hn
    rw [he] at this; cases this
  unfold State.comingDue at hc
  simp only [hd] at hc
  split at hc
  · exact h hc
  · rename_i h2; rw [hc] at h2; simp at h2

/-- The ticks since a stream's release time. -/
def age (s : State) (n : Stream) : Nat := (s.t - (s.ctx n).tNext).toNat

/-- Stream n comes before stream m by the keys of R68, both heads being due. -/
def Before (s : State) (n m : Stream) : Prop :=
  age s m < age s n ∨ (age s m = age s n
    ∧ (((s.ctx n).isFixed = true ∧ (s.ctx m).isFixed = false) ∨ ((s.ctx n).isFixed = (s.ctx m).isFixed ∧ n < m)))

/-- The arbiter's comparison is the order of R68. -/
theorem firstOf_iff (s : State) (a b : Stream) (ha : a ∈ s.dueStreams) (hb : b ∈ s.dueStreams) : s.firstOf a b = true
    ↔ Before s a b := by
  have h1 := dueStreams_reached s a ha; have h2 := dueStreams_reached s b hb
  unfold State.firstOf Before
  simp only []
  have he := eq_iff_age s.t (s.ctx a).tNext (s.ctx b).tNext
  have hl := earlier_iff s.t _ _ h1 h2
  unfold age
  split
  · rename_i h
    have h' := he.mp h
    split
    · rename_i h3; rw [h3, h']; cases (s.ctx b).isFixed <;> simp
    · rename_i h3; rw [h']; revert h3; cases (s.ctx a).isFixed <;> cases (s.ctx b).isFixed <;> simp
  · rename_i h
    have h' : ¬ _ := fun x => h (he.mpr x)
    rw [hl]
    constructor
    · intro h; exact .inl h
    · rintro (h | ⟨h, _⟩)
      · exact h
      · omega

theorem before_trans (s : State) (a b c) (h1 : Before s a b) (h2 : Before s b c) : Before s a c := by
  unfold Before at *
  rcases h1 with h1 | ⟨h1, h1'⟩ <;> rcases h2 with h2 | ⟨h2, h2'⟩
  · left; omega
  · left; omega
  · left; omega
  · right; refine ⟨by omega, ?_⟩
    rcases h1' with ⟨a1, a2⟩ | ⟨a1, a2⟩ <;> rcases h2' with ⟨b1, b2⟩ | ⟨b1, b2⟩
    · rw [a2] at b1; cases b1
    · left; exact ⟨a1, by rw [← b1, a2]⟩
    · left; exact ⟨by rw [a1, b1], b2⟩
    · right; exact ⟨by rw [a1, b1], lt_trans a2 b2⟩

/-- Two streams never tie: the last key is the number (R68). -/
theorem before_total (s : State) (a b : Stream) (h : a ≠ b) : Before s a b ∨ Before s b a := by
  unfold Before
  have : a < b ∨ b < a := lt_or_gt_of_ne h
  rcases Nat.lt_trichotomy (age s a) (age s b) with h1 | h1 | h1
  · right; left; exact h1
  · cases hf : (s.ctx a).isFixed <;> cases hg : (s.ctx b).isFixed <;> simp [h1] <;> first | exact this | exact h
  · left; left; exact h1

/-- The stream chosen among due heads comes before every other (R68). -/
theorem bestOf_spec (s : State) (l : List Stream) (hl : ∀ n ∈ l, n ∈ s.dueStreams) (hn : l ≠ []) :
    ∃ n, s.bestOf l = some n ∧ n ∈ l ∧ ∀ m ∈ l, m ≠ n → Before s n m := by
  induction l with
  | nil => exact absurd rfl hn
  | cons x xs ih =>
    cases xs with
    | nil => exact ⟨x, rfl, by simp, by intro m hm; simp at hm; intro h; exact absurd hm h⟩
    | cons y ys =>
      obtain ⟨n, h1, h2, h3⟩ := ih (fun n h => hl n (by simp [h])) (by simp)
      have hd : n ∈ s.dueStreams := hl n (by simp [h2])
      have hdx : x ∈ s.dueStreams := hl x (by simp)
      rw [State.bestOf, h1]; simp only []
      by_cases hf : s.firstOf n x = true
      · have hb := (firstOf_iff s n x hd hdx).mp hf
        refine ⟨n, by simp [hf], by simp [h2], ?_⟩
        intro m hm hne
        rcases List.mem_cons.mp hm with rfl | hm
        · exact hb
        · exact h3 m hm hne
      · refine ⟨x, by simp [hf], by simp, ?_⟩
        intro m hm hne
        rcases List.mem_cons.mp hm with rfl | hm
        · exact absurd rfl hne
        · have hxn : x = n ∨ Before s x n := by
            by_cases hxn : x = n
            · exact .inl hxn
            · rcases before_total s x n hxn with h | h
              · exact .inr h
              · exact absurd ((firstOf_iff s n x hd hdx).mpr h) hf
          rcases hxn with rfl | hb
          · exact h3 m hm hne
          · by_cases hmn : m = n
            · subst hmn; exact hb
            · exact before_trans _ _ _ _ hb (h3 m hm hmn)

/-- The stream a grant takes has a due head. -/
theorem grantChoice_due (s : State) (n) (h : s.grantChoice = some n) : n ∈ s.dueStreams := by
  have hne : s.dueStreams ≠ [] := by intro h2; simp [State.grantChoice, h2, State.bestOf] at h
  obtain ⟨m, h1, h2, _⟩ := bestOf_spec s _ (fun _ h => h) hne
  rw [State.grantChoice, h1] at h; cases h; exact h2

/-! ### The work of a grant (R70, R71) -/

theorem ctx_collide (s : State) (m k : Stream) :
    (s.collide m).ctx k = if k = m then
    { s.ctx m with counts := { (s.ctx m).counts with collisions := (s.ctx m).counts.collisions + 1 } } else s.ctx
    k := by
  unfold State.collide; simp only [ctx_setCtx]; rfl

/-- A collision recorded against each stream of a list (R71). -/
theorem foldl_collide_spec (l : List Stream) (s : State) (hn : l.Nodup) :
    (∀ k, (l.foldl State.collide s).ctx k = if k ∈ l then
      { s.ctx k with counts := { (s.ctx k).counts with collisions := (s.ctx k).counts.collisions + 1 } } else s.ctx
      k) ∧
    (∀ k : Stream, (l.foldl State.collide s).egress.collision.getLsbD k =
      (s.egress.collision.getLsbD k || decide (k ∈ l))) ∧
    (l.foldl State.collide s).egress = { s.egress with collision := (l.foldl State.collide s).egress.collision } := by
  induction l generalizing s with
  | nil => simp
  | cons x xs ih =>
    have hn := List.nodup_cons.mp hn
    obtain ⟨h1, h2, h3⟩ := ih (s.collide x) hn.2
    rw [List.foldl_cons]
    refine ⟨?_, ?_, ?_⟩
    · intro k; rw [h1]
      simp only [ctx_collide]
      by_cases hk : k = x
      · subst hk; simp [hn.1]
      · by_cases hk2 : k ∈ xs <;> simp [hk, hk2]
    · intro k; rw [h2]
      have : (s.collide x).egress.collision = setBit s.egress.collision x := rfl
      rw [this, setBit_getLsbD]
      by_cases hk : k = x <;> simp [hk]
    · rw [h3]; rfl

/-- The work of a grant: the granted context, a collision for each other due stream, the late bit; no other egress field (R70 to R72). -/
theorem grantWork_spec (s : State) (n cfg r rest) (_hn : n ∈ s.dueStreams) :
    (s.grantWork n cfg r rest).ctx n = s.grantedCtx n cfg r rest ∧
    (∀ m, m ≠ n → (s.grantWork n cfg r rest).ctx m = if m ∈ s.dueStreams then
      { s.ctx m with counts := { (s.ctx m).counts with collisions := (s.ctx m).counts.collisions + 1 } } else s.ctx
      m) ∧
    (∀ m : Stream, (s.grantWork n cfg r rest).egress.collision.getLsbD m =
      (s.egress.collision.getLsbD m || (decide (m ≠ n) && decide (m ∈ s.dueStreams)))) ∧
    (∀ m : Stream, (s.grantWork n cfg r rest).egress.late.getLsbD m =
      (s.egress.late.getLsbD m || (decide (m = n) && s.grantLate n))) ∧
    (s.grantWork n cfg r rest).egress =
      { s.egress with collision := (s.grantWork n cfg r rest).egress.collision, late :=
      (s.grantWork n cfg r rest).egress.late } := by
  have hnd : (s.dueStreams.filter (· ≠ n)).Nodup := ((List.nodup_finRange 16).filter _).filter _
  obtain ⟨h1, h2, h3⟩ := foldl_collide_spec (s.dueStreams.filter (· ≠ n))
    (State.setCtx { s with egress :=
    { s.egress with late := if s.grantLate n then setBit s.egress.late n else s.egress.late } } n
    (s.grantedCtx n cfg r rest)) hnd
  have hw : s.grantWork n cfg r rest = (s.dueStreams.filter (· ≠ n)).foldl State.collide
    (State.setCtx { s with egress :=
    { s.egress with late := if s.grantLate n then setBit s.egress.late n else s.egress.late } } n
    (s.grantedCtx n cfg r rest)) := rfl
  rw [hw]
  refine ⟨?_, ?_, ?_, ?_, ?_⟩
  · rw [h1]; simp
  · intro m hm; rw [h1]; simp [hm]; rfl
  · intro m; rw [h2]; simp [Bool.and_comm]
  · intro m; rw [h3]; simp only [setCtx_egress]
    cases hl : s.grantLate n
    · simp
    · simp only [if_true, Bool.and_true]; exact setBit_getLsbD ..
  · rw [h3]; rfl

/-! ### Stamp and number (R73 to R75) -/

theorem beBytes_length (n v) : (beBytes n v).length = n := by
  induction n generalizing v with
  | zero => rfl
  | succ n ih => simp [beBytes, ih]

theorem writeField_some (st : Store) (chain off bs len) (h : len ≤ 256 * chain.length) :
    ∃ st', st.writeField chain off bs len = some st' := by
  unfold Store.writeField
  cases off with
  | none => exact ⟨_, rfl⟩
  | some o =>
    simp only []
    split
    · exact writeBytes_some (by omega)
    · exact ⟨_, rfl⟩

/-- A field written changes bytes and parities alone. -/
theorem writeField_keeps {st st' : Store} {chain off bs len} (h : st.writeField chain off bs len = some st') :
    st' = { st with bytes := st'.bytes, parity := st'.parity } ∧ (st.wf = true → st'.wf = true) := by
  unfold Store.writeField at h
  have key : ∀ o, st.writeBytes chain o bs = some st' → st' = { st with bytes := st'.bytes, parity := st'.parity }
    ∧ (st.wf = true → st'.wf = true) := by
    intro o h
    obtain ⟨a, b, c⟩ := writeBytes_keeps h
    refine ⟨a, fun hw => ?_⟩
    simp only [Store.wf, Bool.and_eq_true] at hw ⊢
    exact ⟨⟨b hw.1.1, c hw.1.2⟩, by rw [a]; exact hw.2⟩
  cases off with
  | none => cases h; exact ⟨rfl, id⟩
  | some o =>
    simp only [] at h
    split at h
    · exact key _ h
    · cases h; exact ⟨rfl, id⟩

theorem stampPacket_some (st : Store) (p cfg r b seq) (h : r.len ≤ 256 * (st.chain r.first).length) :
    ∃ st', st.stampPacket p cfg r b seq = some st' := by
  obtain ⟨a, ha⟩ := writeField_some st (st.chain r.first) cfg.stampOffset (beBytes 4 (stampValue p b)) r.len h
  obtain ⟨c, hc⟩ := writeField_some a (st.chain r.first) cfg.seqOffset (beBytes 2 seq.toNat) r.len h
  exact ⟨c, by simp [Store.stampPacket, ha, hc]⟩

/-- A stamp changes bytes and parities alone. -/
theorem stampPacket_keeps {st st' : Store} {p cfg r b seq} (h : st.stampPacket p cfg r b seq = some st') :
    st' = { st with bytes := st'.bytes, parity := st'.parity } ∧ (st.wf = true → st'.wf = true) := by
  unfold Store.stampPacket at h
  simp only [] at h
  split at h
  · cases h
  · rename_i st1 h1
    obtain ⟨a, b⟩ := writeField_keeps h1
    obtain ⟨c, d⟩ := writeField_keeps h
    exact ⟨by rw [c, a], fun hw => d (b hw)⟩

/-- Reading after a field is written: its bytes at its places, the old bytes elsewhere (R75, R151). -/
theorem writeField_read {chain : List Block} {st st' : Store} {off : Option Nat} {bs : List Byte} {len : Nat}
    (hn : chain.Nodup) (hw : st.wf = true)
   (h : st.writeField chain off bs len = some st') :
   ((∀ o y, off = some o → o + bs.length ≤ len → o ≤ y → y < o + bs.length
     → st'.readByte chain y = (bs[y - o]?).map fun v => (v, true))
    ∧ (∀ y, (¬ ∃ o, off = some o ∧ o + bs.length ≤ len ∧ o ≤ y ∧ y < o + bs.length)
      → st'.readByte chain y = st.readByte chain y)) ∧
   ∀ a, (∀ y, cellOf chain y = some a → ¬ ∃ o, off = some o ∧ o + bs.length ≤ len ∧ o ≤ y ∧ y < o + bs.length)
     → readCell 0 st'.bytes a = readCell 0 st.bytes a ∧ readCell false st'.parity a = readCell false st.parity a := by
  unfold Store.writeField at h
  cases off with
  | none => cases h; exact ⟨⟨(fun o y ho => by simp at ho), (fun _ _ => rfl)⟩, fun _ _ => ⟨rfl, rfl⟩⟩
  | some o =>
    simp only [] at h
    split at h
    · rename_i hl
      obtain ⟨h1, h2⟩ := writeBytes_read hn hw h
      refine ⟨⟨?_, ?_⟩, fun a ha => h2 a fun i hi hc => ha _ hc ⟨o, rfl, hl, by omega, by omega⟩⟩
      · intro o' y ho _ h3 h4; cases ho; rw [h1, if_pos ⟨h3, h4⟩]
      · intro y hy; rw [h1, if_neg]; rintro ⟨h3, h4⟩; exact hy ⟨o, rfl, hl, h3, h4⟩
    · rename_i hl
      cases h
      exact ⟨⟨(fun o2 y ho h2 => by cases ho; exact absurd h2 hl), (fun _ _ => rfl)⟩, fun _ _ => ⟨rfl, rfl⟩⟩

end Sys2Proof.Machine
end

