-- ==== Sys2Proof/Laws/Notices.lean ====
section
/-! SUPPORT. Notice bits as values and as a check, and the bit a sender compares. -/

namespace Sys2Proof.Machine

open Sys2Proof

theorem toBits_length (n v : Nat) : (toBits n v).length = n := by
  induction n generalizing v with
  | zero => rfl
  | succ n ih => simp [toBits, ih]

/-- A value is read from the bits it is sent in (R110). -/
theorem ofBits_toBits (n v : Nat) (h : v < 2 ^ n) : ofBits (toBits n v) = v := by
  induction n generalizing v with
  | zero => simp at h; subst h; rfl
  | succ n ih =>
    unfold toBits ofBits
    rw [List.foldl_append]
    have := ih (v / 2) (by rw [pow_succ] at h; omega)
    unfold ofBits at this
    rw [this]
    simp only [List.foldl_cons, List.foldl_nil, bitOf, Nat.testBit_zero]
    split <;> simp_all <;> omega

theorem cut_mid {α : Type} (a b c : List α) (i n : Nat) (h1 : a.length = i) (h2 : b.length = n) :
    ((a ++ (b ++ c)).drop i).take n = b := by
  subst h1; subst h2; simp

/-- One step of the division that forms the check (R111). -/
theorem check_bits : ∀ (r : BitVec 8) (b : Bool), toBits 8 (checkStep r b).toNat =
   [r.getLsbD 6, r.getLsbD 5, r.getLsbD 4, r.getLsbD 3, r.getLsbD 2, xor (r.getLsbD 1) (xor (r.getLsbD 7) b), xor
     (r.getLsbD 0) (xor (r.getLsbD 7) b), xor (r.getLsbD 7) b] := by decide

theorem noticeCheck_snoc (bs b) : noticeCheck (bs ++ [b]) = checkStep (noticeCheck bs) b := by
  unfold noticeCheck; rw [List.foldl_append]; rfl

/-- The bit a sender compares at its sample (R118). -/
theorem comparing_at (p : Pace) (a : Attempt) (b j : Nat) (now : Time) (sent : Bool) (h1 : p.attempt = some a)
    (h2 : a.comparing = true) (hj : j ≤ 63) (hb : a.bits[j]? = some sent)
   (b1 : 64 ≤ b) (b2 : b ≤ 1024) (ht : now = after a.s0 ((2 + j) * b + b / 2)) :
     p.comparing b now = some (j, sent) := by
  have hjb : j * b ≤ 63 * 1024 := Nat.mul_le_mul hj b2
  have he : elapsed now a.s0 = (2 + j) * b + b / 2 := by
    rw [ht]; unfold elapsed after
    rw [show a.s0 + BitVec.ofNat 48 ((2 + j) * b + b / 2) - a.s0 = BitVec.ofNat 48 ((2 + j) * b + b / 2) by
      rw [BitVec.add_comm]; exact BitVec.add_sub_cancel _ _]
    rw [BitVec.toNat_ofNat]
    apply Nat.mod_eq_of_lt
    rw [Nat.add_mul]; omega
  have hsub : (2 + j) * b + b / 2 - (2 * b + b / 2) = j * b := by rw [Nat.add_mul]; omega
  unfold Pace.comparing
  rw [h1]
  simp only [he, hsub]
  rw [if_pos ⟨h2, by rw [Nat.add_mul]; omega, Nat.mul_mod_left ..⟩]
  rw [Nat.mul_div_cancel _ (by omega), hb]
  rfl

end Sys2Proof.Machine
end

