-- ==== Sys2Proof/Laws/Peers.lean ====
section
/-! SUPPORT. The peer table in order: put, found and aged. -/

namespace Sys2Proof.Machine

open Sys2Proof

theorem ascending_cons {p : Peer} {ps : List Peer} : ascending (p :: ps) ↔ (∀ q ∈ ps, p.id < q.id)
    ∧ ascending ps := by
  induction ps generalizing p with
  | nil => simp [ascending]
  | cons q qs ih =>
    show (p.id < q.id ∧ ascending (q :: qs)) ↔ _
    rw [ih]
    constructor
    · rintro ⟨h1, h2, h3⟩
      refine ⟨?_, h2, h3⟩
      intro r hr
      rcases List.mem_cons.mp hr with rfl | hr
      · exact h1
      · exact h1.trans (h2 r hr)
    · rintro ⟨h1, h2⟩
      exact ⟨h1 q List.mem_cons_self, h2⟩

/-- An entry put into the table in its place: the order stands, and every other entry (R88). -/
theorem putPeer_spec (e : Peer) (ps : List Peer) (h : ascending ps) :
    ascending (putPeer e ps) ∧ ∀ q, q ∈ putPeer e ps ↔ q = e ∨ (q ∈ ps ∧ q.id ≠ e.id) := by
  induction ps with
  | nil => simp [putPeer, ascending]
  | cons p ps ih =>
    obtain ⟨h1, h2⟩ := ascending_cons.mp h
    obtain ⟨i1, i2⟩ := ih h2
    unfold putPeer
    split
    · rename_i hlt
      refine ⟨ascending_cons.mpr ⟨?_, h⟩, ?_⟩
      · intro q hq
        rcases List.mem_cons.mp hq with rfl | hq
        · exact hlt
        · exact hlt.trans (h1 q hq)
      · intro q
        constructor
        · intro hq
          rcases List.mem_cons.mp hq with rfl | hq
          · exact .inl rfl
          · right; refine ⟨hq, ?_⟩
            rcases List.mem_cons.mp hq with rfl | hq
            · omega
            · have := h1 q hq; omega
        · rintro (rfl | ⟨hq, _⟩)
          · exact List.mem_cons_self
          · exact List.mem_cons_of_mem _ hq
    · split
      · rename_i hlt heq
        refine ⟨ascending_cons.mpr ⟨fun q hq => by have := h1 q hq; omega, h2⟩, ?_⟩
        intro q
        constructor
        · intro hq
          rcases List.mem_cons.mp hq with rfl | hq
          · exact .inl rfl
          · right; exact ⟨List.mem_cons_of_mem _ hq, by have := h1 q hq; omega⟩
        · rintro (rfl | ⟨hq, hne⟩)
          · exact List.mem_cons_self
          · rcases List.mem_cons.mp hq with rfl | hq
            · omega
            · exact List.mem_cons_of_mem _ hq
      · rename_i hlt heq
        refine ⟨ascending_cons.mpr ⟨?_, i1⟩, ?_⟩
        · intro q hq
          rcases (i2 q).mp hq with rfl | ⟨hq, _⟩
          · omega
          · exact h1 q hq
        · intro q
          rw [List.mem_cons, i2, List.mem_cons]
          constructor
          · rintro (rfl | rfl | ⟨hq, hne⟩)
            · exact .inr ⟨.inl rfl, by omega⟩
            · exact .inl rfl
            · exact .inr ⟨.inr hq, hne⟩
          · rintro (rfl | ⟨rfl | hq, hne⟩)
            · exact .inr (.inl rfl)
            · exact .inl rfl
            · exact .inr (.inr ⟨hq, hne⟩)

/-- One entry an id (R88). -/
theorem ascending_unique {ps : List Peer} (h : ascending ps) {p q : Peer} (hp : p ∈ ps) (hq : q ∈ ps)
    (he : p.id = q.id) : p = q := by
  induction ps with
  | nil => cases hp
  | cons x xs ih =>
    obtain ⟨h1, h2⟩ := ascending_cons.mp h
    rcases List.mem_cons.mp hp with rfl | hp1 <;> rcases List.mem_cons.mp hq with rfl | hq1
    · rfl
    · have := h1 q hq1; omega
    · have := h1 p hp1; omega
    · exact ih h2 hp1 hq1

theorem findPeer_spec {id : Nat} {ps : List Peer} : (∀ e, findPeer id ps = some e → e ∈ ps ∧ e.id = id)
    ∧ (findPeer id ps = none → ∀ p ∈ ps, p.id ≠ id) := by
  unfold findPeer
  constructor
  · intro e h
    refine ⟨List.mem_of_find?_eq_some h, by simpa using List.find?_some h⟩
  · intro h p hp
    have := List.find?_eq_none.mp h p hp
    simpa using this

/-- The form of the table, for an own id (R88). -/
def PeersOrdered (own : Nat) (ps : List Peer) : Prop := ascending ps ∧ ∀ p ∈ ps, p.id ≤ 15 ∧ p.id ≠ own ∧ p.missed ≤ 3

theorem agePeer_some {p q : Peer} (h : agePeer p = some q) : q.id = p.id ∧ (p.missed ≤ 3 → q.missed ≤ 3) := by
  unfold agePeer at h
  split at h
  · cases h; exact ⟨rfl, fun _ => by simp⟩
  · split at h
    · cases h; exact ⟨rfl, fun _ => by simp; omega⟩
    · cases h

/-- Aging keeps the form of the table (R95). -/
theorem peersOrdered_aged {own : Nat} {ps : List Peer} (h : PeersOrdered own ps) :
    PeersOrdered own (ps.filterMap agePeer) := by
  obtain ⟨h1, h2⟩ := h
  refine ⟨?_, ?_⟩
  · clear h2
    induction ps with
    | nil => exact h1
    | cons p ps ih =>
      obtain ⟨a, b⟩ := ascending_cons.mp h1
      rw [List.filterMap_cons]
      split
      · exact ih b
      · rename_i q hq
        refine ascending_cons.mpr ⟨?_, ih b⟩
        intro r hr
        obtain ⟨x, hx, hxr⟩ := List.mem_filterMap.mp hr
        rw [(agePeer_some hq).1, (agePeer_some hxr).1]
        exact a x hx
  · intro q hq
    obtain ⟨x, hx, hxr⟩ := List.mem_filterMap.mp hq
    obtain ⟨a, b, c⟩ := h2 x hx
    rw [(agePeer_some hxr).1]
    exact ⟨a, b, (agePeer_some hxr).2 c⟩

end Sys2Proof.Machine
end

