-- ==== Sys2Proof/Laws/Requests.lean ====
section
/-! SUPPORT. What a request can do: it answers, takes events from the queue, and clears what a mask names. -/

namespace Sys2Proof.Machine

open Sys2Proof

/-- What the request work of the Maintenance Link leaves as it was, or lessens. -/
structure RequestWork (s t : State) : Prop where
  q : t.link.queue.length ≤ s.link.queue.length
  o : s.link.overflow = false → t.link.overflow = false
  br : t.link.latches.bankRetired = s.link.latches.bankRetired
  se : t.link.latches.storeExhausted = s.link.latches.storeExhausted
  lc : s.link.latches = .cold → t.link.latches = .cold
  bytes : t.store.bytes = s.store.bytes
  parity : t.store.parity = s.store.parity
  links : t.store.links = s.store.links
  free : t.store.free = s.store.free
  retired : t.store.retired = s.store.retired
  banks : ∀ j, (t.store.bank j).retired = (s.store.bank j).retired
  sc : s.store = .cold → t.store = .cold
  slot : t.egress.slot = s.egress.slot
  lu : t.egress.linkUp = s.egress.linkUp
  off : t.egress.offer = s.egress.offer
  co : s.egress.collision = 0 → t.egress.collision = 0
  la : s.egress.late = 0 → t.egress.late = 0
  sv : s.egress.starve = 0 → t.egress.starve = 0
  tr : s.egress.trim = 0 → t.egress.trim = 0

theorem RequestWork.refl (s : State) : RequestWork s s :=
    ⟨le_rfl, id, rfl, rfl, id, rfl, rfl, rfl, rfl, rfl, fun _ => rfl, id, rfl, rfl, rfl, id, id, id, id⟩

theorem RequestWork.trans {s t u : State} (h : RequestWork s t) (g : RequestWork t u) : RequestWork s u :=
  ⟨g.q.trans h.q, fun x => g.o (h.o x), g.br.trans h.br, g.se.trans h.se, fun x => g.lc (h.lc x), g.bytes.trans
    h.bytes, g.parity.trans h.parity, g.links.trans h.links, g.free.trans h.free,
   g.retired.trans h.retired, fun j => (g.banks j).trans (h.banks j), fun x => g.sc (h.sc x), g.slot.trans h.slot,
     g.lu.trans h.lu, g.off.trans h.off, fun x => g.co (h.co x), fun x => g.la (h.la x), fun x => g.sv (h.sv x),
     fun x => g.tr (h.tr x)⟩

theorem RequestWork.same {s t : State} (h1 : t.link.queue = s.link.queue) (h2 : t.link.overflow = s.link.overflow)
    (h3 : t.link.latches = s.link.latches) (h4 : t.store = s.store) (h5 : t.egress = s.egress) : RequestWork s t := by
  refine ⟨by rw [h1], by rw [h2]; exact id, by rw [h3], by rw [h3], by rw [h3]; exact id, by rw [h4], by rw [h4], by
    rw [h4], by rw [h4], by rw [h4], by intro j; rw [h4], by rw [h4]; exact id, by rw [h5], by rw [h5], by rw [h5],
    by rw [h5]; exact id, by rw [h5]; exact id, by rw [h5]; exact id, by rw [h5]; exact id⟩

theorem bank_clear (st : Store) (i j : Fin 4) : ((st.clearIntegrity i).bank j).retired = (st.bank j).retired := by
  unfold Store.clearIntegrity Store.setBank Store.bank
  by_cases h : i = j
  · subst h; simp
  · rw [Vector.getElem_set_ne]; exact fun e => h (Fin.ext e)

theorem clear_cold (i : Fin 4) : Store.cold.clearIntegrity i = Store.cold := by
  have : Store.cold.banks.set i.val { Store.cold.bank i with integrity := false, errors := 0 } = Store.cold.banks :=
    by
    revert i; decide
  unfold Store.clearIntegrity Store.setBank
  rw [this]

/-- The clears of a mask change integrity bits and error counts alone (R154, R181). -/
theorem clear_fold (m : BitVec 16) (l : List (Fin 4)) (st : Store) :
   let st' := l.foldl (fun st j => if m.getLsbD (4 + j.val) then Store.clearIntegrity st j else st) st
   st'.bytes = st.bytes ∧ st'.parity = st.parity ∧ st'.links = st.links ∧ st'.free = st.free
     ∧ st'.retired = st.retired ∧ (∀ j, (st'.bank j).retired = (st.bank j).retired) ∧ (st = .cold → st' = .cold) := by
  induction l generalizing st with
  | nil => exact ⟨rfl, rfl, rfl, rfl, rfl, fun _ => rfl, id⟩
  | cons x xs ih =>
    simp only [List.foldl_cons]
    obtain ⟨a, b, c, d, e, f, g⟩ := ih (if m.getLsbD (4 + x.val) then Store.clearIntegrity st x else st)
    refine ⟨a.trans ?_, b.trans ?_, c.trans ?_, d.trans ?_, e.trans ?_, fun j => (f j).trans ?_, fun h => g ?_⟩ <;>
      split <;> first | exact bank_clear .. | (rw [h]; exact clear_cold x) | exact h | (with_reducible rfl) | rfl

theorem requestWork_respond (s : State) (c k b) : RequestWork s (s.respond c k b) := .same rfl rfl rfl rfl rfl

theorem requestWork_judgeRequest (s : State) (c ops) : RequestWork s (s.judgeRequest c ops) := by
  unfold State.judgeRequest
  (repeat' split) <;> first
    | exact requestWork_respond ..
    | (unfold State.serveEvents; refine RequestWork.trans ?_ (requestWork_respond ..); exact
      ⟨by simp, fun _ => rfl, rfl, rfl, id, rfl, rfl, rfl, rfl, rfl, fun _ => rfl, id, rfl, rfl, rfl, id, id, id, id⟩)
    | skip
  unfold State.serveClear
  refine RequestWork.trans ?_ (requestWork_respond ..)
  obtain ⟨a, b, c, d, e, f, g⟩ := clear_fold (BitVec.ofNat 16 (beValue ops)) (List.finRange 4) s.store
  have clears (m : Bool) {x : BitVec 16} (h : x = 0) : (if m then 0 else x) = 0 := by cases m <;> simp [h]
  exact ⟨le_rfl, id, rfl, rfl, fun h => by unfold State.applyClear; simp only []; rw [h]; rfl, a, b, c, d, e, f, g,
    rfl, rfl, rfl, clears _, clears _, clears _, clears _⟩

theorem requestWork_actOnGap (s : State) : RequestWork s s.actOnGap := by
  unfold State.actOnGap
  refine RequestWork.trans ?_ (requestWork_respond ..)
  exact .same rfl rfl rfl rfl rfl

theorem requestWork_startSilence (s : State) : RequestWork s s.startSilence := .same rfl rfl rfl rfl rfl

theorem requestWork_parserRuns (s : State) : RequestWork s s.parserRuns := by
  unfold State.parserRuns
  simp only []
  split
  · (refine RequestWork.trans ?_ (requestWork_judgeRequest ..); exact .same rfl rfl rfl rfl rfl)
  · split
    · unfold State.actOnGap; (refine RequestWork.trans ?_ (requestWork_respond ..); exact .same rfl rfl rfl rfl rfl)
    · exact .same rfl rfl rfl rfl rfl

theorem markTail_same (l : Link) : l.markTail.queue = l.queue ∧ l.markTail.overflow = l.overflow
    ∧ l.markTail.latches = l.latches := by
  unfold Link.markTail; split <;> exact ⟨rfl, rfl, rfl⟩

theorem markDrop_same (l : Link) : l.markDrop.queue = l.queue ∧ l.markDrop.overflow = l.overflow
    ∧ l.markDrop.latches = l.latches := by
  unfold Link.markDrop; split
  · exact ⟨rfl, rfl, rfl⟩
  · exact markTail_same l

theorem requestWork_requestByte (s : State) (b) : RequestWork s (s.requestByte b) := by
  unfold State.requestByte
  simp only []
  (repeat' split)
  · exact .same rfl rfl rfl rfl rfl
  · (refine RequestWork.trans ?_ (requestWork_parserRuns ..); exact .same rfl rfl rfl rfl rfl)
  · exact .same rfl rfl rfl rfl rfl
  · obtain ⟨a, b, c⟩ := markDrop_same s.startSilence.link
    exact .same a b c rfl rfl

theorem requestWork_takeChar (s : State) (c) : RequestWork s (s.takeChar c) := by
  unfold State.takeChar; split <;> exact .same rfl rfl rfl rfl rfl

theorem requestWork_lineErrorGap (s : State) : RequestWork s s.lineErrorGap := by
  unfold State.lineErrorGap
  simp only []
  (repeat' split)
  · exact requestWork_startSilence s
  · exact (requestWork_startSilence s).trans (requestWork_actOnGap _)
  · obtain ⟨a, b, c⟩ := markTail_same s.startSilence.link
    exact (requestWork_startSilence s).trans (.same a b c rfl rfl)

theorem requestWork_receiveByte (s : State) (b) (h : s.loader.part ≠ .load) : RequestWork s (s.receiveByte b) := by
  unfold State.receiveByte; simp only []; rw [if_neg h]; exact (requestWork_takeChar ..).trans
    (requestWork_requestByte ..)

/-! ### The input buffer -/

/-- The parser only takes from the buffer (R174). -/
theorem drain_length (g p) (l : List (Byte × Bool)) : (drain g p l).1.length ≤ l.length := by
  induction l generalizing g p with
  | nil => simp [drain]
  | cons x xs ih =>
    obtain ⟨b, m⟩ := x
    unfold drain
    split
    · simp
    · split
      · simp
      · simp; exact Nat.le_succ_of_le (ih ..)

theorem judgeRequest_buffer (s : State) (c ops) : (s.judgeRequest c ops).link.buffer = s.link.buffer := by
  unfold State.judgeRequest
  (repeat' split) <;> rfl

theorem parserRuns_buffer (s : State) : s.parserRuns.link.buffer.length ≤ s.link.buffer.length := by
  unfold State.parserRuns
  simp only []
  split
  · rw [judgeRequest_buffer]; exact drain_length ..
  · split
    · simp [State.actOnGap, State.respond]
    · exact drain_length ..

theorem markTail_buffer (l : Link) : l.markTail.buffer.length = l.buffer.length := by
  unfold Link.markTail
  split
  · rfl
  · rename_i h
    have : l.buffer ≠ [] := by intro e; rw [e] at h; simp at h
    have := List.length_pos_iff.mpr this
    simp; omega

theorem markDrop_buffer (l : Link) : l.markDrop.buffer.length = l.buffer.length := by
  unfold Link.markDrop; split
  · rfl
  · exact markTail_buffer l

theorem requestByte_buffer (s : State) (b) (h : s.link.buffer.length ≤ 64) :
    (s.requestByte b).link.buffer.length ≤ 64 := by
  unfold State.requestByte
  simp only []
  (repeat' split)
  · exact h
  · refine (parserRuns_buffer _).trans ?_; simp
  · rename_i hh; simp [Config.bufferDepth] at hh ⊢; omega
  · simp only []; rw [markDrop_buffer]; exact h

theorem lineErrorGap_buffer (s : State) (h : s.link.buffer.length ≤ 64) : s.lineErrorGap.link.buffer.length ≤ 64 := by
  unfold State.lineErrorGap
  simp only []
  (repeat' split)
  · exact h
  · simp [State.actOnGap, State.respond]
  · simp only []; rw [markTail_buffer]; exact h

/-- Taking a character clears it where the receive side holds it ready, and changes nothing else. -/
theorem takeChar_eq (s : State) (c : RxChar) : s.takeChar c = { s with link := { s.link with
    rx := { s.link.rx with ready := if s.link.rx.ready = some c then none else s.link.rx.ready } } } := by
  unfold State.takeChar
  split <;> rfl

theorem takeChar_buffer (s : State) (c) : (s.takeChar c).link.buffer = s.link.buffer := by
  unfold State.takeChar; split <;> rfl

end Sys2Proof.Machine
end

