-- ==== Sys2Proof/Laws/Tick.lean ====
section
/-! SUPPORT. What one tick and an idle step leave as they were. -/

namespace Sys2Proof.Machine

open Sys2Proof

/-- A tick of the write path changes the store and the write record's bytes read, nothing else. -/
theorem writeTick_keeps {s t : State} (h : s.writeTick = some t) :
    t = { s with store := t.store, feed := { s.feed with write := t.feed.write } } := by
  unfold State.writeTick at h
  cases hw : s.feed.write with
  | none => simp [hw] at h; subst h; simp
  | some w =>
    simp only [hw] at h
    split at h
    · cases h
    · cases h; rfl

/-- A tick of the running part: T rises by one, and these parts of the state are as they were (R1). -/
theorem clock_keeps {s t : State} (h : s.clock = some t) :
    t.t = s.t + 1 ∧ t.powered = s.powered ∧ t.cold = s.cold ∧ t.pins = s.pins ∧ t.cfg = s.cfg
      ∧ t.grid = { s.grid with refTaken := false } ∧ (∀ n, t.ctx n = (s.ctx n).tick (s.t + 1)) ∧ t.egress = s.egress.tick s.pins.done
      ∧ t.share = s.share ∧ t.loader = s.loader ∧ t.pending = s.pending ∧ t.fresh = s.fresh + 1
      ∧ t.link.queue = s.link.queue ∧ t.link.overflow = s.link.overflow ∧ t.link.latches = s.link.latches
      ∧ t.link.buffer = s.link.buffer ∧ t.link.parser = s.link.parser ∧ t.link.responder = s.link.responder := by
  unfold State.clock at h
  cases hw : s.writeTick with
  | none => simp [hw] at h
  | some u =>
    simp only [hw] at h
    have hu := writeTick_keeps hw
    have hl : ∀ (n : Time) (l : Link), (l.tick n).queue = l.queue ∧ (l.tick n).overflow = l.overflow
        ∧ (l.tick n).latches = l.latches ∧ (l.tick n).buffer = l.buffer ∧ (l.tick n).parser = l.parser
        ∧ (l.tick n).responder = l.responder := by
      intro n l
      unfold Link.tick
      (repeat' split) <;> simp
    injection h with h
    subst h
    have hc (n : Stream) : (u.mapCtxs fun _ => Context.tick (s.t + 1)).ctx n = (s.ctx n).tick (s.t + 1) := by
      rw [ctx_mapCtxs, hu]; rfl
    rw [hu] at hc ⊢
    refine ⟨rfl, ?_, ?_, ?_, ?_, ?_, hc, ?_⟩ <;> simp [hl]

/-- An idle step: one of the steps called for enters the queue, or one tick passes. -/
theorem idleStep_cases {s t : State} (h : s.idleStep = .next t) :
    (∃ c ∈ s.dueNow, t = { s with pending := [c], fresh := s.fresh + 1 })
      ∨ (s.dueNow = [] ∧ s.live = true ∧ s.clock = some t) ∨ (s.dueNow = [] ∧ s.live = false ∧ t = s.heldTick) := by
  unfold State.idleStep at h
  cases hc : s.dueNow with
  | nil =>
    simp only [hc] at h
    unfold State.tick at h
    cases hl : s.live with
    | false => simp [hl] at h; exact .inr (.inr ⟨rfl, rfl, h.symm⟩)
    | true =>
      simp only [hl, if_true] at h
      cases hk : s.clock with
      | none => simp [hk] at h
      | some u => simp only [hk] at h; cases h; exact .inr (.inl ⟨rfl, rfl, rfl⟩)
  | cons c cs =>
    simp only [hc] at h
    cases h
    refine .inl ⟨s.choose c cs, ?_, rfl⟩
    have hlt : Config.pick s.fresh % (cs.length + 1) < (c :: cs).length := Nat.mod_lt _ (Nat.succ_pos cs.length)
    unfold State.choose
    rw [List.getD_eq_getElem _ _ hlt]
    exact List.getElem_mem hlt

/-- A step carries out the command at the front, or is an idle step. -/
theorem step_cases {s t : State} (h : step s = .next t) :
    (∃ c rest, s.pending = c :: rest ∧ exec c { s with pending := rest } = .next t)
      ∨ (s.pending = [] ∧ s.idleStep = .next t) := by
  unfold step at h
  cases hp : s.pending with
  | nil => simp only [hp] at h; exact .inr ⟨rfl, h⟩
  | cons c rest => simp only [hp] at h; exact .inl ⟨c, rest, rfl, h⟩

end Sys2Proof.Machine
end

