-- ==== Sys2Proof/Laws/Steps.lean ====
section
/-! SUPPORT. What holds of a step by the command at the front, by a tick, or by an idle step. -/

namespace Sys2Proof.Machine

open Sys2Proof

/-- What every command and every tick keeps, every step keeps. -/
theorem step_inv {P : State → Prop} {s t : State} (h : step s = .next t)
    (hq : ∀ (u : State) (l : List Instr) (f : Nat), P u → P { u with pending := l, fresh := f })
    (he : ∀ c (u : State), u = { s with pending := u.pending } → exec c u = .next t → P t)
    (hck : s.live = true → s.clock = some t → P t) (hh : s.live = false → t = s.heldTick → P t) (hs : P s) : P t := by
  rcases step_cases h with ⟨c, rest, hp, hx⟩ | ⟨_, hi⟩
  · exact he c { s with pending := rest } rfl hx
  · rcases idleStep_cases hi with ⟨c, _, rfl⟩ | ⟨_, hl, hc⟩ | ⟨_, hl, hc⟩
    · exact hq s [c] (s.fresh + 1) hs
    · exact hck hl hc
    · exact hh hl hc

end Sys2Proof.Machine
end

