-- ==== Sys2Proof/Laws/Upkeep.lean ====
section
/-! SUPPORT. What every operation but a cold start keeps of the store and the link. One lemma an operation. -/

namespace Sys2Proof.Machine

open Sys2Proof

/-- The store is kept up: its form, its usable head, its RETIRED banks and retired set. -/
structure StoreUpkeep (a b : Store) : Prop where
  wf : a.wf = true → b.wf = true
  hd : a.headUsable → b.headUsable
  ret : ∀ j, (a.bank j).retired = true → (b.bank j).retired = true
  rset : ∀ x ∈ a.retired, x ∈ b.retired

/-- The link is kept up: the two latches that last, and the bounds of its queue and buffer. -/
structure LinkUpkeep (a b : Link) : Prop where
  br : a.latches.bankRetired = true → b.latches.bankRetired = true
  se : a.latches.storeExhausted = true → b.latches.storeExhausted = true
  q : a.queue.length ≤ 32 → b.queue.length ≤ 32
  bf : a.buffer.length ≤ 64 → b.buffer.length ≤ 64

/-- Store and link are kept up. -/
structure Upkeep (s t : State) : Prop where
  st : StoreUpkeep s.store t.store
  l : LinkUpkeep s.link t.link

theorem StoreUpkeep.refl (a : Store) : StoreUpkeep a a := ⟨id, id, fun _ => id, fun _ => id⟩

theorem LinkUpkeep.refl (a : Link) : LinkUpkeep a a := ⟨id, id, id, id⟩

theorem StoreUpkeep.trans {a b c : Store} (h : StoreUpkeep a b) (g : StoreUpkeep b c) :
    StoreUpkeep a c := ⟨g.wf ∘ h.wf, g.hd ∘ h.hd, fun j => g.ret j ∘ h.ret j, fun x => g.rset x ∘ h.rset x⟩

theorem LinkUpkeep.trans {a b c : Link} (h : LinkUpkeep a b) (g : LinkUpkeep b c) :
    LinkUpkeep a c := ⟨g.br ∘ h.br, g.se ∘ h.se, g.q ∘ h.q, g.bf ∘ h.bf⟩

theorem Upkeep.refl (s : State) : Upkeep s s := ⟨.refl _, .refl _⟩

theorem Upkeep.trans {a b c : State} (h : Upkeep a b) (g : Upkeep b c) :
    Upkeep a c := ⟨h.st.trans g.st, h.l.trans g.l⟩

theorem Upkeep.of {s t : State} (h1 : t.store = s.store) (h2 : t.link = s.link) :
    Upkeep s t := ⟨by rw [h1]; exact .refl _, by rw [h2]; exact .refl _⟩

theorem LinkUpkeep.of {a b : Link} (h1 : b.latches.bankRetired = a.latches.bankRetired)
    (h2 : b.latches.storeExhausted = a.latches.storeExhausted) (h3 : b.queue = a.queue) (h4 : b.buffer = a.buffer) :
    LinkUpkeep a b :=
  ⟨by rw [h1]; exact id, by rw [h2]; exact id, by rw [h3]; exact id, by rw [h4]; exact id⟩

theorem Upkeep.then {s t u : State} (h : Upkeep s t) (h1 : u.store = t.store) (h2 : u.link = t.link) :
    Upkeep s u := h.trans (.of h1 h2)

/-! ### The store -/

theorem storeUpkeep_wb (a b : Store) (h : b = { a with bytes := b.bytes, parity := b.parity })
    (hw : a.wf = true → b.wf = true) : StoreUpkeep a b :=
  ⟨hw, by rw [h]; exact id, by rw [h]; exact fun _ => id, by rw [h]; exact fun _ => id⟩

theorem storeUpkeep_freeChain (st : Store) (f) : StoreUpkeep st (st.freeChain f) := by
  refine ⟨?_, headUsable_freeChain st f, ?_, ?_⟩
  · rw [freeChain_eq]; exact id
  · rw [freeChain_eq]; exact fun _ => id
  · rw [freeChain_eq]; intro x hx; exact (mem_retireBlocks ..).mpr (.inr hx)

theorem storeUpkeep_foldFree (cut : List Record) (st : Store) :
    StoreUpkeep st (cut.foldl (fun st r => st.freeChain r.first) st) := by
  induction cut generalizing st with
  | nil => exact .refl _
  | cons r rs ih => rw [List.foldl_cons]; exact (storeUpkeep_freeChain ..).trans (ih _)

theorem storeUpkeep_cascade (st : Store) : StoreUpkeep st st.cascade := by
  refine ⟨?_, fun _ => headUsable_cascade st, ?_, ?_⟩
  · rw [cascade_eq]; exact id
  · rw [cascade_eq]; exact fun _ => id
  · rw [cascade_eq]; intro x hx; exact (mem_retireBlocks ..).mpr (.inr hx)

theorem rset_takeBlocks {n : Nat} {st st' : Store} {bs : List Block} (h : st.takeBlocks n = some (bs, st')) :
    ∀ x ∈ st.retired, x ∈ st'.retired := by
  induction n generalizing st st' bs with
  | zero => simp only [Store.takeBlocks] at h; cases h; exact fun _ => id
  | succ n ih =>
    simp only [Store.takeBlocks] at h
    split at h
    · cases h
    rename_i b st1 hh
    split at h
    · cases h
    rename_i bs' st2 h2
    cases h
    intro x hx
    apply ih h2
    unfold Store.takeHead at hh
    split at hh
    · cases hh
    · cases hh; exact (storeUpkeep_cascade _).rset x hx

theorem storeUpkeep_allocate {n : Nat} {st st' : Store} {first : Block} (h : st.allocate n = some (first, st')) :
    StoreUpkeep st st' := by
  obtain ⟨h1, h2, h3⟩ := allocate_keeps h
  refine ⟨?_, h2, ?_, ?_⟩
  · unfold Store.wf
    rw [h1]
    simp only [Bool.and_eq_true]
    rintro ⟨⟨a, b⟩, c⟩
    exact ⟨⟨a, b⟩, h3 c⟩
  · rw [h1]; exact fun _ => id
  · unfold Store.allocate at h
    split at h
    · rename_i b bs st1 hk
      cases h
      intro x hx
      rw [(linkBlocks_keeps _ _).1]
      exact rset_takeBlocks hk x hx
    · cases h

theorem storeUpkeep_setBank_same (st : Store) (i : Fin 4) (b : Bank) (h : b.retired = (st.bank i).retired) :
    StoreUpkeep st (st.setBank i b) := by
  have hr : ∀ j, ((st.setBank i b).bank j).retired = (st.bank j).retired := by
    intro j; rw [bank_setBank]; split
    · rename_i e; rw [e, h]
    · rfl
  refine ⟨id, ?_, fun j hj => (hr j).trans hj, fun _ => id⟩
  intro hh b hb
  have := hh b hb
  unfold Store.isRetired at *
  rw [hr]; exact this

theorem storeUpkeep_retire (st : Store) (j : Fin 4) (b : Bank) (h : b.retired = true) :
    StoreUpkeep st ((st.setBank j b).cascade) := by
  refine ⟨?_, fun _ => headUsable_cascade _, ?_, fun x hx => (storeUpkeep_cascade _).rset x hx⟩
  · intro hw; exact (storeUpkeep_cascade _).wf hw
  · intro k hk
    refine (storeUpkeep_cascade _).ret k ?_
    rw [bank_setBank]; split
    · exact h
    · exact hk

/-! ### Each operation -/

theorem linkUpkeep_raise (s : State) (c a b) : LinkUpkeep s.link (s.raise c a b).link := by
  unfold State.raise
  split
  · rename_i h
    refine ⟨id, id, fun _ => ?_, id⟩
    simp [Config.queueDepth] at h ⊢; omega
  · exact .of rfl rfl rfl rfl

theorem upkeep_raise (s : State) (c a b) : Upkeep s (s.raise c a b) :=
    ⟨by rw [raise_store]; exact .refl _, linkUpkeep_raise ..⟩

theorem upkeep_raiseAll (s : State) (es) : Upkeep s (s.raiseAll es) := by
  unfold State.raiseAll
  induction es generalizing s with
  | nil => exact .refl _
  | cons e es ih => rw [List.foldl_cons]; exact (upkeep_raise ..).trans (ih _)

theorem upkeep_trimWork (s : State) (n cut) : Upkeep s (s.trimWork n cut) := by
  unfold State.trimWork
  refine Upkeep.trans ?_ (upkeep_raise ..)
  exact ⟨storeUpkeep_foldFree .., .refl _⟩

theorem upkeep_streamEpoch (s : State) (n e) : Upkeep s (s.streamEpoch n e) := by
  unfold State.streamEpoch
  simp only []
  (repeat' split)
  · exact .refl _
  · refine Upkeep.trans ?_ (upkeep_trimWork ..); exact .of rfl rfl
  · refine Upkeep.trans ?_ (upkeep_raise ..); exact .of rfl rfl
  · exact .of rfl rfl

theorem upkeep_stageAll (s : State) (k) : Upkeep s (s.stageAll k) := .of (by simp) (by simp)

theorem upkeep_shareEpoch (s : State) : Upkeep s s.shareEpoch := by
  unfold State.shareEpoch
  simp only []
  split
  · exact .refl _
  · refine Upkeep.trans ?_ (upkeep_stageAll ..)
    refine Upkeep.then (Upkeep.trans ?_ (upkeep_raiseAll ..)) rfl rfl
    exact .of rfl rfl

theorem upkeep_paceEpoch (s : State) (e) : Upkeep s (s.paceEpoch e) := by
  unfold State.paceEpoch
  simp only []
  split
  · refine Upkeep.trans ?_ (upkeep_raiseAll ..); exact .of rfl rfl
  · exact .refl _

theorem upkeep_deliverAll (s : State) (e ds) : Upkeep s (s.deliverAll e ds) := by
  induction ds generalizing s with
  | nil => exact .refl _
  | cons d ds ih =>
    rw [deliverAll_cons]
    refine Upkeep.trans ?_ (ih _)
    cases d with
    | stream n => exact upkeep_streamEpoch ..
    | share => exact upkeep_shareEpoch ..
    | pace => exact upkeep_paceEpoch ..
    | event r => exact upkeep_raise ..

theorem upkeep_takeFrameEpoch (s : State) (es) : Upkeep s (s.takeFrameEpoch es) := by
  unfold State.takeFrameEpoch
  refine Upkeep.trans ?_ (upkeep_deliverAll ..); exact .of rfl rfl

theorem upkeep_takeFieldEpoch (s : State) (h) : Upkeep s (s.takeFieldEpoch h) := by
  unfold State.takeFieldEpoch
  refine Upkeep.trans ?_ (upkeep_deliverAll ..); exact .of rfl rfl

theorem upkeep_slew (s : State) (e es) : Upkeep s (s.slew e es) := by
  unfold State.slew
  simp only []
  split
  · refine Upkeep.trans ?_ (upkeep_takeFrameEpoch ..); exact .of rfl rfl
  · refine Upkeep.trans ?_ (upkeep_raiseAll ..); exact .of rfl rfl

theorem upkeep_lockPulse (s : State) (cr) : Upkeep s (s.lockPulse cr) := by
  have hs : ∀ a b, Upkeep s (s.stepAndLock cr a b) := by
    intro a b
    unfold State.stepAndLock
    refine Upkeep.then (Upkeep.trans ?_ (upkeep_raiseAll ..)) rfl rfl; exact .of rfl rfl
  unfold State.lockPulse
  simp only []
  (repeat' split) <;> first
   | exact .refl _
   | exact hs _ _
   | (refine Upkeep.trans ?_ (upkeep_slew ..); exact .of rfl rfl)
   | (refine Upkeep.trans ?_ (upkeep_raise ..); exact .of rfl rfl)
   | exact .of rfl rfl

theorem upkeep_sampleRef (s : State) (b) : Upkeep s (s.sampleRef b) := by
  unfold State.sampleRef State.acceptPulse
  simp only []
  (repeat' split) <;> first
   | exact .of rfl rfl
   | (refine Upkeep.trans ?_ (upkeep_lockPulse ..); exact .of rfl rfl)

theorem upkeep_retireBank (s : State) (j b) : Upkeep s (s.retireBank j b) := by
  unfold State.retireBank
  simp only []
  have h1 : ∀ c a d, Upkeep s (State.raise { s with
      store := (s.store.setBank j { s.store.bank j with retired := true }).cascade
      link := { s.link with latches := { s.link.latches with bankRetired := true } } } c a d) := by
    intro c a d
    refine Upkeep.trans ?_ (upkeep_raise ..)
    exact ⟨storeUpkeep_retire _ _ _ rfl, ⟨fun _ => rfl, id, id, id⟩⟩
  split
  · refine Upkeep.trans ?_ (upkeep_raise ..)
    refine Upkeep.trans (h1 .bankRetired j.val b.toNat) ?_
    exact ⟨.refl _, ⟨id, fun _ => rfl, id, id⟩⟩
  · exact h1 _ _ _

theorem upkeep_parityError (s : State) (b) : Upkeep s (s.parityError b) := by
  unfold State.parityError
  simp only []
  have h1 : ∀ c a d, Upkeep s (State.raise { s with
      store := s.store.setBank (bankOf b)
        { s.store.bank (bankOf b) with
          integrity := true
          errors := min ((s.store.bank (bankOf b)).errors + 1) 2 } } c a d) := by
    intro c a d
    refine Upkeep.trans ?_ (upkeep_raise ..)
    exact ⟨storeUpkeep_setBank_same _ _ _ rfl, .refl _⟩
  split
  · exact (h1 _ _ _).trans (upkeep_retireBank ..)
  · exact h1 _ _ _

theorem upkeep_abandonSlot (s : State) (sl) : Upkeep s (s.abandonSlot sl) := by
  unfold State.abandonSlot State.releaseSlot
  exact ⟨storeUpkeep_freeChain .., .refl _⟩

theorem upkeep_grantHead (s t : State) (n) (h : s.grantHead n = .next t) : Upkeep s t := by
  unfold State.grantHead at h
  simp only [] at h
  split at h
  · rename_i cfg r rest hc hr
    (repeat' split at h)
    · cases h
    · rename_i st hst
      cases h
      refine ⟨?_, ?_⟩
      · obtain ⟨a, b⟩ := stampPacket_keeps hst
        exact storeUpkeep_wb _ _ a b
      · simp; exact .refl _
    · cases h
      refine ⟨storeUpkeep_freeChain .., ?_⟩
      simp; exact .refl _
  · cases h; exact .refl _

theorem upkeep_takeNotice (s : State) (n) : Upkeep s (s.takeNotice n) := by
  unfold State.takeNotice
  (repeat' split)
  · refine Upkeep.trans ?_ (upkeep_raise ..); exact ⟨.refl _, .of rfl rfl rfl rfl⟩
  · refine Upkeep.trans ?_ (upkeep_raiseAll ..); exact .of rfl rfl
  · refine Upkeep.then (Upkeep.trans ?_ (upkeep_raiseAll ..)) rfl rfl; exact .of rfl rfl

theorem upkeep_judgeNotice (s : State) (b o) : Upkeep s (s.judgeNotice b o) := by
  unfold State.judgeNotice
  simp only []
  split
  · exact upkeep_takeNotice ..
  · exact upkeep_raise ..

theorem upkeep_indexOffer (s : State) (n o) : Upkeep s (s.indexOffer n o) := by
  unfold State.indexOffer
  simp only []
  split
  · refine Upkeep.trans ?_ (upkeep_raise ..); exact .of rfl rfl
  · exact .of rfl rfl

theorem upkeep_takeDiscard (s : State) (n o) : Upkeep s (s.takeDiscard n o) := by
  have h : ∀ (u : State) (c : Context), ((u.answer n).setCtx n c).store = u.store
    ∧ ((u.answer n).setCtx n c).link = u.link := fun _ _ => ⟨rfl, rfl⟩
  unfold State.takeDiscard
  exact (upkeep_indexOffer s n o).then (h _ _).1 (h _ _).2

theorem upkeep_storeOffer (s : State) (n o) : Upkeep s (s.storeOffer n o) := by
  unfold State.storeOffer
  split
  · exact .refl _
  · rename_i first st hst
    have h : Upkeep s (State.indexOffer { s with store := st } n o) :=
      Upkeep.trans (b := { s with store := st }) ⟨storeUpkeep_allocate hst, .refl _⟩ (upkeep_indexOffer ..)
    exact h.then rfl rfl

theorem upkeep_carryOut (s : State) (n o j) : Upkeep s (s.carryOut n o j) := by
  cases j <;> simp only [State.carryOut]
  · exact .refl _
  · unfold State.takeUnconfigured
    simp only []
    split
    · exact .of rfl rfl
    · refine Upkeep.trans ?_ (upkeep_raise ..); exact .of rfl rfl
  · exact upkeep_takeDiscard ..
  · unfold State.takeBadLength
    refine Upkeep.trans ?_ (upkeep_raise ..); exact .of rfl rfl
  · exact upkeep_storeOffer ..

theorem upkeep_select (s : State) (n) : Upkeep s (s.select n) := by
  unfold State.select
  split
  · exact .refl _
  · refine Upkeep.trans ?_ (upkeep_carryOut ..); exact .of rfl rfl

theorem upkeep_completeWrite (s : State) (w) : Upkeep s (s.completeWrite w) := by
  have ha : ∀ (u : State) (c : Stream), ((u.answer c).freePath).store = u.store
    ∧ ((u.answer c).freePath).link = u.link := fun _ _ => ⟨rfl, rfl⟩
  unfold State.completeWrite
  simp only []
  split
  · exact ⟨storeUpkeep_freeChain .., .refl _⟩
  · exact .of rfl rfl

theorem upkeep_offerFalls (s : State) (n) : Upkeep s (s.offerFalls n) := by
  unfold State.offerFalls
  (repeat' split) <;> first
   | exact .of rfl rfl
   | (unfold State.withdraw; refine Upkeep.trans ?_ (upkeep_raise ..); exact ⟨storeUpkeep_freeChain .., .refl _⟩)

/-- Request work keeps store and link up. -/
theorem RequestWork.upkeep {s t : State} (m : RequestWork s t)
    (hb : s.link.buffer.length ≤ 64 → t.link.buffer.length ≤ 64) : Upkeep s t := by
  refine ⟨⟨?_, ?_, fun j hj => (m.banks j).trans hj, ?_⟩,
    ⟨by rw [m.br]; exact id, by rw [m.se]; exact id, fun h => m.q.trans h, hb⟩⟩
  · unfold Store.wf; rw [m.bytes, m.parity, m.links]; exact id
  · intro h b hb
    rw [m.free] at hb
    have := h b hb
    unfold Store.isRetired at *
    rw [m.banks]; exact this
  · rw [m.retired]; exact fun _ => id

end Sys2Proof.Machine
end

