-- ==== Sys2Proof/WellFormed.lean ====
section
/-! DEFINITION. Which commands the pins of the part can carry. -/

namespace Sys2Proof

/-- A command that the outside can send: an offer's DATA has as many bytes as its LENGTH says (R129). Every other
operand's type is already its range. -/
def Instr.wellFormed : Instr → Bool
  | .offerPresented _ length _ data => data.length == length.toNat
  | .coldAssert | .powerUp | .coldRelease | .imageByte _ | .imageStalled | .frameEpoch | .fieldEpoch
  | .refPulseAccepted | .starve _ | .grant | .egressByte | .done | .egressStall | .linkChange _ | .intakeSelection
  | .writeComplete | .feedWithdrawn _ | .noticeDue | .noticeStart | .arbitrationLost | .noticeBiterr
  | .noticeComplete | .noticeFraming | .receiveSettled | .busStuck | .busRestored | .requestByte _ | .lineError
  | .responseComplete | .discardEnd | .requestExpired | .startMarkEdge | .dataBitSampled | .refSampled _
  | .offerDeasserted _ | .powerRemoved => true

end Sys2Proof
end

