-- ==== Sys2Proof/Tests/Slice0.lean ====
section
/-! SUPPORT. Tests on one step each, from the spec's worked sequences, and for every statement that has hypotheses a state
that meets them. -/

namespace Sys2Proof.Tests

-- One theorem at a time: each waiting kernel evaluation would hold a thread of its own.
set_option Elab.async false

open Sys2Proof Sys2Proof.Machine

/-! ### Helpers -/

/-- The next state of an answer. -/
def nextOf : Result → Option State
  | .next t => some t
  | .fault _ => none
  | .refused _ => none

/-- What the tests look at in the answer of a command. -/
def look {α : Type} (c : Instr) (s : State) (f : State → α) : Option α := (nextOf (exec c s)).map f

/-- The codes, subjects and details of the queued events, oldest first. -/
def events (t : State) : List Raised :=
  t.link.queue.map fun e => { code := e.code, subject := e.subject.toNat, detail := e.detail.toNat }

/-- A 50 Hz part of the worked sequences: station 5 with b = 256. -/
def part50 : PartCfg :=
  { stationId := 5, bitTime := 256, noticeDelay := 500000, budget := 10000, n := 2500000, d := 1, refOn := true,
    roff := 0, wlock := 1000, slewLimit := 16, mn := 9, md := 12500, tlate := 10000, stallLimit := 100000 }

/-- A part in RUN, at tick `t`, with the given grid. -/
def runAt (t : Time) (g : Grid) : State :=
  { State.reset with
    t := t, loader := { Loader.cold with part := .run }, cfg := part50, grid := { g with running := true },
    egress := { Egress.cold with linkUp := true },
    pace := { Pace.cold with bus := .normal, recv := .idle } }

/-- A part in RUN with its next epochs far away. -/
def runT (t : Time) : State := runAt t { Grid.cold with eTaken := t, eNext := after t 2000000 }

/-- Stream 3 of the worked sequences: FIXED, C = 4, O = 100,000, W = 2,000,000. -/
def cfg3 : StreamCfg :=
  { cls := .fixed, cadence := .frame, c := 4, o := 100000, w := 2000000, size := 1000, depth := 8, policy := .trim,
    stampOffset := none, seqOffset := none, idleLimit := 3, imin := 2500000, wCap := 2400000, claim := 2 }

/-- A record of a ring. -/
def record (i : Nat) (e : Bool) (first : Block) : Record :=
  { index := i, frameEnd := e, len := 100, first := first, arrival := 0 }

/-- A SENDING context of stream 3's configuration. -/
def sendingCtx (ring : List Record) (iNext : Nat) (tNext : Time) : Context :=
  { Context.cold with
    cfg := some cfg3, st := .sending, ring := ring, wEff := 2000000, base := 10000000, iNext := iNext, tNext := tNext }

/-! ### Well-formedness -/

theorem test_wf_refuses_short_data : (Instr.offerPresented 3 16 true [0x47#8]).wellFormed = false := by decide

theorem test_wf_takes_full_data : (Instr.offerPresented 3 1 true [0x47#8]).wellFormed = true := by decide

theorem test_no_word_spells_a_command : decodeTableWord 8 0 = none := rfl

/-! ### The worked sequences -/

/-- Chapter 1, 59.94 Hz: the grid at the frame epoch of 2,086,416. -/
theorem test_frame_epoch_grid_5994 :
    (fun g : Grid => (g.eTaken, g.rem, g.k, g.eNext, g.h))
      (Grid.takeEpoch { part50 with n := 6256250, d := 3 }
        { Grid.cold with eTaken := 1000, eNext := 2086416, rem := 2 }).1
      = (2086416#48, 1, 1#32, 4171833#48, some 3129124#48) := by decide +kernel

/-- Chapter 1, loss of the reference: epoch E5 finds the miss count at 3. -/
theorem test_frame_epoch_enters_holdover :
    (fun g : Grid => (g.lock, g.miss, g.pulse)) (Grid.takeEpoch part50
      { Grid.cold with eTaken := 0, eNext := 2500000, lock := .locked, miss := 3 }).1
      = (.holdover, 0, false) := by decide +kernel

/-- Chapter 1, 59.94 Hz: RUN entry at T = 1,000. -/
theorem test_run_entry_grid_5994 :
    (fun g : Grid => (g.eTaken, g.rem, g.k, g.eNext, g.h))
      (Grid.enterRun { part50 with n := 6256250, d := 3 } 1000 .cold)
      = (1000#48, 2, 0#32, 2086416#48, none) := by decide +kernel

/-- Chapter 1, slewing onto a reference that lags by 40 ticks: the first pulse. -/
theorem test_pulse_slews :
    look .refPulseAccepted
      (runAt 12500043 { Grid.cold with
        eTaken := 12500000, eNext := 15000000, h := some 13750000, lock := .locked, qual := .rising 3, cr := 12500040 })
      (fun t => (t.grid.eNext, t.grid.h, t.grid.miss, t.grid.pulse))
      = some (15000016#48, some 13750000#48, 0, true) := by decide +kernel

/-- Chapter 1, a re-patched reference: the third out-of-window pulse steps and cancels the field epoch. -/
theorem test_pulse_steps_and_cancels :
    look .refPulseAccepted
      { runAt 100250003 { Grid.cold with
          eTaken := 100000000, eNext := 102500000, h := some 101250000, lock := .locked, oow := 2, qual := .rising 3,
          cr := 100250000 } with cfg := { part50 with roff := 1000000 } }
      (fun t => (t.grid.eNext, t.grid.h, t.grid.oow, events t))
      = some (101250000#48, none, 0, [⟨.refStep, 0, 2⟩]) := by decide +kernel

/-- R9: the first high sample after ARMED captures T. -/
theorem test_ref_sample_captures :
    look (.refSampled true) (runAt 777 { Grid.cold with eNext := 5000, qual := .armed })
      (fun t => (t.grid.qual, t.grid.cr)) = some (.rising 1, 777#48) := by decide +kernel

/-- Chapter 2, one frame through the states: t_2 reached with an empty ring. -/
theorem test_starve_counts :
    look (.starve 3) ((runT 11100000).setCtx 3 (sendingCtx [] 2 11100000))
      (fun t => ((t.ctx 3).st, (t.ctx 3).starveCounted, (t.ctx 3).counts.starvedFrames, t.egress.starve))
      = some (.starved, true, 1#32, 0x0008#16) := by decide +kernel

/-- Chapter 2, one frame through the states: the grant of packet 0 leaves t_next at t_1. -/
theorem test_grant_sets_next_time :
    look .grant
      { (runT 10100000).setCtx 3 (sendingCtx [record 0 false 0, record 1 false 1] 0 10100000) with
        store := { Store.cold with free := [] } }
      (fun t => ((t.ctx 3).iNext, (t.ctx 3).tNext, (t.ctx 3).st, t.egress.slot.isSome))
      = some (1, 10600000#48, .sending, true) := by decide +kernel

/-- Chapter 4, three due heads and a tie: the grants at 1,001,000 and 1,003,000. -/
theorem test_grant_order :
    (let flex : StreamCfg := { cfg3 with cls := .flex }
     let due (c : StreamCfg) (t : Time) : Context := { sendingCtx [record 0 false 0] 0 t with cfg := some c }
     let s := (((runT 1001000).setCtx 2 (due flex 1000500)).setCtx 5 (due cfg3 1000500)).setCtx 7 (due cfg3 1000200)
     (s.grantChoice, (s.setCtx 7 .cold).grantChoice)) = (some 7, some 5) := by decide +kernel

/-- Chapter 4, stamps near the wrap of T. -/
theorem test_stamp_values :
    [stampValue part50 1000000000, stampValue part50 281474973710656, stampValue part50 2000000]
      = [720000, 798518159, 1440] := by decide +kernel

/-- Chapter 3, effective windows at 50 Hz. -/
theorem test_effective_windows :
    (let flex (w : Nat) : StreamCfg := { cfg3 with cls := .flex, w := w }
     [effectiveWindow cfg3 256, effectiveWindow (flex 1600000) 319, effectiveWindow (flex 2000000) 319,
       effectiveWindow (flex 1600000) 1024]) = [2000000, 1993750, 2400000, 2400000] := by decide +kernel

/-- A slot emitting stream 4's packet of sequence number 211, granted at 5,000,000. -/
def slot4 : Slot := { stream := 4, first := 0, len := 100, seq := 211, grantTime := 5000000, taken := 0 }

/-- A part in RUN with a packet in the slot, at tick `t`. -/
def emitting (t : Time) : State :=
  { runT t with
    egress := { (runT t).egress with slot := some slot4, offer := true }
    store := { Store.cold with free := [9] } }

/-- Chapter 4, a stall. -/
theorem test_stall_abandons :
    look .egressStall (emitting 5100000)
      (fun t => (t.egress.slot, (t.ctx 4).counts.abandoned, t.link.latches.egressStall, events t))
      = some (none, 1#32, true, [⟨.egressStall, 4, 211⟩]) := by decide +kernel

/-- R76, R84: DONE frees the chain and withdraws OFFER. -/
theorem test_done_frees :
    look .done (emitting 5000100) (fun t => (t.egress.slot, t.egress.offer, t.store.free))
      = some (none, false, [9#13, 0#13]) := by decide +kernel

/-- R76: a byte with matching parity is driven on DATA. -/
theorem test_egress_byte :
    look .egressByte (emitting 5000001) (fun t => (t.egress.data, t.egress.slot.map (·.taken)))
      = some (0#8, some 1) := by decide +kernel

/-- R79, R152: a byte whose parity fails abandons the packet and sets the integrity bit. -/
theorem test_egress_byte_parity :
    look .egressByte { emitting 5000001 with store := { Store.cold with free := [9], parity := [(0, true)] } }
      (fun t => (t.egress.slot, t.egress.abandon, (t.store.bank 0).integrity, events t))
      = some (none, true, true, [⟨.parityError, 0, 0⟩]) := by decide +kernel

/-- Chapter 8, a bank forgiven and then retired: the second error of bank 1. -/
theorem test_second_error_retires :
    (let s0 : State := { runT 0 with store := { Store.cold with
       free := [], banks := #v[.cold, { integrity := true, errors := 1, retired := false }, .cold, .cold] } }
     let t := s0.parityError 2041
     (t.store.bank 1, t.link.latches.bankRetired, events t))
      = ({ integrity := true, errors := 2, retired := true }, true, [⟨.parityError, 1, 2041⟩, ⟨.bankRetired, 1, 2041⟩])
      := by decide +kernel

/-- Chapter 8, the drain through the head: the chain 4,000, 4,001, 4,003 with 4,002 of RETIRED bank 2 removed. -/
theorem test_allocation_drains_head :
    (let st : Store := { Store.cold with
       free := [4000, 4001, 4002, 4003, 4004], banks := #v[.cold, .cold, { Bank.cold with retired := true }, .cold] }
     (st.allocate 3).map fun r => (r.2.chain r.1, r.2.free, r.2.retired))
      = some ([4000#13, 4001#13, 4003#13], [4004#13], [4002#13]) := by decide +kernel

/-- Chapter 4, an outage: LINK_UP falls. -/
theorem test_link_falls :
    look (.linkChange false) (runT 7200000) (fun t => (t.egress.linkUp, events t))
      = some (false, [⟨.linkDown, 0, 0⟩]) := by decide +kernel

/-- An offer of the worked sequences, its bytes left out. -/
def offer (len : Nat) (e : Bool) : Offer := { len := len, frameEnd := e, data := [] }

/-- A channel with its offer PENDING. -/
def pendingChan (o : Offer) : Channel := { Channel.cold (some o) with st := .pending, armed := false }

/-- Chapter 7, pass-over for a full ring: the pointer stands at 3, channels 2, 5 and 9 present, stream 5 is full. -/
def passOver : State :=
  let cfg : StreamCfg := { cfg3 with depth := 1 }
  let s := ((runT 1000).setCtx 2 { Context.cold with cfg := some cfg, st := .quiet }).setCtx 9
    { Context.cold with cfg := some cfg, st := .quiet }
  let s := s.setCtx 5 { sendingCtx [record 0 false 4] 0 1050 with cfg := some cfg }
  let s := ((s.setChan 2 (pendingChan (offer 1438 false))).setChan 5 (pendingChan (offer 1438 false))).setChan 9
    (pendingChan (offer 1438 false))
  { s with feed := { s.feed with ptr := 3 }, store := { Store.cold with free := [10, 11, 12, 13, 14, 15, 16] } }

/-- Chapter 7, pass-over for a full ring: 5 is held and 9 is stored, the pointer at 10. -/
theorem test_selection_passes_over :
    look .intakeSelection passOver
      (fun t => (t.feed.ptr, t.feed.write.map (·.channel), (t.chan 9).st, (t.chan 5).st, t.store.free))
      = some (10, some 9, .writing, .pending, [16#13]) := by decide +kernel

/-- R129: an offer presented on an EMPTY channel is PENDING. -/
theorem test_offer_pends :
    look (.offerPresented 5 16 true (List.replicate 16 0x47#8)) (runT 0)
      (fun t => ((t.chan 5).st, (t.chan 5).pin.map (·.len))) = some (.pending, some 16) := by decide +kernel

/-- R142: OFFER deasserted while PENDING empties the channel. -/
theorem test_offer_gone :
    look (.offerDeasserted 5) passOver (fun t => ((t.chan 5).st, (t.chan 5).armed, events t))
      = some (.empty, true, []) := by decide +kernel

/-- A part writing index 3 of stream 3 to block 7, with `read` of its 1,200 bytes read. -/
def writing (read : Nat) (discard : Bool) : State :=
  let s := (runT 15000035).setCtx 3 { sendingCtx [] 2 0 with st := .drained, discard := discard }
  let s := s.setChan 3 { Channel.cold (some (offer 1200 false)) with st := .writing, armed := false, index := 4 }
  { s with
    feed := { s.feed with write := some {
      channel := 3, stream := 3, index := 3, frameEnd := false, len := 1200, first := 7, start := 14999960,
      read := read } }
    store := { Store.cold with free := [9] } }

/-- Chapter 7, a TRIM during a write: the end of the write finds the flag set, frees the chain and counts. -/
theorem test_write_ends_under_discard :
    look .writeComplete (writing 1200 true)
      (fun t => ((t.ctx 3).counts.trimmed, (t.ctx 3).ring, (t.ctx 3).discard, t.feed.take, t.store.free))
      = some (1#32, [], true, 0x0008#16, [9#13, 7#13]) := by decide +kernel

/-- R142: a withdrawal during a write undoes the index and frees the chain. -/
theorem test_withdrawal_undoes :
    look (.feedWithdrawn 3) (writing 160 false)
      (fun t => ((t.chan 3).index, (t.chan 3).st, t.feed.write.isSome, t.store.free, events t))
      = some (3, .empty, false, [9#13, 7#13], [⟨.feedWithdrawn, 3, 160⟩]) := by decide +kernel

/-- Chapter 5, the worked computation: k is 319. -/
theorem test_share_factor : shareFactor 10000 5178 6000 = (319, false, 0) := by decide +kernel

/-- Chapter 5, judging alignment: station 7's difference of 47 against the limit of 17. -/
theorem test_alignment :
    (alignLimit part50, offsetDiff 7844 7891,
      judgeAligned part50 (heardOf (noticeBits 3 7844 0 0 ⟨false, false, false, false⟩) 7891) false) = (17, 47, true) := by decide +kernel

/-- Chapter 6, checks of a few notices: ALERT alone, LOCKED alone, all four. -/
theorem test_notice_checks :
    ((fun f => (noticeCheck (fieldBits 0 0 0 0 f)).toNat) ⟨false, false, false, true⟩,
      (fun f => (noticeCheck (fieldBits 0 0 0 0 f)).toNat) ⟨true, false, false, false⟩,
      (fun f => (noticeCheck (fieldBits 0 0 0 0 f)).toNat) ⟨true, true, true, true⟩)
      = (0b00000111, 0b00111000, 0b00101101) := by decide +kernel

/-- A notice record of interval 300. -/
def notice (st : NoticeState) (failed holdoff : Nat) : Notice :=
  { interval := 300, due := 100, st := st, failed := failed, holdoff := holdoff, since := 0 }

/-- A part whose attempt began at tick 0 with the given bits, at tick `t` with the line at `level`. -/
def sendingAt (t : Time) (bits : List Bool) (failed : Nat) (level : Bool) : State :=
  { runT t with
    pace := { (runT t).pace with
      level := level, recv := .data, cur := some (notice .onLine failed 0),
      attempt := some { s0 := 0, bits := bits, comparing := true } } }

/-- Chapter 6: P + 2,048 on a line high since before P. -/
theorem test_notice_starts_after_quiet :
    (look .noticeStart { runT 2048 with pace := { (runT 2048).pace with
        cur := some (notice .waiting 0 0), highBefore := 2048 } }
      (fun t => (t.pace.cur.map (·.st), t.paceLow)),
     look .noticeStart { runT 2047 with pace := { (runT 2047).pace with
        cur := some (notice .waiting 0 0), highBefore := 3000 } }
      (fun t => (t.pace.cur.map (·.st), t.paceLow)))
      = (some (some .onLine, true), some (some .waiting, false)) := by decide +kernel

/-- R116: the record is due. -/
theorem test_notice_due :
    look .noticeDue { runT 100 with pace := { (runT 100).pace with cur := some (notice .scheduled 0 0) } }
      (fun t => t.pace.cur.map (fun r => (r.st, r.since))) = some (some (.waiting, 100#48)) := by decide +kernel

/-- Chapter 6, three stations arbitrate: station 5 loses at bit 1, 896 ticks after its start. -/
theorem test_arbitration_lost :
    look .arbitrationLost (sendingAt 896 (noticeBits 5 0 0 0 ⟨false, false, false, false⟩) 0 false)
      (fun t => (t.pace.cur.map (fun r => (r.st, r.failed)), t.pace.attempt.isSome, events t))
      = some (some (.waiting, 0), false, []) := by decide +kernel

/-- Chapter 6, three failed attempts: bit 20 sent 1 and sampled 0 at tick 5,760, holdoff 6,144. -/
theorem test_first_bit_error :
    look .noticeBiterr (sendingAt 5760 (List.replicate 64 true) 0 false)
      (fun t => (t.pace.cur.map (fun r => (r.st, r.failed, r.holdoff)), events t))
      = some (some ⟨.waiting, 1, 6144⟩, [⟨.noticeBiterr, 5, 20⟩]) := by decide +kernel

/-- Chapter 6, three failed attempts: the third, on bit 7 at s0 + 2,432, gives the notice up. -/
theorem test_third_bit_error :
    look .noticeBiterr (sendingAt 2432 (List.replicate 64 true) 2 false)
      (fun t => (t.pace.cur.map (fun r => (r.st, r.failed)), events t))
      = some (some (.givenUp, 3), [⟨.noticeBiterr, 5, 7⟩, ⟨.noticeSkipped, 5, 3⟩]) := by decide +kernel

/-- A part receiving, with the given bits sampled and the present bit's sample falling at this tick. -/
def receivingAt (bits : List Bool) (level : Bool) : State :=
  { runT 10128 with
    pace := { (runT 10128).pace with recv := .data, bits := bits, level := level, bitStart := some 10000 } }

/-- R114: a notice of station 3 whose last check bit is wrong raises NOTICE_CHECK. -/
theorem test_notice_check_fails :
    look .noticeComplete (let bits := noticeBits 3 0 0 0 ⟨false, false, false, true⟩
       receivingAt (bits.take 63) (!bits.getD 63 false))
      (fun t => (t.pace.recv, (events t).map (fun e => (e.code, e.subject))))
      = some (.settling, [(.noticeCheck, 3)]) := by decide +kernel

/-- R118: at its own bit 63 the sender's record is SENT and its receive side ends the notice, though it has sampled only 40
bits of it. -/
theorem test_notice_sent_ends_reception :
    look .noticeComplete { receivingAt (List.replicate 40 true) true with
        t := 16768, pace := { (receivingAt (List.replicate 40 true) true).pace with
          cur := some (notice .onLine 0 0), attempt := some { s0 := 0, bits := List.replicate 64 true, comparing := true } } }
      (fun t => (t.pace.recv, t.pace.bits, t.pace.cur.map (·.st), events t))
      = some (.settling, [], some .sent, []) := by decide +kernel

/-- R113: a bit before bit 63 is stored. -/
theorem test_data_bit :
    look .dataBitSampled (receivingAt [false, true] true) (fun t => (t.pace.bits, t.pace.bitStart))
      = some ([false, true, true], none) := by decide +kernel

/-- Chapter 6, three failed attempts: the framing detail counts 21 bits. -/
theorem test_framing_detail :
    look .noticeFraming
      { receivingAt (List.replicate 21 true) true with
        pace := { (receivingAt (List.replicate 21 true) true).pace with highRun := 385 } }
      (fun t => (t.pace.recv, events t)) = some (.settling, [⟨.noticeFraming, 0, 21⟩]) := by decide +kernel

/-- Chapter 5, judging alignment: station 5's own offset at the edge, 502,008 ticks after its epoch. -/
theorem test_start_mark_offset :
    look .startMarkEdge
      { runAt 502008 { Grid.cold with eNext := 2500000 } with pace := { (runT 0).pace with fell := true } }
      (fun t => (t.pace.recv, t.pace.edge, t.pace.recvOffset)) = some (.start, 502008#48, 7843) := by decide +kernel

/-- R112: 2b high samples end SETTLING. -/
theorem test_settled :
    look .receiveSettled { runT 512 with pace := { (runT 512).pace with recv := .settling, highRun := 512 } }
      (fun t => t.pace.recv) = some .idle := by decide +kernel

/-- Chapter 6, a stuck line: the 4,097th low sample. -/
theorem test_bus_stuck :
    look .busStuck
      { runT 4096 with pace := { (runT 4096).pace with cur := some (notice .waiting 1 6144), lowRun := 4097 } }
      (fun t => (t.pace.bus, t.pace.cur, t.link.latches.busStuck, events t))
      = some (.stuck, none, true, [⟨.busStuck, 0, 0⟩]) := by decide +kernel

/-- Chapter 6, a stuck line: the 2,048th high sample. -/
theorem test_bus_restored :
    look .busRestored { runT 52047 with pace := { (runT 52047).pace with bus := .stuck, highRun := 2048 } }
      (fun t => (t.pace.bus, t.pace.recv, events t)) = some (.normal, .idle, [⟨.busRestored, 0, 0⟩]) := by
  decide +kernel

/-! ### Start-up and the maintenance link -/

/-- Chapter 9, a small image: the first two bytes of the PART record. -/
theorem test_image_walk :
    (look (.imageByte 0x01) State.reset (fun t => (t.loader.walk, t.loader.recStart, t.loader.stall)),
     look (.imageByte 34) { State.reset with t := 11250, loader := { Loader.cold with image := [1], walk := .length } }
       (fun t => (t.loader.walk, t.loader.bodyLeft)))
      = (some (.length, 0, some 0#48), some (.body, 34)) := by decide +kernel

/-- Chapter 9: the controller stops after 50 bytes, the last at T = 72,250. -/
theorem test_image_stalls :
    look .imageStalled { State.reset with
        t := 125072250, loader := { Loader.cold with image := List.replicate 50 1, stall := some 72250 } }
      (fun t => (t.loader.part, t.loader.fault)) = some (.halted, some (.stalled, 50)) := by decide +kernel

/-- Chapter 9: 4,096 bytes of 0xFF are IMAGE_BLANK at 0. -/
theorem test_blank_image : judgeImage (List.replicate 4096 0xFF#8) 4112 = .rejected .blank 0 := by decide +kernel

/-- A PART record for 50 Hz. -/
def partBytes : List Byte :=
  [0x01, 34, 5, 0x01, 0x00, 0, 7, 0xA1, 0x20, 0x27, 0x10, 0x00, 0x26, 0x25, 0xA0, 0, 1, 1, 0, 0, 0, 0, 0x03, 0xE8, 16, 0, 9,
    0, 0x30, 0xD4, 0x27, 0x10, 0, 1, 0x86, 0xA0]

/-- A STREAM record for the stream of `cfg3`. -/
def streamBytes (n : Byte) : List Byte :=
  [0x02, 23, n, 0, 0, 0, 4, 0, 1, 0x86, 0xA0, 0, 0x1E, 0x84, 0x80, 0x03, 0xE8, 0, 8, 0, 0xFF, 0xFF, 0xFF, 0xFF, 3]

/-- The image less its last byte, and that byte. -/
def imageBody : List Byte := partBytes ++ streamBytes 3

/-- A part that has received all but the last byte of an image with these records and this sum. -/
def loadingLast (body : List Byte) (sumHigh : Byte) : State :=
  { State.reset with
    t := 121250
    loader := { Loader.cold with
      image := body ++ [0x0F, 2, sumHigh], walk := .body, recStart := body.length, bodyLeft := 1, isEnd := true,
      stall := some 120000 } }

/-- R161, R170: the last byte of a good image enters RUN with the context enabled. -/
theorem test_image_enters_run :
    look (.imageByte (BitVec.ofNat 8 (imageSum imageBody)))
      (loadingLast imageBody (BitVec.ofNat 8 (imageSum imageBody / 256)))
      (fun t => (t.loader.part, decide (t.cfg = part50 ∧ (t.ctx 3).cfg = some cfg3), (t.ctx 3).st, t.grid.eNext))
      = some (.run, true, .quiet, 2621250#48) := by decide +kernel

/-- Chapter 9: the sum 1 too high is IMAGE_SUM at END's offset. -/
theorem test_image_sum :
    look (.imageByte (BitVec.ofNat 8 (imageSum imageBody + 1)))
      (loadingLast imageBody (BitVec.ofNat 8 ((imageSum imageBody + 1) / 256)))
      (fun t => (t.loader.part, t.loader.fault, t.faultLine)) = some (.halted, some (.sum, 61), true) := by
  decide +kernel

/-- A HALTED part whose image fails its sum with END at offset 86. -/
def halted86 : State :=
  { State.reset with loader := { Loader.cold with part := .halted, fault := some (.sum, 86) } }

/-- Chapter 11: the STATUS answer from a HALTED part. -/
theorem test_status_from_halted :
    look (.requestByte 0) { halted86 with link := { Link.cold with parser := .awaitLength 0x01 } }
      (fun t => t.link.responder.map (·.bytes))
      = some (some [0x81, 0x00, 0x00, 0x0D, 0x02, 0x06, 0x00, 0x56, 0x00, 0x00, 0x01, 0x00, 0x00, 0x00, 0x20, 0x00, 0x00])
      := by decide +kernel

/-- Chapter 10, requests sent into a busy link: byte 65 is dropped and byte 64 marked. -/
theorem test_full_buffer_marks :
    look (.requestByte 0x04)
      { runT 5000 with link := { Link.cold with
        responder := some { bytes := [0x82], start := 4999 }, buffer := List.replicate 64 (0x07, false) } }
      (fun t => (t.link.buffer.length, t.link.buffer.getLast?)) = some (64, some (0x07#8, true)) := by decide +kernel

/-- Chapter 10, requests sent into a busy link: the 16th CLEAR response ends and the gap is reached. -/
theorem test_gap_reached :
    look .responseComplete
      { runT 200000 with link := { Link.cold with
        responder := some { bytes := List.replicate 6 0, start := 192500 }, gap := true, silence := some 60000 } }
      (fun t => (t.link.parser, t.link.gap, t.link.responder.map (·.bytes)))
      = some (.awaitCode, false, some [0x80, 0x03, 0x00, 0x00]) := by decide +kernel

/-- R175: a line error in a partial request is answered GARBLED and begins DISCARD. -/
theorem test_line_error_garbles :
    look .lineError { runT 100 with link := { Link.cold with parser := .awaitLength 0x02 } }
      (fun t => (t.link.parser, t.link.responder.map (·.bytes)))
      = some (.discard, some [0x82, 0x03, 0x00, 0x00]) := by decide +kernel

/-- R175: DISCARD ends after 1 ms of silence, not a tick before. -/
theorem test_discard_ends :
    (look .discardEnd { runT 125100 with link := { Link.cold with parser := .discard, silence := some 100 } }
      (fun t => t.link.parser),
     look .discardEnd { runT 125099 with link := { Link.cold with parser := .discard, silence := some 100 } }
      (fun t => t.link.parser)) = (some .awaitCode, some .discard) := by decide +kernel

/-- R176: a partial request expires after 1 ms. -/
theorem test_request_expires :
    look .requestExpired { runT 125100 with link := { Link.cold with parser := .awaitLength 3, silence := some 100 } }
      (fun t => (t.link.parser, t.link.responder)) = some (.awaitCode, none) := by decide +kernel

/-- R80, R158: COLD asserted during an emission abandons the packet and holds T at 0. -/
theorem test_cold_abandons :
    look .coldAssert (emitting 5000001) (fun t => (t.t, t.egress.abandon, t.egress.offer, t.loader.part))
      = some (0#48, true, false, .load) := by decide +kernel

/-- R158: power-up acts as COLD asserted; its release lets the part take events. -/
theorem test_power_up_then_release :
    (look .powerUp { runT 7 with powered := false } (fun t => (t.cold, t.live, t.t)),
     look .coldRelease { State.reset with cold := true } (fun t => (t.live, t.t)))
      = (some (true, false, 0#48), some (true, 0#48)) := by decide +kernel

/-- R80: the removal of power abandons the packet in emission. -/
theorem test_power_removed :
    look .powerRemoved (emitting 5000001) (fun t => (t.egress.slot, t.egress.abandon, t.live))
      = some (none, true, false) := by decide +kernel

/-! ### The hypotheses of the statements are met

One theorem a statement, each of its clauses with a state and operands that meet all its hypotheses together. -/

/-- An answer that has a next state. -/
theorem next_of {r : Result} (h : (nextOf r).isSome = true) : ∃ t, r = .next t := by
  cases r with
  | next t => exact ⟨t, rfl⟩
  | fault _ => simp [nextOf] at h
  | refused _ => simp [nextOf] at h

theorem witness_StepRunsFrontCommand :
    ∃ (c : Instr) (rest : List Instr) (s : State), s.pending = c :: rest :=
  ⟨.grant, [.done], { State.reset with pending := [.grant, .done] }, rfl⟩

theorem witness_IdlePartActsBeforeTheNextTick :
    (State.reset.pending = [] ∧ State.reset.dueNow = [])
      ∧ ((emitting 5100000).pending = [] ∧ (emitting 5100000).dueNow ≠ []) := by decide +kernel

theorem witness_TimeCountsTicksAndNothingElseWritesIt :
    (∃ s t : State, step s = .next t ∧ s.pending = [.powerUp])
      ∧ (∃ s t : State, step s = .next t ∧ s.pending = [.coldAssert] ∧ s.powered = true ∧ s.cold = false)
      ∧ (∃ s t : State, step s = .next t ∧ s.pending = [.done])
      ∧ (∃ s t : State, step s = .next t ∧ s.pending = [] ∧ s.dueNow ≠ [])
      ∧ (∃ s t : State, step s = .next t ∧ s.pending = [] ∧ s.dueNow = [] ∧ s.powered = true ∧ s.cold = false)
      ∧ (∃ s t : State, step s = .next t ∧ s.pending = [] ∧ s.dueNow = [] ∧ s.cold = true ∧ s.t = 0 ∧ t.cold = true) := by
  refine ⟨⟨{ State.reset with pending := [.powerUp] }, _, rfl, rfl⟩,
    ⟨{ State.reset with pending := [.coldAssert] }, _, rfl, rfl, rfl, rfl⟩,
    ⟨{ State.reset with pending := [.done] }, _, rfl, rfl⟩, ?_, ?_, ?_⟩
  · obtain ⟨t, h⟩ := next_of (r := step (emitting 5100000)) (by decide +kernel)
    exact ⟨_, t, h, rfl, by decide +kernel⟩
  · obtain ⟨t, h⟩ := next_of (r := step State.reset) (by decide +kernel)
    exact ⟨_, t, h, rfl, by decide +kernel⟩
  · exact ⟨{ State.reset with cold := true }, State.heldTick { State.reset with cold := true }, rfl, rfl, by decide +kernel⟩

/-- A part in RUN that has sampled REF at this tick, so that no step is called for. -/
def restingRun (silence : Option Time) (done : Bool) : State :=
  let s := runT 125100
  { s with
    grid := { s.grid with refTaken := true }, pins := { s.pins with done := done },
    link := { s.link with silence := silence } }

theorem witness_OneTickMovesTheClockedParts :
    (let s := restingRun (some 100) true
     s.pending = [] ∧ s.live = true ∧ s.dueNow = [] ∧ s.link.silence = some 100 ∧ s.pins.done = true
       ∧ s.egress.doneWas = false ∧ s.feed.write = none ∧ (nextOf (step s)).isSome = true)
      ∧ (let s := restingRun none false
         s.pending = [] ∧ s.live = true ∧ s.dueNow = [] ∧ s.link.silence = none
           ∧ (nextOf (step s)).isSome = true)
      ∧ (let s : State := { State.reset with cold := true }
         s.pending = [] ∧ s.live = false) := by
  refine ⟨⟨?_, ?_, ?_, ?_, ?_, ?_, ?_, ?_⟩, ⟨?_, ?_, ?_, ?_, ?_⟩, rfl, rfl⟩ <;> decide +kernel

theorem witness_ColdStartReturnsEveryBlock :
    (emitting 5000001).live = true ∧ ((runT 7).live = true) := by decide +kernel

theorem witness_ColdAndPowerHoldTheBlocks :
    (let s : State := { State.reset with cold := true }
     s.powered = true ∧ s.cold = true ∧ s.heldAtZero)
      ∧ (emitting 5000001).powered = true
      ∧ (({ runT 7 with powered := false } : State).live = false ∧ ({ State.reset with cold := true } : State).live = false
        ∧ Instr.grant ≠ .powerUp ∧ Instr.grant ≠ .coldRelease ∧ Instr.grant ≠ .powerRemoved) :=
  ⟨⟨rfl, rfl, fun _ => ⟨rfl, rfl⟩⟩, rfl, by decide +kernel⟩

/-- A part in LOAD with `n` bytes received and the walk at `w`. -/
def loadingAt (n : Nat) (w : Walk) (left : Nat) (isEnd : Bool) : State :=
  { State.reset with loader := { Loader.cold with
      image := List.replicate n 1, walk := w, bodyLeft := left, isEnd := isEnd } }

theorem witness_ImageByteAdvancesTheWalk :
    (let s := loadingAt 0 .type 0 false
     s.live = true ∧ s.loader.part = .load ∧ s.loader.walk = .type ∧ ((s.loader.store s.t 0x0F).isEnd = true)
       ∧ ((s.loader.store s.t 1).isEnd = false))
      ∧ (let s := loadingAt 1 .length 0 true
         s.live = true ∧ s.loader.part = .load ∧ s.loader.walk = .length ∧ (s.loader.store s.t 0).walk = .type
           ∧ (s.loader.store s.t 255).walk = .body)
      ∧ (let s := loadingAt 4094 .body 1 false
         s.live = true ∧ s.loader.part = .load ∧ s.loader.walk = .body ∧ (s.loader.store s.t 1).bodyLeft = 0
           ∧ s.loader.image.length + 1 < 4096)
      ∧ (let s := loadingAt 2 .body 2 true
         s.live = true ∧ s.loader.part = .load ∧ s.loader.walk = .body ∧ (s.loader.store s.t 1).bodyLeft ≠ 0
           ∧ ¬((s.loader.store s.t 1).isEnd = true ∧ (s.loader.store s.t 1).walk = .type)) := by decide +kernel

theorem witness_FaultyImageHaltsThePart :
    (let s := loadingLast imageBody 0
     let l := s.loader.store s.t 0
     s.live = true ∧ s.loader.part = .load ∧ l.isEnd = true ∧ l.walk = .type
       ∧ judgeImage l.image l.recStart = .rejected .sum 61)
      ∧ (let s : State := { State.reset with loader := { Loader.cold with
            image := List.replicate 4095 0xFF, walk := .body, recStart := 4112, bodyLeft := 17 } }
         let l := s.loader.store s.t 0xFF
         s.live = true ∧ s.loader.part = .load ∧ l.image.length = 4096
           ∧ judgeImage l.image l.recStart = .rejected .blank 0)
      ∧ (let s : State := { State.reset with
           t := 125072250, loader := { Loader.cold with image := List.replicate 50 1, stall := some 72250 } }
         s.live = true ∧ s.loader.part = .load ∧ s.loader.stall = some 72250
           ∧ reached s.t (after 72250 125000000) = true) := by decide +kernel

/-- The PART record of the image, read back. -/
def partRecord : ImageRecord := { offset := 0, type := 1, length := 34, body := partBytes.drop 2 }

/-- The STREAM record of the image, read back. -/
def streamRecord : ImageRecord := { offset := 36, type := 2, length := 23, body := (streamBytes 3).drop 2 }

/-- The image whole. -/
def image61 : List Byte := imageBody ++ [0x0F, 2] ++ beBytes 2 (imageSum imageBody)

theorem witness_AcceptedImageEntersRun :
    (let s := loadingLast imageBody (BitVec.ofNat 8 (imageSum imageBody / 256))
     let l := s.loader.store s.t (BitVec.ofNat 8 (imageSum imageBody))
     s.live = true ∧ s.loader.part = .load ∧ l.isEnd = true ∧ l.walk = .type
       ∧ judgeImage l.image l.recStart = .accepted partRecord [partRecord, streamRecord])
      ∧ streamRecord.type = 2 ∧ streamNumber streamRecord = 3 := by decide +kernel

theorem witness_AcceptedPartIsInRange :
    judgeImage image61 61 = .accepted partRecord [partRecord, streamRecord] := by decide +kernel

/-- Records as an image holds them: a type byte, a length byte and the body. -/
abbrev Rec : Type := Byte × List Byte

/-- The bytes of records. -/
def recBytes (rs : List Rec) : List Byte := rs.flatMap fun r => r.1 :: BitVec.ofNat 8 r.2.length :: r.2

/-- The record's stream number is in a STREAM record before it. -/
def clashes (before : List Rec) (r : Rec) : Prop :=
  ∃ b, r.2.head? = some b ∧ ∃ e ∈ before, e.1 = 0x02 ∧ e.2.head? = some b

/-- No stream number stands twice. -/
def distinctRecs (rs : List Rec) : Prop := ∀ a r c, rs = a ++ r :: c → r.1 = 0x02 → ¬clashes a r

/-- What `distinctRecs` asks, position by position. -/
theorem distinctRecs_of (rs : List Rec)
    (h : ∀ i < rs.length, ∀ r ∈ rs[i]?, r.1 = 0x02 → ∀ b ∈ r.2.head?, ∀ e ∈ rs.take i, e.1 = 0x02 → e.2.head? ≠ some b) :
    distinctRecs rs := by
  rintro a r c rfl hr ⟨b, hb, e, he, h2, hbe⟩
  exact h a.length (by simp) r (by simp) hr b hb e (by simpa using he) h2 hbe

/-- The PART record of the image, with STREAM records of the given numbers and depth. -/
def imageRecs (streams : List Byte) (depthHigh depthLow : Byte) : List Rec :=
  (0x01, partBytes.drop 2) :: streams.map fun n =>
    (0x02, ((streamBytes n).drop 2).set 15 depthHigh |>.set 16 depthLow)

theorem witness_ImageFaultIsTheFirstFound :
    (∀ tail ∈ [[0x00#8], [0xFF#8, 1], [0x03#8], [0x02#8], [0x0F#8, 2, 0]],
        (∀ r ∈ imageRecs [3] 0 8, (r.1 = 0x01 ∨ r.1 = 0x02) ∧ r.2.length ≤ 255)
          ∧ (recBytes (imageRecs [3] 0 8) ++ tail).length ≤ 4096)
      ∧ (recBytes (List.replicate 16 (0x02, List.replicate 254 0))).length = 4096
      ∧ (∀ rs ∈ [[], [((0x01#8, []) : Rec), (0x01, [])]],
          (∀ r ∈ rs, (r.1 = 0x01 ∨ r.1 = 0x02) ∧ r.2.length ≤ 255)
            ∧ (recBytes rs ++ [0x0F, 2, 0, 2]).length ≤ 4096 ∧ beValue [0, 2] % 65536 = 2)
      ∧ (((recBytes []).map (·.toNat)).sum = 0 ∧ ((recBytes [(0x01, []), (0x01, [])]).map (·.toNat)).sum = 2)
      ∧ (distinctRecs (imageRecs [3] 0 8) ∧ clashes (imageRecs [3] 0 8) (0x02, [3])
        ∧ distinctRecs [(0x01, [])]
        ∧ distinctRecs (imageRecs [0, 1, 2, 3, 4] 2 0))
      ∧ ((imageRecs [0, 1, 2, 3] 2 0).filter (fun r => decide (r.1 = 0x02))).length * 512 = 2048
      ∧ (let rs := imageRecs [0, 1, 2, 3, 4] 2 0
         judgeImage (recBytes rs ++ [0x0F, 2] ++ beBytes 2 (imageSum (recBytes rs))) (recBytes rs).length
           = .rejected .range (recBytes (imageRecs [0, 1, 2, 3] 2 0)).length) := by
  refine ⟨by decide +kernel, by decide +kernel, by decide +kernel, by decide +kernel,
    ⟨distinctRecs_of _ (by decide +kernel), ⟨3, rfl, (0x02, ((streamBytes 3).drop 2).set 15 0 |>.set 16 8), ?_, rfl, rfl⟩,
      distinctRecs_of _ (by decide +kernel), distinctRecs_of _ (by decide +kernel)⟩, by decide +kernel, by decide +kernel⟩
  decide +kernel

/-- A part whose frame epoch is reached at this tick, in the given lock state. -/
def epochDue (lock : Lock) (miss : Nat) (pulse : Bool) : State :=
  runAt 2500000 { Grid.cold with eNext := 2500000, lock := lock, miss := miss, pulse := pulse }

/-- `s` takes a frame epoch. -/
def takesFrame (s : State) : Prop := s.live = true ∧ s.grid.running = true ∧ reached s.t s.grid.eNext = true

theorem witness_FrameEpochAdvancesTheGrid :
    (takesFrame (epochDue .free 0 false) ∧ (epochDue .free 0 false).grid.rem < part50.d)
      ∧ takesFrame (epochDue .locked 3 true)
      ∧ (takesFrame (epochDue .locked 0 false) ∧ takesFrame (epochDue .locked 2 false))
      ∧ takesFrame (epochDue .locked 3 false) := by
  unfold takesFrame; decide +kernel

theorem witness_FrameEpochReachesEveryBlockOnce :
    takesFrame (epochDue .free 0 false)
      ∧ (let s := (epochDue .free 0 false).setCtx 3 (sendingCtx [] 0 0)
         s.pace.bus ≠ .stuck ∧ s.pace.bus = .normal ∧ (s.ctx 0).cfg = none)
      ∧ (∀ st ∈ [NoticeState.scheduled, .waiting], let s := epochDue .free 0 false
         let s := { s with pace := { s.pace with cur := some (notice st 2 0) } }
         s.pace.bus = .normal ∧ s.pace.cur = some (notice st 2 0)
           ∧ ((notice st 2 0).st = .scheduled ∨ (notice st 2 0).st = .waiting))
      ∧ (∀ bus ∈ [BusState.stuck, .off], let s := epochDue .free 0 false
         ({ s with pace := { s.pace with bus := bus } } : State).pace.bus = bus)
      ∧ (⟨.refLock, 0, 1⟩ : Raised) ∈ [(⟨.refLock, 0, 1⟩ : Raised)] := by
  unfold takesFrame; decide +kernel

theorem witness_FieldEpochReachesFieldStreamsOnly :
    (let field : StreamCfg := { cfg3 with cadence := .field }
     let s := ((runAt 1250000 { Grid.cold with eNext := 2500000, h := some 1250000 }).setCtx 3
       (sendingCtx [] 0 0)).setCtx 4 { sendingCtx [] 0 0 with cfg := some field }
     s.live = true ∧ s.grid.running = true ∧ s.grid.h = some 1250000 ∧ reached s.t 1250000 = true
       ∧ (s.ctx 3).cfg = some cfg3 ∧ cfg3.cadence = .frame ∧ (s.ctx 4).cfg = some field ∧ (s.ctx 0).cfg = none) := by
  decide +kernel

/-- A part that has still to sample REF at this tick. -/
def qualifierAt (q : Qualifier) : State := runAt 777 { Grid.cold with eNext := 5000, qual := q }

theorem witness_RefSampleFollowsTheQualifierTable :
    ∀ q ∈ [Qualifier.waitLow 0, .waitLow 2, .waitLow 3, .armed, .rising 1, .rising 2, .rising 3],
      (qualifierAt q).live = true ∧ (qualifierAt q).grid.running = true ∧ (qualifierAt q).cfg.refOn = true
        ∧ (qualifierAt q).grid.refTaken = false ∧ (qualifierAt q).grid.qual = q := by decide +kernel

theorem witness_PhaseErrorAndStepOfThePulse :
    (let g : Grid := { Grid.cold with eTaken := 100000000, eNext := 102500000, h := some 101250000 }
     let desired : Time := 100250000 + BitVec.ofInt 48 1000000
     distance desired g.eTaken = distance desired g.eNext
       ∧ 200000 ≤ part50.qMin ∧ part50.qMin ≤ 50000000 ∧ elapsed 100250003 g.eTaken ≤ 2 ^ 46
       ∧ distance desired 100250003 ≤ 2 ^ 46 ∧ g.h = some 101250000)
      ∧ (let p : PartCfg := { part50 with n := 200000 }
         let g : Grid := Grid.cold
         200000 ≤ p.qMin ∧ p.qMin ≤ 50000000 ∧ elapsed (after 0 (2 ^ 46)) g.eTaken ≤ 2 ^ 46
           ∧ distance ((0 : Time) + BitVec.ofInt 48 p.roff) (after 0 (2 ^ 46)) ≤ 2 ^ 46 ∧ g.h = none) := by
  decide +kernel

/-- A part at tick `t` whose next high sample accepts a pulse of capture time `cr`, in the given lock state. -/
def pulseAt (t cr : Time) (lock : Lock) (oow : Nat) : State :=
  runAt t { Grid.cold with
    eTaken := 17500000, eNext := 20000000, lock := lock, oow := oow, qual := .rising 3, cr := cr }

/-- `s` accepts a pulse. -/
def accepts (s : State) : Prop :=
  s.live = true ∧ s.grid.running = true ∧ s.cfg.refOn = true ∧ s.grid.refTaken = false ∧ s.grid.qual = .rising 3

/-- E_next after a slew by the pulse's error, as the statement writes it. -/
def slewedTo (s : State) : Time :=
  let g := s.grid
  let e := g.phaseError s.cfg g.cr
  let moved := g.eNext + BitVec.ofInt 48 (max (-(s.cfg.slewLimit : Int)) (min e s.cfg.slewLimit))
  if earlier moved (after g.eTaken (s.cfg.n / s.cfg.d / 2)) = true
    then after g.eTaken (s.cfg.n / s.cfg.d / 2) else moved

/-- The pulse's error. -/
def errorOf (s : State) : Int := s.grid.phaseError s.cfg s.grid.cr

theorem witness_AcceptedPulseActsByTheLockState :
    (let s := pulseAt 17500043 17500040 .seek 0
     accepts s ∧ s.grid.lock = .seek)
      ∧ (∀ lock ∈ [Lock.locked, .holdover],
          (let s := pulseAt 17501003 17501000 lock 0
           accepts s ∧ s.grid.lock = lock ∧ (errorOf s).natAbs = s.cfg.wlock ∧ reached s.t (slewedTo s) = false)
            ∧ (let s := pulseAt 19999993 19999990 lock 0
               accepts s ∧ s.grid.lock = lock ∧ (errorOf s).natAbs ≤ s.cfg.wlock ∧ reached s.t (slewedTo s) = true))
      ∧ (∀ oow ∈ [0, 1, 2],
          let s := pulseAt 17501004 17501001 .locked oow
          accepts s ∧ s.grid.lock = .locked ∧ s.cfg.wlock < (errorOf s).natAbs ∧ s.grid.oow = oow)
      ∧ (let s := pulseAt 17501004 17501001 .holdover 0
         accepts s ∧ s.grid.lock = .holdover ∧ s.cfg.wlock < (errorOf s).natAbs) := by
  unfold accepts; decide +kernel

theorem witness_StarvationIsCountedOncePerFrame :
    let s := (runT 11100000).setCtx 3 (sendingCtx [] 2 11100000)
    s.live = true ∧ (s.ctx 3).cfg.isSome = true ∧ (s.ctx 3).st = .sending ∧ (s.ctx 3).ring = []
      ∧ reached s.t (s.ctx 3).tNext = true := by decide +kernel

/-- A part with stream 3 in the given state, with the given ring. -/
def streamIn (st : StreamState) (ring : List Record) (cfg : StreamCfg) (owing : Bool) : State :=
  (runT 12500000).setCtx 3 { sendingCtx ring 2 0 with cfg := some cfg, st := st, owing := owing }

theorem witness_StreamEpochActsByState :
    (∀ st ∈ [StreamState.quiet, .primed, .sending, .starved],
        ((streamIn st [] cfg3 false).ctx 3).cfg = some cfg3 ∧ ((streamIn st [] cfg3 false).ctx 3).st = st)
      ∧ (let s := streamIn .drained [record 0 false 1, record 1 true 2] cfg3 false
         (s.ctx 3).cfg = some cfg3 ∧ (s.ctx 3).st = .drained ∧ (s.ctx 3).ring = [record 0 false 1, record 1 true 2]
           ∧ (record 0 false 1).index = 0)
      ∧ (let s := streamIn .drained [] { cfg3 with idleLimit := 1 } false
         (s.ctx 3).cfg = some { cfg3 with idleLimit := 1 } ∧ (s.ctx 3).st = .drained ∧ (s.ctx 3).ring = []
           ∧ (s.ctx 3).idle + 1 = 1)
      ∧ (let s := streamIn .starved [] { cfg3 with policy := .finish } false
         (s.ctx 3).cfg = some { cfg3 with policy := .finish } ∧ (s.ctx 3).st = .starved ∧ (s.ctx 3).owing = false) := by
  decide +kernel

theorem witness_TrimDiscardCutsTheFrame :
    (let s := streamIn .sending [record 2 false 1, record 3 true 2, record 0 false 3] cfg3 false
     (s.ctx 3).cfg = some cfg3 ∧ (s.ctx 3).st = .sending ∧ cfg3.policy = .trim
       ∧ (s.ctx 3).ring = [record 2 false 1, record 3 true 2] ++ [record 0 false 3]
       ∧ [record 2 false 1, record 3 true 2] = [record 2 false 1] ++ [record 3 true 2]
       ∧ (record 3 true 2).frameEnd = true ∧ (∀ r ∈ [record 2 false 1], r.frameEnd = false)
       ∧ (record 0 false 3).index = 0)
      ∧ (let s := streamIn .starved [] { cfg3 with policy := .finish } true
         (s.ctx 3).cfg = some { cfg3 with policy := .finish } ∧ (s.ctx 3).st = .starved ∧ (s.ctx 3).owing = true
           ∧ (s.ctx 3).ring = [] ++ [] ∧ ∀ r ∈ ([] : List Record), r.frameEnd = false) := by decide +kernel

theorem witness_WindowAndReleaseTimes :
    (cfg3.cls = .fixed)
      ∧ (let cfg : StreamCfg := { cfg3 with cls := .flex }
         cfg.cls = .flex ∧ cfg.w ≤ cfg.wCap ∧ cappedAt cfg 319 = true ∧ cappedAt cfg 256 = false)
      ∧ (let cfg : StreamCfg := { cfg3 with c := 16383, o := 50000000 }
         let c : Context := { Context.cold with wEff := 50000000 }
         1 ≤ cfg.c ∧ c.wEff ≤ 50000000 ∧ cfg.o ≤ 50000000 ∧ 16382 < cfg.c ∧ 1 ≤ c.wEff ∧ cfg.c ≤ 32767)
      ∧ (let cfg : StreamCfg := { cfg3 with c := 1, o := 0 }
         let c : Context := { Context.cold with wEff := 1 }
         1 ≤ cfg.c ∧ c.wEff ≤ 50000000 ∧ cfg.o ≤ 50000000 ∧ 0 < cfg.c ∧ 1 ≤ c.wEff) := by decide +kernel

/-- A part in RUN with one enabled stream, and the receive side about to settle. -/
def settlingRun : State :=
  let s := (runT 512).setCtx 3 (Context.cold.enable cfg3)
  { s with pace := { s.pace with recv := .settling, highRun := 512 }, pending := [.receiveSettled] }

/-- Its contexts are cold but for stream 3's. -/
theorem settlingRun_ctx (n : Stream) :
    settlingRun.ctx n = if n = 3 then Context.cold.enable cfg3 else .cold := by
  revert n; decide +kernel

theorem witness_FactorsAndWindowsStayInRange :
    (∃ s t : State, s.coldOutsideRun ∧ (∀ n, (s.ctx n).factorsWf) ∧ step s = .next t ∧ (s.ctx 3).cfg = some cfg3)
      ∧ ∃ s t : State, s.grid.countsWf ∧ step s = .next t := by
  refine ⟨⟨settlingRun, _, fun h => absurd rfl h, fun n => ?_, rfl, by decide +kernel⟩,
    ⟨settlingRun, _, ⟨by decide, by decide⟩, rfl⟩⟩
  rw [settlingRun_ctx]; split
  · refine ⟨by decide, by decide, by decide, by decide, fun cfg h => ?_⟩
    obtain rfl : cfg3 = cfg := Option.some.inj h
    decide
  · exact ⟨by decide, by decide, by decide, by decide, fun cfg h => nomatch h⟩

theorem witness_ConfigurationAndRetirementLastThroughRun :
    ∃ s t : State, step s = .next t ∧ s.loader.part = .run ∧ t.loader.part = .run
      ∧ (s.store.bank 2).retired = true ∧ s.link.latches.bankRetired = true ∧ s.link.latches.storeExhausted = true
      ∧ (6 : Block) ∈ s.store.retired := by
  refine ⟨{ settlingRun with
    store := { Store.cold with
      free := [], retired := [6], banks := #v[.cold, .cold, { Bank.cold with retired := true }, .cold] }
    link := { Link.cold with latches := { Latches.cold with bankRetired := true, storeExhausted := true } } },
    _, rfl, rfl, rfl, rfl, rfl, rfl, by decide +kernel⟩

theorem witness_RingsStayWithinTheirDepth :
    (∃ s t : State, (∀ n, s.ringFits n) ∧ step s = .next t ∧ (s.ctx 3).cfg = some cfg3)
      ∧ ∃ s t : State, s.coldOutsideRun ∧ s.writeEnabled ∧ (∀ n, (s.ctx n).ringWf) ∧ step s = .next t := by
  refine ⟨⟨settlingRun, _, fun n cfg h => ?_, rfl, by decide +kernel⟩,
    ⟨settlingRun, _, fun h => absurd rfl h, fun w h => (nomatch h), fun n => ?_, rfl⟩⟩
  · rw [settlingRun_ctx] at h ⊢
    have hw : settlingRun.writing n = 0 := rfl
    split <;> simp [hw, Context.enable, Context.cold]
  · rw [settlingRun_ctx]; split <;> simp [Context.ringWf, Context.enable, Context.cold]

theorem reset_coldOutsideRun : State.reset.coldOutsideRun :=
  fun _ => ⟨rfl, by decide +kernel, rfl, rfl, rfl, rfl, rfl, rfl, rfl, rfl, rfl, rfl, rfl, rfl, rfl, rfl, rfl, rfl,
    by decide +kernel, rfl⟩

theorem witness_BlocksStayColdOutsideRun :
    ∃ s t : State, s.coldOutsideRun ∧ s.heldAtZero ∧ step s = .next t := by
  obtain ⟨t, h⟩ := next_of (r := step State.reset) (by decide +kernel)
  exact ⟨State.reset, t, reset_coldOutsideRun, fun h => absurd h (by decide), h⟩

/-- Two due heads, of streams 3 and 5, the slot EMPTY; stream 3 of the given configuration comes first. -/
def twoDue (up : Bool) (cfg : StreamCfg) (ring : List Record) (owing : Bool) : State :=
  let s := ((runT 10100000).setCtx 3 { sendingCtx ring 2 10100000 with cfg := some cfg, owing := owing }).setCtx 5
    (sendingCtx [record 0 false 9] 0 10100000)
  { s with egress := { s.egress with linkUp := up }, store := { Store.cold with free := [20] } }

theorem witness_GrantTakesTheFirstDueHead :
    (let s := twoDue true cfg3 [record 2 false 1] false
     s.dueStreams = [3, 5] ∧ s.reachedStreams ≠ [] ∧ s.live = true ∧ s.egress.slot = none
       ∧ ∃ t, exec .grant s = .next t)
      ∧ (let s := twoDue true cfg3 [record 2 false 1] false
         let s := s.setCtx 5 { s.ctx 5 with justReached := true }
         s.reachedStreams = [3, 5] ∧ s.dueStreams = [3] ∧ (5 : Stream) ∈ s.reachedStreams ∧ (5 : Stream) ∉ s.dueStreams)
      := by
  refine ⟨⟨?_, ?_, ?_, ?_, next_of ?_⟩, ?_⟩ <;> decide +kernel

/-- What the statements about a grant ask of a state, of stream 3 with head `r`. -/
def grants3 (s : State) (cfg : StreamCfg) (r : Record) (rest : List Record) : Prop :=
  s.live = true ∧ s.egress.slot = none ∧ s.takeDue.grantChoice = some 3 ∧ (s.ctx 3).cfg = some cfg
    ∧ (s.ctx 3).ring = r :: rest ∧ r.len ≤ 256 * (s.store.chain r.first).length

theorem witness_GrantDoesTheStreamsWork :
    (∀ up : Bool, grants3 (twoDue up cfg3 [record 2 false 1] false) cfg3 (record 2 false 1) []
        ∧ (record 2 false 1).frameEnd = false)
      ∧ (∀ owing : Bool, grants3 (twoDue true cfg3 [record 2 true 1] owing) cfg3 (record 2 true 1) []
        ∧ ((twoDue true cfg3 [record 2 true 1] owing).takeDue.ctx 3).owing = owing)
      ∧ (grants3 (twoDue true cfg3 [record 2 true 1, record 0 false 2] true) cfg3 (record 2 true 1) [record 0 false 2]
        ∧ (record 0 false 2).index = 0)
      ∧ (5 : Stream) ∈ (twoDue true cfg3 [record 2 false 1] false).takeDue.dueStreams := by
  unfold grants3; decide +kernel

theorem witness_GrantFillsTheSlotOrDropsThePacket :
    ∀ up : Bool, let s := twoDue up cfg3 [record 2 false 1] false
      s.live = true ∧ s.egress.slot = none ∧ s.takeDue.grantChoice = some 3 ∧ (s.ctx 3).ring = [record 2 false 1]
        ∧ s.egress.linkUp = up ∧ ∃ t, exec .grant s = .next t := by
  intro up
  refine ⟨?_, ?_, ?_, ?_, ?_, next_of ?_⟩ <;> revert up <;> decide +kernel

theorem witness_StampAndNumberAreWritten :
    let cfg : StreamCfg := { cfg3 with stampOffset := some 96, seqOffset := some 98 }
    let s := twoDue true cfg [record 2 false 1] false
    grants3 s cfg (record 2 false 1) [] ∧ s.egress.linkUp = true ∧ (s.store.chain 1).Nodup ∧ s.store.wf = true
      ∧ (96 + 4 ≤ 100) ∧ (98 + 2 ≤ 100) ∧ ∃ t, exec .grant s = .next t := by
  refine ⟨?_, ?_, ?_, ?_, ?_, ?_, next_of ?_⟩ <;> (first | (unfold grants3; decide +kernel) | decide +kernel)

theorem witness_EgressByteIsSentOrAbandonsThePacket :
    ∀ bad : Bool,
      let s : State := { emitting 5000001 with store := { Store.cold with
        free := [9], parity := if bad then [(0, true)] else [] } }
      s.live = true ∧ s.egress.slot = some slot4 ∧ s.egress.offer = true ∧ slot4.taken < slot4.len
        ∧ slot4.len ≤ 256 * (s.store.chain slot4.first).length
        ∧ s.store.readByte (s.store.chain slot4.first) slot4.taken = some (0, !bad) := by decide +kernel

theorem witness_EmissionEndsByDoneOrByStall :
    ((emitting 5000001).live = true ∧ (emitting 5000001).egress.slot = some slot4)
      ∧ ((runT 7).live = true ∧ (runT 7).egress.slot = none)
      ∧ ((emitting 5100000).live = true ∧ (emitting 5100000).egress.slot = some slot4
        ∧ reached (emitting 5100000).t (after slot4.grantTime (emitting 5100000).cfg.stallLimit) = true) := by
  decide +kernel

theorem witness_LinkChangeSetsTheLinkState :
    ((runT 7).live = true ∧ (runT 7).loader.part = .run ∧ (runT 7).egress.linkUp = true)
      ∧ (State.reset.live = true ∧ State.reset.loader.part ≠ .run) := by decide +kernel

theorem witness_OfferWaitsUntilAnswered :
    ((runT 7).live = true ∧ (List.replicate 16 0x47#8).length = (16#16).toNat ∧ ((runT 7).chan 5).st = .empty
        ∧ ((runT 7).chan 5).armed = true)
      ∧ (let s := (runT 7).setChan 5 { Channel.cold (some (offer 16 false)) with armed := false }
         s.live = true ∧ (s.chan 5).st = .empty ∧ (s.chan 5).armed = false)
      ∧ (passOver.live = true ∧ (passOver.chan 5).st = .pending) := by decide +kernel

theorem witness_SelectionServesInRoundRobinOrder :
    passOver.live = true ∧ passOver.feed.write = none ∧ passOver.answerable 9 = true
      ∧ (passOver.chan 5).st = .pending ∧ (passOver.chan 5).pin = some (offer 1438 false) := by decide +kernel

/-- A part whose one PENDING offer is `o` on channel 9, whose stream is as given. -/
def oneOffer (o : Offer) (index : Nat) (c : Context) : State :=
  let s := ((runT 1000).setCtx 9 c).setChan 9 { pendingChan o with index := index }
  { s with store := { Store.cold with free := [10, 11, 12, 13, 14, 15, 16, 17, 18] } }

/-- What the statement about a selection asks of a state. -/
def selects9 (s : State) (o : Offer) : Prop :=
  s.live = true ∧ s.feed.write = none ∧ s.selectChoice = some 9 ∧ (s.chan 9).pin = some o

theorem witness_SelectionCarriesOutTheRow :
    (let s := oneOffer (offer 2049 false) 0 .cold
     selects9 s (offer 2049 false) ∧ (s.ctx 9).cfg = none ∧ (s.chan 9).reported = false)
      ∧ (let s := oneOffer (offer 16 false) 32767 { sendingCtx [] 0 0 with discard := true, st := .drained }
         selects9 s (offer 16 false) ∧ (s.ctx 9).cfg.isSome = true ∧ (s.ctx 9).discard = true
           ∧ (s.chan 9).index = 32767)
      ∧ (∀ len ∈ [0, 15, 2049], let s := oneOffer (offer len true) 0 (sendingCtx [] 0 0)
         selects9 s (offer len true) ∧ (s.ctx 9).cfg.isSome = true ∧ (s.ctx 9).discard = false
           ∧ (len < 16 ∨ 2048 < len))
      ∧ (∀ len ∈ [16, 2048], let s := oneOffer (offer len false) 32767 (sendingCtx [] 0 0)
         selects9 s (offer len false) ∧ (s.ctx 9).cfg.isSome = true ∧ (s.ctx 9).discard = false
           ∧ (s.chan 9).index = 32767) := by
  unfold selects9; decide +kernel

/-- A write of 100 bytes of channel 3, `read` of them read, its bytes on DATA. -/
def writeInProgress (read : Nat) : State :=
  let o : Offer := { len := 100, frameEnd := false, data := List.replicate 100 0x47 }
  let s := (runT 1010).setChan 3 { Channel.cold (some o) with st := .writing, armed := false }
  { s with
    grid := { s.grid with refTaken := true }
    feed := { s.feed with write := some {
      channel := 3, stream := 3, index := 0, frameEnd := false, len := 100, first := 7, start := 1000, read := read } }
    store := { Store.cold with free := [9] } }

theorem witness_WriteStoresSixteenBytesATick :
    ∀ read ∈ [0, 96], let s := writeInProgress read
      s.live = true ∧ s.pending = [] ∧ s.dueNow = []
        ∧ (∃ w ∈ s.feed.write, ∃ o ∈ (s.chan w.channel).pin, w.len ≤ o.data.length ∧ w.read < w.len
            ∧ w.len ≤ 256 * (s.store.chain w.first).length ∧ (s.store.chain w.first).Nodup)
        ∧ s.store.wf = true := by decide +kernel

theorem witness_WriteEndsByCompletionOrWithdrawal :
    (∀ discard : Bool, let s := writing 1200 discard
       s.live = true ∧ (∃ w ∈ s.feed.write, w.read = w.len ∧ (s.ctx w.stream).discard = discard))
      ∧ (let s := writing 160 false
         s.live = true ∧ (s.chan 3).st = .writing ∧ ∃ w ∈ s.feed.write, w.channel = 3) := by decide +kernel

theorem witness_AllocationAndFreeingOfChains :
    (let st : Store := { Store.cold with
       free := [4000, 4001, 4002, 4003], banks := #v[.cold, .cold, { Bank.cold with retired := true }, .cold] }
     3 ≤ st.usableFree ∧ st.isRetired 4000 = false ∧ st.free.Nodup ∧ st.wf = true)
      ∧ ({ Store.cold with free := [4000, 4001, 4002, 4003] } : Store).headUsable := by
  refine ⟨by decide +kernel, fun b h => ?_⟩
  obtain rfl : (4000 : Block) = b := Option.some.inj h
  decide +kernel

/-- With no packet anywhere, all 8,192 blocks are free. -/
theorem settlingRun_blocks : settlingRun.blocksConserved := by
  have hp : settlingRun.packets = [] := by decide +kernel
  refine ⟨?_, ?_, fun p h => by simp [hp] at h⟩
  · have hf : settlingRun.store.free ++ settlingRun.store.retired ++ settlingRun.usedBlocks
        = (List.range 8192).map (BitVec.ofNat 13) := by
      rw [State.usedBlocks, hp]; simp [settlingRun, runT, runAt, State.reset, Store.cold, Config.blocks, State.setCtx]
    rw [hf]
    refine List.Nodup.map_on (fun a ha b hb h => ?_) List.nodup_range
    have := congrArg BitVec.toNat h
    simp only [BitVec.toNat_ofNat, List.mem_range] at this ha hb
    omega
  · rw [State.usedBlocks, hp]
    simp [settlingRun, runT, runAt, State.reset, Store.cold, Config.blocks, State.setCtx]

theorem witness_BlocksAreFreeRetiredOrInUse :
    ∃ s t : State, s.coldOutsideRun ∧ s.store.wf = true ∧ (s.powered = true → s.blocksConserved) ∧ step s = .next t
      ∧ t.powered = true :=
  ⟨settlingRun, _, fun h => absurd rfl h, by decide +kernel, fun _ => settlingRun_blocks, rfl, rfl⟩

theorem witness_StoreAndQueuesKeepTheirForm :
    ∃ s t : State, s.store.wf = true ∧ s.store.headUsable ∧ s.link.wf ∧ step s = .next t := by
  refine ⟨{ settlingRun with store := { Store.cold with free := [9] } }, _, by decide +kernel, fun b h => ?_,
    ⟨by decide +kernel, by decide +kernel⟩, rfl⟩
  obtain rfl : (9 : Block) = b := Option.some.inj h
  decide +kernel

theorem witness_SecondParityErrorRetiresTheBank :
    (let st : Store := { Store.cold with banks := #v[.cold, { Bank.cold with errors := 1 }, .cold, .cold] }
     (st.bank (bankOf 2041)).retired = false ∧ (st.bank (bankOf 2041)).errors = 1
       ∧ ∃ k, k ≠ bankOf 2041 ∧ (st.bank k).retired = false)
      ∧ (let out : Bank := { Bank.cold with retired := true }
         let st : Store := { Store.cold with banks := #v[out, { Bank.cold with errors := 1 }, out, out] }
         (st.bank (bankOf 2041)).retired = false ∧ (st.bank (bankOf 2041)).errors = 1
           ∧ ∀ k, k ≠ bankOf 2041 → (st.bank k).retired = true)
      ∧ (Store.cold.bank (bankOf 2041)).errors ≠ 1 ∧ (runT 7).live = true := by decide +kernel

theorem witness_ShareFactorMeetsTheBudget :
    (0 + 256 ≤ 256) ∧ (256 < 257 + 0) ∧ ((1 : Nat) ≠ 0 ∧ 256 ≤ 256)
      ∧ (256 < 255 + 4 ∧ (4 : Nat) ≠ 0 ∧ 255 < 256 ∧ 4 * 256 ≤ (256 - 255) * 1024)
      ∧ (255 < 256 ∧ (256 - 255) * 1024 < 5 * 256) := by decide

/-- A peer of the given id. -/
def peer (id missed : Nat) (heard misaligned : Bool) : Peer :=
  { id := id, f := 4000, x := 0, flags := ⟨false, false, false, false⟩, offset := 7844, misaligned := misaligned,
    heard := heard, missed := missed, st := .present }

/-- A part in RUN with a peer table. -/
def withPeers (ps : List Peer) : State :=
  { settlingRun with share := { Share.cold with peers := ps } }

theorem witness_ShareEpochAgesThenStages :
    (let s := withPeers [peer 2 0 true false, peer 9 3 false false]
     s.pace.bus ≠ .stuck ∧ (s.ctx 3).cfg = some cfg3 ∧ (s.ctx 0).cfg = none
       ∧ ∃ p ∈ s.share.peers, p.heard = false ∧ 3 ≤ p.missed)
      ∧ ({ runT 0 with pace := { Pace.cold with bus := .stuck } } : State).pace.bus = .stuck := by decide +kernel

/-- The form of a peer table of two entries. -/
theorem withPeers_wf (a b : Nat) (m : Bool) (ha : a < b) (hb : b ≤ 15) (h5 : a ≠ 5 ∧ b ≠ 5) :
    (withPeers [peer a 0 true m, peer b 3 false m]).peersWf := by
  refine ⟨⟨ha, trivial⟩, fun p hp => ?_⟩
  have hid : (withPeers [peer a 0 true m, peer b 3 false m]).cfg.stationId = 5 := rfl
  rw [hid]
  simp only [withPeers, List.mem_cons, List.not_mem_nil, or_false] at hp
  rcases hp with rfl | rfl
  · exact ⟨by simp only [peer]; omega, h5.1, by simp [peer]⟩
  · exact ⟨by simp only [peer]; omega, h5.2, by simp [peer]⟩

theorem witness_NoticeActsByItsId :
    ∃ s : State, s.peersWf ∧ s.cfg.stationId = 5 ∧ (∃ p ∈ s.share.peers, p.id = 3 ∧ p.misaligned = false)
      ∧ (∀ p ∈ s.share.peers, p.id ≠ 12) :=
  ⟨withPeers [peer 3 0 true false, peer 9 3 false false], withPeers_wf 3 9 false (by omega) (by omega) (by omega), rfl,
    ⟨_, List.mem_cons_self, rfl, rfl⟩, by decide +kernel⟩

theorem witness_PeerTableStaysOrdered :
    ∃ s t : State, s.coldOutsideRun ∧ s.peersWf ∧ step s = .next t ∧ s.share.peers ≠ [] :=
  ⟨withPeers [peer 0 0 true false, peer 15 3 false false], _, fun h => absurd rfl h,
    withPeers_wf 0 15 false (by omega) (by omega) (by omega), rfl, by decide +kernel⟩

theorem witness_NoticeBitsRoundTripWithTheirCheck :
    (15 < 16) ∧ (65535 < 65536) ∧ ([true, false] : List Bool).length = [false, true].length := by decide

/-- The interface in the given states, its line high so far, with bit samples due at tick 10,128. -/
def samplingPace (bus : BusState) (recv : RecvState) : Pace :=
  { Pace.cold with bus := bus, recv := recv, level := true, bitStart := some 10000 }

theorem witness_PaceLineIsDrivenAndSampled :
    (let bits := noticeBits 5 0 0 0 ⟨false, false, false, false⟩
     64 ≤ 64 ∧ bits.length = 64 ∧ bits[0]? = some false ∧ bits[1]? = some true ∧ bits[63]?.isSome = true)
      ∧ (runT 7).live = true
      ∧ (samplingPace .off .data).bus = .off
      ∧ (∀ recv ∈ [RecvState.idle, .data], (samplingPace .normal recv).bus ≠ .off
          ∧ (samplingPace .normal recv).recv = recv ∧ (samplingPace .normal recv).level = true)
      ∧ (after 10000 (256 / 2) = (10128 : Time) ∧ after 10000 (256 / 2) ≠ (10129 : Time)) := by decide +kernel

theorem witness_NoticeRecordGoesOnTheLine :
    (let s : State := { runT 100 with pace := { (runT 100).pace with cur := some (notice .scheduled 0 0) } }
     s.live = true ∧ s.pace.bus = .normal ∧ s.pace.cur = some (notice .scheduled 0 0) ∧ 64 ≤ s.cfg.bitTime
       ∧ reached s.t (notice .scheduled 0 0).due = true)
      ∧ (let s : State := { runT 2048 with pace := { (runT 2048).pace with
           cur := some (notice .waiting 0 0), highBefore := 2048 } }
         s.live = true ∧ s.pace.bus = .normal ∧ s.pace.cur = some (notice .waiting 0 0) ∧ 64 ≤ s.cfg.bitTime
           ∧ s.pace.attempt = none ∧ 8 * s.cfg.bitTime + 0 ≤ s.pace.highBefore
           ∧ 8 * s.cfg.bitTime + 0 ≤ elapsed s.t (notice .waiting 0 0).since
           ∧ s.pace.level = true ∧ s.pins.paceFollows = true ∧ s.pace.recv = .idle) := by decide +kernel

/-- What the statements about a sender's mismatch ask of a state, at bit `j` sent as `sent`. -/
def comparesAt (s : State) (bits : List Bool) (j : Nat) (sent : Bool) : Prop :=
  s.live = true ∧ s.pace.bus = .normal ∧ s.pace.attempt = some { s0 := 0, bits := bits, comparing := true } ∧ j ≤ 63
    ∧ bits[j]? = some sent ∧ 64 ≤ s.cfg.bitTime ∧ s.cfg.bitTime ≤ 1024
    ∧ s.t = after 0 ((2 + j) * s.cfg.bitTime + s.cfg.bitTime / 2)

theorem witness_LossesAndBitErrorsReleaseTheLine :
    (∀ j ∈ [0, 3], comparesAt (sendingAt (BitVec.ofNat 48 (640 + 256 * j)) (List.replicate 64 true) 0 false)
        (List.replicate 64 true) j true)
      ∧ (∀ failed ∈ [0, 1, 2],
          comparesAt (sendingAt 1664 (List.replicate 64 true) failed false) (List.replicate 64 true) 4 true
            ∧ (sendingAt 1664 (List.replicate 64 true) failed false).pace.cur = some (notice .onLine failed 0)
            ∧ (sendingAt 1664 (List.replicate 64 true) failed false).pace.old = none)
      ∧ (∀ j ∈ [0, 63], comparesAt (sendingAt (BitVec.ofNat 48 (640 + 256 * j)) (List.replicate 64 false) 0 true)
          (List.replicate 64 false) j false)
      ∧ ∀ j ∈ [3, 4],
          let s0 := sendingAt (BitVec.ofNat 48 (640 + 256 * j)) (List.replicate 64 true) 0 false
          let s : State := { s0 with pace := { s0.pace with old := some (notice .onLine 1 0) } }
          comparesAt s (List.replicate 64 true) j true ∧ s.pace.old = some (notice .onLine 1 0)
            ∧ true ≠ s.pace.level := by
  unfold comparesAt; decide +kernel

/-- A part at its sample of bit 63 with an attempt on the line whose bit 63 is the same tick's. -/
def succeeding (old : Option Notice) : State :=
  let s := receivingAt (List.replicate 63 true) true
  { s with
    t := 16768
    pace := { s.pace with
      bitStart := some 16640, cur := some (notice .onLine 0 0), old := old,
      attempt := some { s0 := 0, bits := List.replicate 64 true, comparing := true } } }

theorem witness_CompleteNoticeIsJudgedOrSent :
    (∀ wrong : Bool,
        let bits := noticeBits 3 0 0 0 ⟨false, false, false, true⟩
        let s := receivingAt (bits.take 63) (bits.getD 63 false != wrong)
        s.live = true ∧ s.pace.bus = .normal ∧ s.pace.recv = .data ∧ s.pace.bitStart = some 10000
          ∧ s.t = after 10000 (s.cfg.bitTime / 2) ∧ s.pace.bits.length = 63 ∧ s.pace.attempt = none
          ∧ (bitField (s.pace.bits ++ [s.pace.level]) 56 8
              = (noticeCheck ((s.pace.bits ++ [s.pace.level]).take 56)).toNat ↔ wrong = false))
      ∧ (let a : Attempt := { s0 := 0, bits := List.replicate 64 true, comparing := false }
         let s0 := receivingAt (List.replicate 63 true) true
         let s : State := { s0 with pace := { s0.pace with attempt := some a } }
         s.live = true ∧ s.pace.bus = .normal ∧ s.pace.recv = .data ∧ s.pace.bitStart = some 10000
           ∧ s.t = after 10000 (s.cfg.bitTime / 2) ∧ s.pace.bits.length = 63 ∧ s.pace.attempt = some a
           ∧ a.comparing = false ∧ (s.t - a.s0).toNat < 66 * s.cfg.bitTime)
      ∧ (∀ old ∈ [none, some (notice .onLine 1 0)], ∀ recv ∈ [RecvState.data, .start],
          let s0 := succeeding old
          let s : State := { s0 with pace := { s0.pace with recv := recv } }
          s.live = true ∧ s.pace.bus = .normal
            ∧ s.pace.attempt = some { s0 := 0, bits := List.replicate 64 true, comparing := true }
            ∧ 64 ≤ s.cfg.bitTime ∧ s.cfg.bitTime ≤ 1024 ∧ s.pace.cur = some (notice .onLine 0 0)
            ∧ s.t = after 0 (65 * s.cfg.bitTime + s.cfg.bitTime / 2)
            ∧ (List.replicate 64 true)[63]? = some s.pace.level ∧ s.pace.old = old) := by decide +kernel

/-- A part in RUN with the receive side and the run counts as given. -/
def receiveSide (recv : RecvState) (high : Nat) (fell : Bool) : State :=
  { runT 10640 with
    pace := { (runT 10640).pace with
      recv := recv, highRun := high, fell := fell, edge := 10000, bitStart := some 10512, bits := [] } }

theorem witness_ReceiveSideFollowsTheLine :
    (let s := receiveSide .settling 512 false
     s.live = true ∧ s.pace.bus = .normal ∧ s.pace.recv = .settling ∧ 2 * s.cfg.bitTime ≤ s.pace.highRun)
      ∧ (∀ recv ∈ [RecvState.idle, .start], (receiveSide recv 0 true).live = true
          ∧ (receiveSide recv 0 true).pace.recv = recv ∧ (receiveSide recv 0 true).pace.fell = true)
      ∧ (let s := receiveSide .start 0 false
         s.pace.recv = .start ∧ s.t = after s.pace.edge (2 * s.cfg.bitTime + s.cfg.bitTime / 2) ∧ s.pace.fell = false)
      ∧ (let s := receiveSide .data 0 false
         s.pace.recv = .data ∧ s.pace.bitStart = some 10512 ∧ s.t = after 10512 (s.cfg.bitTime / 2)
           ∧ s.pace.bits.length < 63 ∧ s.pace.fell = false)
      ∧ (∀ recv ∈ [RecvState.start, .data],
          3 * (receiveSide recv 385 false).cfg.bitTime / 2 < (receiveSide recv 385 false).pace.highRun) := by
  decide +kernel

theorem witness_StuckLineStopsTheBus :
    (let s : State := { runT 4096 with pace := { (runT 4096).pace with lowRun := 4097 } }
     s.live = true ∧ s.pace.bus = .normal ∧ 16 * s.cfg.bitTime < s.pace.lowRun)
      ∧ (let s : State := { runT 52047 with pace := { (runT 52047).pace with bus := .stuck, highRun := 2048 } }
         s.live = true ∧ s.pace.bus = .stuck ∧ 8 * s.cfg.bitTime ≤ s.pace.highRun) := by decide +kernel

/-- A part in RUN at the tick its response of 6 bytes ends. -/
def responseEnds0 : State :=
  { runT 200000 with link := { Link.cold with responder := some { bytes := List.replicate 6 0, start := 192500 } } }

theorem witness_CharactersOnMrxAndMtx :
    (∀ was : Bool, let r : Rx := { was := was, busy := none, ready := none }
        r.busy = none ∧ (r.was = false ∨ true = true))
      ∧ (let r : Rx := { was := true, busy := none, ready := none }
         r.busy = none ∧ r.was = true)
      ∧ (∀ last : Bool, let level : Nat → Bool := fun d => decide (d = 1187) && last
         level 0 = false ∧ level 1187 = last)
      ∧ (∀ ik ∈ [(0, 0), (5, 9)],
          let r : Response := { bytes := List.replicate 6 0, start := 192500 }
          let s : State := { runT (after 192500 (1250 * ik.1 + 125 * ik.2 + 124)) with
            link := { Link.cold with responder := some r } }
          s.live = true ∧ s.link.responder = some r ∧ 1250 * r.bytes.length < 2 ^ 47 ∧ r.bytes[ik.1]? = some 0
            ∧ s.t = after r.start (1250 * ik.1 + 125 * ik.2 + 124))
      ∧ (let s := responseEnds0
         s.live = true ∧ s.link.responder = some { bytes := List.replicate 6 0, start := 192500 }
           ∧ 1250 * 6 ≤ (s.t - 192500).toNat) := by decide +kernel

/-- A part in RUN with the given parser and buffer, the responder IDLE or SENDING. -/
def parserIn (p : Parser) (busy : Bool) (buffer : List (Byte × Bool)) : State :=
  { runT 5000 with link := { Link.cold with
      parser := p, buffer := buffer, silence := some 4000,
      responder := if busy then some { bytes := [0x82], start := 4999 } else none } }

theorem witness_RequestByteFeedsTheParser :
    (∀ p ∈ [Parser.discard, .awaitCode, .awaitLength 3, .operands 3 1 [], .operands 4 2 []],
        (parserIn p false []).live = true ∧ (parserIn p false []).loader.part ≠ .load
          ∧ (parserIn p false []).link.takesAtOnce = true ∧ (parserIn p false []).link.parser = p)
      ∧ (∀ n ∈ [0, 63, 64], let s := parserIn .awaitCode true (List.replicate n (0x07, false))
          s.live = true ∧ s.link.takesAtOnce = false ∧ s.link.parser ≠ .discard ∧ s.link.buffer.length = n
            ∧ s.link.gap = false)
      ∧ (List.replicate 64 ((0x07#8, false)) = List.replicate 63 (0x07#8, false) ++ [(0x07#8, false)]
        ∧ ∀ e ∈ List.replicate 63 ((0x07#8, false)), e.2 = false)
      ∧ (let s := parserIn .awaitCode true ((0x07, true) :: List.replicate 63 (0x07, false))
         s.link.parser ≠ .discard ∧ 64 ≤ s.link.buffer.length ∧ ∃ e ∈ s.link.buffer, e.2 = true) := by
  decide +kernel

theorem witness_RequestIsJudgedAndAnswered :
    (halted86.loader.part = .halted ∧ halted86.loader.part ≠ .load ∧ (2#8 ≠ 0x01))
      ∧ ((runT 7).loader.part ≠ .halted ∧ (runT 7).loader.part ≠ .load)
      ∧ (5#8 ≠ 0x01 ∧ 5#8 ≠ 0x02 ∧ 5#8 ≠ 0x03 ∧ 5#8 ≠ 0x04)
      ∧ ([0#8] ≠ [] ∧ ([] : List Byte).length ≠ 1 ∧ [0#8].length ≠ 2) := by decide +kernel

theorem witness_EventsRemovesTheOldestEntries :
    (runT 7).loader.part = .run ∧ (1 ≤ (1#8).toNat ∧ (32#8).toNat ≤ 32) ∧ 32 < (33#8).toNat := by decide +kernel

theorem witness_ClearClearsWhatItsMaskNames :
    ((runT 7).loader.part = .run ∧ (runT 7).live = true) ∧ ({ State.reset with cold := true } : State).cold = true
      ∧ State.reset.coldOutsideRun ∧ State.reset.loader.part = .load :=
  ⟨⟨rfl, rfl⟩, rfl, reset_coldOutsideRun, rfl⟩

theorem witness_LineErrorMakesAGap :
    (State.reset.live = true ∧ State.reset.loader.part = .load)
      ∧ (∀ p ∈ [Parser.discard, .awaitCode, .awaitLength 3],
          (parserIn p false []).live = true ∧ (parserIn p false []).loader.part ≠ .load
            ∧ (parserIn p false []).link.takesAtOnce = true)
      ∧ ((Parser.operands 4 2 []).assembling = some 4)
      ∧ (∀ buffer ∈ [[], [(0x07#8, false)]],
          (parserIn .awaitCode true buffer).link.takesAtOnce = false
            ∧ (parserIn .awaitCode true buffer).link.buffer = buffer) := by decide +kernel

/-- A part in RUN whose response ends at this tick. -/
def responseEnds (gap : Bool) (buffer : List (Byte × Bool)) (silence : Option Time) : State :=
  { runT 200000 with link := { Link.cold with
      responder := some { bytes := List.replicate 6 0, start := 192500 }, gap := gap, buffer := buffer,
      silence := silence } }

theorem witness_ResponseAndSilenceFreeTheParser :
    (∀ gap : Bool, ∀ buffer ∈ [[], [(0x01#8, false)], [(0x00#8, true)]], ∀ last ∈ [75000, 75001],
        let s := responseEnds gap buffer (some (BitVec.ofNat 48 last))
        s.live = true ∧ s.link.gap = gap ∧ s.link.buffer = buffer
          ∧ s.link.responder = some { bytes := List.replicate 6 0, start := 192500 }
          ∧ reached s.t (after 192500 (1250 * 6)) = true)
      ∧ ((responseEnds true [] none).link.parser = .awaitCode
        ∧ Parser.assembling (.awaitLength 3) = some 3 ∧ Parser.assembling (.operands 4 2 []) = some 4)
      ∧ (reached (runT 200000).t (after 75000 125000) = true ∧ reached (runT 200000).t (after 75001 125000) = false)
      ∧ (let s := parserIn .discard false []
         s.link.parser = .discard ∧ reached (s.t + 124000) (after 4000 125000) = true)
      ∧ (let s := parserIn (.awaitLength 3) false []
         (s.link.parser.assembling).isSome = true ∧ s.link.responder = none ∧ s.link.buffer = [] ∧ s.link.gap = false)
      := by decide +kernel

end Sys2Proof.Tests
end

namespace Sys2Proof.Machine

open Sys2Proof

/-! ### One step -/

theorem step_of_pending {s : State} {c : Instr} {rest : List Instr} (h : s.pending = c :: rest) :
    step s = exec c { s with pending := rest } := by
  unfold step
  rw [h]

theorem step_of_idle {s : State} (h : s.pending = []) : step s = s.idleStep := by
  unfold step
  rw [h]

theorem idleStep_of_none {s : State} (h : s.dueNow = []) : s.idleStep = s.tick := by
  unfold State.idleStep
  rw [h]

/-- The step chosen is one of those called for. -/
theorem choose_mem (s : State) (c : Instr) (cs : List Instr) : s.choose c cs ∈ c :: cs := by
  have hlt : Config.pick s.fresh % (cs.length + 1) < (c :: cs).length := Nat.mod_lt _ (Nat.succ_pos cs.length)
  unfold State.choose
  rw [List.getD_eq_getElem _ _ hlt]
  exact List.getElem_mem hlt

theorem idleStep_of_due {s : State} (h : s.dueNow ≠ []) :
    ∃ c ∈ s.dueNow, s.idleStep = .next { s with pending := [c], fresh := s.fresh + 1 } := by
  obtain ⟨c, cs, hd⟩ := List.exists_cons_of_ne_nil h
  refine ⟨s.choose c cs, hd ▸ choose_mem s c cs, ?_⟩
  unfold State.idleStep
  rw [hd]

/-- Settles O1. -/
theorem stepRunsFrontCommand : Obligations.StepRunsFrontCommand := by
  unfold Obligations.StepRunsFrontCommand
  intro c rest s h
  exact step_of_pending h

/-- Settles O2. -/
theorem idlePartActsBeforeTheNextTick : Obligations.IdlePartActsBeforeTheNextTick := by
  unfold Obligations.IdlePartActsBeforeTheNextTick
  intro s hp
  rw [step_of_idle hp]
  exact ⟨idleStep_of_none, idleStep_of_due⟩

/-! ### The reference qualifier -/

theorem exec_refSampled {s : State} (high : Bool) (h : s.refReady = true) :
    exec (.refSampled high) s = .next (s.sampleRef high) := by
  simp [exec, execRefSampled, h]

theorem exec_refPulseAccepted {s : State} (h : s.refReady = true) (hp : s.grid.pulseNext = true) :
    exec .refPulseAccepted s = .next s.acceptPulse := by
  simp [exec, execRefPulseAccepted, h, hp]

theorem refReady_of {s : State} (hl : s.live = true) (hr : s.grid.running = true) (ho : s.cfg.refOn = true)
    (ht : s.grid.refTaken = false) : s.refReady = true := by
  simp [State.refReady, hl, hr, ho, ht]

/-- Settles O16, row by row of the table of R9. -/
theorem refSampleFollowsTheQualifierTable : Obligations.RefSampleFollowsTheQualifierTable := by
  unfold Obligations.RefSampleFollowsTheQualifierTable
  intro s hl hr ho ht
  have ready := refReady_of hl hr ho ht
  rw [exec_refSampled true ready, exec_refSampled false ready]
  refine ⟨?_, ?_, ?_, ?_, ?_, ?_, ?_, ?_⟩
  · intro c hc hq
    simp [State.sampleRef, hq, hc]
  · intro hq
    simp [State.sampleRef, hq]
  · intro c hq
    simp [State.sampleRef, hq]
  · intro hq
    simp [State.sampleRef, hq]
  · intro hq
    simp [State.sampleRef, hq]
  · intro c hq
    simp [State.sampleRef, hq]
  · intro c hc hq
    simp [State.sampleRef, hq, hc]
  · intro hq
    rw [exec_refPulseAccepted ready (by simp [Grid.pulseNext, hq])]
    simp [State.sampleRef, hq]

end Sys2Proof.Machine

namespace Sys2Proof.Machine

open Sys2Proof

/-! ### What a command can move -/

/-- The commands that make a cold start (R158). -/
def startsCold : Instr → Bool
  | .coldAssert | .powerUp => true
  | _ => false

/-- The commands that can move the Start-up Loader without a cold start. -/
def movesLoader : Instr → Bool
  | .imageByte _ | .requestByte _ | .imageStalled => true
  | _ => false

/-- The commands that can move the Timing Grid without a cold start. -/
def movesGrid : Instr → Bool
  | .frameEpoch | .fieldEpoch | .refPulseAccepted | .refSampled _ | .imageByte _ | .requestByte _ => true
  | _ => false

/-- The commands that can move a stream context without a cold start. -/
def movesContexts : Instr → Bool
  | .frameEpoch | .fieldEpoch | .refPulseAccepted | .refSampled _ | .imageByte _ | .requestByte _ | .starve _ | .grant
  | .egressByte | .egressStall | .intakeSelection | .writeComplete => true
  | _ => false

/-- What a command other than a cold start leaves as it was. -/
def CommandFrame (c : Instr) (s t : State) : Prop :=
  t.t = s.t ∧ (c ≠ .coldRelease → t.cold = s.cold) ∧ (movesLoader c = false → t.loader = s.loader)
    ∧ (movesGrid c = false → t.grid = s.grid) ∧ (movesContexts c = false → t.ctxs = s.ctxs)

theorem exec_frame {c : Instr} {s t : State} (h : exec c s = .next t) (hc : startsCold c = false) :
    CommandFrame c s t := by
  unfold CommandFrame
  cases c with
  | coldAssert => cases hc
  | powerUp => cases hc
  | coldRelease => simp [coldRelease_keeps h]
  | imageByte b => simp [imageByte_keeps h, movesLoader, movesGrid, movesContexts]
  | imageStalled => simp [imageStalled_keeps h, movesLoader]
  | frameEpoch => simp [frameEpoch_keeps h, movesGrid, movesContexts]
  | fieldEpoch => simp [fieldEpoch_keeps h, movesGrid, movesContexts]
  | refPulseAccepted => simp [refPulseAccepted_keeps h, movesGrid, movesContexts]
  | starve n => simp [starve_keeps h, movesContexts]
  | grant => simp [grant_keeps h, movesContexts]
  | egressByte => simp [egressByte_keeps h, movesContexts]
  | done => simp [done_keeps h]
  | egressStall => simp [egressStall_keeps h, movesContexts]
  | linkChange up => simp [linkChange_keeps h]
  | offerPresented ch length frameEnd data => simp [offerPresented_keeps h]
  | intakeSelection => simp [intakeSelection_keeps h, movesContexts]
  | writeComplete => simp [writeComplete_keeps h, movesContexts]
  | feedWithdrawn ch => simp [feedWithdrawn_keeps h]
  | noticeDue => simp [noticeDue_keeps h]
  | noticeStart => simp [noticeStart_keeps h]
  | arbitrationLost => simp [arbitrationLost_keeps h]
  | noticeBiterr => simp [noticeBiterr_keeps h]
  | noticeComplete => simp [noticeComplete_keeps h]
  | noticeFraming => simp [noticeFraming_keeps h]
  | receiveSettled => simp [receiveSettled_keeps h]
  | busStuck => simp [busStuck_keeps h]
  | busRestored => simp [busRestored_keeps h]
  | requestByte b => simp [requestByte_keeps h, movesLoader, movesGrid, movesContexts]
  | lineError => simp [lineError_keeps h]
  | responseComplete => simp [responseComplete_keeps h]
  | discardEnd => simp [discardEnd_keeps h]
  | requestExpired => simp [requestExpired_keeps h]
  | startMarkEdge => simp [startMarkEdge_keeps h]
  | dataBitSampled => simp [dataBitSampled_keeps h]
  | refSampled high => simp [refSampled_keeps h, movesGrid, movesContexts]
  | offerDeasserted ch => simp [offerDeasserted_keeps h]
  | powerRemoved => simp [powerRemoved_keeps h]

theorem exec_t {c : Instr} {s t : State} (h : exec c s = .next t) (hc : startsCold c = false) : t.t = s.t := by
  obtain ⟨ht, -⟩ := exec_frame h hc
  exact ht

theorem exec_cold {c : Instr} {s t : State} (h : exec c s = .next t) (hc : startsCold c = false)
    (hr : c ≠ .coldRelease) : t.cold = s.cold := by
  obtain ⟨-, hcold, -⟩ := exec_frame h hc
  exact hcold hr

theorem exec_loader {c : Instr} {s t : State} (h : exec c s = .next t) (hc : startsCold c = false)
    (hl : movesLoader c = false) : t.loader = s.loader := by
  obtain ⟨-, -, hloader, -⟩ := exec_frame h hc
  exact hloader hl

theorem exec_grid {c : Instr} {s t : State} (h : exec c s = .next t) (hc : startsCold c = false)
    (hg : movesGrid c = false) : t.grid = s.grid := by
  obtain ⟨-, -, -, hgrid, -⟩ := exec_frame h hc
  exact hgrid hg

theorem exec_ctxs {c : Instr} {s t : State} (h : exec c s = .next t) (hc : startsCold c = false)
    (hx : movesContexts c = false) : t.ctxs = s.ctxs := by
  obtain ⟨-, -, -, -, hctxs⟩ := exec_frame h hc
  exact hctxs hx

/-- A command that makes a cold start makes it, or finds COLD asserted already and changes nothing (R158). -/
theorem exec_coldStart {c : Instr} {s t : State} (h : exec c s = .next t) (hc : startsCold c = true) :
    t = s.coldStart ∨ (s.live = false ∧ t = s) := by
  cases c with
  | coldAssert =>
    simp only [exec, execColdAssert] at h
    split at h
    · cases h
      exact .inl rfl
    · cases h
      exact .inr ⟨by simpa using ‹¬s.live = true›, rfl⟩
  | powerUp =>
    cases h
    exact .inl rfl
  | _ => cases hc

/-- A byte on MRX is received by the live part, and by no other (R158). -/
theorem exec_byte {c : Instr} {b : Byte} {s t : State} (h : exec c s = .next t)
    (hc : c = .imageByte b ∨ c = .requestByte b) : (s.live = true ∧ t = s.receiveByte b) ∨ t = s := by
  rcases hc with rfl | rfl <;> simp only [exec, execImageByte, execRequestByte] at h <;> split at h <;> cases h
  · exact .inl ⟨‹_›, rfl⟩
  · exact .inr rfl
  · exact .inl ⟨‹_›, rfl⟩
  · exact .inr rfl

end Sys2Proof.Machine

namespace Sys2Proof.Machine

open Sys2Proof

/-! ### An accepted pulse -/

/-- The part whose qualifier has accepted a pulse that the lock machine has not yet taken (R9). -/
def State.holdPulse (s : State) : State := { s with grid := { s.grid with qual := .waitLow 0, refTaken := true } }

theorem acceptPulse_eq (s : State) : s.acceptPulse = s.holdPulse.lockPulse s.grid.cr := rfl

/-! ### A byte on MRX -/

/-- The part with an image byte stored and the walk advanced, before loading ends or goes on (R160). -/
def State.withByte (s : State) (b : Byte) : State := { s.takeChar (.byte b) with loader := s.loader.store s.t b }

theorem receiveByte_loading {s : State} (b : Byte) (hl : s.loader.part = .load) :
    s.receiveByte b = if (s.loader.store s.t b).endComplete || (s.loader.store s.t b).areaFull
      then (s.withByte b).endLoading else s.withByte b := by
  simp only [State.receiveByte, hl, if_true, State.imageByte, takeChar_loader, takeChar_t, State.withByte]

theorem receiveByte_requesting {s : State} (b : Byte) (hl : s.loader.part ≠ .load) :
    s.receiveByte b = (s.takeChar (.byte b)).requestByte b := by
  simp only [State.receiveByte, hl, if_false]

/-- In LOAD a byte is stored, and the image is then judged or not (R160, R161, R170, R171). -/
theorem receiveByte_load_cases {s : State} (b : Byte) (hl : s.loader.part = .load) :
    s.receiveByte b = s.withByte b ∨ (∃ f pos, s.receiveByte b = (s.withByte b).reject f pos)
      ∨ ∃ part rs, s.receiveByte b = (s.withByte b).enterRun part rs := by
  rw [receiveByte_loading b hl]
  unfold State.endLoading
  (repeat' split)
  · exact .inr (.inl ⟨_, _, rfl⟩)
  · exact .inr (.inr ⟨_, _, rfl⟩)
  · exact .inl rfl

theorem enterRun_grid (s : State) (part : ImageRecord) (rs : List ImageRecord) :
    (s.enterRun part rs).grid = s.grid.enterRun (readPart part.body) s.t := by
  unfold State.enterRun
  simp only []
  rw [foldl_keeps (·.grid) (fun s r => enableStream_grid s _ r)]

/-- A received byte leaves the grid, or makes its move of RUN entry (R4, R170). -/
theorem receiveByte_grid (s : State) (b : Byte) :
    (s.receiveByte b).grid = s.grid ∨ ∃ p, (s.receiveByte b).grid = s.grid.enterRun p s.t := by
  by_cases hl : s.loader.part = .load
  · rcases receiveByte_load_cases b hl with h | ⟨f, pos, h⟩ | ⟨part, rs, h⟩ <;> rw [h]
    · exact .inl (by simp [State.withByte])
    · exact .inl (by simp [State.withByte])
    · exact .inr ⟨readPart part.body, by simp [enterRun_grid, State.withByte]⟩
  · exact .inl (by simp [receiveByte_requesting b hl])

/-! ### Factors and windows -/

theorem factorsWf_cold : Context.cold.factorsWf := by
  unfold Context.factorsWf
  simp [Context.cold]

/-- A context that RUN entry enables starts with its factors at 256 and W_eff at W (R23). -/
theorem factorsWf_enable {cfg : StreamCfg} (h : cfg.w ≤ cfg.wCap) : (Context.cold.enable cfg).factorsWf := by
  unfold Context.factorsWf
  simp [Context.enable, Context.cold, h]

/-- The factors of a context turn on four of its fields. -/
theorem Context.factorsWf.congr {c c' : Context} (h : c.factorsWf) (h1 : c'.cfg = c.cfg) (h2 : c'.ks = c.ks)
    (h3 : c'.ka = c.ka) (h4 : c'.wEff = c.wEff) : c'.factorsWf := by
  unfold Context.factorsWf at *
  rw [h1, h2, h3, h4]
  exact h

/-- Every context's factors and window are in range. -/
def FactorsInRange (s : State) : Prop := ∀ n, (s.ctx n).factorsWf

theorem FactorsInRange.of_continues {s t : State} (h : FactorsInRange s) (g : AllContinue s t) : FactorsInRange t :=
  fun n => (g.all n).fac (h n)

theorem FactorsInRange.of_ctxs {s t : State} (h : FactorsInRange s) (g : t.ctxs = s.ctxs) : FactorsInRange t :=
  h.of_continues (.of_ctxs g)

/-- A received byte enables contexts in LOAD, where they are cold, and otherwise leaves them (R170, R172). -/
theorem factorsInRange_receiveByte {s : State} (b : Byte) (hcold : s.coldOutsideRun) (h : FactorsInRange s) :
    FactorsInRange (s.receiveByte b) := by
  by_cases hl : s.loader.part = .load
  · intro n
    obtain ⟨-, hctxs, -⟩ := hcold (by simp [hl])
    have hc : s.ctx n = .cold := hctxs n
    rcases loadByte_ctx s b hl n with hn | ⟨cfg, hw, -, hn⟩
    · rw [hn]
      exact h n
    · rw [hn, hc]
      exact factorsWf_enable hw
  · exact h.of_ctxs (by simp [State.receiveByte, hl])

/-- The end of a write changes a ring, a state, a count or the discard flag, no factor (R141). -/
theorem factorsInRange_completeWrite {s : State} (w : WriteRec) (h : FactorsInRange s) :
    FactorsInRange (s.completeWrite w) := by
  intro n
  rw [completeWrite_ctx]
  split
  · split
    · exact (h n).congr rfl rfl rfl rfl
    · exact (h n).congr rfl rfl rfl rfl
  · exact h n

theorem continues_acceptPulse (s : State) : AllContinue s s.acceptPulse :=
  (AllContinue.of_ctxs (s := s) (t := s.holdPulse) rfl).trans (continues_lockPulse s.holdPulse s.grid.cr)

theorem continues_takeDue (s : State) : AllContinue s s.takeDue := by
  constructor
  intro n
  rw [ctx_takeDue]
  split
  · exact .of rfl le_rfl rfl rfl rfl
  · exact .refl _

/-- Every command keeps the factors and windows in range. -/
theorem factorsInRange_exec {c : Instr} {s t : State} (hcold : s.coldOutsideRun) (hs : FactorsInRange s)
    (h : exec c s = .next t) : FactorsInRange t := by
  cases hc : startsCold c with
  | true =>
    rcases exec_coldStart h hc with rfl | ⟨-, rfl⟩
    · intro n
      rw [ctx_coldStart]
      exact factorsWf_cold
    · exact hs
  | false =>
    have same (hx : movesContexts c = false) : FactorsInRange t := hs.of_ctxs (exec_ctxs h hc hx)
    have byte (b : Byte) (hb : c = .imageByte b ∨ c = .requestByte b) : FactorsInRange t := by
      rcases exec_byte h hb with ⟨-, rfl⟩ | rfl
      · exact factorsInRange_receiveByte b hcold hs
      · exact hs
    cases c with
    | imageByte b => exact byte b (.inl rfl)
    | requestByte b => exact byte b (.inr rfl)
    | frameEpoch =>
      simp only [exec, execFrameEpoch] at h
      split at h <;> cases h
      · exact hs.of_continues (continues_takeFrameEpoch ..)
      · exact hs
    | fieldEpoch =>
      simp only [exec, execFieldEpoch] at h
      (repeat' split at h) <;> cases h
      · exact hs
      · exact hs.of_continues (continues_takeFieldEpoch ..)
      · exact hs
    | refPulseAccepted =>
      simp only [exec, execRefPulseAccepted] at h
      split at h <;> cases h
      · exact hs.of_continues (continues_acceptPulse s)
      · exact hs
    | refSampled high =>
      simp only [exec, execRefSampled] at h
      split at h <;> cases h
      · exact hs.of_continues (continues_sampleRef ..)
      · exact hs
    | starve n =>
      simp only [exec, execStarve] at h
      split at h <;> cases h
      · exact hs.of_continues (continues_starveStream ..)
      · exact hs
    | grant =>
      simp only [exec, execGrant] at h
      have due : FactorsInRange s.takeDue := hs.of_continues (continues_takeDue s)
      (repeat' split at h)
      · cases h
        exact due
      · exact due.of_continues (continues_grantHead _ _ _ h)
      · cases h
        exact hs
    | egressByte =>
      simp only [exec, execEgressByte] at h
      (repeat' split at h) <;> cases h
      · exact hs
      · exact hs.of_ctxs rfl
      · exact hs.of_continues (.trans (.of_ctxs (by simp)) (continues_abandonSlot ..))
      · exact hs
    | egressStall =>
      simp only [exec, execEgressStall] at h
      (repeat' split at h) <;> cases h
      · exact hs
      · rename_i sl _
        exact (hs.of_continues (continues_abandonSlot s sl)).of_ctxs (by simp)
      · exact hs
    | intakeSelection =>
      simp only [exec, execIntakeSelection] at h
      (repeat' split at h) <;> cases h
      · exact hs
      · exact hs.of_continues (continues_select ..)
      · exact hs
    | writeComplete =>
      simp only [exec, execWriteComplete] at h
      (repeat' split at h) <;> cases h
      · exact hs
      · exact factorsInRange_completeWrite _ hs
      · exact hs
    | _ => exact same rfl

/-- Every step keeps the factors and windows in range (R23, R29, R46). -/
theorem factorsInRange_step {s t : State} (hcold : s.coldOutsideRun) (hs : FactorsInRange s) (h : step s = .next t) :
    FactorsInRange t := by
  refine step_inv (P := FactorsInRange) h (fun u l f hu => hu) ?_ ?_ ?_ hs
  · intro c u hu hx
    rw [hu] at hx
    exact factorsInRange_exec (s := { s with pending := u.pending }) hcold hs hx
  · intro _ hk n
    obtain ⟨-, -, -, -, -, -, hctx, -⟩ := clock_keeps hk
    rw [hctx n]
    exact (hs n).congr rfl rfl rfl rfl
  · rintro _ rfl
    exact hs

/-! ### The lock machine's counts -/

theorem countsWf_missTest {g : Grid} (h : g.countsWf) : g.missTest.1.countsWf := by
  obtain ⟨hm, ho⟩ := h
  unfold Grid.missTest
  (repeat' split)
  · exact ⟨hm, ho⟩
  · exact ⟨by simp only []; omega, ho⟩
  · exact ⟨by simp, by simp⟩
  · exact ⟨hm, ho⟩

theorem countsWf_takeFrameEpoch {s : State} (events : List Raised) (h : s.grid.countsWf) :
    (s.takeFrameEpoch events).grid.countsWf := by
  obtain ⟨hg, -⟩ := takeFrameEpoch_facts s events
  rw [hg]
  exact countsWf_missTest (g := s.grid.advance s.cfg) h

theorem countsWf_slew {s : State} (e : Int) (events : List Raised) (h : s.grid.countsWf) :
    (s.slew e events).grid.countsWf := by
  unfold State.slew
  simp only []
  split
  · exact countsWf_takeFrameEpoch (s := { s with grid := { s.grid with eNext := s.grid.slewed s.cfg e } }) events h
  · simpa [Grid.countsWf] using h

theorem takeFieldEpoch_grid (s : State) (h : Time) : (s.takeFieldEpoch h).grid = { s.grid with h := none } := by
  simp [State.takeFieldEpoch]

theorem stepAndLock_grid (s : State) (cr : Time) (cause lockDetail : Nat) :
    (s.stepAndLock cr cause lockDetail).grid = (s.grid.step s.cfg s.t cr).relock := by
  simp [State.stepAndLock]

theorem countsWf_relock (g : Grid) : g.relock.countsWf := by simp [Grid.countsWf, Grid.relock]

/-- A pulse that the lock machine takes leaves its counts in range (R15 to R19). -/
theorem countsWf_lockPulse {s : State} (cr : Time) (h : s.grid.countsWf) : (s.lockPulse cr).grid.countsWf := by
  obtain ⟨hm, ho⟩ := id h
  unfold State.lockPulse
  simp only []
  (repeat' split)
  · exact h
  · rw [stepAndLock_grid]
    exact countsWf_relock _
  · exact countsWf_slew _ _ (countsWf_relock _)
  · exact ⟨by simp, by simp only []; omega⟩
  · rw [raise_grid]
    exact ⟨by simp, by simp [Grid.step]⟩
  · exact countsWf_slew _ _ (countsWf_relock _)
  · rw [stepAndLock_grid]
    exact countsWf_relock _

theorem countsWf_acceptPulse {s : State} (h : s.grid.countsWf) : s.acceptPulse.grid.countsWf :=
  countsWf_lockPulse (s := s.holdPulse) s.grid.cr h

theorem countsWf_sampleRef {s : State} (high : Bool) (h : s.grid.countsWf) : (s.sampleRef high).grid.countsWf := by
  unfold State.sampleRef
  simp only []
  (repeat' split)
  · exact h
  · exact h
  · exact h
  · exact h
  · exact h
  · exact h
  · exact h
  · exact countsWf_acceptPulse h

/-- Every command keeps the lock machine's counts in range. -/
theorem countsWf_exec {c : Instr} {s t : State} (hs : s.grid.countsWf) (h : exec c s = .next t) :
    t.grid.countsWf := by
  cases hc : startsCold c with
  | true =>
    rcases exec_coldStart h hc with rfl | ⟨-, rfl⟩
    · exact ⟨Nat.zero_le 3, Nat.zero_le 2⟩
    · exact hs
  | false =>
    have same (hx : movesGrid c = false) : t.grid.countsWf := exec_grid h hc hx ▸ hs
    have byte (b : Byte) (hb : c = .imageByte b ∨ c = .requestByte b) : t.grid.countsWf := by
      rcases exec_byte h hb with ⟨-, rfl⟩ | rfl
      · rcases receiveByte_grid s b with hg | ⟨p, hg⟩
        · rw [hg]
          exact hs
        · rw [hg]
          exact hs
      · exact hs
    cases c with
    | imageByte b => exact byte b (.inl rfl)
    | requestByte b => exact byte b (.inr rfl)
    | frameEpoch =>
      simp only [exec, execFrameEpoch] at h
      split at h <;> cases h
      · exact countsWf_takeFrameEpoch _ hs
      · exact hs
    | fieldEpoch =>
      simp only [exec, execFieldEpoch] at h
      (repeat' split at h) <;> cases h
      · exact hs
      · rw [takeFieldEpoch_grid]
        exact hs
      · exact hs
    | refPulseAccepted =>
      simp only [exec, execRefPulseAccepted] at h
      split at h <;> cases h
      · exact countsWf_acceptPulse hs
      · exact hs
    | refSampled high =>
      simp only [exec, execRefSampled] at h
      split at h <;> cases h
      · exact countsWf_sampleRef high hs
      · exact hs
    | _ => exact same rfl

/-- Every step keeps the lock machine's counts in range (R17, R18). -/
theorem countsWf_step {s t : State} (hs : s.grid.countsWf) (h : step s = .next t) : t.grid.countsWf := by
  refine step_inv (P := fun u => u.grid.countsWf) h (fun u l f hu => hu) ?_ ?_ ?_ hs
  · intro c u hu hx
    rw [hu] at hx
    exact countsWf_exec (s := { s with pending := u.pending }) hs hx
  · intro _ hk
    obtain ⟨-, -, -, -, -, hgrid, -⟩ := clock_keeps hk
    rw [hgrid]
    exact hs
  · rintro _ rfl
    exact hs

/-- Settles O23: both parts are invariants of the step. -/
theorem factorsAndWindowsStayInRange : Obligations.FactorsAndWindowsStayInRange := by
  unfold Obligations.FactorsAndWindowsStayInRange
  exact ⟨fun s t hcold hs h => factorsInRange_step hcold hs h, fun s t hs h => countsWf_step hs h⟩

end Sys2Proof.Machine

namespace Sys2Proof.Machine

open Sys2Proof

/-! ### Blocks cold outside RUN -/

/-- Request work leaves cold blocks cold. -/
theorem BlocksCold.requestWork {s t : State} (h : BlocksCold s) (w : RequestWork s t) (hgrid : t.grid = s.grid)
    (hctxs : t.ctxs = s.ctxs) (hshare : t.share = s.share) (hpace : t.pace = s.pace) (hfeed : t.feed = s.feed)
    (hcfg : t.cfg = s.cfg) : BlocksCold t := by
  obtain ⟨bgrid, bctx, bshare, bpace, bstore, bslot, bup, boffer, bwrite, btake, bqueue, bover, blatch, bco, bla, bst,
    btr, bptr, bchan, bcfg⟩ := h
  refine ⟨hgrid.trans bgrid, fun n => (ctx_congr hctxs n).trans (bctx n), hshare.trans bshare, hpace.trans bpace,
    w.sc bstore, w.slot.trans bslot, w.lu.trans bup, w.off.trans boffer, by rw [hfeed, bwrite], by rw [hfeed, btake],
    ?_, w.o bover, w.lc blatch, w.co bco, w.la bla, w.sv bst, w.tr btr, by rw [hfeed, bptr], ?_, hcfg.trans bcfg⟩
  · have hq := w.q
    rw [bqueue] at hq
    exact List.length_eq_zero_iff.mp (Nat.le_zero.mp hq)
  · intro n
    rw [show t.chan n = s.chan n by simp [State.chan, hfeed]]
    exact bchan n

/-- Cold blocks stay cold where a channel keeps its index counter and its reported flag (R130). -/
theorem BlocksCold.setChan {s : State} (h : BlocksCold s) (n : Stream) (c : Channel)
    (hi : c.index = (s.chan n).index) (hr : c.reported = (s.chan n).reported) : BlocksCold (s.setChan n c) := by
  refine blocksCold_of h rfl (fun _ => rfl) rfl rfl rfl rfl rfl (.inl rfl) rfl (.inl rfl) rfl rfl rfl (.inl rfl)
    (.inl rfl) (.inl rfl) (.inl rfl) rfl (fun m => ?_) rfl
  by_cases hm : m = n
  · subst hm
    rw [chan_setChan_self]
    exact ⟨hi, hr⟩
  · rw [chan_setChan_ne _ _ hm]
    exact ⟨rfl, rfl⟩

/-- OFFER falls on a channel of a cold part: there is no write to withdraw (R142). -/
theorem BlocksCold.offerFalls {s : State} (h : BlocksCold s) (n : Stream) : BlocksCold (s.offerFalls n) := by
  have hw : s.feed.write = none := by
    obtain ⟨-, -, -, -, -, -, -, -, hw, -⟩ := h
    exact hw
  unfold State.offerFalls
  rw [hw]
  split
  · split
    · contradiction
    · exact h
    · exact h.setChan n _ rfl rfl
    · exact h.setChan n _ rfl rfl
  · exact h.setChan n _ rfl rfl

/-- A received byte leaves cold blocks cold, or brings RUN (R170, R171, R177). -/
theorem BlocksCold.receiveByte {s : State} (h : BlocksCold s) (b : Byte) :
    (s.receiveByte b).loader.part = .run ∨ BlocksCold (s.receiveByte b) := by
  by_cases hl : s.loader.part = .load
  · have stored : BlocksCold (s.withByte b) :=
      h.requestWork (.same (by simp [State.withByte, takeChar_eq]) (by simp [State.withByte, takeChar_eq])
        (by simp [State.withByte, takeChar_eq]) (by simp [State.withByte]) (by simp [State.withByte]))
        (by simp [State.withByte]) (by simp [State.withByte]) (by simp [State.withByte]) (by simp [State.withByte])
        (by simp [State.withByte]) (by simp [State.withByte])
    rcases receiveByte_load_cases b hl with hb | ⟨f, pos, hb⟩ | ⟨part, rs, hb⟩ <;> rw [hb]
    · exact .inr stored
    · exact .inr stored
    · left
      simp only [State.enterRun]
      rw [foldl_keeps (·.loader) (fun s r => enableStream_loader s _ r)]
  · right
    refine h.requestWork (requestWork_receiveByte s b hl) ?_ ?_ ?_ ?_ ?_ ?_ <;> simp [receiveByte_requesting b hl]

/-- Outside RUN every command but a cold start leaves cold blocks cold, or brings RUN. -/
theorem BlocksCold.exec {c : Instr} {s t : State} (hs : BlocksCold s) (hr : s.loader.part ≠ .run)
    (h : exec c s = .next t) (hc : startsCold c = false) : t.loader.part = .run ∨ BlocksCold t := by
  have byte (b : Byte) (hb : c = .imageByte b ∨ c = .requestByte b) : t.loader.part = .run ∨ BlocksCold t := by
    rcases exec_byte h hb with ⟨-, rfl⟩ | rfl
    · exact hs.receiveByte b
    · exact .inr hs
  have idle := exec_idle_cold c s hs hr
  rw [h] at idle
  cases c with
  | coldAssert => cases hc
  | powerUp => cases hc
  | imageByte b => exact byte b (.inl rfl)
  | requestByte b => exact byte b (.inr rfl)
  | coldRelease =>
    cases h
    exact .inr hs
  | imageStalled =>
    simp only [Machine.exec, execImageStalled] at h
    split at h <;> cases h
    · exact .inr hs
    · exact .inr hs
  | done =>
    obtain ⟨-, -, -, -, -, hslot, -⟩ := id hs
    simp only [Machine.exec, execDone] at h
    (repeat' split at h) <;> cases h
    · exact .inr hs
    · rename_i sl hsl
      rw [hslot] at hsl
      cases hsl
    · exact .inr hs
  | linkChange up =>
    have hrun : s.inRun = false := by simp [State.inRun, hr]
    simp only [Machine.exec, execLinkChange, hrun] at h
    cases h
    exact .inr hs
  | offerPresented n length frameEnd data =>
    simp only [Machine.exec, execOfferPresented] at h
    (repeat' split at h) <;> cases h
    · exact .inr (hs.setChan n _ rfl rfl)
    · exact .inr hs
    · exact .inr (hs.setChan n _ rfl rfl)
  | feedWithdrawn n =>
    cases h
    exact .inr (hs.offerFalls n)
  | offerDeasserted n =>
    cases h
    exact .inr (hs.offerFalls n)
  | lineError =>
    right
    simp only [Machine.exec, execLineError] at h
    (repeat' split at h) <;> cases h
    · exact hs.requestWork (requestWork_takeChar ..) (by simp) (by simp) (by simp) (by simp) (by simp) (by simp)
    · exact hs.requestWork ((requestWork_takeChar ..).trans (requestWork_lineErrorGap _)) (by simp) (by simp) (by simp)
        (by simp) (by simp) (by simp)
    · exact hs
  | responseComplete =>
    right
    simp only [Machine.exec, execResponseComplete] at h
    split at h <;> cases h
    · exact BlocksCold.requestWork (s := { s with link := { s.link with responder := none } }) hs
        (requestWork_parserRuns _) (by simp) (by simp) (by simp) (by simp) (by simp) (by simp)
    · exact hs
  | discardEnd =>
    simp only [Machine.exec, execDiscardEnd] at h
    split at h <;> cases h
    · exact .inr hs
    · exact .inr hs
  | requestExpired =>
    simp only [Machine.exec, execRequestExpired] at h
    split at h <;> cases h
    · exact .inr hs
    · exact .inr hs
  | powerRemoved =>
    right
    obtain ⟨-, -, -, -, -, hslot, -⟩ := id hs
    simp only [Machine.exec, execPowerRemoved] at h
    split at h <;> cases h
    · exact blocksCold_of hs rfl (fun _ => rfl) rfl rfl rfl hslot.symm rfl (.inr rfl) rfl (.inr rfl) rfl rfl rfl
        (.inl rfl) (.inl rfl) (.inl rfl) (.inl rfl) rfl (fun _ => ⟨rfl, rfl⟩) rfl
    · exact hs
  | _ =>
    right
    cases idle (by simp)
    exact hs

/-- A tick of the running part: what becomes of PACE, Feed Intake, the store and the maintenance link (R108, R129, R140,
R173, R176). -/
theorem clock_samples {s t : State} (h : s.clock = some t) :
    ∃ u, s.writeTick = some u
      ∧ t.pace = s.pace.sample s.cfg.bitTime (s.t + 1) s.pins (Config.pick s.fresh % 2 == 0)
      ∧ t.feed = { s.feed with take := 0, write := u.feed.write } ∧ t.store = u.store
      ∧ t.link = Link.tick (s.t + 1) { s.link with rx := s.link.rx.tick false s.pins.mrx } := by
  unfold State.clock at h
  cases hw : s.writeTick with
  | none => simp [hw] at h
  | some u =>
    simp only [hw] at h
    cases h
    have hu := writeTick_keeps hw
    rw [hu]
    refine ⟨_, rfl, ?_, ?_, ?_, ?_⟩ <;> simp

/-- A tick leaves cold blocks cold: the bus is OFF and not sampled, and no stream is SENDING (R51, R108). -/
theorem BlocksCold.clock {s t : State} (hs : BlocksCold s) (h : s.clock = some t) : BlocksCold t := by
  obtain ⟨bgrid, bctx, bshare, bpace, bstore, bslot, bup, boffer, bwrite, btake, bqueue, bover, blatch, bco, bla, bst,
    btr, bptr, bchan, bcfg⟩ := hs
  obtain ⟨-, -, -, -, hcfg, hgrid, hctx, hegress, hshare, -, -, -, hqueue, hover, hlatch, -⟩ := clock_keeps h
  obtain ⟨u, hw, hpace, hfeed, hstore, -⟩ := clock_samples h
  obtain rfl : s = u := by simpa [State.writeTick, bwrite] using hw
  refine ⟨by rw [hgrid, bgrid]; rfl, fun n => by rw [hctx n, bctx n]; rfl, hshare.trans bshare, ?_,
    hstore.trans bstore, by rw [hegress]; exact bslot, by rw [hegress]; exact bup, ?_, by rw [hfeed]; exact bwrite,
    by rw [hfeed], hqueue.trans bqueue, hover.trans bover, hlatch.trans blatch, by rw [hegress]; exact bco,
    by rw [hegress]; exact bla, by rw [hegress]; exact bst, by rw [hegress]; exact btr, by rw [hfeed]; exact bptr, ?_,
    hcfg.trans bcfg⟩
  · rw [hpace, bpace]
    rfl
  · rw [hegress, Egress.tick, bslot]
    rfl
  · intro n
    rw [show t.chan n = s.chan n by simp [State.chan, hfeed]]
    exact bchan n

theorem BlocksCold.heldTick {s : State} (hs : BlocksCold s) : BlocksCold s.heldTick := hs

/-- Only a cold start leaves RUN. -/
theorem exec_run {c : Instr} {s t : State} (hs : s.loader.part = .run) (h : exec c s = .next t)
    (hc : startsCold c = false) : t.loader.part = .run := by
  have same (hl : movesLoader c = false) : t.loader.part = .run := exec_loader h hc hl ▸ hs
  have byte (b : Byte) (hb : c = .imageByte b ∨ c = .requestByte b) : t.loader.part = .run := by
    rcases exec_byte h hb with ⟨-, rfl⟩ | rfl
    · rw [receiveByte_requesting b (by simp [hs])]
      simpa using hs
    · exact hs
  cases c with
  | imageByte b => exact byte b (.inl rfl)
  | requestByte b => exact byte b (.inr rfl)
  | imageStalled =>
    have : s.stallExpired = false := by simp [State.stallExpired, hs]
    simp only [exec, execImageStalled, this] at h
    cases h
    exact hs
  | _ => exact same rfl

/-- Every step keeps the blocks cold outside RUN (R3, R85, R108, R130, R143, R171). -/
theorem coldOutsideRun_step {s t : State} (hs : s.coldOutsideRun) (h : step s = .next t) : t.coldOutsideRun := by
  refine step_inv (P := State.coldOutsideRun) h (fun u l f hu => hu) ?_ ?_ ?_ hs
  · intro c u hu hx
    rw [hu] at hx
    cases hc : startsCold c with
    | true =>
      rcases exec_coldStart hx hc with rfl | ⟨-, rfl⟩
      · exact fun _ => blocksCold_start _
      · exact hs
    | false =>
      intro hr
      by_cases hsr : s.loader.part = .run
      · exact absurd (exec_run (s := { s with pending := u.pending }) hsr hx hc) hr
      · rcases BlocksCold.exec (s := { s with pending := u.pending }) (hs hsr) hsr hx hc with hrun | hcold
        · exact absurd hrun hr
        · exact hcold
  · intro _ hk hr
    obtain ⟨-, -, -, -, -, -, -, -, -, hloader, -⟩ := clock_keeps hk
    rw [hloader] at hr
    exact BlocksCold.clock (hs hr) hk
  · rintro _ rfl hr
    exact BlocksCold.heldTick (hs hr)

/-! ### T and the loader under COLD -/

theorem cold_of_live {s : State} (h : s.live = true) : s.cold = false := by
  unfold State.live at h
  simp_all

/-- While COLD is asserted every command but a cold start leaves T and the loader (R158). -/
theorem exec_underCold {c : Instr} {s t : State} (h : exec c s = .next t) (hc : startsCold c = false)
    (hs : s.cold = true) : t.t = s.t ∧ t.loader = s.loader := by
  have hlive : s.live = false := by simp [State.live, hs]
  have byte (b : Byte) (hb : c = .imageByte b ∨ c = .requestByte b) : t.loader = s.loader := by
    rcases exec_byte h hb with ⟨hl, -⟩ | rfl
    · exact absurd (cold_of_live hl) (by simp [hs])
    · rfl
  refine ⟨exec_t h hc, ?_⟩
  cases c with
  | imageByte b => exact byte b (.inl rfl)
  | requestByte b => exact byte b (.inr rfl)
  | imageStalled =>
    have : s.stallExpired = false := by simp [State.stallExpired, hlive]
    simp only [exec, execImageStalled, this] at h
    cases h
    rfl
  | _ => exact exec_loader h hc rfl

/-- COLD stands asserted after a command other than a cold start only where it stood asserted before. -/
theorem exec_cold_of {c : Instr} {s t : State} (h : exec c s = .next t) (hc : startsCold c = false)
    (ht : t.cold = true) : s.cold = true := by
  by_cases hr : c = .coldRelease
  · subst hr
    cases h
    simp only [] at ht
    split at ht
    · cases ht
    · exact ht
  · exact (exec_cold h hc hr).symm.trans ht

/-- Every step keeps T at 0 and the image empty while COLD is asserted (R1, R158). -/
theorem heldAtZero_step {s t : State} (hs : s.heldAtZero) (h : step s = .next t) : t.heldAtZero := by
  refine step_inv (P := State.heldAtZero) h (fun u l f hu => hu) ?_ ?_ ?_ hs
  · intro c u hu hx ht
    rw [hu] at hx
    cases hc : startsCold c with
    | true =>
      rcases exec_coldStart hx hc with rfl | ⟨-, rfl⟩
      · exact ⟨rfl, rfl⟩
      · exact hs ht
    | false =>
      have hcold := exec_cold_of (s := { s with pending := u.pending }) hx hc ht
      obtain ⟨hT, hloader⟩ := exec_underCold hx hc hcold
      rw [hT, hloader]
      exact hs hcold
  · intro hl hk ht
    obtain ⟨-, -, hcold, -⟩ := clock_keeps hk
    rw [hcold, cold_of_live hl] at ht
    cases ht
  · rintro _ rfl
    exact hs

/-- Settles O26. -/
theorem blocksStayColdOutsideRun : Obligations.BlocksStayColdOutsideRun := by
  unfold Obligations.BlocksStayColdOutsideRun
  exact fun s t hcold hheld h => ⟨coldOutsideRun_step hcold h, heldAtZero_step hheld h⟩

end Sys2Proof.Machine

namespace Sys2Proof.Machine

open Sys2Proof

/-! ### The event queue through a step -/

theorem respond_queue (s : State) (code : Byte) (status : Nat) (body : List Byte) :
    (s.respond code status body).link.queue = s.link.queue := rfl

theorem serveEvents_queue (s : State) (code : Byte) (n : Nat) :
    (s.serveEvents code n).link.queue = s.link.queue.drop n := rfl

theorem serveClear_queue (s : State) (code : Byte) (mask : Nat) :
    (s.serveClear code mask).link.queue = s.link.queue := rfl

/-- Only an EVENTS that is served takes entries, from the front (R180). -/
theorem judgeRequest_queue (s : State) (code : Byte) (ops : List Byte) :
    (s.judgeRequest code ops).link.queue <:+ s.link.queue := by
  unfold State.judgeRequest
  (repeat' split) <;>
    simp only [respond_queue, serveEvents_queue, serveClear_queue, List.suffix_rfl, List.drop_suffix]

theorem actOnGap_queue (s : State) : s.actOnGap.link.queue = s.link.queue := rfl

/-- The parser takes no entry out of the queue but where it serves an EVENTS, from the front (R180). -/
theorem parserRuns_queue (s : State) : s.parserRuns.link.queue <:+ s.link.queue := by
  unfold State.parserRuns
  simp only []
  (repeat' split)
  · exact judgeRequest_queue ..
  · exact List.suffix_rfl
  · exact List.suffix_rfl

theorem takeChar_queue (s : State) (c : RxChar) : (s.takeChar c).link.queue = s.link.queue := by rw [takeChar_eq]

theorem requestByte_queue (s : State) (b : Byte) : (s.requestByte b).link.queue <:+ s.link.queue := by
  unfold State.requestByte
  simp only []
  (repeat' split)
  · exact List.suffix_rfl
  · exact parserRuns_queue { s.startSilence with link := { s.startSilence.link with buffer := [(b, false)] } }
  · exact List.suffix_rfl
  · obtain ⟨hq, -⟩ := markDrop_same s.startSilence.link
    exact hq ▸ List.suffix_rfl

theorem lineErrorGap_queue (s : State) : s.lineErrorGap.link.queue = s.link.queue := by
  unfold State.lineErrorGap
  simp only []
  (repeat' split)
  · rfl
  · rfl
  · obtain ⟨hq, -⟩ := markTail_same s.startSilence.link
    exact hq

theorem receiveByte_queue (s : State) (b : Byte) : (s.receiveByte b).link.queue <:+ s.link.queue := by
  by_cases hl : s.loader.part = .load
  · rcases receiveByte_load_cases b hl with h | ⟨f, pos, h⟩ | ⟨part, rs, h⟩ <;>
      simp [h, State.withByte, takeChar_queue]
  · rw [receiveByte_requesting b hl, ← takeChar_queue s (.byte b)]
    exact requestByte_queue ..

theorem grows_offerFalls (s : State) (n : Stream) : Grows s (s.offerFalls n) := by
  unfold State.offerFalls State.withdraw
  (repeat' split)
  · exact (Grows.of_link rfl rfl).trans (grows_raise ..)
  · exact .refl _
  · exact .refl _
  · exact .of_link rfl rfl
  · exact .of_link rfl rfl
  · exact .of_link rfl rfl

/-- The commands that can bring request input to the parser. -/
def servesRequests : Instr → Bool
  | .imageByte _ | .requestByte _ | .lineError | .responseComplete => true
  | _ => false

/-- A command that is no cold start and brings no request input only adds to the queue (R182). -/
theorem exec_grows {c : Instr} {s t : State} (h : exec c s = .next t) (hc : startsCold c = false)
    (hr : servesRequests c = false) : Grows s t := by
  cases c with
  | coldAssert => cases hc
  | powerUp => cases hc
  | imageByte b => cases hr
  | requestByte b => cases hr
  | lineError => cases hr
  | responseComplete => cases hr
  | coldRelease => exact .of_link (by simp [coldRelease_keeps h]) (by simp [coldRelease_keeps h])
  | imageStalled => exact .of_link (by simp [imageStalled_keeps h]) (by simp [imageStalled_keeps h])
  | starve n => exact .of_link (by simp [starve_keeps h]) (by simp [starve_keeps h])
  | grant => exact .of_link (by simp [grant_keeps h]) (by simp [grant_keeps h])
  | done => exact .of_link (by simp [done_keeps h]) (by simp [done_keeps h])
  | offerPresented n length frameEnd data =>
    exact .of_link (by simp [offerPresented_keeps h]) (by simp [offerPresented_keeps h])
  | writeComplete => exact .of_link (by simp [writeComplete_keeps h]) (by simp [writeComplete_keeps h])
  | noticeDue => exact .of_link (by simp [noticeDue_keeps h]) (by simp [noticeDue_keeps h])
  | noticeStart => exact .of_link (by simp [noticeStart_keeps h]) (by simp [noticeStart_keeps h])
  | receiveSettled => exact .of_link (by simp [receiveSettled_keeps h]) (by simp [receiveSettled_keeps h])
  | startMarkEdge => exact .of_link (by simp [startMarkEdge_keeps h]) (by simp [startMarkEdge_keeps h])
  | dataBitSampled => exact .of_link (by simp [dataBitSampled_keeps h]) (by simp [dataBitSampled_keeps h])
  | powerRemoved => exact .of_link (by simp [powerRemoved_keeps h]) (by simp [powerRemoved_keeps h])
  | frameEpoch =>
    simp only [exec, execFrameEpoch] at h
    split at h <;> cases h
    · exact grows_takeFrameEpoch ..
    · exact .refl _
  | fieldEpoch =>
    simp only [exec, execFieldEpoch] at h
    (repeat' split at h) <;> cases h
    · exact .refl _
    · exact grows_takeFieldEpoch ..
    · exact .refl _
  | refPulseAccepted =>
    simp only [exec, execRefPulseAccepted] at h
    split at h <;> cases h
    · exact (Grows.of_link (s := s) (t := s.holdPulse) rfl rfl).trans (grows_lockPulse s.holdPulse s.grid.cr)
    · exact .refl _
  | refSampled high =>
    simp only [exec, execRefSampled] at h
    split at h <;> cases h
    · exact grows_sampleRef ..
    · exact .refl _
  | egressByte =>
    simp only [exec, execEgressByte] at h
    (repeat' split at h) <;> cases h
    · exact .refl _
    · exact .of_link rfl rfl
    · rename_i b _ _ _
      exact (grows_parityError s b).then_link (by simp) (by simp)
    · exact .refl _
  | egressStall =>
    simp only [exec, execEgressStall] at h
    (repeat' split at h) <;> cases h
    · exact .refl _
    · exact (Grows.of_eq (by simp) (by simp) (by simp)).trans (grows_raise ..)
    · exact .refl _
  | linkChange up =>
    simp only [exec, execLinkChange] at h
    split at h <;> cases h
    · exact (Grows.of_link rfl rfl).trans (grows_followLink _)
    · exact .of_link rfl rfl
  | intakeSelection =>
    simp only [exec, execIntakeSelection] at h
    (repeat' split at h) <;> cases h
    · exact .refl _
    · exact grows_select ..
    · exact .refl _
  | feedWithdrawn n =>
    cases h
    exact grows_offerFalls ..
  | offerDeasserted n =>
    cases h
    exact grows_offerFalls ..
  | arbitrationLost =>
    simp only [exec, execArbitrationLost] at h
    (repeat' split at h) <;> cases h
    · exact (Grows.of_link rfl rfl).trans (grows_raise ..)
    · exact .of_link rfl rfl
    · exact .refl _
  | noticeBiterr =>
    simp only [exec, execNoticeBiterr] at h
    (repeat' split at h) <;> cases h
    · exact .refl _
    · exact (Grows.of_link rfl rfl).trans (grows_raiseAll ..)
    · exact (Grows.of_link rfl rfl).trans (grows_raiseAll ..)
    · exact (Grows.of_link rfl rfl).trans (grows_raiseAll ..)
    · exact (Grows.of_link rfl rfl).trans (grows_raiseAll ..)
    · exact .refl _
  | noticeComplete =>
    simp only [exec, execNoticeComplete] at h
    (repeat' split at h) <;> cases h
    · exact .of_link rfl rfl
    · exact .of_link rfl rfl
    · exact (Grows.of_link rfl rfl).trans (grows_judgeNotice ..)
    · exact .refl _
  | noticeFraming =>
    simp only [exec, execNoticeFraming] at h
    split at h <;> cases h
    · exact (Grows.of_link rfl rfl).trans (grows_raise ..)
    · exact .refl _
  | busStuck =>
    simp only [exec, execBusStuck] at h
    split at h <;> cases h
    · exact (Grows.of_eq rfl rfl rfl).trans (grows_raise ..)
    · exact .refl _
  | busRestored =>
    simp only [exec, execBusRestored] at h
    split at h <;> cases h
    · exact (Grows.of_link rfl rfl).trans (grows_raise ..)
    · exact .refl _
  | discardEnd =>
    simp only [exec, execDiscardEnd] at h
    split at h <;> cases h
    · exact .of_eq rfl rfl rfl
    · exact .refl _
  | requestExpired =>
    simp only [exec, execRequestExpired] at h
    split at h <;> cases h
    · exact .of_eq rfl rfl rfl
    · exact .refl _

/-- A command that brings request input takes entries from the front of the queue, if any (R180). -/
theorem exec_request_queue {c : Instr} {s t : State} (h : exec c s = .next t) (hr : servesRequests c = true) :
    t.link.queue <:+ s.link.queue := by
  have byte (b : Byte) (hb : c = .imageByte b ∨ c = .requestByte b) : t.link.queue <:+ s.link.queue := by
    rcases exec_byte h hb with ⟨-, rfl⟩ | rfl
    · exact receiveByte_queue ..
    · exact List.suffix_rfl
  cases c with
  | imageByte b => exact byte b (.inl rfl)
  | requestByte b => exact byte b (.inr rfl)
  | lineError =>
    simp only [exec, execLineError] at h
    (repeat' split at h) <;> cases h
    · rw [takeChar_queue]
    · rw [lineErrorGap_queue, takeChar_queue]
    · exact List.suffix_rfl
  | responseComplete =>
    simp only [exec, execResponseComplete] at h
    split at h <;> cases h
    · exact parserRuns_queue { s with link := { s.link with responder := none } }
    · exact List.suffix_rfl
  | _ => cases hr

/-- Every entry of the queue after a command stood there before or carries the T of the step (R1, R182). -/
theorem exec_entries {c : Instr} {s t : State} (h : exec c s = .next t) :
    ∀ e ∈ t.link.queue, e ∈ s.link.queue ∨ e.time = s.t := by
  intro e he
  cases hc : startsCold c with
  | true =>
    rcases exec_coldStart h hc with rfl | ⟨-, rfl⟩
    · cases he
    · exact .inl he
  | false =>
    cases hr : servesRequests c with
    | true => exact .inl ((exec_request_queue h hr).subset he)
    | false => exact (exec_grows h hc hr).entries e he

/-! ### T through a step -/

theorem live_iff {s : State} : s.live = true ↔ s.powered = true ∧ s.cold = false := by
  simp [State.live]

/-- T after a command: 0 after a cold start, otherwise as it was (R1). -/
theorem exec_time {c : Instr} {s t : State} (h : exec c s = .next t) :
    t.t = if c = .powerUp ∨ (c = .coldAssert ∧ s.powered = true ∧ s.cold = false) then 0 else s.t := by
  by_cases hp : c = .powerUp
  · subst hp
    cases h
    simp [State.coldStart]
  · by_cases ha : c = .coldAssert
    · subst ha
      simp only [exec, execColdAssert] at h
      split at h <;> cases h
      · rename_i hl
        simp [State.coldStart, live_iff.mp hl]
      · rename_i hl
        rw [live_iff] at hl
        simp [hl]
    · have hc : startsCold c = false := by
        cases c with
        | coldAssert => exact absurd rfl ha
        | powerUp => exact absurd rfl hp
        | _ => rfl
      simp [hp, ha, exec_t h hc]

/-- While COLD is asserted after a step, T is 0 (R1). -/
theorem t_of_cold_step {s t : State} (hs : s.cold = true → s.t = 0) (h : step s = .next t) :
    t.cold = true → t.t = 0 := by
  refine step_inv (P := fun u => u.cold = true → u.t = 0) h (fun u l f hu => hu) ?_ ?_ ?_ hs
  · intro c u hu hx ht
    rw [hu] at hx
    cases hc : startsCold c with
    | true =>
      rcases exec_coldStart hx hc with rfl | ⟨-, rfl⟩
      · rfl
      · exact hs ht
    | false =>
      rw [exec_t hx hc]
      exact hs (exec_cold_of (s := { s with pending := u.pending }) hx hc ht)
  · intro hl hk ht
    obtain ⟨-, -, hcold, -⟩ := clock_keeps hk
    rw [hcold, cold_of_live hl] at ht
    cases ht
  · rintro _ rfl
    exact hs

/-- Every entry of the queue after a step stood there before or carries the T of the step (R1). -/
theorem step_entries {s t : State} (h : step s = .next t) : ∀ e ∈ t.link.queue, e ∈ s.link.queue ∨ e.time = s.t := by
  refine step_inv (P := fun u => ∀ e ∈ u.link.queue, e ∈ s.link.queue ∨ e.time = s.t) h (fun u l f hu => hu) ?_ ?_ ?_
    fun e he => .inl he
  · intro c u hu hx
    rw [hu] at hx
    exact exec_entries (s := { s with pending := u.pending }) hx
  · intro _ hk e he
    obtain ⟨-, -, -, -, -, -, -, -, -, -, -, -, hqueue, -⟩ := clock_keeps hk
    exact .inl (hqueue ▸ he)
  · rintro _ rfl e he
    exact .inl he

/-- T after a tick: one more in the live part, held in any other (R1). -/
theorem tick_time {s t : State} (h : s.tick = .next t) :
    t.t = if s.powered = true ∧ s.cold = false then s.t + 1 else s.t := by
  unfold State.tick at h
  simp only [← live_iff]
  (repeat' split at h) <;> cases h
  · rename_i hk
    obtain ⟨ht, -⟩ := clock_keeps hk
    simp [*]
  · rename_i hl
    simp [hl, State.heldTick]

/-- Settles O3. -/
theorem timeCountsTicksAndNothingElseWritesIt : Obligations.TimeCountsTicksAndNothingElseWritesIt := by
  unfold Obligations.TimeCountsTicksAndNothingElseWritesIt
  intro s t h
  refine ⟨?_, ?_, ?_, fun hs => t_of_cold_step hs h, step_entries h⟩
  · intro c rest hp
    rw [step_of_pending hp] at h
    have := exec_time h
    split
    · simp [*]
    · simp [*]
  · intro hp hd
    rw [step_of_idle hp] at h
    obtain ⟨c, -, hi⟩ := idleStep_of_due hd
    rw [hi] at h
    cases h
    rfl
  · intro hp hd
    rw [step_of_idle hp, idleStep_of_none hd] at h
    exact tick_time h

end Sys2Proof.Machine

namespace Sys2Proof.Machine

open Sys2Proof

/-! ### One tick -/

theorem ifDue_false (c : Instr) : ifDue false c = [] := rfl

/-- A part under COLD or without power calls for no step (R158). -/
theorem dueNow_of_not_live {s : State} (h : s.live = false) : s.dueNow = [] := by
  have hbus : s.busNormal = false := by simp [State.busNormal, h]
  have hchar : s.charDue = [] := by
    unfold State.charDue
    split <;> simp [ifDue, h]
  have hoffers : s.offersDue = [] := by
    unfold State.offersDue
    rw [List.filterMap_eq_nil_iff]
    intro n _
    split <;> simp [h]
  have hstarves : s.starvesDue = [] := by simp [State.starvesDue, h]
  have href : s.refDue = [] := by simp [State.refDue, ifDue, State.refReady, h]
  unfold State.dueNow
  simp only [hchar, hoffers, hstarves, href, State.stallExpired, State.frameReady, State.fieldReady,
    State.grantReady, State.stallReady, State.selectReady, State.writeDone, State.noticeDueReady,
    State.noticeStartReady, State.arbitrationReady, State.biterrReady, State.completeReady, State.framingReady,
    State.settledReady, State.stuckReady, State.restoredReady, State.startMarkReady, State.dataBitReady,
    State.responseDone, State.discardReady, State.expiryReady, hbus, h, Bool.false_and, ifDue_false, List.append_nil]

theorem done_mem_dueNow {s : State} (hl : s.live = true) (h : s.egress.doneEdge = true) : Instr.done ∈ s.dueNow := by
  have hd : Instr.done ∈ ifDue (s.live && s.egress.doneEdge) .done := by simp [ifDue, hl, h]
  unfold State.dueNow
  simp only [List.mem_append, hd, true_or, or_true]

theorem tick_of_clock {s t : State} (hl : s.live = true) (h : s.clock = some t) : s.tick = .next t := by
  unfold State.tick
  simp [hl, h]

theorem tick_of_not_live {s : State} (h : s.live = false) : s.tick = .next s.heldTick := by
  unfold State.tick
  simp [h]

theorem clock_of_tick {s t : State} (hl : s.live = true) (h : s.tick = .next t) : s.clock = some t := by
  unfold State.tick at h
  rw [if_pos hl] at h
  split at h <;> cases h
  assumption

/-- With no write in progress a tick meets no missing byte. -/
theorem clock_of_no_write {s : State} (h : s.feed.write = none) : ∃ t, s.clock = some t := by
  have hw : s.writeTick = some s := by simp [State.writeTick, h]
  exact ⟨_, by unfold State.clock; rw [hw]⟩

/-- The silence timer ends 125,000 ticks after it started (R176). -/
theorem link_tick_silence (now : Time) (l : Link) :
    (∀ last, l.silence = some last →
        (l.tick now).silence = if reached now (after last Config.silenceTicks) = true then none else some last)
      ∧ (l.silence = none → (l.tick now).silence = none) := by
  unfold Link.tick
  constructor
  · intro last hl
    simp only [hl]
    split
    · rfl
    · exact hl
  · intro hl
    simp [hl]

theorem link_tick_eq (now : Time) (l : Link) : l.tick now = { l with silence := (l.tick now).silence } := by
  unfold Link.tick
  (repeat' split) <;> rfl

/-- Settles O4. -/
theorem oneTickMovesTheClockedParts : Obligations.OneTickMovesTheClockedParts := by
  unfold Obligations.OneTickMovesTheClockedParts
  intro s hp
  rw [step_of_idle hp]
  refine ⟨?_, ?_, ?_⟩
  · intro t hl hd h
    rw [idleStep_of_none hd] at h
    have hk := clock_of_tick hl h
    obtain ⟨ht, hpow, hcold, hpins, hcfg, hgrid, hctx, hegress, hshare, hloader, hpend, -⟩ := clock_keeps hk
    obtain ⟨u, hw, hpace, hfeed, hstore, hlink⟩ := clock_samples hk
    obtain ⟨hrun, hidle⟩ := link_tick_silence (s.t + 1) { s.link with rx := s.link.rx.tick false s.pins.mrx }
    refine ⟨hegress, ?_, hgrid, ?_, ⟨_, hpace⟩, ?_, ?_, ?_, ?_, ?_, ?_⟩
    · intro hdone hwas
      have hlive : t.live = true := by rw [live_iff, hpow, hcold, ← live_iff, hl]
      exact done_mem_dueNow hlive (by simp [hegress, Egress.tick, hdone, hwas])
    · intro n
      simp [hctx, Context.tick]
    · rw [hfeed]
    · intro hnone
      obtain rfl : s = u := by simpa [State.writeTick, hnone] using hw
      exact ⟨by rw [hfeed]; exact hnone, hstore⟩
    · rw [hlink]
      exact hrun
    · rw [hlink]
      exact hidle
    · rw [hlink]
      exact link_tick_eq _ _
    · exact state_eq ht hpow hcold hpins hcfg rfl rfl rfl hshare rfl rfl rfl hloader rfl rfl hpend
  · intro hl hd hw
    obtain ⟨t, hk⟩ := clock_of_no_write hw
    obtain ⟨ht, -⟩ := clock_keeps hk
    exact ⟨t, by rw [idleStep_of_none hd, tick_of_clock hl hk], ht⟩
  · intro hl
    rw [idleStep_of_none (dueNow_of_not_live hl), tick_of_not_live hl]
    rfl

end Sys2Proof.Machine

namespace Sys2Proof.Machine

open Sys2Proof

/-! ### The grid at a frame epoch -/

theorem exec_frameEpoch {s : State} (hl : s.live = true) (hr : s.grid.running = true)
    (hn : reached s.t s.grid.eNext = true) : exec .frameEpoch s = .next (s.takeFrameEpoch []) := by
  simp [exec, execFrameEpoch, State.frameReady, hl, hr, hn]

/-! The miss test of R18, case by case. -/

theorem missTest_of_not_locked {g : Grid} (h : g.lock ≠ .locked) : g.missTest = (g, false) := by
  simp [Grid.missTest, h]

theorem missTest_of_pulse {g : Grid} (h : g.lock = .locked) (hp : g.pulse = true) :
    g.missTest = ({ g with pulse := false }, false) := by
  simp [Grid.missTest, h, hp]

theorem missTest_of_missed {g : Grid} (h : g.lock = .locked) (hp : g.pulse = false) (hm : g.miss < 3) :
    g.missTest = ({ g with miss := g.miss + 1 }, false) := by
  simp [Grid.missTest, h, hp, hm]

theorem missTest_of_fourth {g : Grid} (h : g.lock = .locked) (hp : g.pulse = false) (hm : 3 ≤ g.miss) :
    g.missTest = ({ g with lock := .holdover, miss := 0, oow := 0 }, true) := by
  simp [Grid.missTest, h, hp, Nat.not_lt.mpr hm]

/-- The miss test touches the lock state, the two counts and the pulse flag alone. -/
theorem missTest_frame (g : Grid) : g.missTest.1 = { g with
    lock := g.missTest.1.lock, miss := g.missTest.1.miss, oow := g.missTest.1.oow, pulse := g.missTest.1.pulse } := by
  unfold Grid.missTest
  (repeat' split) <;> rfl

/-- Two numbers in a quotient: a remainder below the divisor adds at most one (R5). -/
theorem quotient_add_rem {r n d : Nat} (h : r < d) : (r + n) / d = n / d ∨ (r + n) / d = n / d + 1 := by
  have hlow : n / d ≤ (r + n) / d := Nat.div_le_div_right (Nat.le_add_left n r)
  have hhigh : (r + n) / d ≤ n / d + 1 := by
    rw [← Nat.add_div_right n (by omega : 0 < d)]
    exact Nat.div_le_div_right (by omega)
  omega

/-- A frame epoch changes nothing but what the grid's work and the deliveries reach (R5, R6). -/
theorem takeFrameEpoch_frame (s : State) (events : List Raised) :
    s.takeFrameEpoch events = { s with
      grid := (s.takeFrameEpoch events).grid, ctxs := (s.takeFrameEpoch events).ctxs,
      egress := (s.takeFrameEpoch events).egress, share := (s.takeFrameEpoch events).share,
      pace := (s.takeFrameEpoch events).pace, store := (s.takeFrameEpoch events).store,
      link := (s.takeFrameEpoch events).link, fresh := (s.takeFrameEpoch events).fresh } :=
  state_eq (by simp) (by simp) (by simp) (by simp) (by simp) rfl rfl rfl rfl rfl (by simp) rfl (by simp) rfl rfl
    (by simp)

/-- Settles O13. -/
theorem frameEpochAdvancesTheGrid : Obligations.FrameEpochAdvancesTheGrid := by
  unfold Obligations.FrameEpochAdvancesTheGrid
  intro s hl hr hn g q
  obtain ⟨hgrid, ⟨hegress, hstore, hlink⟩, hshows⟩ := takeFrameEpoch_facts s []
  generalize ht : s.takeFrameEpoch [] = t at *
  have hframe := missTest_frame (g.advance s.cfg)
  have hadv : (g.takeEpoch s.cfg).1 = (g.advance s.cfg).missTest.1 := rfl
  rw [hadv] at hgrid
  refine ⟨t, ht ▸ exec_frameEpoch hl hr hn, ?_, ?_, ?_, ?_, ?_, ?_, ?_, ?_, ?_, ?_, ?_, hegress, hstore, hlink,
    by subst ht; exact takeFrameEpoch_frame s []⟩
  · rw [hgrid, hframe]
    rfl
  · rw [hgrid, hframe]
    rfl
  · rw [hgrid, hframe]
    rfl
  · rw [hgrid, hframe]
    rfl
  · rw [hgrid, hframe]
    rfl
  · intro hd
    rw [hgrid, hframe]
    exact ⟨Nat.mod_lt _ (by omega), quotient_add_rem hd⟩
  · intro hk
    rw [hgrid, missTest_of_not_locked (g := g.advance s.cfg) hk]
    exact ⟨rfl, rfl, rfl, rfl⟩
  · intro hk hp
    rw [hgrid, missTest_of_pulse (g := g.advance s.cfg) hk hp]
    exact ⟨hk, rfl, rfl, rfl⟩
  · intro hk hp hm
    rw [hgrid, missTest_of_missed (g := g.advance s.cfg) hk hp hm]
    exact ⟨hk, rfl, rfl, hp⟩
  · intro hk hp hm
    have hfour := missTest_of_fourth (g := g.advance s.cfg) hk hp (by simp [Grid.advance, hm])
    rw [hgrid, hfour]
    refine ⟨rfl, rfl, rfl, hp, ?_⟩
    exact hshows ⟨.refHoldover, 0, 0⟩ (by rw [Grid.takeEpoch, hfour]; simp [holdoverEvents])
  · rw [hgrid, hframe]
    rfl

end Sys2Proof.Machine

namespace Sys2Proof.Machine

open Sys2Proof

/-! ### RUN entry -/

/-- The context that a STREAM record names (R164). -/
def recordStream (r : ImageRecord) : Stream := Fin.ofNat 16 (streamNumber r)

theorem recordStream_val {r : ImageRecord} (h : streamNumber r ≤ 15) : (recordStream r).val = streamNumber r := by
  simp only [recordStream, Fin.ofNat]
  omega

theorem ctx_enableStream (q : Nat) (s : State) (r : ImageRecord) (n : Stream) :
    (s.enableStream q r).ctx n = if n = recordStream r then (s.ctx n).enable (readStream q r.body) else s.ctx n := by
  unfold State.enableStream
  simp only [ctx_setCtx]
  change (if n = recordStream r then _ else _) = _
  split
  · rename_i h
    rw [h]
    rfl
  · rfl

/-- A context that no record names is as before (R26). -/
theorem ctx_enableStreams_other (q : Nat) (l : List ImageRecord) (s : State) (n : Stream)
    (h : ∀ r ∈ l, n ≠ recordStream r) : (l.foldl (State.enableStream q) s).ctx n = s.ctx n := by
  induction l generalizing s with
  | nil => rfl
  | cons r rs ih =>
    rw [List.foldl_cons, ih _ fun x hx => h x (List.mem_cons_of_mem _ hx), ctx_enableStream,
      if_neg (h r List.mem_cons_self)]

/-- Where no two records name one context, each enables its own (R164, R170). -/
theorem ctx_enableStreams_mem (q : Nat) (l : List ImageRecord) (s : State) (hn : (l.map recordStream).Nodup)
    (r : ImageRecord) (hr : r ∈ l) : (l.foldl (State.enableStream q) s).ctx (recordStream r)
      = (s.ctx (recordStream r)).enable (readStream q r.body) := by
  induction l generalizing s with
  | nil => cases hr
  | cons x xs ih =>
    obtain ⟨hx, hxs⟩ := List.nodup_cons.mp (by simpa using hn : (recordStream x :: xs.map recordStream).Nodup)
    have hne : ∀ y ∈ xs, recordStream x ≠ recordStream y := fun y hy e => hx (e ▸ List.mem_map_of_mem hy)
    rw [List.foldl_cons]
    rcases List.mem_cons.mp hr with rfl | hr
    · rw [ctx_enableStreams_other q xs _ _ hne, ctx_enableStream, if_pos rfl]
    · rw [ih _ hxs hr, ctx_enableStream, if_neg (hne r hr).symm]

/-- Stage 3 lets no stream number stand twice (R168). -/
theorem firstDuplicate_none {seen : List Nat} {l : List ImageRecord} (hl : ∀ r ∈ l, 0 < r.length)
    (h : firstDuplicate seen l = none) : (l.map streamNumber).Nodup ∧ ∀ r ∈ l, streamNumber r ∉ seen := by
  induction l generalizing seen with
  | nil => simp
  | cons x xs ih =>
    have hx : 0 < x.length := hl x List.mem_cons_self
    simp only [firstDuplicate, hx, true_and, if_true] at h
    split at h
    · cases h
    · rename_i hns
      obtain ⟨hnd, hout⟩ := ih (fun r hr => hl r (List.mem_cons_of_mem _ hr)) h
      refine ⟨?_, ?_⟩
      · rw [List.map_cons, List.nodup_cons]
        refine ⟨fun hmem => ?_, hnd⟩
        obtain ⟨r, hr, he⟩ := List.mem_map.mp hmem
        exact hout r hr (he ▸ List.mem_cons_self)
      · intro r hr
        rcases List.mem_cons.mp hr with rfl | hr
        · exact hns
        · exact fun hs => hout r hr (List.mem_cons_of_mem _ hs)

theorem streamNumber_eq_field (r : ImageRecord) : streamNumber r = field r.body 0 1 := by
  unfold streamNumber field
  cases r.body with
  | nil => rfl
  | cons b bs => simp [beValue]

/-- The STREAM records of an accepted image name different streams, each of 0 to 15 (R164, R168). -/
theorem accepted_streams {image : List Byte} {off : Nat} {part : ImageRecord} {rs : List ImageRecord}
    (h : judgeImage image off = .accepted part rs) :
    (∀ r ∈ streamRecords rs, streamNumber r ≤ 15) ∧ ((streamRecords rs).map recordStream).Nodup := by
  obtain ⟨-, hcount, hpart, hrange⟩ := accepted_parts h
  obtain ⟨-, -, hstreams⟩ := range_parts hrange
  have hle : ∀ r ∈ streamRecords rs, streamNumber r ≤ 15 := by
    intro r hr
    obtain ⟨-, hin⟩ := hstreams r hr
    unfold streamInRange at hin
    simp only [Bool.and_eq_true, decide_eq_true_eq] at hin
    rw [streamNumber_eq_field]
    simp only [hin]
  refine ⟨hle, ?_⟩
  have hdup : firstDuplicate [] (streamRecords rs) = none := by
    simpa [countFault, hpart] using hcount
  obtain ⟨hnd, -⟩ := firstDuplicate_none (fun r hr => by rw [(hstreams r hr).1]; decide) hdup
  have hmap : (streamRecords rs).map streamNumber = ((streamRecords rs).map recordStream).map Fin.val := by
    rw [List.map_map]
    exact List.map_congr_left fun r hr => (recordStream_val (hle r hr)).symm
  rw [hmap] at hnd
  exact hnd.of_map _

theorem mem_streamRecords {rs : List ImageRecord} {r : ImageRecord} :
    r ∈ streamRecords rs ↔ r ∈ rs ∧ r.type = 2 := by
  simp [streamRecords]

/-- RUN entry: every block makes its own move, and nothing else changes but the contexts (R170). -/
theorem enterRun_frame (s : State) (part : ImageRecord) (rs : List ImageRecord) : s.enterRun part rs = { s with
    loader := { s.loader with part := .run, stall := none }, cfg := readPart part.body,
    grid := s.grid.enterRun (readPart part.body) s.t, egress := { s.egress with linkUp := s.pins.linkUp },
    pace := { s.pace with bus := .normal, recv := .settling, cur := none, old := none, lowRun := 0 },
    ctxs := (s.enterRun part rs).ctxs } := by
  unfold State.enterRun
  refine state_eq ?_ ?_ ?_ ?_ ?_ ?_ rfl ?_ ?_ ?_ ?_ ?_ ?_ ?_ ?_ ?_
  · exact foldl_keeps (·.t) (fun s r => enableStream_t s _ r) ..
  · exact foldl_keeps (·.powered) (fun s r => enableStream_powered s _ r) ..
  · exact foldl_keeps (·.cold) (fun s r => enableStream_cold s _ r) ..
  · exact foldl_keeps (·.pins) (fun s r => enableStream_pins s _ r) ..
  · exact foldl_keeps (·.cfg) (fun s r => enableStream_cfg s _ r) ..
  · exact foldl_keeps (·.grid) (fun s r => enableStream_grid s _ r) ..
  · exact foldl_keeps (·.egress) (fun s r => enableStream_egress s _ r) ..
  · exact foldl_keeps (·.share) (fun s r => enableStream_share s _ r) ..
  · exact foldl_keeps (·.pace) (fun s r => enableStream_pace s _ r) ..
  · exact foldl_keeps (·.feed) (fun s r => enableStream_feed s _ r) ..
  · exact foldl_keeps (·.store) (fun s r => enableStream_store s _ r) ..
  · exact foldl_keeps (·.loader) (fun s r => enableStream_loader s _ r) ..
  · exact foldl_keeps (·.link) (fun s r => enableStream_link s _ r) ..
  · exact foldl_keeps (·.fresh) (fun s r => enableStream_fresh s _ r) ..
  · exact foldl_keeps (·.pending) (fun s r => enableStream_pending s _ r) ..

theorem ctx_enterRun_mem {s : State} {part : ImageRecord} {rs : List ImageRecord}
    (hn : ((streamRecords rs).map recordStream).Nodup) {r : ImageRecord} (hr : r ∈ streamRecords rs) :
    (s.enterRun part rs).ctx (recordStream r)
      = (s.ctx (recordStream r)).enable (readStream (readPart part.body).qMin r.body) := by
  unfold State.enterRun
  simp only []
  rw [ctx_enableStreams_mem _ _ _ hn r hr]
  rfl

theorem ctx_enterRun_other {s : State} {part : ImageRecord} {rs : List ImageRecord} {n : Stream}
    (h : ∀ r ∈ streamRecords rs, n ≠ recordStream r) : (s.enterRun part rs).ctx n = s.ctx n := by
  unfold State.enterRun
  simp only []
  rw [ctx_enableStreams_other _ _ _ _ h]
  rfl

/-- The byte that ends loading has the image judged at once (R161). -/
theorem exec_imageByte_judged {s : State} {b : Byte} (hl : s.live = true) (hp : s.loader.part = .load)
    (hend : ((s.loader.store s.t b).isEnd = true ∧ (s.loader.store s.t b).walk = .type)
      ∨ (s.loader.store s.t b).image.length = 4096) :
    exec (.imageByte b) s = .next (s.withByte b).endLoading := by
  have hjudged : ((s.loader.store s.t b).endComplete || (s.loader.store s.t b).areaFull) = true := by
    rcases hend with ⟨he, hw⟩ | hfull
    · simp [Loader.endComplete, he, hw]
    · simp [Loader.areaFull, Config.imageArea, hfull]
  simp only [exec, execImageByte, hl, if_true, receiveByte_loading b hp, hjudged]

/-- Settles O10. -/
theorem acceptedImageEntersRun : Obligations.AcceptedImageEntersRun := by
  unfold Obligations.AcceptedImageEntersRun
  intro s b part rs hl hp l rx p hend hjudge
  have hrun : (s.withByte b).endLoading = (s.withByte b).enterRun part rs := by
    unfold State.endLoading
    rw [show judgeImage (s.withByte b).loader.image (s.withByte b).loader.recStart = .accepted part rs from hjudge]
  obtain ⟨hle, hnd⟩ := accepted_streams hjudge
  have hbyte : s.withByte b = { s with loader := l, link := { s.link with rx := rx } } := by
    unfold State.withByte
    rw [takeChar_eq]
  refine ⟨(s.withByte b).enterRun part rs, hrun ▸ exec_imageByte_judged hl hp hend, ?_, ?_, ?_, ?_, ?_, ?_, ?_, ?_⟩
  · rw [enterRun_frame, hbyte]
  · rw [enterRun_frame]
  · rw [enterRun_frame, hbyte]
    rfl
  · rw [enterRun_frame, hbyte]
  · rw [enterRun_frame, hbyte]
  · intro r hr htype
    have hmem := mem_streamRecords.mpr ⟨hr, htype⟩
    refine ⟨recordStream r, recordStream_val (hle r hmem), ?_⟩
    rw [ctx_enterRun_mem hnd hmem, hbyte]
    rfl
  · intro n hn
    rw [ctx_enterRun_other, hbyte]
    · rfl
    · intro r hr he
      obtain ⟨hrs, htype⟩ := mem_streamRecords.mp hr
      exact hn r hrs htype (by rw [he, recordStream_val (hle r hr)])
  · refine state_eq ?_ ?_ ?_ ?_ rfl rfl rfl rfl ?_ rfl ?_ ?_ rfl ?_ ?_ ?_ <;> rw [enterRun_frame, hbyte]

end Sys2Proof.Machine

namespace Sys2Proof.Machine

open Sys2Proof

/-! ### After reset -/

theorem reset_free : State.reset.store.free = (List.range 8192).map (BitVec.ofNat 13) := by
  simp only [State.reset, Store.cold, Config.blocks]

theorem reset_free_get {i : Nat} (h : i < 8192) : State.reset.store.free[i]? = some (BitVec.ofNat 13 i) := by
  rw [reset_free, List.getElem?_map, List.getElem?_range h]
  rfl

theorem reset_free_length : State.reset.store.free.length = 8192 := by
  rw [reset_free, List.length_map, List.length_range]

theorem reset_free_nodup : State.reset.store.free.Nodup := by
  rw [reset_free]
  refine List.Nodup.map_on (fun a ha b hb h => ?_) List.nodup_range
  rw [List.mem_range] at ha hb
  have hv := congrArg BitVec.toNat h
  rw [BitVec.toNat_ofNat, BitVec.toNat_ofNat] at hv
  omega

theorem reset_bank (j : Fin 4) : State.reset.store.bank j = Bank.cold := by
  simp [State.reset, Store.bank, Store.cold]

theorem reset_chan (n : Stream) : State.reset.chan n = Channel.cold none := by
  simp [State.chan, State.reset, Feed.cold]

theorem reset_headUsable : State.reset.store.headUsable := by
  intro b _
  rw [Store.isRetired, reset_bank]
  rfl

theorem ringWf_cold : Context.cold.ringWf := by
  unfold Context.ringWf
  simp [Context.cold]

theorem reset_ringFits (n : Stream) : State.reset.ringFits n := by
  intro cfg h
  rw [ctx_reset] at h
  cases h

theorem reset_packets : State.reset.packets = [] := by
  have hring : Context.cold.ring = [] := rfl
  have hrings : allStreams.flatMap (fun n => (State.reset.ctx n).ring.map fun r => (r.first, r.len)) = [] := by
    simp [hring]
  rw [State.packets, hrings]
  rfl

/-- Right after reset all 8,192 blocks are free and none is in use (R144). -/
theorem reset_blocksConserved : State.reset.blocksConserved := by
  have hused : State.reset.usedBlocks = [] := by
    rw [State.usedBlocks, reset_packets]
    rfl
  have hretired : State.reset.store.retired = [] := rfl
  refine ⟨?_, ?_, ?_⟩
  · rw [hused, hretired, List.append_nil, List.append_nil]
    exact reset_free_nodup
  · rw [hused, hretired, reset_free_length]
    rfl
  · rw [reset_packets]
    intro p hp
    cases hp

theorem reset_blocksCold : BlocksCold State.reset :=
  ⟨rfl, ctx_reset, rfl, rfl, rfl, rfl, rfl, rfl, rfl, rfl, rfl, rfl, rfl, rfl, rfl, rfl, rfl, rfl,
    fun n => by rw [reset_chan]; exact ⟨rfl, rfl⟩, rfl⟩

/-- Settles O5. -/
theorem resetHoldsTheColdStartValues : Obligations.ResetHoldsTheColdStartValues := by
  unfold Obligations.ResetHoldsTheColdStartValues
  intro s
  refine ⟨rfl, rfl, rfl, rfl, rfl, rfl, rfl, rfl, rfl, rfl, rfl, rfl, rfl, rfl, rfl, rfl, rfl, ?_, rfl, rfl, rfl,
    rfl, rfl, rfl, rfl, rfl, rfl, rfl, rfl, rfl, rfl, rfl, rfl, ?_, fun i => reset_free_get, reset_free_length, rfl, fun _ => rfl,
    reset_bank, rfl, rfl, rfl, rfl, rfl, rfl, rfl, rfl, wf_cold, reset_headUsable, ?_, ?_, ?_, ?_,
    reset_blocksConserved, ?_, ?_, ?_⟩
  · intro n
    rw [ctx_reset]
    exact ⟨rfl, rfl, rfl, rfl, rfl, rfl, rfl, rfl, rfl, rfl, rfl, rfl, rfl, rfl, rfl, rfl, rfl⟩
  · intro n
    rw [reset_chan]
    exact ⟨rfl, rfl, rfl⟩
  · exact ⟨Nat.zero_le _, Nat.zero_le _⟩
  · exact ⟨trivial, fun p hp => by cases hp⟩
  · intro n
    refine ⟨?_, ?_, reset_ringFits n⟩
    · rw [ctx_reset]
      exact factorsWf_cold
    · rw [ctx_reset]
      exact ringWf_cold
  · intro w hw
    cases hw
  · exact fun _ => reset_blocksCold
  · intro hc
    cases hc
  · exact ⟨Nat.zero_le _, Nat.zero_le _⟩

end Sys2Proof.Machine

namespace Sys2Proof.Machine

open Sys2Proof

/-! ### The lock machine on an accepted pulse -/

theorem lockPulse_seek {s : State} (cr : Time) (h : s.grid.lock = .seek) : s.lockPulse cr = s.stepAndLock cr 0 0 := by
  simp [State.lockPulse, h]

theorem lockPulse_locked_near {s : State} {cr : Time} (h : s.grid.lock = .locked)
    (hw : (s.grid.phaseError s.cfg cr).natAbs ≤ s.cfg.wlock) :
    s.lockPulse cr = State.slew { s with grid := s.grid.relock } (s.grid.phaseError s.cfg cr) [] := by
  simp [State.lockPulse, h, inWindow, hw]

theorem lockPulse_locked_far {s : State} {cr : Time} (h : s.grid.lock = .locked)
    (hw : s.cfg.wlock < (s.grid.phaseError s.cfg cr).natAbs) (ho : s.grid.oow < 2) :
    s.lockPulse cr = { s with grid := { s.grid with miss := 0, pulse := true, oow := s.grid.oow + 1 } } := by
  simp [State.lockPulse, h, inWindow, Nat.not_le.mpr hw, ho]

theorem lockPulse_locked_third {s : State} {cr : Time} (h : s.grid.lock = .locked)
    (hw : s.cfg.wlock < (s.grid.phaseError s.cfg cr).natAbs) (ho : ¬s.grid.oow < 2) :
    s.lockPulse cr =
      State.raise { s with grid := { s.grid.step s.cfg s.t cr with miss := 0, pulse := true } } .refStep 0 2 := by
  simp [State.lockPulse, h, inWindow, Nat.not_le.mpr hw, ho]

theorem lockPulse_holdover_near {s : State} {cr : Time} (h : s.grid.lock = .holdover)
    (hw : (s.grid.phaseError s.cfg cr).natAbs ≤ s.cfg.wlock) :
    s.lockPulse cr =
      State.slew { s with grid := s.grid.relock } (s.grid.phaseError s.cfg cr) [⟨.refLock, 0, 1⟩] := by
  simp [State.lockPulse, h, inWindow, hw]

theorem lockPulse_holdover_far {s : State} {cr : Time} (h : s.grid.lock = .holdover)
    (hw : s.cfg.wlock < (s.grid.phaseError s.cfg cr).natAbs) : s.lockPulse cr = s.stepAndLock cr 1 1 := by
  simp [State.lockPulse, h, inWindow, Nat.not_le.mpr hw]

/-- A step that locks moves the grid, and raises REF_STEP and REF_LOCK in either order (R11, R21). -/
theorem stepAndLock_raises (s : State) (cr : Time) (cause detail : Nat) :
    ∃ raised, Raises s (s.stepAndLock cr cause detail) raised
      ∧ raised.Perm [⟨.refStep, 0, cause⟩, ⟨.refLock, 0, detail⟩] := by
  let stepped : State := { s with grid := (s.grid.step s.cfg s.t cr).relock }
  let es : List Raised := [⟨.refStep, 0, cause⟩, ⟨.refLock, 0, detail⟩]
  exact ⟨s.order es, (raises_raiseAll stepped (s.order es)).congr rfl rfl rfl rfl rfl, order_perm s es⟩

theorem stepAndLock_link (s : State) (cr : Time) (cause detail : Nat) : (s.stepAndLock cr cause detail).link
    = { s.link with
        queue := (s.stepAndLock cr cause detail).link.queue,
        overflow := (s.stepAndLock cr cause detail).link.overflow } := by
  unfold State.stepAndLock
  rw [chosen_link]
  exact raiseAll_link ..

/-- A step that locks touches the grid, the link and the count of choices alone. -/
theorem stepAndLock_frame (s : State) (cr : Time) (cause detail : Nat) : s.stepAndLock cr cause detail
    = { s with
        grid := (s.stepAndLock cr cause detail).grid, link := (s.stepAndLock cr cause detail).link,
        fresh := (s.stepAndLock cr cause detail).fresh } :=
  state_eq (by simp) (by simp) (by simp) (by simp) (by simp) rfl (by simp) (by simp) (by simp) (by simp) (by simp)
    (by simp) (by simp) rfl rfl (by simp)

/-- The part with E_next moved by a slew, before an epoch that the move leaves reached (R13). -/
def State.moveNext (s : State) (e : Int) : State := { s with grid := { s.grid with eNext := s.grid.slewed s.cfg e } }

theorem slew_of_not_reached {s : State} {e : Int} (events : List Raised)
    (h : reached s.t (s.grid.slewed s.cfg e) = false) : s.slew e events = (s.moveNext e).raiseAll events := by
  simp [State.slew, State.moveNext, h]

theorem slew_of_reached {s : State} {e : Int} (events : List Raised)
    (h : reached s.t (s.grid.slewed s.cfg e) = true) : s.slew e events = (s.moveNext e).takeFrameEpoch events := by
  simp [State.slew, State.moveNext, h]

/-- A frame epoch in LOCKED with the pulse flag set only clears the flag beside the accumulator's work (R5, R18). -/
theorem takeFrameEpoch_grid_of_pulse {s : State} (events : List Raised) (h : s.grid.lock = .locked)
    (hp : s.grid.pulse = true) :
    (s.takeFrameEpoch events).grid = { s.grid.advance s.cfg with pulse := false } := by
  obtain ⟨hg, -⟩ := takeFrameEpoch_facts s events
  rw [hg, Grid.takeEpoch, missTest_of_pulse (g := s.grid.advance s.cfg) h hp]

theorem raise_frame (s : State) (c : EventCode) (a b : Nat) :
    s.raise c a b = { s with grid := (s.raise c a b).grid, link := (s.raise c a b).link } :=
  state_eq (by simp) (by simp) (by simp) (by simp) (by simp) rfl (by simp) (by simp) (by simp) (by simp) (by simp)
    (by simp) (by simp) rfl (by simp) (by simp)

/-- Settles O18: the pulse is handed to the lock machine with the qualifier back in WAIT_LOW, and each clause is one row
of the machine. -/
theorem acceptedPulseActsByTheLockState : Obligations.AcceptedPulseActsByTheLockState := by
  unfold Obligations.AcceptedPulseActsByTheLockState
  intro s hl hr ho ht hq g held e moved slewed stepped locked moved0 q taken
  have haccept : exec .refPulseAccepted s = .next (s.holdPulse.lockPulse g.cr) :=
    exec_refPulseAccepted (refReady_of hl hr ho ht) (by simp [Grid.pulseNext, hq])
  rw [haccept]
  let relocked : State := { s.holdPulse with grid := s.holdPulse.grid.relock }
  have stays (events : List Raised) (hn : reached s.t slewed = false) :
      relocked.slew e events = moved0.raiseAll events := slew_of_not_reached (s := relocked) events hn
  have takes (events : List Raised) (hn : reached s.t slewed = true) :
      relocked.slew e events = moved0.takeFrameEpoch events := slew_of_reached (s := relocked) events hn
  have hgrid (events : List Raised) : (moved0.takeFrameEpoch events).grid = taken :=
    takeFrameEpoch_grid_of_pulse events rfl rfl
  refine ⟨?_, ?_, ?_, ?_, ?_, ?_, ?_, ?_⟩
  · intro hk
    rw [lockPulse_seek (s := s.holdPulse) _ hk]
    obtain ⟨raised, hraises, hperm⟩ := stepAndLock_raises s.holdPulse g.cr 0 0
    refine ⟨_, rfl, stepAndLock_grid .., ⟨raised, hraises.congr rfl rfl rfl rfl rfl, hperm⟩, ?_, ?_⟩
    · exact stepAndLock_frame s.holdPulse g.cr 0 0
    · exact stepAndLock_link s.holdPulse g.cr 0 0
  · intro hk hw hn
    rw [lockPulse_locked_near (s := s.holdPulse) hk hw]
    exact congrArg _ (stays [] hn)
  · intro hk hw hn
    have hslew : State.slew _ _ _ = _ := takes [] hn
    rw [lockPulse_locked_near (s := s.holdPulse) hk hw]
    exact ⟨congrArg _ hslew, (congrArg _ hslew).trans (exec_frameEpoch (s := moved0) hl hr hn).symm, hgrid []⟩
  · intro hk hw hc
    rw [lockPulse_locked_far (s := s.holdPulse) hk hw hc]
    rfl
  · intro hk hw hc
    have hthird : ¬s.holdPulse.grid.oow < 2 := Nat.not_lt.mpr hc.ge
    rw [lockPulse_locked_third (s := s.holdPulse) hk hw hthird]
    let counted : State := { s.holdPulse with grid := { stepped with miss := 0, pulse := true } }
    refine ⟨_, rfl, raise_grid counted .refStep 0 2, ?_, ?_, ?_, raise_frame counted .refStep 0 2, ?_⟩
    · rw [raise_grid]
      exact hk
    · rw [raise_grid]
      rfl
    · exact (raises_raise counted .refStep 0 2).congr rfl rfl rfl rfl rfl
    · exact raiseAll_link counted [⟨.refStep, 0, 2⟩]
  · intro hk hw hn
    rw [lockPulse_holdover_near (s := s.holdPulse) hk hw]
    refine ⟨moved0.raiseAll [⟨.refLock, 0, 1⟩], congrArg _ (stays _ hn), raiseAll_grid .., ?_, ?_, ?_⟩
    · exact (raises_raiseAll moved0 _).congr rfl rfl rfl rfl rfl
    · exact raise_frame moved0 .refLock 0 1
    · exact raiseAll_link moved0 _
  · intro hk hw hn
    rw [lockPulse_holdover_near (s := s.holdPulse) hk hw]
    obtain ⟨-, -, hshows⟩ := takeFrameEpoch_facts moved0 [⟨.refLock, 0, 1⟩]
    refine ⟨_, congrArg _ (takes _ hn), rfl, hgrid _, ?_⟩
    exact (hshows ⟨.refLock, 0, 1⟩ (by simp)).after (.of_link rfl rfl)
  · intro hk hw
    rw [lockPulse_holdover_far (s := s.holdPulse) hk hw]
    obtain ⟨raised, hraises, hperm⟩ := stepAndLock_raises s.holdPulse g.cr 1 1
    refine ⟨_, rfl, stepAndLock_grid .., ⟨raised, hraises.congr rfl rfl rfl rfl rfl, hperm⟩, ?_, ?_⟩
    · exact stepAndLock_frame s.holdPulse g.cr 1 1
    · exact stepAndLock_link s.holdPulse g.cr 1 1

end Sys2Proof.Machine

namespace Sys2Proof.Machine

open Sys2Proof

/-! ### Times seen from T -/

theorem ahead_after (t now : Time) (n : Nat) : (after t n - now).toNat = ((t - now).toNat + n) % 2 ^ 48 := by
  have h : after t n - now = (t - now) + BitVec.ofNat 48 n := by
    unfold after
    ring
  rw [h, BitVec.toNat_add, BitVec.toNat_ofNat]
  omega

/-- A time is reached where it does not lie ahead of T by less than half of the circle (R2). -/
theorem reached_iff_ahead (now x : Time) :
    reached now x = true ↔ (x - now).toNat = 0 ∨ 2 ^ 47 < (x - now).toNat := by
  have h : now - x = -(x - now) := by ring
  have hlt := (x - now).isLt
  unfold reached
  rw [decide_eq_true_iff, h, BitVec.toNat_neg]
  omega

/-- The order of two times by how far they lie ahead of T (R2). -/
theorem earlier_iff_ahead (now a b : Time) : earlier a b = true
    ↔ 1 ≤ ((b - now).toNat + (2 ^ 48 - (a - now).toNat)) % 2 ^ 48
      ∧ ((b - now).toNat + (2 ^ 48 - (a - now).toNat)) % 2 ^ 48 < 2 ^ 47 := by
  have h : b - a = (b - now) - (a - now) := by ring
  unfold earlier
  rw [decide_eq_true_iff, h, BitVec.toNat_sub, Nat.add_comm]

/-- The ticks since a time, turned round, are the ticks ahead (R2). -/
theorem ahead_of_elapsed (now t : Time) : (t - now).toNat = (2 ^ 48 - elapsed now t) % 2 ^ 48 := by
  have h : t - now = -(now - t) := by ring
  rw [h, BitVec.toNat_neg, elapsed]

theorem ahead_of_distance {x now : Time} {n : Nat} (h : distance x now ≤ n) :
    (x - now).toNat ≤ n ∨ 2 ^ 48 - n ≤ (x - now).toNat := by
  unfold distance at h
  rw [BitVec.toInt_eq_toNat_cond] at h
  have hlt := (x - now).isLt
  split at h <;> omega

/-! ### Phase error and step -/

/-- A time of a step's series that must not be E_next: it is reached, or earlier than the floor (R11). -/
def mustPass (now floor x : Time) : Bool := reached now x || earlier x floor

/-- A time more than q_min and at most 2^46 ticks ahead of T may be E_next (R2, R11). -/
theorem mustPass_of_ahead {now taken x : Time} {q : Nat} (hq : q ≤ 50000000) (htaken : elapsed now taken ≤ 2 ^ 46)
    (hlow : q < (x - now).toNat) (hhigh : (x - now).toNat ≤ 2 ^ 46) :
    mustPass now (after taken (q / 2)) x = false := by
  have hfloor := ahead_after taken now (q / 2)
  rw [ahead_of_elapsed now taken] at hfloor
  rw [mustPass, Bool.or_eq_false_iff, ← Bool.not_eq_true, ← Bool.not_eq_true, reached_iff_ahead,
    earlier_iff_ahead now, hfloor]
  omega

/-- Some multiple of `q` lies above `need` by at most `q`. -/
theorem exists_multiple_above {q : Nat} (hq : 0 < q) (need : Nat) :
    ∃ m, m ≤ need + 1 ∧ need < m * q ∧ m * q ≤ need + q := by
  have hm : (need / q + 1) * q = need / q * q + q := Nat.succ_mul _ _
  have hlow := Nat.div_mul_le_self need q
  have hhigh := Nat.lt_div_mul_add hq (a := need)
  exact ⟨need / q + 1, Nat.succ_le_succ (Nat.div_le_self _ _), by omega, by omega⟩

/-- A step's series comes, within its bound of turns, to a time that may be E_next: its first time where that lies far
enough ahead of T, or else the first past T + q_min (R11). -/
theorem exists_stepEnd {now first taken : Time} {q : Nat} (hlow : 200000 ≤ q) (hhigh : q ≤ 50000000)
    (htaken : elapsed now taken ≤ 2 ^ 46) (hfirst : distance first now ≤ 2 ^ 46) :
    ∃ m, m < 2 ^ 48 ∧ mustPass now (after taken (q / 2)) (after first (m * q)) = false := by
  have hlt := (first - now).isLt
  have ends (m : Nat) (ha : q < ((first - now).toNat + m * q) % 2 ^ 48)
      (hb : ((first - now).toNat + m * q) % 2 ^ 48 ≤ 2 ^ 46) :
      mustPass now (after taken (q / 2)) (after first (m * q)) = false :=
    mustPass_of_ahead hhigh htaken (by rw [ahead_after]; exact ha) (by rw [ahead_after]; exact hb)
  rcases ahead_of_distance hfirst with hahead | hback
  · by_cases hfar : q < (first - now).toNat
    · exact ⟨0, by omega, ends 0 (by omega) (by omega)⟩
    · exact ⟨2, by omega, ends 2 (by omega) (by omega)⟩
  · obtain ⟨m, hm, habove, hbelow⟩ := exists_multiple_above (q := q) (by omega) (2 ^ 48 - (first - now).toNat + q)
    exact ⟨m, by omega, ends m (by omega) (by omega)⟩

/-- A step leaves E_next at the first time of its series that may stand (R11). -/
theorem step_eNext {p : PartCfg} {now cr : Time} {g : Grid} (hlow : 200000 ≤ p.qMin) (hhigh : p.qMin ≤ 50000000)
    (htaken : elapsed now g.eTaken ≤ 2 ^ 46) (hfirst : distance (desiredEpoch p cr) now ≤ 2 ^ 46) :
    ∃ m, (g.step p now cr).eNext = after (desiredEpoch p cr) (m * p.qMin)
      ∧ mustPass now (g.floorTime p) (g.step p now cr).eNext = false
      ∧ ∀ j, j < m → mustPass now (g.floorTime p) (after (desiredEpoch p cr) (j * p.qMin)) = true := by
  obtain ⟨m0, hm0, hend⟩ := exists_stepEnd hlow hhigh htaken hfirst
  have hex : ∃ m, mustPass now (g.floorTime p) (after (desiredEpoch p cr) (m * p.qMin)) = false := ⟨m0, hend⟩
  have hmin (j : Nat) (hj : j < Nat.find hex) :
      mustPass now (g.floorTime p) (after (desiredEpoch p cr) (j * p.qMin)) = true := by
    simpa using Nat.find_min hex hj
  have hloop : (g.step p now cr).eNext = after (desiredEpoch p cr) (Nat.find hex * p.qMin) :=
    stepLoop_spec now (g.floorTime p) p.qMin (2 ^ 48) (desiredEpoch p cr) (Nat.find hex)
      (lt_of_le_of_lt (Nat.find_min' hex hend) hm0) (Nat.find_spec hex) hmin
  exact ⟨Nat.find hex, hloop, hloop ▸ Nat.find_spec hex, hmin⟩

/-- The phase error is the signed distance to the nearer of the two epochs, E_taken on a tie (R10). -/
theorem phaseError_eq (p : PartCfg) (cr : Time) (g : Grid) : g.phaseError p cr =
    if distance (desiredEpoch p cr) g.eTaken ≤ distance (desiredEpoch p cr) g.eNext
    then (desiredEpoch p cr - g.eTaken).toInt else (desiredEpoch p cr - g.eNext).toInt := by
  unfold Grid.phaseError Grid.nearEpoch
  simp only []
  split <;> rfl

theorem step_frame (p : PartCfg) (now cr : Time) (g : Grid) : g.step p now cr = { g with
    eNext := (g.step p now cr).eNext, rem := 0, h := cancelField (g.step p now cr).eNext g.h, oow := 0 } := rfl

/-- Settles O17. -/
theorem phaseErrorAndStepOfThePulse : Obligations.PhaseErrorAndStepOfThePulse := by
  unfold Obligations.PhaseErrorAndStepOfThePulse
  constructor
  · intro p cr g desired e
    have he : e = if distance desired g.eTaken ≤ distance desired g.eNext
        then (desired - g.eTaken).toInt else (desired - g.eNext).toInt := phaseError_eq p cr g
    split at he
    · refine ⟨.inl he, ?_, ?_, fun _ => he⟩
      · rw [he]
        exact le_rfl
      · rw [he]
        assumption
    · rename_i hfar
      refine ⟨.inr he, ?_, ?_, fun heq => absurd heq.le hfar⟩
      · rw [he]
        exact (Nat.lt_of_not_le hfar).le
      · rw [he]
        exact le_rfl
  · intro p now cr g hlow hhigh htaken hfirst first floor bad g1
    obtain ⟨m, hm, hgood, hbad⟩ := step_eNext (p := p) (cr := cr) hlow hhigh htaken hfirst
    have bad_iff (x : Time) : bad x ↔ mustPass now floor x = true := by simp [bad, mustPass]
    refine ⟨⟨m, hm, ?_, ?_⟩, rfl, rfl, ?_, ?_, ?_⟩
    · rw [bad_iff]
      exact Bool.not_eq_true _ ▸ hgood
    · intro j hj
      rw [bad_iff]
      exact hbad j hj
    · intro hnone
      change cancelField g1.eNext g.h = none
      rw [hnone]
      rfl
    · intro h hsome
      change cancelField g1.eNext g.h = _
      rw [hsome]
      rfl
    · rfl

end Sys2Proof.Machine

namespace Sys2Proof.Machine

open Sys2Proof

/-! ### The streams among the deliveries -/

/-- The stream that a delivery reaches as a stream epoch. -/
def Delivery.streamOf : Delivery → Option Stream
  | .stream n => some n
  | .share => none
  | .pace => none
  | .event _ => none

/-- The streams that deliveries reach, in their order. -/
def streamsOf (ds : List Delivery) : List Stream := ds.filterMap Delivery.streamOf

theorem mem_streamsOf {ds : List Delivery} {n : Stream} : n ∈ streamsOf ds ↔ Delivery.stream n ∈ ds := by
  rw [streamsOf, List.mem_filterMap]
  constructor
  · rintro ⟨d, hd, he⟩
    cases d <;> cases he
    exact hd
  · exact fun h => ⟨_, h, rfl⟩

theorem streamsOf_append (a b : List Delivery) : streamsOf (a ++ b) = streamsOf a ++ streamsOf b :=
  List.filterMap_append

theorem streamsOf_map_stream (l : List Stream) : streamsOf (l.map .stream) = l := by
  rw [streamsOf, List.filterMap_map]
  exact List.filterMap_some

theorem streamsOf_map_event (es : List Raised) : streamsOf (es.map .event) = [] := by
  rw [streamsOf, List.filterMap_map]
  exact List.filterMap_eq_nil_iff.mpr fun _ _ => rfl

theorem streamsOf_frameDeliveries (es : List Raised) : streamsOf (frameDeliveries es) = allStreams := by
  have h : streamsOf (frameDeliveries es) = streamsOf (allStreams.map .stream ++ es.map .event) := rfl
  rw [h, streamsOf_append, streamsOf_map_stream, streamsOf_map_event, List.append_nil]

/-- Another delivery leaves a context as it was, or stages the factor into it (R29, R102). -/
theorem ctx_deliver_other (s : State) (e : Time) {d : Delivery} {n : Stream} (h : d ≠ .stream n) :
    (s.deliver e d).ctx n = s.ctx n ∨ ∃ k, (s.deliver e d).ctx n = (s.ctx n).stage k := by
  cases d with
  | stream m => exact .inl (ctx_streamEpoch_ne _ _ _ _ fun hm => h (by rw [hm]))
  | share =>
    by_cases hb : s.pace.bus = .stuck
    · left
      simp only [State.deliver, State.shareEpoch]
      rw [if_pos hb]
    · obtain ⟨-, hctx⟩ := shareEpoch_facts s hb
      exact .inr ⟨_, hctx n⟩
  | pace => exact .inl (ctx_paceEpoch ..)
  | event r => exact .inl (ctx_raise ..)

/-- Deliveries that reach a stream once, and not the Share Computer, make its stream epoch. -/
theorem ctx_deliverAll_counted (e : Time) (n : Stream) (ds : List Delivery) (s : State)
    (hc : ds.count (.stream n) = 1) (hs : Delivery.share ∉ ds) :
    (s.deliverAll e ds).ctx n = epochCtx e (s.ctx n) := by
  induction ds generalizing s with
  | nil => cases hc
  | cons d ds ih =>
    rw [deliverAll_cons]
    by_cases hd : d = .stream n
    · subst hd
      have hnot : Delivery.stream n ∉ ds := by
        rw [List.count_cons_self] at hc
        exact List.count_eq_zero.mp (by omega)
      rw [ctx_deliverAll_other e n ds _ hnot fun h => hs (List.mem_cons_of_mem _ h)]
      exact ctx_streamEpoch_self s n e
    · rw [List.count_cons_of_ne hd] at hc
      rw [ih _ hc fun h => hs (List.mem_cons_of_mem _ h)]
      have hsame := ctx_deliverAll_other e n [d] s (by simpa using Ne.symm hd) fun h =>
        hs (List.mem_singleton.mp h ▸ List.mem_cons_self)
      rw [deliverAll_cons] at hsame
      exact congrArg _ hsame

/-! ### What the deliveries trim -/

/-- A stream epoch makes a TRIM discard on the context (R34, R35); never on a disabled one. -/
def Context.trims (c : Context) : Bool :=
  match c.cfg with
  | none => false
  | some cfg => c.trimsAt cfg

/-- The records that a stream epoch cuts from the context's ring (R35 stage 1). -/
def Context.cuts (c : Context) : List Record := if c.trims then (cutFrame c.ring).1 else []

/-- The chains of records freed in their order (R35 stage 2). -/
def Store.freeAll (st : Store) (cut : List Record) : Store := cut.foldl (fun st r => st.freeChain r.first) st

theorem trims_stage (c : Context) (k : Nat) : (c.stage k).trims = c.trims := by
  unfold Context.stage
  (repeat' split) <;> rfl

theorem cuts_stage (c : Context) (k : Nat) : (c.stage k).cuts = c.cuts := by
  have hring : (c.stage k).ring = c.ring := by
    unfold Context.stage
    (repeat' split) <;> rfl
  rw [Context.cuts, Context.cuts, trims_stage, hring]

/-- Another delivery does not change what a stream epoch cuts. -/
theorem trims_deliver_other (s : State) (e : Time) {d : Delivery} {n : Stream} (h : d ≠ .stream n) :
    ((s.deliver e d).ctx n).trims = (s.ctx n).trims ∧ ((s.deliver e d).ctx n).cuts = (s.ctx n).cuts := by
  rcases ctx_deliver_other s e h with hc | ⟨k, hc⟩ <;> rw [hc]
  · exact ⟨rfl, rfl⟩
  · exact ⟨trims_stage .., cuts_stage ..⟩

theorem store_streamEpoch (s : State) (n : Stream) (e : Time) :
    (s.streamEpoch n e).store = s.store.freeAll (s.ctx n).cuts := by
  unfold State.streamEpoch Context.cuts Context.trims
  cases hc : (s.ctx n).cfg with
  | none => simp [hc, Store.freeAll]
  | some cfg =>
    simp only [hc]
    by_cases ht : (s.ctx n).trimsAt cfg = true
    · simp [ht, State.trimWork, Store.freeAll]
    · rw [if_neg ht, if_neg ht]
      split <;> simp [Store.freeAll]

theorem trim_streamEpoch (s : State) (n : Stream) (e : Time) :
    (s.streamEpoch n e).egress.trim = if (s.ctx n).trims then setBit s.egress.trim n else s.egress.trim := by
  unfold State.streamEpoch Context.trims
  cases hc : (s.ctx n).cfg with
  | none => simp [hc]
  | some cfg =>
    simp only [hc]
    by_cases ht : (s.ctx n).trimsAt cfg = true
    · simp [ht, State.trimWork]
    · rw [if_neg ht, if_neg ht]
      split <;> simp

/-- A delivery that reaches no stream leaves the store and the egress blocks. -/
theorem deliver_off_streams (s : State) (e : Time) {d : Delivery} (h : d.streamOf = none) :
    (s.deliver e d).store = s.store ∧ (s.deliver e d).egress = s.egress := by
  cases d with
  | stream n => cases h
  | share => exact ⟨shareEpoch_store s, shareEpoch_egress s⟩
  | pace => exact ⟨paceEpoch_store s e, paceEpoch_egress s e⟩
  | event r => exact ⟨raise_store .., raise_egress ..⟩

theorem eq_stream_of_streamOf {d : Delivery} {n : Stream} (h : d.streamOf = some n) : d = .stream n := by
  cases d <;> cases h
  rfl

/-- Deliveries free the chains that the streams they reach cut, in their order, and no others (R35). -/
theorem store_deliverAll (s : State) (e : Time) (ds : List Delivery) (hn : (streamsOf ds).Nodup) :
    (s.deliverAll e ds).store = (streamsOf ds).foldl (fun st n => st.freeAll (s.ctx n).cuts) s.store := by
  induction ds generalizing s with
  | nil => rfl
  | cons d ds ih =>
    rw [deliverAll_cons]
    cases hd : d.streamOf with
    | none =>
      have hcons : streamsOf (d :: ds) = streamsOf ds := List.filterMap_cons_none hd
      obtain ⟨hstore, -⟩ := deliver_off_streams s e hd
      rw [hcons] at hn ⊢
      rw [ih _ hn, hstore]
      exact List.foldl_ext _ _ _ fun st m _ => by rw [(trims_deliver_other s e (by rintro rfl; cases hd)).2]
    | some n =>
      have hcons : streamsOf (d :: ds) = n :: streamsOf ds := List.filterMap_cons_some hd
      obtain rfl := eq_stream_of_streamOf hd
      rw [hcons] at hn ⊢
      obtain ⟨hout, hnd⟩ := List.nodup_cons.mp hn
      rw [ih _ hnd, List.foldl_cons, ← store_streamEpoch s n e]
      refine List.foldl_ext _ _ _ fun st m hm => ?_
      rw [(trims_deliver_other s e (d := .stream n) (n := m) (by rintro ⟨⟩; exact hout hm)).2]

/-- Deliveries set the trim bits of the streams they reach that trim, and no others (R35). -/
theorem trim_deliverAll (s : State) (e : Time) (ds : List Delivery) (hn : (streamsOf ds).Nodup) (m : Stream) :
    (s.deliverAll e ds).egress.trim.getLsbD m
      = (s.egress.trim.getLsbD m || (decide (m ∈ streamsOf ds) && (s.ctx m).trims)) := by
  induction ds generalizing s with
  | nil => simp [State.deliverAll, streamsOf]
  | cons d ds ih =>
    rw [deliverAll_cons]
    cases hd : d.streamOf with
    | none =>
      have hcons : streamsOf (d :: ds) = streamsOf ds := List.filterMap_cons_none hd
      obtain ⟨-, hegress⟩ := deliver_off_streams s e hd
      rw [hcons] at hn ⊢
      rw [ih _ hn, hegress, (trims_deliver_other s e (by rintro rfl; cases hd)).1]
    | some n =>
      have hcons : streamsOf (d :: ds) = n :: streamsOf ds := List.filterMap_cons_some hd
      obtain rfl := eq_stream_of_streamOf hd
      rw [hcons] at hn ⊢
      obtain ⟨hout, hnd⟩ := List.nodup_cons.mp hn
      have htrim : (s.deliver e (.stream n)).egress.trim.getLsbD m
          = (s.egress.trim.getLsbD m || (decide (m = n) && (s.ctx n).trims)) := by
        rw [show (s.deliver e (.stream n)).egress.trim = _ from trim_streamEpoch s n e]
        split
        · rw [setBit_getLsbD]
          simp [*]
        · simp [*]
      rw [ih _ hnd, htrim]
      by_cases hm : m = n
      · subst hm
        simp [hout]
      · rw [(trims_deliver_other s e (d := .stream n) (n := m) (by rintro ⟨⟩; exact hm rfl)).1]
        simp [hm]

/-! ### The Pace Bus Interface among the deliveries -/

/-- The Pace Bus Interface after a frame epoch of time `e` and interval `k` (R116, R122, R125). -/
def Pace.atEpoch (p : PartCfg) (now e : Time) (k : BitVec 32) (b : Pace) : Pace :=
  if b.bus = .normal then
    { b with cur := some (newNotice p now e k), old := (settleNotice p.stationId b.cur b.old).1 }
  else b

theorem pace_paceEpoch (s : State) (e : Time) : (s.paceEpoch e).pace = s.pace.atEpoch s.cfg s.t e s.grid.k := by
  unfold State.paceEpoch Pace.atEpoch
  split <;> simp

/-- Deliveries that reach the Pace Bus Interface once make its work of a frame epoch. -/
theorem pace_deliverAll_counted (s : State) (e : Time) (ds : List Delivery) (h : ds.count .pace = 1) :
    (s.deliverAll e ds).pace = s.pace.atEpoch s.cfg s.t e s.grid.k := by
  induction ds generalizing s with
  | nil => cases h
  | cons d ds ih =>
    rw [deliverAll_cons]
    by_cases hd : d = .pace
    · subst hd
      rw [List.count_cons_self] at h
      rw [pace_deliverAll _ _ _ (List.count_eq_zero.mp (by omega))]
      exact pace_paceEpoch s e
    · rw [List.count_cons_of_ne hd] at h
      rw [ih _ h, pace_deliver _ _ _ hd, deliver_cfg, deliver_t, deliver_grid]

/-- The superseded record after a frame epoch: the current one where it is on the line, or as before (R122). -/
theorem settleNotice_old (id : Nat) (cur old : Option Notice) :
    (settleNotice id cur old).1 = if cur.map (·.st) = some .onLine then cur else old := by
  unfold settleNotice
  cases cur with
  | none => rfl
  | some r => cases hr : r.st <;> simp [hr]

/-! ### The events of the deliveries -/

/-- Deliveries leave the events of those that are not among them. -/
theorem deliveryEvents_deliverAll (s : State) (e : Time) (ds : List Delivery) (d : Delivery) (h : d ∉ ds) :
    deliveryEvents (s.deliverAll e ds) d = deliveryEvents s d := by
  induction ds generalizing s with
  | nil => rfl
  | cons x xs ih =>
    rw [deliverAll_cons, ih _ fun hx => h (List.mem_cons_of_mem _ hx),
      deliveryEvents_deliver _ _ _ _ fun hx => h (by rw [hx]; exact List.mem_cons_self)]

/-- The events that the Share Computer raises at a frame epoch (R96, R97, R101). -/
def shareEvents (s : State) : List Raised :=
  let ps := s.share.peers.filterMap agePeer
  let r := shareFactor s.cfg.budget (s.fTotal ps) (s.xTotal ps)
  if s.pace.bus = .stuck then []
  else lostEvents s.share.peers ++ overcommitEvents s.share.overcommit r.2.1 r.2.2 r.1

theorem raises_shareEpoch_perm (s : State) :
    ∃ raised, Raises s s.shareEpoch raised ∧ raised.Perm (shareEvents s) := by
  refine ⟨_, raises_shareEpoch s, ?_⟩
  unfold shareEvents
  split
  · exact .refl _
  · exact order_perm ..

/-- Deliveries that reach each stream and the Pace Bus Interface at most once, and the Share Computer between the first
of them and the others, raise the events of each (R6, R182). -/
theorem raises_deliverAll_share (s : State) (e : Time) (a b : List Delivery)
    (hn : ∀ n, (a ++ b).count (.stream n) ≤ 1) (hp : (a ++ b).count .pace ≤ 1) (hs : Delivery.share ∉ a ++ b) :
    ∃ raised, Raises s (s.deliverAll e (a ++ .share :: b)) raised
      ∧ raised.Perm ((a ++ b).flatMap (deliveryEvents s) ++ shareEvents (s.deliverAll e a)) := by
  have hsa : Delivery.share ∉ a := fun h => hs (List.mem_append_left _ h)
  have hsb : Delivery.share ∉ b := fun h => hs (List.mem_append_right _ h)
  have once {d : Delivery} (hc : (a ++ b).count d ≤ 1) : a.count d ≤ 1 ∧ b.count d ≤ 1 ∧ (d ∈ b → d ∉ a) := by
    rw [List.count_append] at hc
    refine ⟨by omega, by omega, fun hb ha => ?_⟩
    have := List.count_pos_iff.mpr ha
    have := List.count_pos_iff.mpr hb
    omega
  obtain ⟨shared, hshared, hperm⟩ := raises_shareEpoch_perm (s.deliverAll e a)
  have hbefore := raises_deliverAll s e a (fun n => (once (hn n)).1) (once hp).1 hsa
  have hafter := raises_deliverAll (s.deliverAll e a).shareEpoch e b (fun n => (once (hn n)).2.1) (once hp).2.1 hsb
  have hsame : ∀ d ∈ b, deliveryEvents (s.deliverAll e a).shareEpoch d = deliveryEvents s d := by
    intro d hd
    have hne : d ≠ .share := by
      rintro rfl
      exact hsb hd
    rw [show (s.deliverAll e a).shareEpoch = (s.deliverAll e a).deliver e .share from rfl,
      deliveryEvents_deliver _ _ _ _ hne]
    cases d with
    | stream n => exact deliveryEvents_deliverAll s e a _ ((once (hn n)).2.2 hd)
    | share => exact absurd rfl hne
    | pace => exact deliveryEvents_deliverAll s e a _ ((once hp).2.2 hd)
    | event r => rfl
  rw [List.flatMap_congr hsame] at hafter
  refine ⟨a.flatMap (deliveryEvents s) ++ shared ++ b.flatMap (deliveryEvents s), ?_, ?_⟩
  · rw [deliverAll_append, deliverAll_cons]
    exact (hbefore.trans hshared (deliverAll_t ..)).trans hafter ((shareEpoch_t _).trans (deliverAll_t ..))
  · rw [List.flatMap_append, List.append_assoc, List.append_assoc]
    exact ((hperm.append_right _).trans List.perm_append_comm).append_left _

end Sys2Proof.Machine

namespace Sys2Proof.Machine

open Sys2Proof

/-! ### The field epoch -/

/-- A stream epoch makes a first overrun under FINISH on the context (R34, R55); never on a disabled one. -/
def Context.owes (c : Context) : Bool :=
  match c.cfg with
  | none => false
  | some cfg => c.owesAt cfg

/-- The event of a stream epoch, by what the context trims or owes. -/
theorem streamEvents_eq (n : Stream) (c : Context) : streamEvents n c =
    if c.trims = true then [⟨.overrunTrim, n.val, (cutFrame c.ring).1.length⟩]
    else if c.owes = true then [⟨.overrunFinish, n.val, c.iNext⟩] else [] := by
  unfold streamEvents Context.trims Context.owes
  cases c.cfg <;> rfl

/-- The chains of a context's cut freed, where it trims. -/
theorem freeAll_cuts (st : Store) (c : Context) : st.freeAll c.cuts =
    if c.trims = true then (cutFrame c.ring).1.foldl (fun st r => st.freeChain r.first) st else st := by
  unfold Context.cuts Store.freeAll
  split <;> rfl

theorem mem_fieldStreams {s : State} {n : Stream} :
    n ∈ s.fieldStreams ↔ ∃ cfg, (s.ctx n).cfg = some cfg ∧ cfg.cadence = .field := by
  unfold State.fieldStreams
  rw [List.mem_filter]
  cases (s.ctx n).cfg <;> simp [allStreams]

theorem fieldStreams_nodup (s : State) : s.fieldStreams.Nodup := (List.nodup_finRange 16).filter _

theorem exec_fieldEpoch {s : State} {h : Time} (hl : s.live = true) (hr : s.grid.running = true)
    (hh : s.grid.h = some h) (hn : reached s.t h = true) : exec .fieldEpoch s = .next (s.takeFieldEpoch h) := by
  simp [exec, execFieldEpoch, State.fieldReady, hl, hr, hh, hn]

/-- The deliveries of a field epoch in the order they are made (R7). -/
def State.fieldOrder (s : State) : List Delivery := s.order (s.fieldStreams.map Delivery.stream)

theorem fieldOrder_perm (s : State) : s.fieldOrder.Perm (s.fieldStreams.map Delivery.stream) := order_perm ..

theorem takeFieldEpoch_eq (s : State) (h : Time) : s.takeFieldEpoch h =
    State.deliverAll h (State.chosen { s with grid := { s.grid with h := none } } s.fieldStreams.length)
      s.fieldOrder := by
  unfold State.takeFieldEpoch State.fieldOrder
  simp only [List.length_map]

theorem streamsOf_fieldOrder (s : State) : (streamsOf s.fieldOrder).Perm s.fieldStreams := by
  have h : (streamsOf s.fieldOrder).Perm (streamsOf (s.fieldStreams.map .stream)) :=
    (fieldOrder_perm s).filterMap _
  rwa [streamsOf_map_stream] at h

theorem streamsOf_fieldOrder_nodup (s : State) : (streamsOf s.fieldOrder).Nodup :=
  (streamsOf_fieldOrder s).nodup_iff.mpr (fieldStreams_nodup s)

theorem share_not_mem_fieldOrder (s : State) : Delivery.share ∉ s.fieldOrder := by
  rw [(fieldOrder_perm s).mem_iff]
  simp

theorem stream_mem_fieldOrder {s : State} {n : Stream} : Delivery.stream n ∈ s.fieldOrder ↔ n ∈ s.fieldStreams := by
  rw [(fieldOrder_perm s).mem_iff]
  simp

theorem count_stream_map (l : List Stream) (n : Stream) : (l.map Delivery.stream).count (.stream n) = l.count n :=
  List.count_map_of_injective l Delivery.stream (fun _ _ h => by cases h; rfl) n

theorem count_fieldOrder (s : State) (n : Stream) : s.fieldOrder.count (.stream n) = s.fieldStreams.count n := by
  rw [(fieldOrder_perm s).count_eq, count_stream_map]

/-- A context after a field epoch: the stream epoch of a FIELD stream, and no change of another (R7). -/
theorem ctx_takeFieldEpoch (s : State) (h : Time) (n : Stream) :
    (s.takeFieldEpoch h).ctx n = if n ∈ s.fieldStreams then epochCtx h (s.ctx n) else s.ctx n := by
  rw [takeFieldEpoch_eq]
  split
  · rename_i hn
    rw [ctx_deliverAll_counted _ _ _ _ ?_ (share_not_mem_fieldOrder s)]
    · rfl
    · rw [count_fieldOrder]
      exact List.count_eq_one_of_mem (fieldStreams_nodup s) hn
  · rename_i hn
    rw [ctx_deliverAll_other _ _ _ _ (by rwa [stream_mem_fieldOrder]) (share_not_mem_fieldOrder s)]
    rfl

theorem epochKeeps_takeFieldEpoch (s : State) (h : Time) : EpochKeeps s (s.takeFieldEpoch h) := by
  rw [takeFieldEpoch_eq]
  exact (EpochKeeps.of_eq rfl rfl rfl).trans (epochKeeps_deliverAll ..)

theorem store_takeFieldEpoch (s : State) (h : Time) : (s.takeFieldEpoch h).store
    = (streamsOf s.fieldOrder).foldl (fun st n => st.freeAll (s.ctx n).cuts) s.store := by
  rw [takeFieldEpoch_eq, store_deliverAll _ _ _ (streamsOf_fieldOrder_nodup s)]
  rfl

theorem trim_takeFieldEpoch (s : State) (h : Time) (m : Stream) : (s.takeFieldEpoch h).egress.trim.getLsbD m
    = (s.egress.trim.getLsbD m || (decide (m ∈ s.fieldStreams) && (s.ctx m).trims)) := by
  rw [takeFieldEpoch_eq, trim_deliverAll _ _ _ (streamsOf_fieldOrder_nodup s),
    decide_eq_decide.mpr (streamsOf_fieldOrder s).mem_iff]
  rfl

/-- A field epoch raises the events of its streams, in whatever order (R34, R35, R55, R182). -/
theorem raises_takeFieldEpoch (s : State) (h : Time) : ∃ raised, Raises s (s.takeFieldEpoch h) raised
    ∧ raised.Perm (s.fieldStreams.flatMap fun n => streamEvents n (s.ctx n)) := by
  let u : State := State.chosen { s with grid := { s.grid with h := none } } s.fieldStreams.length
  have hraises : Raises u (u.deliverAll h s.fieldOrder) (s.fieldOrder.flatMap (deliveryEvents u)) := by
    refine raises_deliverAll u h s.fieldOrder (fun n => ?_) ?_ (share_not_mem_fieldOrder s)
    · rw [count_fieldOrder]
      exact List.nodup_iff_count_le_one.mp (fieldStreams_nodup s) n
    · rw [List.count_eq_zero.mpr]
      · exact Nat.zero_le 1
      · rw [(fieldOrder_perm s).mem_iff]
        simp
  refine ⟨_, takeFieldEpoch_eq s h ▸ hraises.of_same rfl rfl rfl, ?_⟩
  refine ((fieldOrder_perm s).flatMap_right _).trans ?_
  rw [List.flatMap_map]
  exact .refl _

/-- A field epoch changes nothing but what its streams' epochs reach (R7). -/
theorem takeFieldEpoch_frame (s : State) (h : Time) : s.takeFieldEpoch h = { s with
    grid := (s.takeFieldEpoch h).grid, ctxs := (s.takeFieldEpoch h).ctxs, egress := (s.takeFieldEpoch h).egress,
    store := (s.takeFieldEpoch h).store, link := (s.takeFieldEpoch h).link, fresh := (s.takeFieldEpoch h).fresh } :=
  state_eq (by simp) (by simp) (by simp) (by simp) (by simp) rfl rfl rfl (by simp) (by simp) (by simp) rfl (by simp)
    rfl rfl (by simp)

/-- The streams that a field epoch reaches, in its order, and after them the others are all streams. -/
theorem exists_streams_after_fieldOrder (s : State) : ∃ rest, (∀ n ∈ rest, n ∉ s.fieldStreams)
    ∧ (streamsOf s.fieldOrder ++ rest).Perm allStreams := by
  have hrest : ∀ n, n ∈ allStreams.filter (fun n => decide (n ∉ s.fieldStreams)) ↔ n ∉ s.fieldStreams := by
    simp [allStreams]
  refine ⟨allStreams.filter fun n => decide (n ∉ s.fieldStreams), fun n hn => (hrest n).mp hn, ?_⟩
  refine (List.perm_ext_iff_of_nodup ?_ (List.nodup_finRange 16)).mpr fun n => ?_
  · refine List.Nodup.append (streamsOf_fieldOrder_nodup s) ((List.nodup_finRange 16).filter _) ?_
    intro n hn hr
    exact (hrest n).mp hr ((streamsOf_fieldOrder s).mem_iff.mp hn)
  · rw [List.mem_append, hrest, (streamsOf_fieldOrder s).mem_iff]
    simp [em]

/-- Steps that change nothing, made one after another, change nothing. -/
theorem foldl_of_fixed {α β : Type} {f : β → α → β} {l : List α} {b : β} (h : ∀ a ∈ l, ∀ b, f b a = b) :
    l.foldl f b = b := by
  induction l generalizing b with
  | nil => rfl
  | cons x xs ih => rw [List.foldl_cons, h x List.mem_cons_self, ih fun a ha => h a (List.mem_cons_of_mem _ ha)]

/-- Settles O15. -/
theorem fieldEpochReachesFieldStreamsOnly : Obligations.FieldEpochReachesFieldStreamsOnly := by
  unfold Obligations.FieldEpochReachesFieldStreamsOnly
  intro s h hl hr hh hn overrun trims owes overruns
  have trims_eq (n : Stream) : trims n = (decide (n ∈ s.fieldStreams) && (s.ctx n).trims) := by
    simp only [trims, overrun, mem_fieldStreams, Context.trims]
    cases (s.ctx n).cfg with
    | none => simp
    | some cfg => simp [Context.trimsAt, Context.unfinished, Bool.and_assoc]
  have owes_eq (n : Stream) : owes n = (decide (n ∈ s.fieldStreams) && (s.ctx n).owes) := by
    simp only [owes, overrun, mem_fieldStreams, Context.owes]
    cases (s.ctx n).cfg with
    | none => simp
    | some cfg => simp [Context.owesAt, Context.unfinished, Bool.and_assoc]
  obtain ⟨rest, hrest, hall⟩ := exists_streams_after_fieldOrder s
  have reached_of (n : Stream) (hn : n ∈ streamsOf s.fieldOrder) : n ∈ s.fieldStreams :=
    (streamsOf_fieldOrder s).mem_iff.mp hn
  have trims_in (n : Stream) (hn : n ∈ streamsOf s.fieldOrder) : trims n = (s.ctx n).trims := by
    simp [trims_eq, reached_of n hn]
  have owes_in (n : Stream) (hn : n ∈ streamsOf s.fieldOrder) : owes n = (s.ctx n).owes := by
    simp [owes_eq, reached_of n hn]
  have trims_out (n : Stream) (hn : n ∈ rest) : trims n = false := by simp [trims_eq, hrest n hn]
  have owes_out (n : Stream) (hn : n ∈ rest) : owes n = false := by simp [owes_eq, hrest n hn]
  obtain ⟨hegress, hstore, hlink⟩ := epochKeeps_takeFieldEpoch s h
  refine ⟨s.takeFieldEpoch h, exec_fieldEpoch hl hr hh hn, takeFieldEpoch_grid s h, ?_, ?_, ?_, ?_, ?_, ?_, hegress,
    hstore, hlink, takeFieldEpoch_frame s h⟩
  · intro n cfg hc hf
    rw [ctx_takeFieldEpoch, if_pos (mem_fieldStreams.mpr ⟨cfg, hc, hf⟩), epochCtx, hc]
  · intro n cfg hc hf
    rw [ctx_takeFieldEpoch, if_neg]
    rw [mem_fieldStreams]
    simp [hc, hf]
  · intro n hc
    rw [ctx_takeFieldEpoch, if_neg]
    rw [mem_fieldStreams]
    simp [hc]
  · refine ⟨_, hall, ?_⟩
    rw [List.foldl_append, foldl_of_fixed (l := rest), store_takeFieldEpoch]
    · refine List.foldl_ext _ _ _ fun st n hn => ?_
      rw [freeAll_cuts, trims_in n hn]
    · intro n hn st
      rw [trims_out n hn]
      rfl
  · intro m
    rw [trim_takeFieldEpoch, trims_eq]
  · obtain ⟨raised, hraises, hperm⟩ := raises_takeFieldEpoch s h
    refine ⟨raised, hraises, hperm.trans ?_⟩
    refine List.Perm.trans ?_ (hall.flatMap_right _)
    rw [List.flatMap_append, List.flatMap_eq_nil_iff (l := rest).mpr, List.append_nil]
    · refine ((streamsOf_fieldOrder s).symm.flatMap_right _).trans (.of_eq (List.flatMap_congr fun n hn => ?_))
      rw [streamEvents_eq, trims_in n hn, owes_in n hn]
    · intro n hn
      rw [trims_out n hn, owes_out n hn]
      rfl

end Sys2Proof.Machine

namespace Sys2Proof.Machine

open Sys2Proof

/-! ### The deliveries of a frame epoch -/

/-- The grid's own events of a frame epoch: REF_HOLDOVER of a fourth miss, and those raised beside it (R5, R18). -/
def State.gridEvents (s : State) (events : List Raised) : List Raised :=
  holdoverEvents (s.grid.takeEpoch s.cfg).2 ++ events

/-- The deliveries of a frame epoch in the order they are made (R6). -/
def State.frameOrder (s : State) (events : List Raised) : List Delivery :=
  s.order (frameDeliveries (s.gridEvents events))

/-- The part when the grid's own work of a frame epoch is done and its deliveries begin (R5). -/
def State.gridTaken (s : State) (events : List Raised) : State :=
  State.chosen { s with grid := (s.grid.takeEpoch s.cfg).1 } (frameDeliveries (s.gridEvents events)).length

theorem takeFrameEpoch_eq (s : State) (events : List Raised) :
    s.takeFrameEpoch events = (s.gridTaken events).deliverAll s.grid.eNext (s.frameOrder events) := rfl

theorem streamsOf_frameOrder (s : State) (events : List Raised) :
    (streamsOf (s.frameOrder events)).Perm allStreams := by
  rw [← streamsOf_frameDeliveries (s.gridEvents events)]
  exact (order_perm s _).filterMap _

theorem streamsOf_frameOrder_nodup (s : State) (events : List Raised) : (streamsOf (s.frameOrder events)).Nodup :=
  (streamsOf_frameOrder s events).nodup_iff.mpr (List.nodup_finRange 16)

/-- The deliveries of a frame epoch but the Share Computer's. -/
def otherDeliveries (es : List Raised) : List Delivery := .pace :: (allStreams.map .stream ++ es.map .event)

/-- The order splits at the Share Computer's delivery; before and after it stand the others (R6). -/
theorem frameOrder_split (s : State) (events : List Raised) :
    ∃ a b, s.frameOrder events = a ++ .share :: b ∧ (a ++ b).Perm (otherDeliveries (s.gridEvents events)) := by
  have hperm : (s.frameOrder events).Perm (.share :: otherDeliveries (s.gridEvents events)) := order_perm s _
  obtain ⟨a, b, hab⟩ := List.append_of_mem (hperm.mem_iff.mpr List.mem_cons_self)
  rw [hab] at hperm
  exact ⟨a, b, hab, (List.perm_middle.symm.trans hperm).cons_inv⟩

theorem count_stream_other (es : List Raised) (n : Stream) : (otherDeliveries es).count (.stream n) = 1 := by
  have hevents : (es.map Delivery.event).count (.stream n) = 0 := List.count_eq_zero.mpr (by simp)
  rw [otherDeliveries, List.count_cons_of_ne (by simp), List.count_append, count_stream_map, hevents,
    List.count_eq_one_of_mem (l := allStreams) (List.nodup_finRange 16) (List.mem_finRange n)]

theorem count_pace_other (es : List Raised) : (otherDeliveries es).count .pace = 1 := by
  rw [otherDeliveries, List.count_cons_self, List.count_eq_zero.mpr (by simp)]

theorem share_not_mem_other (es : List Raised) : Delivery.share ∉ otherDeliveries es := by
  simp [otherDeliveries]

/-- A stream reached once by deliveries in two parts is reached in the one that it is among. -/
theorem ctx_deliverAll_parts {a b : List Delivery} {n : Stream} (hc : (a ++ b).count (.stream n) = 1)
    (hs : Delivery.share ∉ a ++ b) (e : Time) :
    (n ∈ streamsOf a → (∀ x : State, (x.deliverAll e a).ctx n = epochCtx e (x.ctx n))
        ∧ ∀ x : State, (x.deliverAll e b).ctx n = x.ctx n)
      ∧ (n ∉ streamsOf a → (∀ x : State, (x.deliverAll e a).ctx n = x.ctx n)
        ∧ ∀ x : State, (x.deliverAll e b).ctx n = epochCtx e (x.ctx n)) := by
  have hsa : Delivery.share ∉ a := fun h => hs (List.mem_append_left _ h)
  have hsb : Delivery.share ∉ b := fun h => hs (List.mem_append_right _ h)
  rw [List.count_append] at hc
  rw [mem_streamsOf]
  constructor
  · intro ha
    have hpos := List.count_pos_iff.mpr ha
    have hb : Delivery.stream n ∉ b := List.count_eq_zero.mp (by omega)
    exact ⟨fun x => ctx_deliverAll_counted e n a x (by omega) hsa, fun x => ctx_deliverAll_other e n b x hb hsb⟩
  · intro ha
    have hzero := List.count_eq_zero.mpr ha
    exact ⟨fun x => ctx_deliverAll_other e n a x ha hsa, fun x => ctx_deliverAll_counted e n b x (by omega) hsb⟩

/-! ### The Share Computer at a frame epoch -/

/-- k, OVERCOMMIT and its cause as the Share Computer computes them at a frame epoch (R99, R100). -/
def State.epochFactor (s : State) : Nat × Bool × Nat :=
  let ps := s.share.peers.filterMap agePeer
  shareFactor s.cfg.budget (s.fTotal ps) (s.xTotal ps)

theorem shareEpoch_of_stuck {s : State} (h : s.pace.bus = .stuck) : s.shareEpoch = s := by
  unfold State.shareEpoch
  rw [if_pos h]

theorem share_shareEpoch {s : State} (h : s.pace.bus ≠ .stuck) : s.shareEpoch.share
    = { peers := s.share.peers.filterMap agePeer, k := s.epochFactor.1, overcommit := s.epochFactor.2.1 } := by
  unfold State.shareEpoch
  rw [if_neg h]
  simp [State.epochFactor]

theorem ctx_shareEpoch {s : State} (h : s.pace.bus ≠ .stuck) (n : Stream) :
    s.shareEpoch.ctx n = (s.ctx n).stage s.epochFactor.1 := by
  obtain ⟨-, hctx⟩ := shareEpoch_facts s h
  rw [hctx, share_shareEpoch h]

/-- An entry is removed where it was not heard and has been missed three times (R95, R96). -/
theorem agePeer_isNone (p : Peer) : (agePeer p).isNone = (!p.heard && decide (3 ≤ p.missed)) := by
  unfold agePeer
  cases p.heard
  · by_cases hm : p.missed < 3
    · simp [hm, Nat.not_le.mpr hm]
    · simp [hm, Nat.not_lt.mp hm]
  · simp

theorem lostEvents_eq (ps : List Peer) : lostEvents ps
    = (ps.filter fun p => !p.heard && decide (3 ≤ p.missed)).map fun p => ⟨.peerLost, p.id, min (p.f + p.x) 65535⟩ := by
  unfold lostEvents
  simp only [agePeer_isNone]
  rfl

/-- A fourth miss in LOCKED raises REF_HOLDOVER, and nothing else of the miss test raises an event (R18). -/
theorem holdoverEvents_takeEpoch (p : PartCfg) (g : Grid) : holdoverEvents (g.takeEpoch p).2
    = if g.lock = .locked ∧ g.pulse = false ∧ 3 ≤ g.miss then [⟨.refHoldover, 0, 0⟩] else [] := by
  change holdoverEvents (g.advance p).missTest.2 = _
  by_cases hl : g.lock = .locked
  · cases hp : g.pulse with
    | true =>
      rw [missTest_of_pulse (g := g.advance p) hl hp]
      simp [holdoverEvents]
    | false =>
      by_cases hm : g.miss < 3
      · rw [missTest_of_missed (g := g.advance p) hl hp hm]
        simp [holdoverEvents, hm]
      · rw [missTest_of_fourth (g := g.advance p) hl hp (Nat.not_lt.mp hm)]
        simp [holdoverEvents, hl, Nat.not_lt.mp hm]
  · rw [missTest_of_not_locked (g := g.advance p) hl]
    simp [holdoverEvents, hl]

theorem shareEvents_eq (s : State) : shareEvents s = if s.pace.bus = .stuck then []
    else lostEvents s.share.peers
      ++ overcommitEvents s.share.overcommit s.epochFactor.2.1 s.epochFactor.2.2 s.epochFactor.1 := rfl

theorem overcommitEvents_eq (was now : Bool) (cause k : Nat) : overcommitEvents was now cause k =
    if was = false ∧ now = true then [⟨.overcommitOn, 0, cause⟩]
    else if was = true ∧ now = false then [⟨.overcommitOff, 0, k⟩] else [] := by
  cases was <;> cases now <;> rfl

theorem ownClaim_congr {s : State} {c : Stream → Context} (h : ∀ n, s.ctx n = c n) (cls : Class) :
    s.ownClaim cls = min (allStreams.map fun n => (c n).claimIn cls).sum 65535 := by
  unfold State.ownClaim
  simp only [h]
  rfl

end Sys2Proof.Machine

namespace Sys2Proof.Machine

open Sys2Proof

/-! ### The frame epoch, block by block -/

/-- The part when the Share Computer is reached, after the deliveries `a` (R6). -/
def State.atShare (s : State) (events : List Raised) (a : List Delivery) : State :=
  (s.gridTaken events).deliverAll s.grid.eNext a

theorem takeEpoch_k (p : PartCfg) (g : Grid) : (g.takeEpoch p).1.k = g.k + 1 := by
  change (g.advance p).missTest.1.k = _
  rw [missTest_frame]
  rfl

theorem store_takeFrameEpoch (s : State) (events : List Raised) : (s.takeFrameEpoch events).store
    = (streamsOf (s.frameOrder events)).foldl (fun st n => st.freeAll (s.ctx n).cuts) s.store := by
  rw [takeFrameEpoch_eq, store_deliverAll _ _ _ (streamsOf_frameOrder_nodup s events)]
  rfl

theorem trim_takeFrameEpoch (s : State) (events : List Raised) (m : Stream) :
    (s.takeFrameEpoch events).egress.trim.getLsbD m = (s.egress.trim.getLsbD m || (s.ctx m).trims) := by
  have hm : m ∈ streamsOf (s.frameOrder events) :=
    (streamsOf_frameOrder s events).mem_iff.mpr (List.mem_finRange m)
  rw [takeFrameEpoch_eq, trim_deliverAll _ _ _ (streamsOf_frameOrder_nodup s events), decide_eq_true hm, Bool.true_and]
  rfl

theorem pace_takeFrameEpoch (s : State) (events : List Raised) :
    (s.takeFrameEpoch events).pace = s.pace.atEpoch s.cfg s.t s.grid.eNext (s.grid.k + 1) := by
  have hcount : (s.frameOrder events).count .pace = 1 := by
    obtain ⟨a, b, hab, hperm⟩ := frameOrder_split s events
    rw [hab, List.perm_middle.count_eq, List.count_cons_of_ne (by simp), hperm.count_eq, count_pace_other]
  rw [takeFrameEpoch_eq, pace_deliverAll_counted _ _ _ hcount, ← takeEpoch_k s.cfg]
  rfl

section Split

variable {s : State} {events : List Raised} {a b : List Delivery}

theorem takeFrameEpoch_split (hab : s.frameOrder events = a ++ .share :: b) :
    s.takeFrameEpoch events = (s.atShare events a).shareEpoch.deliverAll s.grid.eNext b := by
  rw [takeFrameEpoch_eq, hab, deliverAll_append, deliverAll_cons]
  rfl

theorem bus_atShare : (s.atShare events a).pace.bus = s.pace.bus := bus_deliverAll ..

theorem count_stream_split (hperm : (a ++ b).Perm (otherDeliveries (s.gridEvents events))) (n : Stream) :
    (a ++ b).count (.stream n) = 1 := by
  rw [hperm.count_eq, count_stream_other]

theorem share_not_mem_split (hperm : (a ++ b).Perm (otherDeliveries (s.gridEvents events))) :
    Delivery.share ∉ a ++ b := by
  rw [hperm.mem_iff]
  exact share_not_mem_other _

theorem share_atShare (hperm : (a ++ b).Perm (otherDeliveries (s.gridEvents events))) :
    (s.atShare events a).share = s.share :=
  share_deliverAll _ _ _ fun h => share_not_mem_split hperm (List.mem_append_left _ h)

/-- A context as the Share Computer finds it: after its stream epoch where that was delivered before. -/
theorem ctx_atShare (hperm : (a ++ b).Perm (otherDeliveries (s.gridEvents events))) (n : Stream) :
    (s.atShare events a).ctx n = if n ∈ streamsOf a then epochCtx s.grid.eNext (s.ctx n) else s.ctx n := by
  obtain ⟨hbefore, hafter⟩ :=
    ctx_deliverAll_parts (count_stream_split hperm n) (share_not_mem_split hperm) s.grid.eNext
  split
  · rename_i hn
    exact (hbefore hn).1 _
  · rename_i hn
    exact (hafter hn).1 _

/-- A context after the deliveries that follow the Share Computer's. -/
theorem ctx_afterShare (hperm : (a ++ b).Perm (otherDeliveries (s.gridEvents events))) (x : State) (n : Stream) :
    (x.deliverAll s.grid.eNext b).ctx n = if n ∈ streamsOf a then x.ctx n else epochCtx s.grid.eNext (x.ctx n) := by
  obtain ⟨hbefore, hafter⟩ :=
    ctx_deliverAll_parts (count_stream_split hperm n) (share_not_mem_split hperm) s.grid.eNext
  split
  · rename_i hn
    exact (hbefore hn).2 x
  · rename_i hn
    exact (hafter hn).2 x

/-- While the bus is STUCK a frame epoch makes each stream's epoch and leaves the Share Computer (R97). -/
theorem takeFrameEpoch_of_stuck (h : s.pace.bus = .stuck) : (s.takeFrameEpoch events).share = s.share
    ∧ ∀ n, (s.takeFrameEpoch events).ctx n = epochCtx s.grid.eNext (s.ctx n) := by
  obtain ⟨a, b, hab, hperm⟩ := frameOrder_split s events
  rw [takeFrameEpoch_split hab, shareEpoch_of_stuck (bus_atShare.trans h)]
  constructor
  · rw [share_deliverAll _ _ _ fun hb => share_not_mem_split hperm (List.mem_append_right _ hb), share_atShare hperm]
  · intro n
    rw [ctx_afterShare hperm, ctx_atShare hperm]
    split <;> rfl

/-- A stream takes the factor as its staged one before its epoch or after it (R102). -/
theorem ctx_takeFrameEpoch (hab : s.frameOrder events = a ++ .share :: b)
    (hperm : (a ++ b).Perm (otherDeliveries (s.gridEvents events))) (h : s.pace.bus ≠ .stuck) (n : Stream) :
    (s.takeFrameEpoch events).ctx n =
      if n ∈ streamsOf a then (epochCtx s.grid.eNext (s.ctx n)).stage (s.atShare events a).epochFactor.1
      else epochCtx s.grid.eNext ((s.ctx n).stage (s.atShare events a).epochFactor.1) := by
  rw [takeFrameEpoch_split hab, ctx_afterShare hperm, ctx_shareEpoch (by rwa [bus_atShare]), ctx_atShare hperm]
  split <;> rfl

theorem share_takeFrameEpoch (hab : s.frameOrder events = a ++ .share :: b)
    (hperm : (a ++ b).Perm (otherDeliveries (s.gridEvents events))) (h : s.pace.bus ≠ .stuck) :
    (s.takeFrameEpoch events).share = {
      peers := s.share.peers.filterMap agePeer, k := (s.atShare events a).epochFactor.1,
      overcommit := (s.atShare events a).epochFactor.2.1 } := by
  rw [takeFrameEpoch_split hab,
    share_deliverAll _ _ _ fun hb => share_not_mem_split hperm (List.mem_append_right _ hb),
    share_shareEpoch (by rwa [bus_atShare]), share_atShare hperm]

/-- The events of the other deliveries: the record's, those of the streams, and the grid's. -/
theorem flatMap_otherDeliveries (s : State) (es : List Raised) :
    (otherDeliveries es).flatMap (deliveryEvents s) = deliveryEvents s .pace
      ++ ((allStreams.flatMap fun n => streamEvents n (s.ctx n)) ++ es) := by
  rw [otherDeliveries, List.flatMap_cons, List.flatMap_append, List.flatMap_map, List.flatMap_map]
  congr 2
  exact List.flatMap_singleton' es

/-- A frame epoch raises the events of its deliveries, in whatever order (R6, R182). -/
theorem raises_takeFrameEpoch (hab : s.frameOrder events = a ++ .share :: b)
    (hperm : (a ++ b).Perm (otherDeliveries (s.gridEvents events))) :
    ∃ raised, Raises s (s.takeFrameEpoch events) raised
      ∧ raised.Perm (s.gridEvents events ++ (allStreams.flatMap fun n => streamEvents n (s.ctx n))
        ++ deliveryEvents s .pace ++ shareEvents (s.atShare events a)) := by
  obtain ⟨raised, hraises, hevents⟩ := raises_deliverAll_share (s.gridTaken events) s.grid.eNext a b
    (fun n => (count_stream_split hperm n).le) ((hperm.count_eq _).trans (count_pace_other _)).le
    (share_not_mem_split hperm)
  rw [← hab, ← takeFrameEpoch_eq] at hraises
  refine ⟨raised, hraises.of_same rfl rfl rfl, hevents.trans (List.Perm.append_right _ ?_)⟩
  refine (hperm.flatMap_right _).trans ?_
  rw [flatMap_otherDeliveries]
  exact (List.perm_append_comm.append_left _).trans List.perm_append_comm

/-- A disabled context takes no stream epoch and no factor. -/
theorem ctx_takeFrameEpoch_of_disabled {n : Stream} (hc : (s.ctx n).cfg = none) :
    (s.takeFrameEpoch events).ctx n = s.ctx n := by
  have hepoch : epochCtx s.grid.eNext (s.ctx n) = s.ctx n := by rw [epochCtx, hc]
  have hstage (k : Nat) : (s.ctx n).stage k = s.ctx n := by rw [Context.stage, hc]
  by_cases h : s.pace.bus = .stuck
  · rw [(takeFrameEpoch_of_stuck h).2, hepoch]
  · obtain ⟨a, b, hab, hperm⟩ := frameOrder_split s events
    rw [ctx_takeFrameEpoch hab hperm h, hepoch, hstage, hepoch, ite_self]

end Split

/-- A record not yet sent is skipped by the frame epoch that ends its interval (R122). -/
theorem deliveryEvents_pace (s : State) : deliveryEvents s .pace =
    if s.pace.bus = .normal then
      s.pace.cur.elim [] fun r =>
        if r.st = .scheduled ∨ r.st = .waiting then [⟨.noticeSkipped, s.cfg.stationId, r.failed⟩] else []
    else [] := by
  unfold deliveryEvents settleNotice
  cases s.pace.cur with
  | none => rfl
  | some r => cases hr : r.st <;> simp [hr]

/-- Settles O14. -/
theorem frameEpochReachesEveryBlockOnce : Obligations.FrameEpochReachesEveryBlockOnce := by
  unfold Obligations.FrameEpochReachesEveryBlockOnce
  refine ⟨fun s => exec_frameEpoch, ?_⟩
  intro s events t e epoch trims owes holdover overruns skipped lost
  have epoch_eq : epoch = epochCtx e := by
    funext c
    simp only [epoch, epochCtx]
    cases c.cfg <;> rfl
  have trims_eq : trims = fun n => (s.ctx n).trims := by
    funext n
    simp only [trims, Context.trims]
    cases (s.ctx n).cfg <;> rfl
  have owes_eq : owes = fun n => (s.ctx n).owes := by
    funext n
    simp only [owes, Context.owes]
    cases (s.ctx n).cfg <;> rfl
  have overruns_eq : overruns = allStreams.flatMap fun n => streamEvents n (s.ctx n) := by
    simp only [overruns, streamEvents_eq, trims_eq, owes_eq]
  have skipped_eq : skipped = deliveryEvents s .pace := by
    rw [deliveryEvents_pace]
    simp only [skipped]
    cases s.pace.bus <;> cases s.pace.cur <;> rfl
  have grid_eq : s.gridEvents events = holdover ++ events := by
    rw [State.gridEvents, holdoverEvents_takeEpoch]
  refine ⟨?_, ?_, fun n => ctx_takeFrameEpoch_of_disabled, ?_, ?_, ?_⟩
  · obtain ⟨a, b, hab, hperm⟩ := frameOrder_split s events
    have horder : streamsOf (s.frameOrder events) = streamsOf a ++ streamsOf b := by
      rw [hab, streamsOf_append]
      rfl
    refine ⟨streamsOf (s.frameOrder events), (streamsOf a).length, streamsOf_frameOrder s events, ?_⟩
    intro first seen own peers factor overcommit
    have first_iff (n : Stream) : first n ↔ n ∈ streamsOf a := by
      simp only [first, horder, List.take_left]
    have seen_eq (n : Stream) : (s.atShare events a).ctx n = seen n := by
      simp only [ctx_atShare hperm, seen, first_iff, epoch_eq, e]
    have factor_eq : (s.atShare events a).epochFactor = factor := by
      simp only [State.epochFactor, State.fTotal, State.xTotal, share_atShare hperm, ownClaim_congr seen_eq]
      simp only [State.atShare, deliverAll_cfg]
      rfl
    refine ⟨?_, fun h => ⟨?_, fun n => ?_⟩, ?_⟩
    · rw [store_takeFrameEpoch]
      simp only [freeAll_cuts, trims_eq]
    · rw [← factor_eq]
      exact share_takeFrameEpoch hab hperm h
    · rw [ctx_takeFrameEpoch hab hperm h, factor_eq, epoch_eq]
      simp only [first_iff, e]
    · obtain ⟨raised, hraises, hevents⟩ := raises_takeFrameEpoch hab hperm
      refine ⟨raised, hraises, ?_⟩
      rwa [grid_eq, ← overruns_eq, ← skipped_eq, shareEvents_eq, share_atShare hperm, bus_atShare, factor_eq,
        lostEvents_eq, overcommitEvents_eq] at hevents
  · intro m
    rw [trim_takeFrameEpoch, trims_eq]
  · intro h
    obtain ⟨hshare, hctx⟩ := takeFrameEpoch_of_stuck (events := events) h
    refine ⟨hshare, ?_, ?_⟩
    · rw [pace_takeFrameEpoch, Pace.atEpoch, if_neg (by simp [h])]
    · rwa [epoch_eq]
  · intro h
    rw [pace_takeFrameEpoch, Pace.atEpoch, if_neg (by simp [h])]
  · intro h
    rw [pace_takeFrameEpoch, Pace.atEpoch, if_pos h]
    exact ⟨rfl, settleNotice_old ..⟩

end Sys2Proof.Machine

namespace Sys2Proof.Machine

open Sys2Proof

/-! ### How a context moves -/

/-- One move of a stream's context: whatever a step can do to it but an arrival (R27), RUN entry and a cold start. -/
inductive Context.Move : Context → Context → Prop
  /-- A stream epoch reaches it (R30). -/
  | epoch {c : Context} {cfg : StreamCfg} (e : Time) (hcfg : c.cfg = some cfg) : Move c (c.atEpoch cfg e)
  /-- The Share Computer stages a factor (R100, R102). -/
  | stage {c : Context} {k : Nat} (hlow : 256 ≤ k) (hhigh : k ≤ 1024) : Move c (c.stage k)
  /-- It starves (R33). -/
  | starve {c : Context} (henabled : c.enabled = true) (hring : c.ring = []) :
      Move c { c with st := .starved, starveCounted := true }
  /-- Its head is granted (R32, R49, R56). -/
  | grant {c : Context} {cfg : StreamCfg} {r : Record} {rest : List Record} (hcfg : c.cfg = some cfg)
      (hring : c.ring = r :: rest) : Move c (c.granted cfg r rest)
  /-- Something is counted, or that its t_next is reached is noted or taken (R69, R74, R86). -/
  | tally (c : Context) (seq : BitVec 16) (counts : Counters) (justReached : Bool) :
      Move c { c with seq := seq, counts := counts, justReached := justReached }
  /-- The frame that is discarded has come to its end (R36). -/
  | frameDiscarded (c : Context) : Move c { c with discard := false }

/-- The moves of a context, one after another. -/
def Context.Moves : Context → Context → Prop := Relation.ReflTransGen Context.Move

theorem Context.Moves.refl (c : Context) : c.Moves c := Relation.ReflTransGen.refl

theorem Context.Moves.trans {a b c : Context} (h : a.Moves b) (g : b.Moves c) : a.Moves c :=
  Relation.ReflTransGen.trans h g

theorem Context.Move.once {a b : Context} (h : a.Move b) : a.Moves b := .single h

/-- A move keeps the configuration and adds no record. -/
theorem Context.Move.continues {a b : Context} (h : a.Move b) : Continues a b := by
  cases h with
  | epoch e hcfg => exact continues_atEpoch _ e a hcfg
  | stage hlow hhigh => exact continues_stage a _ hlow hhigh
  | starve => exact .of rfl le_rfl rfl rfl rfl
  | grant hcfg hring => exact continues_granted _ _ _ a hcfg hring
  | tally => exact .of rfl le_rfl rfl rfl rfl
  | frameDiscarded => exact .of rfl le_rfl rfl rfl rfl

theorem Context.Moves.continues {a b : Context} (h : a.Moves b) : Continues a b := by
  induction h with
  | refl => exact .refl a
  | tail _ hmove ih => exact ih.trans hmove.continues

/-! ### A ring agrees with its stream's state (2.3, R24, R36) -/

/-- An enabled stream neither QUIET nor STARVED has its ring in order where a discarded frame has left it empty. -/
theorem ringWf_of_running {c : Context} {cfg : StreamCfg} (hcfg : c.cfg = some cfg) (hquiet : c.st ≠ .quiet)
    (hstarved : c.st ≠ .starved) (hdiscard : c.discard = true → c.ring = []) : c.ringWf :=
  ⟨fun h => absurd h hquiet, fun h => absurd h hstarved, hdiscard, fun h => by rw [hcfg] at h; cases h⟩

theorem ringWf_startFrame {cfg : StreamCfg} (e : Time) {c : Context} (hcfg : c.cfg = some cfg)
    (hdiscard : c.discard = true → c.ring = []) : (startFrame cfg e c).ringWf :=
  ringWf_of_running hcfg (by simp [startFrame]) (by simp [startFrame]) hdiscard

/-- A ring that holds no frame-end record is cut whole (R35). -/
theorem cutFrame_keep_of_not_found {ring : List Record} (h : (cutFrame ring).2.2 = false) :
    (cutFrame ring).2.1 = [] := by
  induction ring with
  | nil => rfl
  | cons r rs ih =>
    unfold cutFrame at h ⊢
    split at h
    · cases h
    · rename_i hend
      rw [if_neg hend]
      exact ih h

theorem cutFrame_nil : cutFrame [] = ([], [], false) := rfl

/-- The TRIM discard leaves the ring in order: without a frame-end record it is empty (R35, R36). -/
theorem ringWf_trimmed {cfg : StreamCfg} (e : Time) {c : Context} (hcfg : c.cfg = some cfg)
    (hdiscard : c.discard = true → c.ring = []) : (c.trimmed cfg e).ringWf := by
  have hkeep : (c.discard || !(cutFrame c.ring).2.2) = true → (cutFrame c.ring).2.1 = [] := by
    rw [Bool.or_eq_true, Bool.not_eq_true']
    rintro (hd | hfound)
    · rw [hdiscard hd, cutFrame_nil]
    · exact cutFrame_keep_of_not_found hfound
  unfold Context.trimmed
  simp only []
  split
  · exact ringWf_startFrame e hcfg hkeep
  · exact ringWf_of_running hcfg (by simp) (by simp) hkeep

theorem ringWf_overrun {cfg : StreamCfg} (e : Time) {c : Context} (hcfg : c.cfg = some cfg) (h : c.ringWf) :
    (c.overrun cfg e).ringWf := by
  obtain ⟨-, -, hdiscard, -⟩ := id h
  unfold Context.overrun
  split
  · exact ringWf_trimmed e hcfg hdiscard
  · exact h
  · exact ringWf_trimmed (c := { c with owing := false }) e hcfg hdiscard

theorem ringWf_atEpoch {cfg : StreamCfg} (e : Time) {c : Context} (hcfg : c.cfg = some cfg) (h : c.ringWf) :
    (c.atEpoch cfg e).ringWf := by
  obtain ⟨-, -, hdiscard, hnone⟩ := id h
  unfold Context.atEpoch
  split
  · exact h
  · exact h
  · exact ringWf_startFrame e hcfg hdiscard
  · split
    · exact ringWf_startFrame e hcfg hdiscard
    · split
      · rename_i hempty
        have hring : c.ring = [] := List.isEmpty_iff.mp hempty
        unfold Context.countIdle
        split
        · exact ⟨fun _ => hring, fun _ => hring, fun _ => hring, fun hn => by rw [hcfg] at hn; cases hn⟩
        · exact h
      · exact h
  · exact ringWf_overrun e hcfg h
  · exact ringWf_overrun e hcfg h

theorem ringWf_stage {c : Context} (k : Nat) (h : c.ringWf) : (c.stage k).ringWf := by
  unfold Context.stage
  (repeat' split) <;> exact h

/-- A granted head leaves the ring in order: a stream that has a head is neither QUIET nor STARVED and discards
nothing. -/
theorem ringWf_granted {cfg : StreamCfg} {r : Record} {rest : List Record} {c : Context} (hcfg : c.cfg = some cfg)
    (hring : c.ring = r :: rest) (h : c.ringWf) : (c.granted cfg r rest).ringWf := by
  obtain ⟨hquiet, hstarved, hdiscard, -⟩ := h
  have hne : c.ring ≠ [] := by simp [hring]
  have hkeeps : c.discard = true → rest = [] := fun hd => absurd (hdiscard hd) hne
  unfold Context.granted
  simp only []
  (repeat' split)
  · exact ringWf_startFrame c.owed hcfg hkeeps
  · exact ringWf_of_running hcfg (by simp) (by simp) hkeeps
  · exact ringWf_of_running hcfg (by simp) (by simp) hkeeps
  · exact ringWf_of_running hcfg (fun hq => hne (hquiet hq)) (fun hs => hne (hstarved hs)) hkeeps

/-- Every move keeps the ring in order. -/
theorem Context.Move.ringWf {a b : Context} (h : a.Move b) (ha : a.ringWf) : b.ringWf := by
  cases h with
  | epoch e hcfg => exact ringWf_atEpoch e hcfg ha
  | stage => exact ringWf_stage _ ha
  | starve henabled hring =>
    refine ⟨fun _ => hring, fun _ => hring, fun _ => hring, fun hn => ?_⟩
    obtain ⟨cfg, hcfg⟩ := Option.isSome_iff_exists.mp henabled
    rw [hcfg] at hn
    cases hn
  | grant hcfg hring => exact ringWf_granted hcfg hring ha
  | tally => exact ha
  | frameDiscarded =>
    obtain ⟨hquiet, hstarved, -, hnone⟩ := ha
    exact ⟨hquiet, hstarved, (fun hd => nomatch hd), hnone⟩

theorem Context.Moves.ringWf {a b : Context} (h : a.Moves b) (ha : a.ringWf) : b.ringWf := by
  induction h with
  | refl => exact ha
  | tail _ hmove ih => exact hmove.ringWf ih

/-! ### Every context moves -/

/-- Every context makes moves of its own. -/
structure ContextsMove (s t : State) : Prop where
  all : ∀ n, (s.ctx n).Moves (t.ctx n)

theorem ContextsMove.refl (s : State) : ContextsMove s s := ⟨fun n => .refl (s.ctx n)⟩

theorem ContextsMove.trans {s t u : State} (h : ContextsMove s t) (g : ContextsMove t u) : ContextsMove s u :=
  ⟨fun n => (h.all n).trans (g.all n)⟩

theorem ContextsMove.of_ctxs {s t : State} (h : t.ctxs = s.ctxs) : ContextsMove s t := by
  constructor
  intro n
  rw [ctx_congr h n]
  exact .refl _

/-- One context moves, the others stand. -/
theorem ContextsMove.of_one {s t : State} {n : Stream} (h : (s.ctx n).Moves (t.ctx n))
    (hothers : ∀ m, m ≠ n → t.ctx m = s.ctx m) : ContextsMove s t := by
  constructor
  intro m
  by_cases hm : m = n
  · rw [hm]
    exact h
  · rw [hothers m hm]
    exact .refl _

theorem contextsMove_streamEpoch (s : State) (n : Stream) (e : Time) : ContextsMove s (s.streamEpoch n e) := by
  refine .of_one (n := n) ?_ fun m hm => ctx_streamEpoch_ne s n m e hm
  rw [ctx_streamEpoch_self]
  unfold epochCtx
  split
  · exact .refl _
  · rename_i hcfg
    exact (Context.Move.epoch e hcfg).once

theorem contextsMove_shareEpoch (s : State) : ContextsMove s s.shareEpoch := by
  constructor
  intro n
  by_cases hb : s.pace.bus = .stuck
  · rw [shareEpoch_of_stuck hb]
    exact .refl _
  · obtain ⟨hlow, hhigh⟩ : 256 ≤ s.epochFactor.1 ∧ s.epochFactor.1 ≤ 1024 := shareFactor_range ..
    rw [ctx_shareEpoch hb]
    exact (Context.Move.stage hlow hhigh).once

theorem contextsMove_deliver (s : State) (e : Time) (d : Delivery) : ContextsMove s (s.deliver e d) := by
  cases d with
  | stream n => exact contextsMove_streamEpoch s n e
  | share => exact contextsMove_shareEpoch s
  | pace => exact .of_ctxs (paceEpoch_ctxs s e)
  | event r => exact .of_ctxs (raise_ctxs ..)

theorem contextsMove_deliverAll (s : State) (e : Time) (ds : List Delivery) :
    ContextsMove s (s.deliverAll e ds) := by
  induction ds generalizing s with
  | nil => exact .refl s
  | cons d ds ih => exact (contextsMove_deliver s e d).trans (ih _)

theorem contextsMove_takeFrameEpoch (s : State) (events : List Raised) : ContextsMove s (s.takeFrameEpoch events) :=
  (ContextsMove.of_ctxs (s := s) (t := s.gridTaken events) rfl).trans (contextsMove_deliverAll ..)

theorem contextsMove_takeFieldEpoch (s : State) (h : Time) : ContextsMove s (s.takeFieldEpoch h) := by
  rw [takeFieldEpoch_eq]
  refine .trans ?_ (contextsMove_deliverAll ..)
  exact .of_ctxs rfl

theorem contextsMove_slew (s : State) (e : Int) (events : List Raised) : ContextsMove s (s.slew e events) := by
  have hnext : ContextsMove s (s.moveNext e) := .of_ctxs rfl
  cases hr : reached s.t (s.grid.slewed s.cfg e) with
  | true =>
    rw [slew_of_reached events hr]
    exact hnext.trans (contextsMove_takeFrameEpoch ..)
  | false =>
    rw [slew_of_not_reached events hr]
    exact hnext.trans (.of_ctxs (raiseAll_ctxs ..))

theorem contextsMove_lockPulse (s : State) (cr : Time) : ContextsMove s (s.lockPulse cr) := by
  have relocked (e : Int) (events : List Raised) :
      ContextsMove s (State.slew { s with grid := s.grid.relock } e events) := by
    refine .trans ?_ (contextsMove_slew ..)
    exact .of_ctxs rfl
  unfold State.lockPulse
  simp only []
  (repeat' split)
  · exact .refl s
  · exact .of_ctxs (stepAndLock_ctxs ..)
  · exact relocked ..
  · exact .of_ctxs rfl
  · exact .of_ctxs (raise_ctxs ..)
  · exact relocked ..
  · exact .of_ctxs (stepAndLock_ctxs ..)

theorem contextsMove_acceptPulse (s : State) : ContextsMove s s.acceptPulse :=
  (ContextsMove.of_ctxs (s := s) (t := s.holdPulse) rfl).trans (contextsMove_lockPulse s.holdPulse s.grid.cr)

theorem contextsMove_sampleRef (s : State) (high : Bool) : ContextsMove s (s.sampleRef high) := by
  unfold State.sampleRef
  simp only []
  (repeat' split)
  · exact .of_ctxs rfl
  · exact .of_ctxs rfl
  · exact .of_ctxs rfl
  · exact .of_ctxs rfl
  · exact .of_ctxs rfl
  · exact .of_ctxs rfl
  · exact .of_ctxs rfl
  · exact contextsMove_acceptPulse s

/-- A stream starves only where it is enabled and its ring empty (R33). -/
theorem contextsMove_starveStream {s : State} {n : Stream} (h : (s.ctx n).starves s.t = true) :
    ContextsMove s (s.starveStream n) := by
  obtain ⟨⟨⟨henabled, -⟩, hempty⟩, -⟩ : ((_ ∧ _) ∧ _) ∧ _ := by
    simpa only [Context.starves, Bool.and_eq_true] using h
  refine .of_one (n := n) ?_ fun m hm => ctx_setCtx_ne _ _ hm
  rw [State.starveStream, ctx_setCtx_self]
  exact (Context.Move.starve henabled (List.isEmpty_iff.mp hempty)).once.trans (Context.Move.tally _ _ _ _).once

theorem contextsMove_takeDue (s : State) : ContextsMove s s.takeDue := by
  constructor
  intro n
  rw [takeDue_ctx]
  exact (Context.Move.tally ..).once

/-- A grant moves the contexts of the stream served and of those that wait through it (R70, R71). -/
theorem contextsMove_grantHead {s t : State} {n : Stream} (hdue : n ∈ s.dueStreams) (h : s.grantHead n = .next t) :
    ContextsMove s t := by
  unfold State.grantHead at h
  simp only [] at h
  split at h
  · rename_i cfg r rest hcfg hring
    obtain ⟨hself, hothers, -⟩ := grantWork_spec s n cfg r rest hdue
    have hwork : ContextsMove s (s.grantWork n cfg r rest) := by
      constructor
      intro m
      by_cases hm : m = n
      · rw [hm, hself]
        exact (Context.Move.grant hcfg hring).once.trans (Context.Move.tally _ _ _ _).once
      · rw [hothers m hm]
        split
        · exact (Context.Move.tally ..).once
        · exact .refl _
    (repeat' split at h) <;> cases h <;> exact hwork.trans (.of_ctxs rfl)
  · cases h
    exact .refl s

theorem contextsMove_abandonSlot (s : State) (sl : Slot) : ContextsMove s (s.abandonSlot sl) := by
  refine .of_one (n := sl.stream) ?_ fun m hm => ctx_setCtx_ne _ _ hm
  rw [State.abandonSlot, ctx_setCtx_self]
  exact (Context.Move.tally ..).once

/-- The context of the stream whose offer is discarded (R135). -/
theorem ctx_takeDiscard (s : State) (n m : Stream) (o : Offer) : (s.takeDiscard n o).ctx m = if m = n
    then { s.ctx n with
      counts := { (s.ctx n).counts with trimmed := (s.ctx n).counts.trimmed + 1 }
      discard := if endsFrame (s.chan n).index o then false else (s.ctx n).discard }
    else s.ctx m := by
  have hsame (k : Stream) : ((s.indexOffer n o).answer n).ctx k = s.ctx k := ctx_congr (by simp) k
  unfold State.takeDiscard
  simp only []
  rw [ctx_setCtx, hsame, hsame]

theorem contextsMove_takeDiscard (s : State) (n : Stream) (o : Offer) : ContextsMove s (s.takeDiscard n o) := by
  refine .of_one (n := n) ?_ fun m hm => by rw [ctx_takeDiscard, if_neg hm]
  rw [ctx_takeDiscard, if_pos rfl]
  split
  · exact (Context.Move.frameDiscarded _).once.trans (Context.Move.tally _ _ _ _).once
  · exact (Context.Move.tally ..).once

theorem contextsMove_select (s : State) (n : Stream) : ContextsMove s (s.select n) := by
  unfold State.select
  split
  · exact .refl s
  · rename_i o _
    have hptr : ContextsMove s { s with feed := { s.feed with ptr := n + 1 } } := .of_ctxs rfl
    refine hptr.trans ?_
    cases s.judge n o with
    | hold => exact .refl _
    | unconfigured => exact .of_ctxs (takeUnconfigured_ctxs ..)
    | discard => exact contextsMove_takeDiscard _ n o
    | badLength => exact .of_ctxs (takeBadLength_ctxs ..)
    | store => exact .of_ctxs (storeOffer_ctxs ..)

/-- What a command other than a cold start does to the contexts: each makes moves of its own; or the write in progress
is completed (R141); or, in LOAD, a byte is received (R160, R170). -/
theorem exec_contexts {c : Instr} {s t : State} (h : exec c s = .next t) (hc : startsCold c = false) :
    ContextsMove s t ∨ (∃ w, s.feed.write = some w ∧ t = s.completeWrite w)
      ∨ ∃ b, s.loader.part = .load ∧ t = s.receiveByte b := by
  have same (hx : movesContexts c = false) : ContextsMove s t := .of_ctxs (exec_ctxs h hc hx)
  have byte (b : Byte) (hb : c = .imageByte b ∨ c = .requestByte b) :
      ContextsMove s t ∨ ∃ b, s.loader.part = .load ∧ t = s.receiveByte b := by
    rcases exec_byte h hb with ⟨-, rfl⟩ | rfl
    · by_cases hl : s.loader.part = .load
      · exact .inr ⟨b, hl, rfl⟩
      · exact .inl (.of_ctxs (by simp [receiveByte_requesting b hl]))
    · exact .inl (.refl _)
  cases c with
  | imageByte b => exact (byte b (.inl rfl)).imp_right .inr
  | requestByte b => exact (byte b (.inr rfl)).imp_right .inr
  | writeComplete =>
    simp only [exec, execWriteComplete] at h
    (repeat' split at h) <;> cases h
    · exact .inl (.refl _)
    · rename_i w hw
      exact .inr (.inl ⟨w, hw, rfl⟩)
    · exact .inl (.refl _)
  | frameEpoch =>
    simp only [exec, execFrameEpoch] at h
    split at h <;> cases h
    · exact .inl (contextsMove_takeFrameEpoch ..)
    · exact .inl (.refl _)
  | fieldEpoch =>
    simp only [exec, execFieldEpoch] at h
    (repeat' split at h) <;> cases h
    · exact .inl (.refl _)
    · exact .inl (contextsMove_takeFieldEpoch ..)
    · exact .inl (.refl _)
  | refPulseAccepted =>
    simp only [exec, execRefPulseAccepted] at h
    split at h <;> cases h
    · exact .inl (contextsMove_acceptPulse s)
    · exact .inl (.refl _)
  | refSampled high =>
    simp only [exec, execRefSampled] at h
    split at h <;> cases h
    · exact .inl (contextsMove_sampleRef ..)
    · exact .inl (.refl _)
  | starve n =>
    simp only [exec, execStarve] at h
    split at h <;> cases h
    · rename_i hready
      obtain ⟨-, hstarves⟩ := (Bool.and_eq_true _ _).mp hready
      exact .inl (contextsMove_starveStream hstarves)
    · exact .inl (.refl _)
  | grant =>
    simp only [exec, execGrant] at h
    (repeat' split at h)
    · cases h
      exact .inl (contextsMove_takeDue s)
    · rename_i n hchoice
      exact .inl ((contextsMove_takeDue s).trans (contextsMove_grantHead (grantChoice_due _ n hchoice) h))
    · cases h
      exact .inl (.refl _)
  | egressByte =>
    simp only [exec, execEgressByte] at h
    (repeat' split at h) <;> cases h
    · exact .inl (.refl _)
    · exact .inl (.of_ctxs rfl)
    · exact .inl (.trans (.of_ctxs (parityError_ctxs ..)) (contextsMove_abandonSlot ..))
    · exact .inl (.refl _)
  | egressStall =>
    simp only [exec, execEgressStall] at h
    (repeat' split at h) <;> cases h
    · exact .inl (.refl _)
    · rename_i sl _
      exact .inl ((contextsMove_abandonSlot s sl).trans (.of_ctxs (by simp)))
    · exact .inl (.refl _)
  | intakeSelection =>
    simp only [exec, execIntakeSelection] at h
    (repeat' split at h) <;> cases h
    · exact .inl (.refl _)
    · exact .inl (contextsMove_select ..)
    · exact .inl (.refl _)
  | _ => exact .inl (same rfl)

end Sys2Proof.Machine

namespace Sys2Proof.Machine

open Sys2Proof

/-! ### Store and link through a step -/

/-- What is kept up from a state of the same store and link is kept up. -/
theorem Upkeep.after {s u t : State} (h : Upkeep u t) (hstore : u.store = s.store) (hlink : u.link = s.link) :
    Upkeep s t := (Upkeep.of hstore hlink).trans h

theorem upkeep_takeDue (s : State) : Upkeep s s.takeDue := .of (takeDue_store s) (takeDue_link s)

theorem upkeep_acceptPulse (s : State) : Upkeep s s.acceptPulse :=
  (upkeep_lockPulse s.holdPulse s.grid.cr).after rfl rfl

theorem upkeep_releaseSlot (s : State) (sl : Slot) : Upkeep s (s.releaseSlot sl) :=
  ⟨storeUpkeep_freeChain .., .refl _⟩

theorem upkeep_followLink (s : State) : Upkeep s s.followLink := by
  unfold State.followLink
  split
  · exact .refl s
  · exact (upkeep_raise ..).after rfl rfl

theorem upkeep_takeChar (s : State) (c : RxChar) : Upkeep s (s.takeChar c) :=
  (requestWork_takeChar s c).upkeep fun h => by rwa [takeChar_buffer]

/-- In LOAD a received byte moves nothing of store or link but the receive side of MRX (R160). -/
theorem upkeep_receiveByte_loading {s : State} (b : Byte) (hl : s.loader.part = .load) :
    Upkeep s (s.receiveByte b) := by
  have hbyte : Upkeep s (s.withByte b) := (upkeep_takeChar s (.byte b)).then rfl rfl
  rcases receiveByte_load_cases b hl with h | ⟨f, pos, h⟩ | ⟨part, rs, h⟩ <;> rw [h]
  · exact hbyte
  · exact hbyte.then (by simp) (by simp)
  · exact hbyte.then (by simp) (by simp)

theorem upkeep_receiveByte (s : State) (b : Byte) : Upkeep s (s.receiveByte b) := by
  by_cases hl : s.loader.part = .load
  · exact upkeep_receiveByte_loading b hl
  · rw [receiveByte_requesting b hl]
    exact (upkeep_takeChar s _).trans
      ((requestWork_requestByte ..).upkeep fun h => requestByte_buffer _ b h)

theorem upkeep_lineErrorGap (s : State) : Upkeep s s.lineErrorGap :=
  (requestWork_lineErrorGap s).upkeep fun h => lineErrorGap_buffer s h

theorem upkeep_parserRuns (s : State) : Upkeep s s.parserRuns :=
  (requestWork_parserRuns s).upkeep fun h => (parserRuns_buffer s).trans h

/-- Every command but a cold start keeps store and link up (R153, R156, R183). -/
theorem upkeep_exec {c : Instr} {s t : State} (h : exec c s = .next t) (hc : startsCold c = false) :
    Upkeep s t := by
  have byte (b : Byte) (hb : c = .imageByte b ∨ c = .requestByte b) : Upkeep s t := by
    rcases exec_byte h hb with ⟨-, rfl⟩ | rfl
    · exact upkeep_receiveByte s b
    · exact .refl _
  cases c with
  | coldAssert => cases hc
  | powerUp => cases hc
  | imageByte b => exact byte b (.inl rfl)
  | requestByte b => exact byte b (.inr rfl)
  | coldRelease => exact .of (by simp [coldRelease_keeps h]) (by simp [coldRelease_keeps h])
  | imageStalled => exact .of (by simp [imageStalled_keeps h]) (by simp [imageStalled_keeps h])
  | starve n => exact .of (by simp [starve_keeps h]) (by simp [starve_keeps h])
  | offerPresented n length frameEnd data =>
    exact .of (by simp [offerPresented_keeps h]) (by simp [offerPresented_keeps h])
  | noticeDue => exact .of (by simp [noticeDue_keeps h]) (by simp [noticeDue_keeps h])
  | noticeStart => exact .of (by simp [noticeStart_keeps h]) (by simp [noticeStart_keeps h])
  | receiveSettled => exact .of (by simp [receiveSettled_keeps h]) (by simp [receiveSettled_keeps h])
  | startMarkEdge => exact .of (by simp [startMarkEdge_keeps h]) (by simp [startMarkEdge_keeps h])
  | dataBitSampled => exact .of (by simp [dataBitSampled_keeps h]) (by simp [dataBitSampled_keeps h])
  | powerRemoved => exact .of (by simp [powerRemoved_keeps h]) (by simp [powerRemoved_keeps h])
  | feedWithdrawn n =>
    cases h
    exact upkeep_offerFalls s n
  | offerDeasserted n =>
    cases h
    exact upkeep_offerFalls s n
  | frameEpoch =>
    simp only [exec, execFrameEpoch] at h
    split at h <;> cases h
    · exact upkeep_takeFrameEpoch ..
    · exact .refl _
  | fieldEpoch =>
    simp only [exec, execFieldEpoch] at h
    (repeat' split at h) <;> cases h
    · exact .refl _
    · exact upkeep_takeFieldEpoch ..
    · exact .refl _
  | refPulseAccepted =>
    simp only [exec, execRefPulseAccepted] at h
    split at h <;> cases h
    · exact upkeep_acceptPulse s
    · exact .refl _
  | refSampled high =>
    simp only [exec, execRefSampled] at h
    split at h <;> cases h
    · exact upkeep_sampleRef ..
    · exact .refl _
  | grant =>
    simp only [exec, execGrant] at h
    (repeat' split at h)
    · cases h
      exact upkeep_takeDue s
    · exact (upkeep_takeDue s).trans (upkeep_grantHead _ _ _ h)
    · cases h
      exact .refl _
  | egressByte =>
    simp only [exec, execEgressByte] at h
    (repeat' split at h) <;> cases h
    · exact .refl _
    · exact .of rfl rfl
    · exact (upkeep_parityError ..).trans (upkeep_abandonSlot ..)
    · exact .refl _
  | done =>
    simp only [exec, execDone] at h
    (repeat' split at h) <;> cases h
    · exact .of rfl rfl
    · exact (upkeep_releaseSlot ..).after rfl rfl
    · exact .refl _
  | egressStall =>
    simp only [exec, execEgressStall] at h
    (repeat' split at h) <;> cases h
    · exact .refl _
    · rename_i sl _
      refine Upkeep.trans ?_ (upkeep_raise ..)
      exact (upkeep_abandonSlot s sl).trans ⟨.refl _, .of rfl rfl rfl rfl⟩
    · exact .refl _
  | linkChange up =>
    simp only [exec, execLinkChange] at h
    split at h <;> cases h
    · exact (upkeep_followLink _).after rfl rfl
    · exact .of rfl rfl
  | intakeSelection =>
    simp only [exec, execIntakeSelection] at h
    (repeat' split at h) <;> cases h
    · exact .refl _
    · exact upkeep_select ..
    · exact .refl _
  | writeComplete =>
    simp only [exec, execWriteComplete] at h
    (repeat' split at h) <;> cases h
    · exact .refl _
    · exact upkeep_completeWrite ..
    · exact .refl _
  | arbitrationLost =>
    simp only [exec, execArbitrationLost] at h
    (repeat' split at h) <;> cases h
    · exact (upkeep_raise ..).after rfl rfl
    · exact .of rfl rfl
    · exact .refl _
  | noticeBiterr =>
    simp only [exec, execNoticeBiterr] at h
    (repeat' split at h) <;> cases h
    · exact .refl _
    · exact (upkeep_raiseAll ..).after rfl rfl
    · exact (upkeep_raiseAll ..).after rfl rfl
    · exact (upkeep_raiseAll ..).after rfl rfl
    · exact (upkeep_raiseAll ..).after rfl rfl
    · exact .refl _
  | noticeComplete =>
    simp only [exec, execNoticeComplete] at h
    (repeat' split at h) <;> cases h
    · exact .of rfl rfl
    · exact .of rfl rfl
    · exact (upkeep_judgeNotice ..).after rfl rfl
    · exact .refl _
  | noticeFraming =>
    simp only [exec, execNoticeFraming] at h
    split at h <;> cases h
    · exact (upkeep_raise ..).after rfl rfl
    · exact .refl _
  | busStuck =>
    simp only [exec, execBusStuck] at h
    split at h <;> cases h
    · refine Upkeep.trans ?_ (upkeep_raise ..)
      exact ⟨.refl _, .of rfl rfl rfl rfl⟩
    · exact .refl _
  | busRestored =>
    simp only [exec, execBusRestored] at h
    split at h <;> cases h
    · exact (upkeep_raise ..).after rfl rfl
    · exact .refl _
  | lineError =>
    simp only [exec, execLineError] at h
    (repeat' split at h) <;> cases h
    · exact upkeep_takeChar ..
    · exact (upkeep_takeChar ..).trans (upkeep_lineErrorGap _)
    · exact .refl _
  | responseComplete =>
    simp only [exec, execResponseComplete] at h
    split at h <;> cases h
    · refine Upkeep.trans ?_ (upkeep_parserRuns _)
      exact ⟨.refl _, .of rfl rfl rfl rfl⟩
    · exact .refl _
  | discardEnd =>
    simp only [exec, execDiscardEnd] at h
    split at h <;> cases h
    · exact ⟨.refl _, .of rfl rfl rfl rfl⟩
    · exact .refl _
  | requestExpired =>
    simp only [exec, execRequestExpired] at h
    split at h <;> cases h
    · exact ⟨.refl _, .of rfl rfl rfl rfl⟩
    · exact .refl _

theorem storeUpkeep_writeBytes {chain : List Block} {x : Nat} {bs : List Byte} {st st' : Store}
    (h : st.writeBytes chain x bs = some st') : StoreUpkeep st st' := by
  obtain ⟨hframe, hbytes, hparity⟩ := writeBytes_keeps h
  refine storeUpkeep_wb st st' hframe fun hwf => ?_
  simp only [Store.wf, Bool.and_eq_true] at hwf ⊢
  obtain ⟨⟨hb, hp⟩, hlinks⟩ := hwf
  exact ⟨⟨hbytes hb, hparity hp⟩, by rw [hframe]; exact hlinks⟩

/-- The bytes that a write reads at a tick keep the store up (R140). -/
theorem storeUpkeep_writeTick {s u : State} (h : s.writeTick = some u) : StoreUpkeep s.store u.store := by
  unfold State.writeTick at h
  split at h
  · cases h
    exact .refl _
  · simp only [] at h
    split at h
    · cases h
    · rename_i hwrite
      cases h
      exact storeUpkeep_writeBytes hwrite

theorem upkeep_clock {s t : State} (h : s.clock = some t) : Upkeep s t := by
  obtain ⟨-, -, -, -, -, -, -, -, -, -, -, -, hqueue, -, hlatches, hbuffer, -⟩ := clock_keeps h
  obtain ⟨u, hwrite, -, -, hstore, -⟩ := clock_samples h
  refine ⟨?_, .of (by rw [hlatches]) (by rw [hlatches]) hqueue hbuffer⟩
  rw [hstore]
  exact storeUpkeep_writeTick hwrite

theorem upkeep_heldTick (s : State) : Upkeep s s.heldTick := ⟨.refl _, .of rfl rfl rfl rfl⟩

/-! ### The configuration and the feed side through a step -/

/-- The commands that bring a byte on MRX. -/
def bringsByte : Instr → Bool
  | .imageByte _ | .requestByte _ => true
  | _ => false

/-- The commands that can move Feed Intake without a cold start. -/
def movesFeed : Instr → Bool
  | .offerPresented _ _ _ _ | .offerDeasserted _ | .feedWithdrawn _ | .intakeSelection | .writeComplete
  | .powerRemoved => true
  | _ => false

/-- What a command other than a cold start leaves of the PART values and of Feed Intake. -/
theorem exec_cfg_feed {c : Instr} {s t : State} (h : exec c s = .next t) (hc : startsCold c = false) :
    (bringsByte c = false → t.cfg = s.cfg) ∧ (movesFeed c = false → t.feed = s.feed) := by
  cases c with
  | coldAssert => cases hc
  | powerUp => cases hc
  | coldRelease => simp [coldRelease_keeps h]
  | imageByte b => simp [imageByte_keeps h, bringsByte]
  | imageStalled => simp [imageStalled_keeps h]
  | frameEpoch => simp [frameEpoch_keeps h]
  | fieldEpoch => simp [fieldEpoch_keeps h]
  | refPulseAccepted => simp [refPulseAccepted_keeps h]
  | starve n => simp [starve_keeps h]
  | grant => simp [grant_keeps h]
  | egressByte => simp [egressByte_keeps h]
  | done => simp [done_keeps h]
  | egressStall => simp [egressStall_keeps h]
  | linkChange up => simp [linkChange_keeps h]
  | offerPresented n length frameEnd data => simp [offerPresented_keeps h, movesFeed]
  | intakeSelection => simp [intakeSelection_keeps h, movesFeed]
  | writeComplete => simp [writeComplete_keeps h, movesFeed]
  | feedWithdrawn n => simp [feedWithdrawn_keeps h, movesFeed]
  | noticeDue => simp [noticeDue_keeps h]
  | noticeStart => simp [noticeStart_keeps h]
  | arbitrationLost => simp [arbitrationLost_keeps h]
  | noticeBiterr => simp [noticeBiterr_keeps h]
  | noticeComplete => simp [noticeComplete_keeps h]
  | noticeFraming => simp [noticeFraming_keeps h]
  | receiveSettled => simp [receiveSettled_keeps h]
  | busStuck => simp [busStuck_keeps h]
  | busRestored => simp [busRestored_keeps h]
  | requestByte b => simp [requestByte_keeps h, bringsByte]
  | lineError => simp [lineError_keeps h]
  | responseComplete => simp [responseComplete_keeps h]
  | discardEnd => simp [discardEnd_keeps h]
  | requestExpired => simp [requestExpired_keeps h]
  | startMarkEdge => simp [startMarkEdge_keeps h]
  | dataBitSampled => simp [dataBitSampled_keeps h]
  | refSampled high => simp [refSampled_keeps h]
  | offerDeasserted n => simp [offerDeasserted_keeps h, movesFeed]
  | powerRemoved => simp [powerRemoved_keeps h, movesFeed]

theorem exec_feed {c : Instr} {s t : State} (h : exec c s = .next t) (hc : startsCold c = false)
    (hf : movesFeed c = false) : t.feed = s.feed := (exec_cfg_feed h hc).2 hf

/-- In RUN no command but a cold start writes a PART value (R163). -/
theorem exec_cfg_of_run {c : Instr} {s t : State} (h : exec c s = .next t) (hc : startsCold c = false)
    (hr : s.loader.part = .run) : t.cfg = s.cfg := by
  have byte (b : Byte) (hb : c = .imageByte b ∨ c = .requestByte b) : t.cfg = s.cfg := by
    rcases exec_byte h hb with ⟨-, rfl⟩ | rfl
    · simp [receiveByte_requesting b (show s.loader.part ≠ .load by simp [hr])]
    · rfl
  obtain ⟨hcfg, -⟩ := exec_cfg_feed h hc
  cases c with
  | imageByte b => exact byte b (.inl rfl)
  | requestByte b => exact byte b (.inr rfl)
  | _ => exact hcfg rfl

/-! ### What lasts through RUN -/

/-- From `s` to `t` no configured value changes, and store and link are kept up. -/
structure Lasts (s t : State) : Prop where
  cfg : t.cfg = s.cfg
  ctx : ∀ n, (t.ctx n).cfg = (s.ctx n).cfg
  upkeep : Upkeep s t

theorem Lasts.refl (s : State) : Lasts s s := ⟨rfl, fun _ => rfl, .refl s⟩

theorem completeWrite_ctx_cfg (s : State) (w : WriteRec) (n : Stream) :
    ((s.completeWrite w).ctx n).cfg = (s.ctx n).cfg := by
  rw [completeWrite_ctx]
  (repeat' split) <;> rfl

/-- In RUN no command but a cold start writes a configured value of a stream (R22). -/
theorem exec_ctx_cfg_of_run {c : Instr} {s t : State} (h : exec c s = .next t) (hc : startsCold c = false)
    (hr : s.loader.part = .run) (n : Stream) : (t.ctx n).cfg = (s.ctx n).cfg := by
  rcases exec_contexts h hc with hmove | ⟨w, -, rfl⟩ | ⟨b, hload, -⟩
  · exact (hmove.all n).continues.cfg
  · exact completeWrite_ctx_cfg s w n
  · rw [hr] at hload
    cases hload

theorem lasts_exec {c : Instr} {s t : State} (hr : s.loader.part = .run) (h : exec c s = .next t)
    (hc : startsCold c = false) : Lasts s t :=
  ⟨exec_cfg_of_run h hc hr, exec_ctx_cfg_of_run h hc hr, upkeep_exec h hc⟩

/-- A step from RUN to RUN is no cold start, so what it finds configured or retired lasts (R22, R163, R153, R156). -/
theorem lasts_step {s t : State} (hr : s.loader.part = .run) (h : step s = .next t) (ht : t.loader.part = .run) :
    Lasts s t := by
  refine step_inv (P := fun u => u.loader.part = .run → Lasts s u) h (fun u l f hu hrun => ?_) ?_ ?_ ?_
    (fun _ => .refl s) ht
  · obtain ⟨hcfg, hctx, hstore, hlink⟩ := hu hrun
    exact ⟨hcfg, hctx, hstore, hlink⟩
  · intro c u hu hx hrun
    rw [hu] at hx
    let begun : State := { s with pending := u.pending }
    suffices hb : Lasts begun t from ⟨hb.cfg, hb.ctx, hb.upkeep.st, hb.upkeep.l⟩
    cases hc : startsCold c with
    | true =>
      rcases exec_coldStart hx hc with rfl | ⟨-, rfl⟩
      · cases hrun
      · exact .refl _
    | false => exact lasts_exec (s := begun) hr hx hc
  · intro _ hk _
    obtain ⟨-, -, -, -, hcfg, -, hctx, -⟩ := clock_keeps hk
    exact ⟨hcfg, fun n => by rw [hctx n]; rfl, upkeep_clock hk⟩
  · rintro _ rfl _
    exact ⟨rfl, fun _ => rfl, upkeep_heldTick s⟩

/-- Settles O24. -/
theorem configurationAndRetirementLastThroughRun : Obligations.ConfigurationAndRetirementLastThroughRun := by
  unfold Obligations.ConfigurationAndRetirementLastThroughRun
  intro s t h hs ht
  obtain ⟨hcfg, hctx, hstore, hlink⟩ := lasts_step hs h ht
  exact ⟨⟨hcfg, hctx⟩, hstore.ret, hlink.br, hlink.se, hstore.rset⟩

end Sys2Proof.Machine

namespace Sys2Proof.Machine

open Sys2Proof

/-! ### The write path through a step -/

/-- Row 8 of R133 needs an enabled stream with room in its ring. -/
theorem judge_store {s : State} {n : Stream} {o : Offer} (h : s.judge n o = .store) :
    ∃ cfg, (s.ctx n).cfg = some cfg ∧ (s.ctx n).ring.length < cfg.depth := by
  unfold State.judge at h
  (repeat' split at h) <;> try cases h
  exact ⟨_, ‹_›, by omega⟩

theorem offerPresented_write {s t : State} {n : Stream} {length : BitVec 16} {frameEnd : Bool} {data : List Byte}
    (h : exec (.offerPresented n length frameEnd data) s = .next t) : t.feed.write = s.feed.write := by
  simp only [exec, execOfferPresented] at h
  (repeat' split at h) <;> cases h <;> rfl

theorem powerRemoved_write {s t : State} (h : exec .powerRemoved s = .next t) : t.feed.write = s.feed.write := by
  simp only [exec, execPowerRemoved] at h
  split at h <;> cases h <;> rfl

/-- A selection leaves the write path, or, finding it FREE, begins a write that R133 lets store (R131, R140). -/
theorem intakeSelection_write {s t : State} (h : exec .intakeSelection s = .next t) : t.feed.write = s.feed.write
    ∨ ∃ o w, s.feed.write = none ∧ s.judge w.stream o = .store ∧ t.feed.write = some w := by
  simp only [exec, execIntakeSelection] at h
  (repeat' split at h) <;> cases h
  · exact .inl rfl
  · rename_i hready _ n _
    have hfree : s.feed.write = none := by
      simp only [State.selectReady, Bool.and_eq_true, Option.isNone_iff_eq_none] at hready
      obtain ⟨⟨-, hfree⟩, -⟩ := hready
      exact hfree
    rcases select_write s n with hsame | ⟨o, w, -, hjudge, hwrite, rfl⟩
    · exact .inl hsame
    · exact .inr ⟨o, w, hfree, hjudge, hwrite⟩
  · exact .inl rfl

/-- The write path after a command: as it was, or FREE, or, FREE before, with a write that R133 lets store. -/
theorem exec_write {c : Instr} {s t : State} (h : exec c s = .next t) (hc : startsCold c = false) :
    t.feed.write = s.feed.write ∨ t.feed.write = none
      ∨ ∃ o w, s.feed.write = none ∧ s.judge w.stream o = .store ∧ t.feed.write = some w := by
  have same (hf : movesFeed c = false) : t.feed.write = s.feed.write := by rw [exec_feed h hc hf]
  cases c with
  | offerPresented n length frameEnd data => exact .inl (offerPresented_write h)
  | powerRemoved => exact .inl (powerRemoved_write h)
  | offerDeasserted n =>
    cases h
    exact (offerFalls_write s n).imp_right .inl
  | feedWithdrawn n =>
    cases h
    exact (offerFalls_write s n).imp_right .inl
  | writeComplete =>
    simp only [exec, execWriteComplete] at h
    (repeat' split at h) <;> cases h
    · exact .inl rfl
    · exact .inr (.inl rfl)
    · exact .inl rfl
  | intakeSelection => exact (intakeSelection_write h).imp_right .inr
  | _ => exact .inl (same rfl)

/-- The write in progress after a tick is for the stream it was for (R140). -/
theorem clock_write {s t : State} (h : s.clock = some t) : t.feed.write.map (·.stream) = s.feed.write.map (·.stream) := by
  obtain ⟨u, hwrite, -, hfeed, -⟩ := clock_samples h
  rw [hfeed]
  unfold State.writeTick at hwrite
  split at hwrite
  · cases hwrite
    rfl
  · rename_i w hw
    simp only [] at hwrite
    split at hwrite <;> cases hwrite
    simp only [hw, Option.map_some]

theorem completeWrite_write (s : State) (w : WriteRec) : (s.completeWrite w).feed.write = none := rfl

/-! ### The record being written -/

theorem writing_of_none {s : State} (h : s.feed.write = none) (n : Stream) : s.writing n = 0 := by
  unfold State.writing
  rw [h]

theorem writing_of_some {s : State} {w : WriteRec} (h : s.feed.write = some w) (n : Stream) :
    s.writing n = if w.stream = n then 1 else 0 := by
  unfold State.writing
  rw [h]

/-- The record to come turns on the stream of the write alone. -/
theorem writing_congr {s t : State} (h : t.feed.write.map (·.stream) = s.feed.write.map (·.stream)) (n : Stream) :
    t.writing n = s.writing n := by
  cases hs : s.feed.write with
  | none =>
    rw [hs, Option.map_none, Option.map_eq_none_iff] at h
    rw [writing_of_none h, writing_of_none hs]
  | some w =>
    rw [hs, Option.map_some, Option.map_eq_some_iff] at h
    obtain ⟨w', hw', hstream⟩ := h
    rw [writing_of_some hw', writing_of_some hs, hstream]

/-! ### Every step keeps the rings within their depth -/

theorem ringFits_of_cold {t : State} (h : ∀ n, t.ctx n = .cold) (n : Stream) : t.ringFits n := by
  intro cfg hcfg
  rw [h n] at hcfg
  cases hcfg

/-- A ring fits that is no longer than it was, with no more to come. -/
theorem State.ringFits.of_continues {s t : State} {n : Stream} (hs : s.ringFits n)
    (hc : Continues (s.ctx n) (t.ctx n)) (hw : t.writing n ≤ s.writing n) : t.ringFits n := by
  intro cfg hcfg
  rw [hc.cfg] at hcfg
  have hfits := hs cfg hcfg
  have hring := hc.ring
  omega

/-- A write that R133 lets store has room (R133, R137). -/
theorem ringFits_of_write {s t : State} {w : WriteRec} {o : Offer} (hs : ∀ n, s.ringFits n)
    (hc : ∀ n, Continues (s.ctx n) (t.ctx n)) (hjudge : s.judge w.stream o = .store)
    (hwrite : t.feed.write = some w) (n : Stream) : t.ringFits n := by
  by_cases hn : w.stream = n
  · subst hn
    obtain ⟨cfg, hcfg, hroom⟩ := judge_store hjudge
    have hring := (hc w.stream).ring
    intro cfg' hcfg'
    rw [(hc w.stream).cfg, hcfg] at hcfg'
    cases hcfg'
    rw [writing_of_some hwrite, if_pos rfl]
    omega
  · refine (hs n).of_continues (hc n) ?_
    rw [writing_of_some hwrite, if_neg hn]
    exact Nat.zero_le _

/-- At a completion the record to come joins the ring, or its chain is freed (R141). -/
theorem ringFits_completeWrite {s : State} {w : WriteRec} (hwrite : s.feed.write = some w) (hs : ∀ n, s.ringFits n)
    (n : Stream) : (s.completeWrite w).ringFits n := by
  intro cfg hcfg
  have hfits := hs n cfg (completeWrite_ctx_cfg s w n ▸ hcfg)
  rw [writing_of_some hwrite] at hfits
  rw [writing_of_none (completeWrite_write s w), completeWrite_ctx]
  by_cases hn : n = w.stream
  · subst hn
    rw [if_pos rfl] at hfits ⊢
    split
    · exact Nat.le_of_succ_le hfits
    · simpa [Context.arrive] using hfits
  · rw [if_neg hn]
    exact Nat.le_trans (Nat.le_add_right _ _) hfits

/-- RUN entry enables empty rings of depth 2 at least (R23, R164). -/
theorem ringFits_loadByte {s : State} {b : Byte} (hl : s.loader.part = .load) (hs : ∀ n, s.ringFits n) (n : Stream) :
    (s.receiveByte b).ringFits n := by
  have hw : (s.receiveByte b).writing n = s.writing n := writing_congr (by rw [receiveByte_feed]) n
  rcases loadByte_ctx s b hl n with hctx | ⟨cfg, -, hdepth, hctx⟩
  · exact (hs n).of_continues (hctx ▸ .refl _) hw.le
  · intro cfg' hcfg'
    rw [hctx] at hcfg' ⊢
    cases hcfg'
    have hone : (s.receiveByte b).writing n ≤ 1 := by
      unfold State.writing
      (repeat' split) <;> omega
    have hring : ((s.ctx n).enable cfg).ring.length = 0 := rfl
    omega

theorem ringFits_exec {c : Instr} {s t : State} (hs : ∀ n, s.ringFits n) (h : exec c s = .next t) (n : Stream) :
    t.ringFits n := by
  cases hc : startsCold c with
  | true =>
    rcases exec_coldStart h hc with rfl | ⟨-, rfl⟩
    · exact ringFits_of_cold (ctx_coldStart s) n
    · exact hs n
  | false =>
    rcases exec_contexts h hc with hmove | ⟨w, hwrite, rfl⟩ | ⟨b, hload, rfl⟩
    · have hcont (m : Stream) : Continues (s.ctx m) (t.ctx m) := (hmove.all m).continues
      rcases exec_write h hc with hsame | hnone | ⟨o, w, -, hjudge, hwrite⟩
      · exact (hs n).of_continues (hcont n) (writing_congr (by rw [hsame]) n).le
      · exact (hs n).of_continues (hcont n) (by rw [writing_of_none hnone]; exact Nat.zero_le _)
      · exact ringFits_of_write hs hcont hjudge hwrite n
    · exact ringFits_completeWrite hwrite hs n
    · exact ringFits_loadByte hload hs n

theorem continues_clock {s t : State} (h : s.clock = some t) (n : Stream) : Continues (s.ctx n) (t.ctx n) := by
  obtain ⟨-, -, -, -, -, -, hctx, -⟩ := clock_keeps h
  rw [hctx n]
  exact .of rfl le_rfl rfl rfl rfl

/-- Every step keeps the rings within their depth (R24, R137). -/
theorem ringFits_step {s t : State} (hs : ∀ n, s.ringFits n) (h : step s = .next t) : ∀ n, t.ringFits n := by
  refine step_inv (P := fun u => ∀ n, u.ringFits n) h (fun u l f hu => hu) ?_ ?_ ?_ hs
  · intro c u hu hx
    rw [hu] at hx
    exact ringFits_exec (s := { s with pending := u.pending }) hs hx
  · intro _ hk n
    exact (hs n).of_continues (continues_clock hk n) (writing_congr (clock_write hk) n).le
  · rintro _ rfl
    exact hs

/-! ### Every step keeps the rings in order -/

/-- The write in progress is for an enabled stream, and each ring agrees with its stream's state. -/
structure RingsOrdered (s : State) : Prop where
  write : s.writeEnabled
  ring : ∀ n, (s.ctx n).ringWf

theorem writeEnabled_of_none {s : State} (h : s.feed.write = none) : s.writeEnabled := by
  intro w hw
  rw [h] at hw
  cases hw

/-- A write goes on being for an enabled stream. -/
theorem State.writeEnabled.of_stream {s t : State} (hs : s.writeEnabled)
    (hw : t.feed.write.map (·.stream) = s.feed.write.map (·.stream))
    (hc : ∀ n, (s.ctx n).cfg.isSome = true → (t.ctx n).cfg.isSome = true) : t.writeEnabled := by
  intro w ht
  rw [ht, Option.map_some, eq_comm, Option.map_eq_some_iff] at hw
  obtain ⟨w', hs', hstream⟩ := hw
  exact hc _ (hstream ▸ hs w' hs')

/-- A record arrives at an enabled stream that discards nothing: the stream is then neither QUIET nor STARVED (R27). -/
theorem ringWf_arrive {c : Context} (r : Record) (henabled : c.cfg.isSome = true) (hdiscard : c.discard = false) :
    (c.arrive r).ringWf := by
  obtain ⟨cfg, hcfg⟩ := Option.isSome_iff_exists.mp henabled
  refine ringWf_of_running (c := c.arrive r) hcfg ?_ ?_ fun hd => ?_
  · unfold Context.arrive
    cases hst : c.st <;> simp
  · unfold Context.arrive
    cases hst : c.st <;> simp
  · rw [show (c.arrive r).discard = c.discard from rfl, hdiscard] at hd
    cases hd

theorem ringWf_enable (cfg : StreamCfg) (c : Context) : (c.enable cfg).ringWf :=
  ⟨fun _ => rfl, fun _ => rfl, fun _ => rfl, fun h => by cases h⟩

/-- A completed write finds an enabled stream, and fills no ring that is to stay empty (R36, R141). -/
theorem RingsOrdered.completeWrite {s : State} {w : WriteRec} (hs : RingsOrdered s) (hwrite : s.feed.write = some w) :
    RingsOrdered (s.completeWrite w) := by
  refine ⟨writeEnabled_of_none (completeWrite_write s w), fun n => ?_⟩
  obtain ⟨hquiet, hstarved, hempty, hnone⟩ := id (hs.ring n)
  rw [completeWrite_ctx]
  split
  · rename_i hn
    split
    · rename_i hdiscard
      exact ⟨hquiet, hstarved, fun _ => hempty hdiscard, hnone⟩
    · rename_i hdiscard
      exact ringWf_arrive _ (hn ▸ hs.write w hwrite) (Bool.not_eq_true _ ▸ hdiscard)
  · exact hs.ring n

theorem RingsOrdered.loadByte {s : State} (b : Byte) (hs : RingsOrdered s) (hl : s.loader.part = .load) :
    RingsOrdered (s.receiveByte b) := by
  constructor
  · refine hs.write.of_stream (by rw [receiveByte_feed]) fun n henabled => ?_
    rcases loadByte_ctx s b hl n with hctx | ⟨cfg, -, -, hctx⟩ <;> rw [hctx]
    · exact henabled
    · rfl
  · intro n
    rcases loadByte_ctx s b hl n with hctx | ⟨cfg, -, -, hctx⟩ <;> rw [hctx]
    · exact hs.ring n
    · exact ringWf_enable cfg (s.ctx n)

theorem ringsOrdered_coldStart (s : State) : RingsOrdered s.coldStart :=
  ⟨writeEnabled_of_none rfl, fun n => by rw [ctx_coldStart]; exact ringWf_cold⟩

theorem RingsOrdered.exec {c : Instr} {s t : State} (hs : RingsOrdered s) (h : exec c s = .next t) :
    RingsOrdered t := by
  cases hc : startsCold c with
  | true =>
    rcases exec_coldStart h hc with rfl | ⟨-, rfl⟩
    · exact ringsOrdered_coldStart s
    · exact hs
  | false =>
    rcases exec_contexts h hc with hmove | ⟨w, hwrite, rfl⟩ | ⟨b, hload, rfl⟩
    · have hcfg (n : Stream) : (t.ctx n).cfg = (s.ctx n).cfg := (hmove.all n).continues.cfg
      refine ⟨?_, fun n => (hmove.all n).ringWf (hs.ring n)⟩
      rcases exec_write h hc with hsame | hnone | ⟨o, w, -, hjudge, hwrite⟩
      · exact hs.write.of_stream (by rw [hsame]) fun n => by rw [hcfg]; exact id
      · exact writeEnabled_of_none hnone
      · obtain ⟨cfg, hsome, -⟩ := judge_store hjudge
        intro w' hw'
        obtain rfl : w = w' := Option.some.inj (hwrite.symm.trans hw')
        rw [hcfg, hsome]
        rfl
    · exact hs.completeWrite hwrite
    · exact hs.loadByte b hload

theorem RingsOrdered.clock {s t : State} (hs : RingsOrdered s) (h : s.clock = some t) : RingsOrdered t := by
  obtain ⟨-, -, -, -, -, -, hctx, -⟩ := clock_keeps h
  refine ⟨hs.write.of_stream (clock_write h) fun n => ?_, fun n => ?_⟩
  · rw [hctx n]
    exact id
  · rw [hctx n]
    exact hs.ring n

/-- Every step keeps the rings in order (2.3, R26, R36, R133). -/
theorem ringsOrdered_step {s t : State} (hs : RingsOrdered s) (h : step s = .next t) : RingsOrdered t := by
  refine step_inv (P := RingsOrdered) h (fun u l f hu => ⟨hu.write, hu.ring⟩) ?_ ?_ ?_ hs
  · intro c u hu hx
    rw [hu] at hx
    exact RingsOrdered.exec (s := { s with pending := u.pending }) ⟨hs.write, hs.ring⟩ hx
  · intro _ hk
    exact hs.clock hk
  · rintro _ rfl
    exact ⟨hs.write, hs.ring⟩

/-- Settles O25. -/
theorem ringsStayWithinTheirDepth : Obligations.RingsStayWithinTheirDepth := by
  unfold Obligations.RingsStayWithinTheirDepth
  refine ⟨fun s t hs h => ringFits_step hs h, fun s t _ hwrite hring h => ?_⟩
  obtain ⟨hwrite', hring'⟩ := ringsOrdered_step ⟨hwrite, hring⟩ h
  exact ⟨hwrite', hring'⟩

end Sys2Proof.Machine

namespace Sys2Proof.Machine

open Sys2Proof

/-! ### Starvation -/

/-- A starved stream's context (R33, R53). -/
theorem ctx_starveStream_self (s : State) (n : Stream) : (s.starveStream n).ctx n = { s.ctx n with
    st := .starved, starveCounted := true, justReached := false, counts := { (s.ctx n).counts with
      starvedFrames := if (s.ctx n).starveCounted = true then (s.ctx n).counts.starvedFrames
        else (s.ctx n).counts.starvedFrames + 1 } } := by
  unfold State.starveStream
  rw [ctx_setCtx_self]
  cases (s.ctx n).starveCounted <;> rfl

theorem ctx_starveStream_ne (s : State) {n m : Stream} (h : m ≠ n) : (s.starveStream n).ctx m = s.ctx m :=
  ctx_setCtx_ne _ _ h

/-- A starvation keeps of the egress blocks all but the starve set. -/
theorem egress_starveStream (s : State) (n : Stream) :
    (s.starveStream n).egress = { s.egress with starve := setBit s.egress.starve n } := rfl

/-- Settles O19. -/
theorem starvationIsCountedOncePerFrame : Obligations.StarvationIsCountedOncePerFrame := by
  unfold Obligations.StarvationIsCountedOncePerFrame
  intro s n hlive hcfg hst hring hreached
  have hstarves : (s.ctx n).starves s.t = true := by
    simp [Context.starves, Context.enabled, hcfg, hst, hring, hreached]
  have hexec : exec (.starve n) s = .next (s.starveStream n) := by
    simp only [exec, execStarve, hlive, hstarves, Bool.and_self, if_true]
  refine ⟨_, hexec, ctx_starveStream_self s n, fun m hm => ctx_starveStream_ne s hm, fun m => ?_, rfl⟩
  rw [egress_starveStream]
  exact setBit_getLsbD ..

/-! ### A stream epoch by what it does -/

/-- A frame start, its window and capped flag written out (R28, R46, R47). -/
theorem startFrame_eq (cfg : StreamCfg) (e : Time) (c : Context) : startFrame cfg e c = { c with
    base := e, iNext := 0, ka := c.ks, idle := 0, starveCounted := false, st := .sending, tNext := after e cfg.o,
    justReached := false,
    wEff := if cfg.cls = .fixed then cfg.w else min (ceilDiv (cfg.w * c.ks) 256) cfg.wCap,
    capped := decide (cfg.cls = .flex ∧ cfg.wCap < ceilDiv (cfg.w * c.ks) 256) } := by
  unfold startFrame effectiveWindow cappedAt stretched
  cases cfg.cls <;> simp

theorem headStarts_cons {r : Record} {rest : List Record} (h : r.index = 0) : headStarts (r :: rest) = true :=
  decide_eq_true h

theorem headStarts_nil : headStarts [] = false := rfl

theorem atEpoch_quiet (cfg : StreamCfg) (e : Time) {c : Context} (h : c.st = .quiet) : c.atEpoch cfg e = c := by
  simp only [Context.atEpoch, h]

theorem atEpoch_primed (cfg : StreamCfg) (e : Time) {c : Context} (h : c.st = .primed) :
    c.atEpoch cfg e = startFrame cfg e c := by
  simp only [Context.atEpoch, h]

/-- A DRAINED stream whose head is a frame-start record starts a frame (R30). -/
theorem atEpoch_drained_start (cfg : StreamCfg) (e : Time) {c : Context} (h : c.st = .drained)
    (hhead : headStarts c.ring = true) : c.atEpoch cfg e = startFrame cfg e c := by
  simp only [Context.atEpoch, h, hhead, if_true]

/-- A DRAINED stream whose ring is empty counts an idle epoch (R31). -/
theorem atEpoch_drained_empty (cfg : StreamCfg) (e : Time) {c : Context} (h : c.st = .drained) (hring : c.ring = []) :
    c.atEpoch cfg e = c.countIdle cfg := by
  simp [Context.atEpoch, h, hring, headStarts_nil]

/-- At an unfinished frame the epoch is an overrun (R34). -/
theorem atEpoch_overrun (cfg : StreamCfg) (e : Time) {c : Context} (h : c.st = .sending ∨ c.st = .starved) :
    c.atEpoch cfg e = c.overrun cfg e := by
  rcases h with h | h <;> simp only [Context.atEpoch, h]

theorem unfinished_of {c : Context} (h : c.st = .sending ∨ c.st = .starved) : c.unfinished = true := by
  rcases h with h | h <;> simp [Context.unfinished, h]

theorem not_unfinished_of {c : Context} (h : c.st = .quiet ∨ c.st = .primed ∨ c.st = .drained) :
    c.unfinished = false := by
  rcases h with h | h | h <;> simp [Context.unfinished, h]

theorem ctx_streamEpoch_of_cfg {s : State} {n : Stream} {cfg : StreamCfg} (e : Time) (hcfg : (s.ctx n).cfg = some cfg) :
    (s.streamEpoch n e).ctx n = (s.ctx n).atEpoch cfg e := by
  rw [ctx_streamEpoch_self, epochCtx, hcfg]

/-- Without an overrun a stream epoch works on its context only (R30). -/
theorem streamEpoch_of_finished {s : State} {n : Stream} {cfg : StreamCfg} (e : Time) (hcfg : (s.ctx n).cfg = some cfg)
    (h : (s.ctx n).unfinished = false) : s.streamEpoch n e = s.setCtx n ((s.ctx n).atEpoch cfg e) := by
  simp [State.streamEpoch, hcfg, Context.trimsAt, Context.owesAt, h]

/-- A first overrun under FINISH works on its context and raises OVERRUN_FINISH (R55). -/
theorem streamEpoch_of_owes {s : State} {n : Stream} {cfg : StreamCfg} (e : Time) (hcfg : (s.ctx n).cfg = some cfg)
    (hst : (s.ctx n).st = .sending ∨ (s.ctx n).st = .starved) (hpolicy : cfg.policy = .finish)
    (howing : (s.ctx n).owing = false) : s.streamEpoch n e
      = (s.setCtx n { s.ctx n with owing := true, owed := e }).raise .overrunFinish n.val (s.ctx n).iNext := by
  have hctx : (s.ctx n).atEpoch cfg e = { s.ctx n with owing := true, owed := e } := by
    rw [atEpoch_overrun cfg e hst]
    simp only [Context.overrun, hpolicy, howing]
  simp [State.streamEpoch, hcfg, Context.trimsAt, Context.owesAt, unfinished_of hst, hpolicy, howing, hctx]

/-- A context put back as it stands leaves the state as it is. -/
theorem setCtx_ctx (s : State) (n : Stream) : s.setCtx n (s.ctx n) = s := by
  refine state_eq rfl rfl rfl rfl rfl rfl (ctxs_eq fun m => ?_) rfl rfl rfl rfl rfl rfl rfl rfl rfl
  rw [ctx_setCtx]
  split
  · next h => rw [h]
  · rfl

/-- Settles O20. -/
theorem streamEpochActsByState : Obligations.StreamEpochActsByState := by
  unfold Obligations.StreamEpochActsByState
  intro s n cfg e hcfg c t wide started
  have hself : t.ctx n = c.atEpoch cfg e := ctx_streamEpoch_of_cfg e hcfg
  have hstarted : startFrame cfg e c = started := startFrame_eq cfg e c
  refine ⟨fun hst => ?_, fun hst => ?_, fun r rest hst hring hindex => ?_, fun hst hring => ?_, fun hst => ?_,
    fun hst hpolicy howing => ?_, fun m hm => ctx_streamEpoch_ne s n m e hm⟩
  · have ht : t = s.setCtx n (c.atEpoch cfg e) := streamEpoch_of_finished e hcfg (not_unfinished_of (.inl hst))
    rw [ht, atEpoch_quiet cfg e hst]
    exact setCtx_ctx s n
  · rw [hself, atEpoch_primed cfg e hst, hstarted]
  · have hhead : headStarts c.ring = true := by
      rw [hring]
      exact headStarts_cons hindex
    rw [hself, atEpoch_drained_start cfg e hst hhead, hstarted]
  · rw [hself, atEpoch_drained_empty cfg e hst hring]
    rfl
  · have ht : t = s.setCtx n (c.atEpoch cfg e) := streamEpoch_of_finished e hcfg (not_unfinished_of hst)
    rw [ht]
    rfl
  · have ht : t = (s.setCtx n { c with owing := true, owed := e }).raise .overrunFinish n.val c.iNext :=
      streamEpoch_of_owes e hcfg hst hpolicy howing
    rw [ht]
    refine ⟨by simp, .of_same (raises_raise ..) rfl rfl rfl, ?_⟩
    apply state_eq <;> simp [raise_link]

/-! ### The TRIM discard -/

/-- A ring without a frame-end record is cut whole (R35 stage 1). -/
theorem cutFrame_of_no_end {ring : List Record} (h : ∀ r ∈ ring, r.frameEnd = false) :
    cutFrame ring = (ring, [], false) := by
  induction ring with
  | nil => rfl
  | cons r rs ih =>
    simp [cutFrame, h r List.mem_cons_self, ih fun x hx => h x (List.mem_cons_of_mem _ hx)]

/-- A ring is cut behind its first frame-end record (R35 stage 1). -/
theorem cutFrame_of_end {before keep : List Record} {last : Record} (hlast : last.frameEnd = true)
    (h : ∀ r ∈ before, r.frameEnd = false) :
    cutFrame (before ++ [last] ++ keep) = (before ++ [last], keep, true) := by
  induction before with
  | nil => simp [cutFrame, hlast]
  | cons r rs ih =>
    have ih := ih fun x hx => h x (List.mem_cons_of_mem _ hx)
    simp only [List.cons_append, cutFrame, h r List.mem_cons_self, ih, Bool.false_eq_true, if_false]

/-- The context after the TRIM discard, given what is cut (R35). -/
theorem trimmed_eq {cfg : StreamCfg} {e : Time} {c : Context} {cut keep : List Record} {whole : Bool}
    (h : cutFrame c.ring = (cut, keep, whole)) : c.trimmed cfg e =
      let c1 : Context := { c with
        ring := keep, counts := { c.counts with trimmed := c.counts.trimmed + BitVec.ofNat 32 cut.length },
        discard := c.discard || !whole }
      if headStarts keep then startFrame cfg e c1 else { c1 with st := .drained } := by
  simp only [Context.trimmed, h]

/-- The overrun under TRIM, or under FINISH with an epoch owed, is the TRIM discard, which clears the owing flag under
FINISH (R34, R58). -/
theorem overrun_of_trims {cfg : StreamCfg} (e : Time) {c : Context} (h : cfg.policy = .trim ∨ c.owing = true) :
    c.overrun cfg e
      = Context.trimmed cfg e { c with owing := if cfg.policy = .finish then false else c.owing } := by
  unfold Context.overrun
  split
  · next hpolicy => simp [hpolicy]
  · next hpolicy howing => simp [hpolicy, howing] at h
  · next hpolicy _ => simp [hpolicy]

/-- What a stream epoch leaves of the state (R30, R35). -/
theorem streamEpoch_frame (s : State) (n : Stream) (e : Time) : s.streamEpoch n e = { s with
    ctxs := (s.streamEpoch n e).ctxs, store := (s.streamEpoch n e).store,
    egress := { s.egress with trim := (s.streamEpoch n e).egress.trim },
    link := { s.link with
      queue := (s.streamEpoch n e).link.queue, overflow := (s.streamEpoch n e).link.overflow } } := by
  obtain ⟨hegress, -, hlink⟩ := epochKeeps_streamEpoch s n e
  refine state_eq ?_ ?_ ?_ ?_ ?_ ?_ rfl hegress ?_ ?_ ?_ rfl ?_ hlink ?_ ?_ <;> simp

/-- Settles O21. -/
theorem trimDiscardCutsTheFrame : Obligations.TrimDiscardCutsTheFrame := by
  unfold Obligations.TrimDiscardCutsTheFrame
  intro s n cfg e cut keep whole hcfg hst htrims hring hwhole c t cutCtx
  have hcut : cutFrame c.ring = (cut, keep, whole) := by
    rw [show c.ring = cut ++ keep from hring]
    cases whole with
    | true =>
      obtain ⟨before, last, rfl, hlast, hbefore⟩ := hwhole
      exact cutFrame_of_end hlast hbefore
    | false =>
      obtain ⟨rfl, hnone⟩ := hwhole
      rw [List.append_nil]
      exact cutFrame_of_no_end hnone
  have hself : t.ctx n = if headStarts keep then startFrame cfg e cutCtx else { cutCtx with st := .drained } := by
    have hepoch : t.ctx n = c.atEpoch cfg e := ctx_streamEpoch_of_cfg e hcfg
    rw [hepoch, atEpoch_overrun cfg e hst, overrun_of_trims e htrims]
    exact trimmed_eq (c := { c with owing := if cfg.policy = .finish then false else c.owing }) hcut
  have hdiscards : c.trims = true := by
    have hpolicy : (decide (cfg.policy = .trim) || c.owing) = true := by simpa using htrims
    simp only [Context.trims, show c.cfg = some cfg from hcfg, Context.trimsAt, hpolicy, Bool.and_true]
    exact unfinished_of hst
  refine ⟨fun r rest hkeep hindex => ?_, fun hkeep => ?_, fun m hm => ctx_streamEpoch_ne s n m e hm, ?_, fun m => ?_, ?_,
    streamEpoch_frame s n e⟩
  · rw [hself, hkeep, headStarts_cons hindex, if_pos rfl]
  · rw [hself, hkeep, headStarts_nil, if_neg Bool.false_ne_true]
  · rw [store_streamEpoch, freeAll_cuts, if_pos hdiscards, hcut]
  · rw [trim_streamEpoch, if_pos hdiscards]
    exact setBit_getLsbD ..
  · have hraises := raises_streamEpoch s n e
    rwa [streamEvents_eq, if_pos hdiscards, hcut] at hraises

end Sys2Proof.Machine

namespace Sys2Proof.Machine

open Sys2Proof

/-! ### The end of a write -/

/-- A completion answers the offer and frees the write path; the feed keeps the rest (R141). -/
theorem feed_completeWrite (s : State) (w : WriteRec) :
    (s.completeWrite w).feed = ((s.answer w.channel).freePath).feed := by
  unfold State.completeWrite
  simp only []
  split <;> rfl

/-- A completion frees the chain of a packet that is discarded, and no other (R141). -/
theorem store_completeWrite (s : State) (w : WriteRec) : (s.completeWrite w).store
    = if (s.ctx w.stream).discard = true then s.store.freeChain w.first else s.store := by
  unfold State.completeWrite
  simp only []
  split <;> rfl

/-- A channel depends on the feed's channels alone. -/
theorem chan_of_feed {s t : State} (h : t.feed.chans = s.feed.chans) (n : Stream) : t.chan n = s.chan n := by
  simp only [State.chan, h]

theorem chan_answer_self (s : State) (n : Stream) :
    (s.answer n).chan n = { s.chan n with st := .empty, armed := false } :=
  chan_setChan_self s n _

theorem chan_answer_ne (s : State) {n m : Stream} (h : m ≠ n) : (s.answer n).chan m = s.chan m :=
  chan_setChan_ne s _ h

theorem chan_completeWrite (s : State) (w : WriteRec) (m : Stream) :
    (s.completeWrite w).chan m = (s.answer w.channel).chan m :=
  chan_of_feed (by rw [feed_completeWrite]; rfl) m

/-- An arrival acts on a stream by its state (R27). -/
theorem arrive_eq (r : Record) (c : Context) : c.arrive r = { c with
    ring := c.ring ++ [r],
    st := if c.st = .quiet then .primed else if c.st = .starved then .sending else c.st } := by
  unfold Context.arrive
  cases c.st <;> rfl

/-- A write whose bytes are all read is completed (R141). -/
theorem exec_writeComplete {s : State} {w : WriteRec} (hlive : s.live = true) (hwrite : s.feed.write = some w)
    (hread : w.read = w.len) : exec .writeComplete s = .next (s.completeWrite w) := by
  have hdone : s.writeDone = true := by simp [State.writeDone, hlive, hwrite, hread]
  simp only [exec, execWriteComplete, hdone, if_true, hwrite]

/-- OFFER deasserted on the channel of the write in progress withdraws the write (R142). -/
theorem exec_feedWithdrawn {s : State} {w : WriteRec} (hlive : s.live = true)
    (hst : (s.chan w.channel).st = .writing) (hwrite : s.feed.write = some w) :
    exec (.feedWithdrawn w.channel) s = .next (s.withdraw w.channel w) := by
  simp only [exec, execFeedWithdrawn, State.offerFalls, hlive, hst, hwrite, if_true]

/-! ### A withdrawal (R142) -/

/-- What a withdrawal leaves before its event is raised: the chain freed, the channel EMPTY and the write path FREE. -/
def State.undone (s : State) (n : Stream) (w : WriteRec) : State :=
  State.freePath (State.setChan { s with store := s.store.freeChain w.first } n
    { s.chan n with pin := none, st := .empty, armed := true, index := w.index })

theorem withdraw_eq (s : State) (n : Stream) (w : WriteRec) :
    s.withdraw n w = (s.undone n w).raise .feedWithdrawn w.stream.val w.read := rfl

theorem chan_undone_self (s : State) (n : Stream) (w : WriteRec) :
    (s.undone n w).chan n = { s.chan n with pin := none, st := .empty, armed := true, index := w.index } :=
  chan_setChan_self _ n _

theorem chan_undone_ne (s : State) {n m : Stream} (w : WriteRec) (h : m ≠ n) : (s.undone n w).chan m = s.chan m :=
  chan_setChan_ne _ _ h

/-- Settles O38. -/
theorem writeEndsByCompletionOrWithdrawal : Obligations.WriteEndsByCompletionOrWithdrawal := by
  unfold Obligations.WriteEndsByCompletionOrWithdrawal
  refine ⟨fun s w hlive hwrite hread => ?_, fun s n w hlive hst hwrite hchannel => ?_⟩
  · intro c
    have hfeed := feed_completeWrite s w
    have hctx := completeWrite_ctx s w
    refine ⟨_, exec_writeComplete hlive hwrite hread, by rw [hfeed]; rfl, by rw [hfeed]; rfl, ?_, by rw [hfeed]; rfl,
      fun m hm => ?_, fun m hm => by rw [hctx, if_neg hm], fun hkeeps => ⟨?_, ?_⟩, fun hdiscards => ⟨?_, ?_⟩, ?_⟩
    · rw [chan_completeWrite, chan_answer_self]
    · rw [chan_completeWrite, chan_answer_ne s hm]
    · rw [store_completeWrite, if_neg (Bool.eq_false_iff.mp hkeeps)]
    · rw [hctx, if_pos rfl, if_neg (Bool.eq_false_iff.mp hkeeps)]
      exact arrive_eq ..
    · rw [store_completeWrite, if_pos hdiscards]
    · rw [hctx, if_pos rfl, if_pos hdiscards]
      cases w.frameEnd <;> rfl
    · apply state_eq <;> simp
  · subst hchannel
    refine ⟨_, exec_feedWithdrawn hlive hst hwrite, ?_, fun m hm => ?_, ?_, ?_, ?_, ?_⟩
    · rw [withdraw_eq, chan_raise, chan_undone_self]
    · rw [withdraw_eq, chan_raise, chan_undone_ne s w hm]
    · rw [withdraw_eq, raise_feed]
      rfl
    · rw [withdraw_eq, raise_store]
      rfl
    · rw [withdraw_eq]
      exact .of_same (raises_raise ..) rfl rfl rfl
    · apply state_eq <;> simp [withdraw_eq, raise_link, State.undone]

end Sys2Proof.Machine

namespace Sys2Proof.Machine

open Sys2Proof

/-! ### The stream's own work at a grant -/

/-- A head that does not end its frame: the stream goes on to the next release time (R32, R49). -/
theorem granted_of_more (cfg : StreamCfg) {r : Record} (rest : List Record) (c : Context) (h : r.frameEnd = false) :
    c.granted cfg r rest
      = { c with ring := rest, iNext := c.iNext + 1, tNext := releaseTime cfg c (c.iNext + 1) } := by
  simp only [Context.granted, h, Bool.false_eq_true, if_false]
  rfl

/-- The end of a frame with no epoch owed leaves the stream DRAINED (R32). -/
theorem granted_of_end (cfg : StreamCfg) {r : Record} (rest : List Record) {c : Context} (h : r.frameEnd = true)
    (howing : c.owing = false) :
    c.granted cfg r rest = { c with ring := rest, iNext := c.iNext + 1, st := .drained } := by
  simp only [Context.granted, h, howing, Bool.false_eq_true, if_false, if_true]

/-- The end of a frame with an epoch owed starts the owed frame where the head behind begins one (R56). -/
theorem granted_of_owed_start (cfg : StreamCfg) {r : Record} {rest : List Record} {c : Context}
    (h : r.frameEnd = true) (howing : c.owing = true) (hhead : headStarts rest = true) : c.granted cfg r rest
      = startFrame cfg c.owed { c with ring := rest, iNext := c.iNext + 1, owing := false } := by
  simp only [Context.granted, h, howing, hhead, if_true]

/-- The end of a frame with an epoch owed and no head behind that begins a frame leaves the stream DRAINED (R56). -/
theorem granted_of_owed_end (cfg : StreamCfg) {r : Record} {rest : List Record} {c : Context}
    (h : r.frameEnd = true) (howing : c.owing = true) (hhead : headStarts rest = false) : c.granted cfg r rest
      = { c with ring := rest, iNext := c.iNext + 1, owing := false, st := .drained } := by
  simp only [Context.granted, h, howing, hhead, Bool.false_eq_true, if_false, if_true]

/-! ### A grant as a step -/

/-- A grant of a head whose chain holds its bytes has a next state: the grant's work, with the slot and the store as the
link state has it (R70, R82). -/
theorem grantHead_next {s : State} {n : Stream} {cfg : StreamCfg} {r : Record} {rest : List Record}
    (hcfg : (s.ctx n).cfg = some cfg) (hring : (s.ctx n).ring = r :: rest)
    (hlen : r.len ≤ 256 * (s.store.chain r.first).length) :
    ∃ t, s.grantHead n = .next t ∧ t.ctxs = (s.grantWork n cfg r rest).ctxs
      ∧ t.egress = { (s.grantWork n cfg r rest).egress with slot := t.egress.slot, offer := t.egress.offer }
      ∧ t = { s with ctxs := t.ctxs, egress := t.egress, store := t.store } := by
  unfold State.grantHead
  simp only [hcfg, hring]
  split
  · obtain ⟨st, hst⟩ := stampPacket_some s.store s.cfg cfg r (s.ctx n).base (s.ctx n).seq hlen
    rw [hst]
    refine ⟨_, rfl, rfl, rfl, ?_⟩
    apply state_eq <;> simp
  · refine ⟨_, rfl, rfl, rfl, ?_⟩
    apply state_eq <;> simp

/-- Where a head is due with the slot EMPTY the grant is that of the chosen head (R67, R68). -/
theorem exec_grant {s : State} {n : Stream} (hlive : s.live = true) (hslot : s.egress.slot = none)
    (hchoice : s.takeDue.grantChoice = some n) : exec .grant s = s.takeDue.grantHead n := by
  have hreached : n ∈ s.reachedStreams := takeDue_reached s n (grantChoice_due _ n hchoice)
  have hready : s.grantReady = true := by
    simp [State.grantReady, hlive, hslot, List.ne_nil_of_mem hreached]
  simp only [exec, execGrant, hready, if_true, hchoice]

/-- The granted stream's context: its own work, with the sequence number and the counters moved on (R70, R72, R74, R75,
R82). -/
theorem grantedCtx_eq (s : State) (n : Stream) (cfg : StreamCfg) (r : Record) (rest : List Record) :
    s.grantedCtx n cfg r rest = { (s.ctx n).granted cfg r rest with
      seq := (s.ctx n).seq + 1,
      counts := { (s.ctx n).counts with
        released := (s.ctx n).counts.released + 1,
        late := if s.grantLate n = true then (s.ctx n).counts.late + 1 else (s.ctx n).counts.late,
        unstamped := if s.egress.linkUp = true
            ∧ (fieldMisfits cfg.stampOffset 4 r.len || fieldMisfits cfg.seqOffset 2 r.len) = true
          then (s.ctx n).counts.unstamped + 1 else (s.ctx n).counts.unstamped,
        dropped := if s.egress.linkUp = true then (s.ctx n).counts.dropped else (s.ctx n).counts.dropped + 1 } } := by
  simp only [State.grantedCtx, Counters.granted, Bool.and_eq_true]

/-- Settles O28. -/
theorem grantDoesTheStreamsWork : Obligations.GrantDoesTheStreamsWork := by
  unfold Obligations.GrantDoesTheStreamsWork
  intro s n cfg r rest hlive u hslot hchoice hcfg hring hlen c isLate misfit after1
  have hdue : n ∈ u.dueStreams := grantChoice_due u n hchoice
  have hexec : exec .grant s = u.grantHead n := exec_grant hlive hslot hchoice
  have hu : u = { s with ctxs := u.ctxs, fresh := u.fresh } := takeDue_frame s
  have hc : u.ctx n = { s.ctx n with justReached := (u.ctx n).justReached } := takeDue_ctx s n
  have hegress : u.egress = s.egress := takeDue_egress s
  have hstore : u.store = s.store := takeDue_store s
  have hlateEq : u.grantLate n = isLate := by
    rw [State.grantLate, show u.cfg = s.cfg from takeDue_cfg s, show u.t = s.t from takeDue_t s]
    rfl
  clear_value u
  obtain ⟨t, hnext, hctxs, hslots, hframe⟩ := grantHead_next (s := u) (n := n) (r := r) (rest := rest)
    (cfg := cfg) (by rw [hc, hcfg]) (by rw [hc, hring]) (by rw [hstore]; exact hlen)
  obtain ⟨hself, hothers, hcollision, hlate, hkeeps⟩ := grantWork_spec u n cfg r rest hdue
  have hn : t.ctx n = { c.granted cfg r rest with seq := after1.seq, counts := after1.counts } := by
    rw [ctx_congr hctxs n, hself, grantedCtx_eq, hlateEq, hegress]
    rfl
  refine ⟨t, hexec.trans hnext, fun hend => ?_, fun hend howing => ?_, fun hend howing hrest => ?_,
    fun r2 rest2 hend howing hrest hindex => ?_, fun m hm => ?_, fun m => ?_, fun m => ?_, ?_, ?_⟩
  · rw [hn, granted_of_more cfg rest c hend]
  · rw [hn, granted_of_end cfg rest hend howing]
  · have hhead : headStarts rest = false := by rw [hrest, headStarts_nil]
    rw [hn, granted_of_owed_end cfg hend howing hhead]
  · have hhead : headStarts rest = true := by rw [hrest, headStarts_cons hindex]
    rw [hn, granted_of_owed_start cfg hend howing hhead]
    rfl
  · rw [ctx_congr hctxs m, hothers m hm]
  · rw [hslots, ← hegress]
    exact hcollision m
  · rw [hslots, ← hegress, ← hlateEq]
    exact hlate m
  · rw [hslots, hkeeps, hegress]
  · rw [hframe, hu]

end Sys2Proof.Machine

namespace Sys2Proof.Machine

open Sys2Proof

/-! ### Field values -/

/-- Bytes after a value already read. -/
theorem foldl_bytes_lt (bs : List Byte) (v m : Nat) (hv : v < m) :
    bs.foldl (fun v b => v * 256 + b.toNat) v < m * 256 ^ bs.length := by
  induction bs generalizing v m with
  | nil => simpa using hv
  | cons b bs ih =>
    have hb : b.toNat < 256 := b.isLt
    have hstep : v * 256 + b.toNat < m * 256 := by omega
    calc bs.foldl (fun v b => v * 256 + b.toNat) (v * 256 + b.toNat)
        < m * 256 * 256 ^ bs.length := ih _ _ hstep
      _ = m * 256 ^ (b :: bs).length := by rw [List.length_cons, Nat.pow_succ]; ring

/-- A field of `n` bytes holds a value below 256^n (R184). -/
theorem field_lt (body : List Byte) (off n : Nat) : field body off n < 256 ^ n := by
  have hvalue := foldl_bytes_lt ((body.drop off).take n) 0 1 Nat.one_pos
  rw [Nat.one_mul] at hvalue
  exact hvalue.trans_le (Nat.pow_le_pow_right (by decide) (List.length_take_le ..))

theorem field_one_le (body : List Byte) (off : Nat) : field body off 1 ≤ 255 :=
  Nat.le_of_lt_succ (field_lt body off 1)

theorem field_two_le (body : List Byte) (off : Nat) : field body off 2 ≤ 65535 :=
  Nat.le_of_lt_succ (field_lt body off 2)

theorem field_three_le (body : List Byte) (off : Nat) : field body off 3 ≤ 16777215 :=
  Nat.le_of_lt_succ (field_lt body off 3)

theorem field_four_le (body : List Byte) (off : Nat) : field body off 4 ≤ 4294967295 :=
  Nat.le_of_lt_succ (field_lt body off 4)

/-! ### The claim -/

/-- A division rounded up passes `m` exactly where the dividend passes m times the divisor. -/
theorem lt_ceilDiv_iff {a b m : Nat} (hb : 1 ≤ b) : m < ceilDiv a b ↔ m * b < a := by
  rw [ceilDiv, Nat.lt_iff_add_one_le, Nat.le_div_iff_mul_le hb, Nat.succ_mul]
  omega

/-- A quotient rounded up and saturated at 65,535 lies from 1 on, and where it is less than 65,535 it is the least
number whose product with the divisor reaches the dividend (R42). -/
theorem sat16_ceilDiv_spec {a b : Nat} (ha : 1 ≤ a) (hb : 1 ≤ b) :
    1 ≤ sat16 (ceilDiv a b) ∧ sat16 (ceilDiv a b) ≤ 65535
      ∧ (sat16 (ceilDiv a b) < 65535 → (sat16 (ceilDiv a b) - 1) * b < a ∧ a ≤ sat16 (ceilDiv a b) * b)
      ∧ (sat16 (ceilDiv a b) = 65535 → 65534 * b < a) := by
  have hpos : 0 < ceilDiv a b := (lt_ceilDiv_iff hb).mpr (by omega)
  have hsat : sat16 (ceilDiv a b) = min (ceilDiv a b) 65535 := rfl
  refine ⟨by omega, by omega, fun hlt => ?_, fun heq => ?_⟩
  · have hwhole : sat16 (ceilDiv a b) = ceilDiv a b := by omega
    rw [hwhole]
    exact ⟨(lt_ceilDiv_iff hb).mp (by omega), Nat.le_of_not_lt fun h => Nat.lt_irrefl _ ((lt_ceilDiv_iff hb).mpr h)⟩
  · exact (lt_ceilDiv_iff hb).mp (by omega)

/-! ### The records of an accepted image -/

theorem WalkResult.cons_eq_records {r : ImageRecord} {w : WalkResult} {rs : List ImageRecord}
    (h : w.cons r = .records rs) : ∃ rest, w = .records rest ∧ rs = r :: rest := by
  cases w with
  | fault => cases h
  | records rest =>
    cases h
    exact ⟨rest, rfl, rfl⟩

/-- A walk that finds records ends at END, or finds a record of the length it says and walks on (R160, R166). -/
theorem walkImage_succ {fuel off : Nat} {bytes : List Byte} {rs : List ImageRecord}
    (h : walkImage (fuel + 1) off bytes = .records rs) : rs = []
      ∨ ∃ r next left rest,
        r.body.length = r.length ∧ walkImage fuel next left = .records rest ∧ rs = r :: rest := by
  unfold walkImage at h
  split at h
  · cases h
  · cases h
  · next hfuel =>
    cases hfuel
    split at h
    · cases h
    split at h
    · cases h
    split at h
    · cases h
    split at h
    · cases h
    · next hlen =>
      split at h
      · cases h
        exact .inl rfl
      · obtain ⟨rest, hwalk, hrs⟩ := WalkResult.cons_eq_records h
        exact .inr ⟨_, _, _, rest, List.length_take_of_le (Nat.le_of_not_lt hlen), hwalk, hrs⟩

/-- Every record of a walk has the body that its length byte says (R160). -/
theorem walkImage_length {fuel off : Nat} {bytes : List Byte} {rs : List ImageRecord}
    (h : walkImage fuel off bytes = .records rs) : ∀ r ∈ rs, r.body.length = r.length := by
  induction fuel generalizing off bytes rs with
  | zero => simp [walkImage] at h
  | succ fuel ih =>
    rcases walkImage_succ h with rfl | ⟨r, next, left, rest, hlength, hwalk, rfl⟩
    · exact fun r hr => nomatch hr
    · exact List.forall_mem_cons.mpr ⟨hlength, ih hwalk⟩

/-- No excess of depth: the sum of Q is at most 2,048 (R169). -/
theorem sum_le_of_depthExcess {sum : Nat} {rs : List ImageRecord} (hsum : sum ≤ 2048)
    (h : depthExcess sum rs = none) : sum + (rs.map fun r => field r.body 15 2).sum ≤ 2048 := by
  induction rs generalizing sum with
  | nil => simpa using hsum
  | cons r rs ih =>
    rw [depthExcess] at h
    split at h
    · cases h
    · next hle =>
      rw [List.map_cons, List.sum_cons, ← Nat.add_assoc]
      exact ih (Nat.le_of_not_lt hle) h

/-- The last thing stage 4 checks is the sum of Q (R169). -/
theorem depthExcess_of_rangeFault {part : ImageRecord} {rs : List ImageRecord} (h : rangeFault part rs = none) :
    depthExcess 0 (streamRecords rs) = none := by
  unfold rangeFault at h
  split at h
  · cases h
  · simp only [] at h
    split at h
    · cases h
    · exact h

/-! ### What a STREAM record configures -/

theorem readStream_cls_iff (q : Nat) {b : List Byte} (h : field b 1 1 ≤ 1) :
    (readStream q b).cls = .flex ↔ field b 1 1 = 1 := by
  rcases Nat.le_one_iff_eq_zero_or_eq_one.mp h with h | h <;> simp [readStream, h]

theorem readStream_cadence_iff (q : Nat) {b : List Byte} (h : field b 2 1 ≤ 1) :
    (readStream q b).cadence = .field ↔ field b 2 1 = 1 := by
  rcases Nat.le_one_iff_eq_zero_or_eq_one.mp h with h | h <;> simp [readStream, h]

theorem readStream_policy_iff (q : Nat) {b : List Byte} (h : field b 17 1 ≤ 1) :
    (readStream q b).policy = .finish ↔ field b 17 1 = 1 := by
  rcases Nat.le_one_iff_eq_zero_or_eq_one.mp h with h | h <;> simp [readStream, h]

/-- Imin is q_min for a FRAME stream and half of it for a FIELD stream (R22). -/
theorem readStream_imin (q : Nat) (b : List Byte) :
    (readStream q b).imin = if (readStream q b).cadence = .frame then q else q / 2 := by
  by_cases h : field b 2 1 = 0 <;> simp [readStream, h]

/-- An offset that is configured keeps the bound its field keeps (R164). -/
theorem readOffset_le {v k o : Nat} (h : readOffset v = some o) (hv : v ≤ k ∨ v = 65535) : o ≤ k := by
  unfold readOffset at h
  split at h
  · cases h
  · next hne =>
    cases h
    exact hv.resolve_right hne

/-- Both enumerations and every number of a STREAM record in range keep the ranges of R164. -/
theorem readStream_ranges {q : Nat} {b : List Byte} (h : streamInRange q b = true) :
    let c := readStream q b
    field b 1 1 ≤ 1 ∧ field b 2 1 ≤ 1 ∧ field b 17 1 ≤ 1
      ∧ (1 ≤ c.c ∧ c.c ≤ 16383) ∧ c.o < c.imin ∧ (1 ≤ c.w ∧ c.w ≤ c.wCap) ∧ (64 ≤ c.size ∧ c.size ≤ 2048)
      ∧ (2 ≤ c.depth ∧ c.depth ≤ 512) ∧ 1 ≤ c.idleLimit
      ∧ (∀ o, c.stampOffset = some o → o ≤ 2044) ∧ ∀ o, c.seqOffset = some o → o ≤ 2046 := by
  intro c
  simp only [streamInRange, Bool.and_eq_true, decide_eq_true_eq, and_assoc] at h
  obtain ⟨-, hcls, hcadence, hc, hc', ho, hw, hw', hsize, hsize', hdepth, hdepth', hpolicy, hstamp, hseq, hidle⟩ := h
  exact ⟨hcls, hcadence, hpolicy, ⟨hc, hc'⟩, ho, ⟨hw, hw'⟩, ⟨hsize, hsize'⟩, ⟨hdepth, hdepth'⟩, hidle,
    fun o hso => readOffset_le hso hstamp, fun o hso => readOffset_le hso hseq⟩

/-- The numbers of a PART record in range keep the ranges of R163. -/
theorem readPart_ranges {b : List Byte} (h : partInRange b = true) :
    let p := readPart b
    p.stationId ≤ 15 ∧ (64 ≤ p.bitTime ∧ p.bitTime ≤ 1024 ∧ 4 ∣ p.bitTime) ∧ 1 ≤ p.budget ∧ 1 ≤ p.n ∧ 1 ≤ p.d
      ∧ (200000 ≤ p.qMin ∧ p.qMin ≤ 50000000) ∧ p.noticeDelay ≤ p.qMin / 2 ∧ field b 15 1 ≤ 1
      ∧ p.roff.natAbs < p.qMin ∧ 1 ≤ p.wlock ∧ (p.slewLimit ≤ 255 ∧ p.slewLimit ≤ p.wlock) ∧ 1 ≤ p.mn ∧ 1 ≤ p.md
      ∧ 1000 ≤ p.stallLimit ∧ p.stallLimit ≤ 1000000 := by
  intro p
  simp only [partInRange, Bool.and_eq_true, decide_eq_true_eq, and_assoc] at h
  obtain ⟨hid, hb, hb', hb4, hbudget, hn, hd, hq, hq', hdelay, href, hroff, hwlock, hslew, hmn, hmd, hstall⟩ := h
  exact ⟨hid, ⟨hb, hb', Nat.dvd_of_mod_eq_zero hb4⟩, hbudget, hn, hd, ⟨hq, hq'⟩, hdelay, href,
    Nat.lt_of_le_pred (Nat.lt_of_lt_of_le (by decide) hq) hroff, hwlock, le_min_iff.mp hslew, hmn,
    hmd, hstall⟩

/-- Settles O11. -/
theorem acceptedPartIsInRange : Obligations.AcceptedPartIsInRange := by
  unfold Obligations.AcceptedPartIsInRange
  intro image off part rs haccepted p f streams
  obtain ⟨hwalk, hcount, hparts, hrange⟩ := accepted_parts haccepted
  obtain ⟨hpartLength, hpartIn, hstreams⟩ := range_parts hrange
  have hbody : ∀ r ∈ rs, r.body.length = r.length := walkImage_length hwalk
  have hmem : ∀ r, r ∈ rs ∧ r.type = 1 ↔ r = part := fun r => by
    rw [← List.mem_singleton (b := part), ← hparts, partRecords, List.mem_filter, decide_eq_true_eq]
  obtain ⟨hin, htype⟩ := (hmem part).mpr rfl
  obtain ⟨hid, ⟨hb, hb', hb4⟩, hbudget, hn, hd, ⟨hq, hq'⟩, hdelay, href, hroff, hwlock, ⟨hslew, hslew'⟩, hmn, hmd,
    hstall⟩ := readPart_ranges hpartIn
  have hdup : firstDuplicate [] (streamRecords rs) = none := by
    simpa [countFault, hparts] using hcount
  have hnodup : ((streamRecords rs).map streamNumber).Nodup :=
    (firstDuplicate_none (fun r hr => by rw [(hstreams r hr).1]; decide) hdup).1
  have hsum : ((streamRecords rs).map fun r => field r.body 15 2).sum ≤ 2048 := by
    simpa using sum_le_of_depthExcess (Nat.zero_le _) (depthExcess_of_rangeFault hrange)
  refine ⟨hin, htype, fun r hr hr1 => (hmem r).mp ⟨hr, hr1⟩, (hbody part hin).trans hpartLength, rfl, hid, hb, hb', hb4,
    hbudget, field_two_le .., hn, field_four_le .., hd, field_two_le .., hq, hq', hdelay, href, hroff, hwlock,
    field_two_le .., hslew, hslew', hmn, field_two_le .., hmd, field_three_le .., field_two_le .., hstall.1, hstall.2,
    hnodup, hsum, fun r hr hr2 => ?_⟩
  intro c
  have hrs : r ∈ streamRecords rs := mem_streamRecords.mpr ⟨hr, hr2⟩
  obtain ⟨hlength, hstreamIn⟩ := hstreams r hrs
  obtain ⟨hcls, hcadence, hpolicy, ⟨hc, hc'⟩, ho, ⟨hw, hw'⟩, ⟨hsize, hsize'⟩, ⟨hdepth, hdepth'⟩, hidle, hstamp, hseq⟩ :=
    readStream_ranges hstreamIn
  have hload : 1 ≤ c.c * c.size * 1000 :=
    Nat.mul_pos (Nat.mul_pos hc (Nat.lt_of_lt_of_le (by decide) hsize)) (by decide)
  obtain ⟨hclaim, hclaim', hleast, hfull⟩ := sat16_ceilDiv_spec hload hw
  exact ⟨(accepted_streams haccepted).1 r hrs, (hbody r hr).trans hlength, hcls, hcadence,
    readStream_cls_iff _ hcls, readStream_cadence_iff _ hcadence, readStream_imin .., streamNumber_eq_field r, rfl, rfl,
    rfl, rfl, rfl, hc, hc', ho, hw, hw', rfl, hsize, hsize', rfl, hdepth, hdepth', hpolicy,
    readStream_policy_iff _ hpolicy, rfl, hstamp, rfl, hseq, hidle, field_one_le .., hclaim, hclaim', hleast, hfull⟩

end Sys2Proof.Machine

namespace Sys2Proof.Machine

open Sys2Proof

/-! ### The window (R46, R47) -/

/-- A division rounded up stays within `m` exactly where the dividend is no more than m times the divisor. -/
theorem ceilDiv_le_iff {a b m : Nat} (hb : 1 ≤ b) : ceilDiv a b ≤ m ↔ a ≤ m * b := by
  rw [← not_lt, lt_ceilDiv_iff hb, not_lt]

theorem stretched_le_iff (cfg : StreamCfg) (ka m : Nat) : stretched cfg ka ≤ m ↔ cfg.w * ka ≤ 256 * m := by
  rw [stretched, ceilDiv_le_iff (by decide), Nat.mul_comm m]

theorem effectiveWindow_fixed {cfg : StreamCfg} (ka : Nat) (h : cfg.cls = .fixed) : effectiveWindow cfg ka = cfg.w := by
  simp only [effectiveWindow, h]

theorem cappedAt_fixed {cfg : StreamCfg} (ka : Nat) (h : cfg.cls = .fixed) : cappedAt cfg ka = false := by
  simp only [cappedAt, h]

theorem effectiveWindow_flex {cfg : StreamCfg} (ka : Nat) (h : cfg.cls = .flex) :
    effectiveWindow cfg ka = min (stretched cfg ka) cfg.wCap := by
  simp only [effectiveWindow, h]

theorem cappedAt_flex {cfg : StreamCfg} (ka : Nat) (h : cfg.cls = .flex) :
    cappedAt cfg ka = true ↔ cfg.wCap < stretched cfg ka := by
  simp only [cappedAt, h, decide_eq_true_eq]

/-! ### The release times of a frame (R48, R50) -/

theorem toNat_after (t : Time) (n : Nat) : (after t n).toNat = (t.toNat + n) % 2 ^ 48 := by
  rw [after, BitVec.toNat_add, BitVec.toNat_ofNat, Nat.add_mod_mod]

/-- The ticks from a time to the one `n` ticks after it are `n`, short of the whole circle of times (R2). -/
theorem elapsed_after {t : Time} {n : Nat} (h : n < 2 ^ 48) : elapsed (after t n) t = n := by
  rw [elapsed, ahead_after, BitVec.sub_self, BitVec.toNat_zero, Nat.zero_add, Nat.mod_eq_of_lt h]

/-- The release times of a frame lie far within the circle of times from its base. -/
theorem releaseOffset_lt {o i w : Nat} (c : Nat) (hi : i ≤ 32767) (hw : w ≤ 50000000) (ho : o ≤ 50000000) :
    o + i * w / c < 2 ^ 48 := by
  have hdiv : i * w / c ≤ i * w := Nat.div_le_self ..
  have hmul : i * w ≤ 32767 * 50000000 := Nat.mul_le_mul hi hw
  omega

theorem releaseTime_sub_base (cfg : StreamCfg) (c : Context) {i : Nat} (hi : i ≤ 32767) (hw : c.wEff ≤ 50000000)
    (ho : cfg.o ≤ 50000000) : (releaseTime cfg c i - c.base).toNat = cfg.o + i * c.wEff / cfg.c :=
  elapsed_after (releaseOffset_lt cfg.c hi hw ho)

/-- The packets of a frame's first `c` indices fall due before the end of its window (R50). -/
theorem releaseShare_lt {i w c : Nat} (hi : i < c) (hw : 1 ≤ w) : i * w / c < w :=
  Nat.div_lt_of_lt_mul (Nat.mul_lt_mul_of_pos_right hi hw)

/-- Settles O22. -/
theorem windowAndReleaseTimes : Obligations.WindowAndReleaseTimes := by
  unfold Obligations.WindowAndReleaseTimes
  refine ⟨fun cfg ka hfixed => ⟨effectiveWindow_fixed ka hfixed, cappedAt_fixed ka hfixed⟩, fun cfg ka hflex => ?_, ?_⟩
  · have hwindow := effectiveWindow_flex ka hflex
    refine ⟨stretched cfg ka, (stretched_le_iff ..).mp le_rfl, fun j => (stretched_le_iff ..).mpr, hwindow,
      cappedAt_flex ka hflex, fun hka hcap => ?_⟩
    rw [hwindow]
    exact ⟨le_min (le_stretched cfg ka hka) hcap, min_le_right ..⟩
  · intro cfg c hc hw ho offset
    have hoffset (i : Nat) (hi : i ≤ 32767) : offset i = cfg.o + i * c.wEff / cfg.c :=
      releaseTime_sub_base cfg c hi hw ho
    refine ⟨fun i hi => ⟨hoffset i hi, ?_⟩, fun i j hij hj => ?_, fun i hi hi' hpos => ?_, fun hlast => ?_⟩
    · rw [releaseTime, toNat_after, Nat.add_assoc]
    · rw [hoffset i (hij.trans hj), hoffset j hj]
      exact Nat.add_le_add_left (Nat.div_le_div_right (Nat.mul_le_mul_right _ hij)) _
    · have hshare : i * c.wEff / cfg.c < c.wEff := releaseShare_lt hi hpos
      rw [hoffset i hi']
      omega
    · rw [hoffset cfg.c hlast, Nat.mul_div_cancel_left _ hc]

end Sys2Proof.Machine

namespace Sys2Proof.Machine

open Sys2Proof

/-! ### The heads a grant chooses among (R51, R69) -/

/-- A head is reached by the three parts of R51. -/
theorem mem_reachedStreams_iff (s : State) (n : Stream) : n ∈ s.reachedStreams ↔
    (s.ctx n).cfg.isSome = true ∧ (s.ctx n).st = .sending ∧ (s.ctx n).ring ≠ []
      ∧ reached s.t (s.ctx n).tNext = true := by
  rw [mem_reachedStreams]
  simp [Context.headReached, Context.enabled, and_assoc]

/-- A reached head that is not yet due waits only because its t_next is reached at this very tick (R69). -/
theorem justReached_of_not_due {s : State} {n : Stream} (hreached : n ∈ s.reachedStreams) (hdue : n ∉ s.dueStreams) :
    (s.ctx n).justReached = true := by
  rw [mem_reachedStreams] at hreached
  rw [mem_dueStreams, Context.headDue, hreached] at hdue
  simpa using hdue

/-! ### The choice by R68 -/

/-- Where heads are due the grant chooses the one that comes before every other (R67, R68). -/
theorem grantChoice_spec {s : State} (h : s.dueStreams ≠ []) :
    ∃ n, s.grantChoice = some n ∧ n ∈ s.dueStreams ∧ ∀ m ∈ s.dueStreams, m ≠ n → Before s n m :=
  bestOf_spec s s.dueStreams (fun _ hn => hn) h

/-- Of two due heads the signed difference of their release times is the difference of their ages (R2). -/
theorem releaseDiff_of_due {s : State} {n m : Stream} (hn : n ∈ s.dueStreams) (hm : m ∈ s.dueStreams) :
    ((s.ctx m).tNext - (s.ctx n).tNext).toInt = (age s n : Int) - age s m :=
  diff_toInt s.t _ _ (dueStreams_reached s n hn) (dueStreams_reached s m hm)

/-- The order of R68 by the signed difference of the release times. -/
theorem releaseOrder_of_before {s : State} {n m : Stream} (hn : n ∈ s.dueStreams) (hm : m ∈ s.dueStreams)
    (h : Before s n m) :
    let d := ((s.ctx m).tNext - (s.ctx n).tNext).toInt
    0 < d ∨ (d = 0 ∧ (s.ctx n).isFixed = true ∧ (s.ctx m).isFixed = false)
      ∨ (d = 0 ∧ (s.ctx n).isFixed = (s.ctx m).isFixed ∧ n < m) := by
  intro d
  have hd : d = (age s n : Int) - age s m := releaseDiff_of_due hn hm
  obtain holder | ⟨hage, ⟨hfixed, hflex⟩ | ⟨hclass, hnumber⟩⟩ := h
  · exact .inl (by omega)
  · exact .inr (.inl ⟨by omega, hfixed, hflex⟩)
  · exact .inr (.inr ⟨by omega, hclass, hnumber⟩)

theorem tNext_takeDue (s : State) (n : Stream) : (s.takeDue.ctx n).tNext = (s.ctx n).tNext := by
  rw [ctx_takeDue]
  split <;> rfl

theorem isFixed_takeDue (s : State) (n : Stream) : (s.takeDue.ctx n).isFixed = (s.ctx n).isFixed := by
  rw [ctx_takeDue]
  split <;> rfl

/-! ### The released counters (R70, R86) -/

/-- A grant of a due head that gives a next state has done the grant's work on the stream table, whatever became of the
packet (R70, R82). -/
theorem grantHead_ctxs {s t : State} {n : Stream} (hdue : n ∈ s.dueStreams) (h : s.grantHead n = .next t) :
    ∃ cfg r rest, t.ctxs = (s.grantWork n cfg r rest).ctxs := by
  obtain ⟨cfg, r, rest, hcfg, hring, -⟩ := dueStreams_parts s n hdue
  refine ⟨cfg, r, rest, ?_⟩
  simp only [State.grantHead, hcfg, hring] at h
  (repeat' split at h) <;> cases h <;> rfl

/-- The work of a grant counts a release of the granted stream and of no other. -/
theorem released_grantWork {s : State} {n : Stream} (hdue : n ∈ s.dueStreams) (cfg : StreamCfg) (r : Record)
    (rest : List Record) (m : Stream) : ((s.grantWork n cfg r rest).ctx m).counts.released
      = (s.ctx m).counts.released + if m = n then 1 else 0 := by
  obtain ⟨hself, hothers, -⟩ := grantWork_spec s n cfg r rest hdue
  by_cases hm : m = n
  · rw [hm, hself, grantedCtx_eq, if_pos rfl]
  · rw [hothers m hm, if_neg hm, add_zero]
    split <;> rfl

theorem released_grantHead {s t : State} {n : Stream} (hdue : n ∈ s.dueStreams) (h : s.grantHead n = .next t)
    (m : Stream) : (t.ctx m).counts.released = (s.ctx m).counts.released + if m = n then 1 else 0 := by
  obtain ⟨cfg, r, rest, hctxs⟩ := grantHead_ctxs hdue h
  rw [ctx_congr hctxs m, released_grantWork hdue]

theorem released_takeDue (s : State) (m : Stream) :
    (s.takeDue.ctx m).counts.released = (s.ctx m).counts.released := by
  rw [ctx_takeDue]
  split <;> rfl

/-- Settles O27. -/
theorem grantTakesTheFirstDueHead : Obligations.GrantTakesTheFirstDueHead := by
  unfold Obligations.GrantTakesTheFirstDueHead
  intro s u
  refine ⟨mem_reachedStreams_iff s, dueStreams_takeDue s, takeDue_reached s, fun n => justReached_of_not_due,
    takeDue_ctx s, takeDue_frame s, fun hreached => ?_⟩
  obtain ⟨n, hchoice, hdue, hfirst⟩ := grantChoice_spec (takeDue_nonempty s hreached)
  refine ⟨n, hchoice, hdue, fun m hm hne => ?_, fun t hlive hslot hexec m => ?_⟩
  · have horder := releaseOrder_of_before hdue hm (hfirst m hm hne)
    simpa only [u, tNext_takeDue, isFixed_takeDue] using horder
  · rw [exec_grant hlive hslot hchoice] at hexec
    rw [released_grantHead hdue hexec, released_takeDue]

end Sys2Proof.Machine

namespace Sys2Proof.Machine

open Sys2Proof

/-! ### The blocks that no packet holds -/

/-- The blocks on the free list and in the retired set (R144). -/
def Store.unused (st : Store) : List Block := st.free ++ st.retired

theorem unused_congr {st st' : Store} (hfree : st'.free = st.free) (hretired : st'.retired = st.retired) :
    st'.unused = st.unused := by rw [Store.unused, hfree, hretired, Store.unused]

/-- A block that is new to the retired set stands in it once, beside all that stood there. -/
theorem insertBlock_perm {b : Block} {l : List Block} (h : b ∉ l) : (insertBlock b l).Perm (b :: l) := by
  induction l with
  | nil => exact .refl _
  | cons c cs ih =>
    obtain ⟨hne, hout⟩ : b ≠ c ∧ b ∉ cs := by simpa using h
    rw [insertBlock, if_neg hne]
    split
    · exact .refl _
    · exact ((ih hout).cons c).trans (.swap b c cs)

theorem retireBlocks_perm {bs l : List Block} (h : (bs ++ l).Nodup) : (retireBlocks bs l).Perm (bs ++ l) := by
  induction bs generalizing l with
  | nil => exact .refl _
  | cons b bs ih =>
    have hmid : (bs ++ b :: l).Nodup := (List.perm_middle.nodup_iff).mpr h
    have hinsert : (bs ++ insertBlock b l).Perm (bs ++ b :: l) :=
      (insertBlock_perm (List.nodup_cons.mp hmid.of_append_right).1).append_left bs
    exact (ih (hinsert.nodup_iff.mpr hmid)).trans (hinsert.trans List.perm_middle)

/-- The removal cascade moves blocks from the free list to the retired set and loses none (R146). -/
theorem unused_cascade {st : Store} (h : st.unused.Nodup) : st.cascade.unused.Perm st.unused := by
  let gone := st.free.takeWhile st.isRetired
  let left := st.free.dropWhile st.isRetired
  have hsplit : st.free.Perm (left ++ gone) := by
    rw [← List.takeWhile_append_dropWhile (p := st.isRetired) (l := st.free)]
    exact List.perm_append_comm
  have hall : st.unused.Perm (left ++ (gone ++ st.retired)) := by
    rw [← List.append_assoc]
    exact hsplit.append_right _
  have hretire : (retireBlocks gone st.retired).Perm (gone ++ st.retired) :=
    retireBlocks_perm (hall.nodup_iff.mp h).of_append_right
  rw [cascade_eq]
  exact (hretire.append_left left).trans hall.symm

/-- The blocks of a freed chain join those that no packet holds, each once (R148). -/
theorem unused_freeChain {st : Store} {first : Block} (h : (st.unused ++ st.chain first).Nodup) :
    (st.freeChain first).unused.Perm (st.unused ++ st.chain first) := by
  let usable := (st.chain first).filter fun b => !st.isRetired b
  let out := (st.chain first).filter st.isRetired
  have hsplit : (st.chain first).Perm (usable ++ out) :=
    (List.filter_append_perm st.isRetired _).symm.trans List.perm_append_comm
  have hall : (st.unused ++ st.chain first).Perm ((st.free ++ usable) ++ (out ++ st.retired)) := by
    refine (hsplit.append_left _).trans ?_
    rw [Store.unused, List.append_assoc, List.append_assoc]
    refine List.Perm.append_left _ (List.perm_append_comm.trans ?_)
    rw [List.append_assoc]
  have hretire : (retireBlocks out st.retired).Perm (out ++ st.retired) :=
    retireBlocks_perm (hall.nodup_iff.mp h).of_append_right
  rw [freeChain_eq]
  exact (hretire.append_left _).trans hall.symm

/-- The blocks of chains freed one after another join those that no packet holds, each once (R35, R148). -/
theorem unused_freeAll {st : Store} {cut : List Record}
    (h : (st.unused ++ cut.flatMap fun r => st.chain r.first).Nodup) :
    (st.freeAll cut).unused.Perm (st.unused ++ cut.flatMap fun r => st.chain r.first) := by
  induction cut generalizing st with
  | nil =>
    rw [List.flatMap_nil, List.append_nil]
    exact .refl _
  | cons r cut ih =>
    rw [List.flatMap_cons, ← List.append_assoc] at h ⊢
    have hfirst := unused_freeChain h.of_append_left
    have hrest : (cut.flatMap fun r' => (st.freeChain r.first).chain r'.first)
        = cut.flatMap fun r => st.chain r.first :=
      List.flatMap_congr fun r' _ => chain_congr (freeChain_links st r.first) r'.first
    have hsame := hfirst.append_right (cut.flatMap fun r => st.chain r.first)
    have hall := ih (st := st.freeChain r.first) (by rw [hrest]; exact hsame.nodup_iff.mpr h)
    rw [hrest] at hall
    exact hall.trans hsame

/-- Blocks taken leave the free list, and with those met on the way to the retired set they are all that leave (R146,
R147). -/
theorem unused_takeBlocks {n : Nat} {st st' : Store} {bs : List Block} (h : st.takeBlocks n = some (bs, st'))
    (hn : st.unused.Nodup) : st.unused.Perm (bs ++ st'.unused) := by
  induction n generalizing st bs with
  | zero =>
    cases h
    exact .refl _
  | succ n ih =>
    unfold Store.takeBlocks Store.takeHead at h
    cases hf : st.free with
    | nil => simp [hf] at h
    | cons b fs =>
      simp only [hf] at h
      split at h
      · cases h
      · rename_i bs1 st2 hk
        cases h
        have hall : st.unused = b :: Store.unused { st with free := fs } := by
          rw [Store.unused, hf]
          rfl
        rw [hall] at hn ⊢
        have hcascade := unused_cascade (List.nodup_cons.mp hn).2
        exact (hcascade.symm.trans (ih hk (hcascade.nodup_iff.mpr (List.nodup_cons.mp hn).2))).cons b

/-! ### Chains -/

/-- A chain depends on the links of its own blocks alone. -/
theorem chain_of_next {st st' : Store} {b : Block} (h : ∀ c ∈ st.chain b, st'.next c = st.next c) :
    st'.chain b = st.chain b := by
  have hfuel (fuel : Nat) (b : Block) (h : ∀ c ∈ st.chainFrom fuel b, st'.next c = st.next c) :
      st'.chainFrom fuel b = st.chainFrom fuel b := by
    induction fuel generalizing b with
    | zero => rfl
    | succ fuel ih =>
      unfold Store.chainFrom at h ⊢
      rw [h b List.mem_cons_self]
      cases hnext : st.next b with
      | none => rfl
      | some b' =>
        rw [hnext] at h
        simp only [ih b' fun c hc => h c (List.mem_cons_of_mem _ hc)]
  exact hfuel _ b h

/-- An allocation takes its chain out of the blocks that no packet holds, and links those blocks alone (R147). -/
theorem allocate_chain {n : Nat} {st st' : Store} {first : Block} (h : st.allocate n = some (first, st')) (hn : n ≤ 8)
    (hw : st.wf = true) (hnd : st.unused.Nodup) : (st'.chain first).length = n
      ∧ st.unused.Perm (st'.chain first ++ st'.unused) ∧ ∀ b, b ∉ st'.chain first → st'.next b = st.next b := by
  unfold Store.allocate at h
  split at h
  · rename_i b bs st1 hk
    cases h
    obtain ⟨hframe, hlen, -⟩ := takeBlocks_keeps hk
    have hperm := unused_takeBlocks hk hnd
    have hlinks : cellsWf none st1.links = true := by
      rw [hframe]
      obtain ⟨-, hw⟩ : _ ∧ cellsWf none st.links = true := by simpa only [Store.wf, Bool.and_eq_true] using hw
      exact hw
    have hbs : (first :: bs).Nodup := (hperm.nodup_iff.mp hnd).of_append_left
    obtain ⟨hnext, hothers⟩ := linkBlocks_spec (first :: bs) st1 hbs hlinks
    have hchain : (Store.linkBlocks (first :: bs) st1).chain first = first :: bs :=
      chainFrom_list _ _ Config.maxChain first bs rfl (hlen ▸ hn) hnext
    have hst : (Store.linkBlocks (first :: bs) st1).unused = st1.unused := by rw [(linkBlocks_keeps _ _).1]; rfl
    rw [hchain, hst]
    refine ⟨hlen, hperm, fun c hc => (hothers c hc).trans ?_⟩
    rw [hframe]
    rfl
  · cases h

end Sys2Proof.Machine

namespace Sys2Proof.Machine

open Sys2Proof

/-! ### The packets that hold a chain -/

/-- A packet as `State.packets` lists it. -/
def Record.packet (r : Record) : Block × Nat := (r.first, r.len)

/-- The packet being written, if any. -/
def State.writePacket (s : State) : List (Block × Nat) := (s.feed.write.map fun w => (w.first, w.len)).toList

/-- The packet in the slot, if any. -/
def State.slotPacket (s : State) : List (Block × Nat) := (s.egress.slot.map fun sl => (sl.first, sl.len)).toList

/-- The packets that wait in the rings of the given streams. -/
def State.ringPackets (s : State) (ns : List Stream) : List (Block × Nat) :=
  ns.flatMap fun n => (s.ctx n).ring.map Record.packet

theorem packets_eq (s : State) : s.packets = s.ringPackets allStreams ++ s.writePacket ++ s.slotPacket := rfl

theorem writePacket_of_none {s : State} (h : s.feed.write = none) : s.writePacket = [] := by
  rw [State.writePacket, h]
  rfl

theorem writePacket_of_some {s : State} {w : WriteRec} (h : s.feed.write = some w) :
    s.writePacket = [(w.first, w.len)] := by
  rw [State.writePacket, h]
  rfl

theorem writePacket_congr {s t : State} (h : t.feed.write = s.feed.write) : t.writePacket = s.writePacket := by
  rw [State.writePacket, h, State.writePacket]

theorem slotPacket_of_none {s : State} (h : s.egress.slot = none) : s.slotPacket = [] := by
  rw [State.slotPacket, h]
  rfl

theorem slotPacket_of_some {s : State} {sl : Slot} (h : s.egress.slot = some sl) :
    s.slotPacket = [(sl.first, sl.len)] := by
  rw [State.slotPacket, h]
  rfl

theorem slotPacket_congr {s t : State} (h : t.egress.slot = s.egress.slot) : t.slotPacket = s.slotPacket := by
  rw [State.slotPacket, h, State.slotPacket]

theorem ringPackets_congr {s t : State} {ns : List Stream} (h : ∀ n ∈ ns, (t.ctx n).ring = (s.ctx n).ring) :
    t.ringPackets ns = s.ringPackets ns :=
  List.flatMap_congr fun n hn => by rw [h n hn]

/-- The packets of one stream's ring stand beside those of all others. -/
theorem ringPackets_split (s : State) (n : Stream) :
    (s.ringPackets allStreams).Perm ((s.ctx n).ring.map Record.packet ++ s.ringPackets (allStreams.erase n)) :=
  (List.perm_cons_erase (List.mem_finRange n)).flatMap_right _

/-- A change of one stream's ring leaves the packets of all others. -/
theorem ringPackets_erase {s t : State} {n : Stream} (h : ∀ m, m ≠ n → (t.ctx m).ring = (s.ctx m).ring) :
    t.ringPackets (allStreams.erase n) = s.ringPackets (allStreams.erase n) :=
  ringPackets_congr fun m hm => h m ((List.nodup_finRange 16).mem_erase_iff.mp hm).1

/-- A ring that loses records at its head loses their packets, and no other packet moves. -/
theorem packets_of_ring_cut {s t : State} {n : Stream} {cut : List Record}
    (hself : (s.ctx n).ring = cut ++ (t.ctx n).ring) (hothers : ∀ m, m ≠ n → (t.ctx m).ring = (s.ctx m).ring)
    (hwrite : t.feed.write = s.feed.write) (hslot : t.egress.slot = s.egress.slot) :
    s.packets.Perm (cut.map Record.packet ++ t.packets) := by
  have hs := ringPackets_split s n
  rw [hself, List.map_append, List.append_assoc, ← ringPackets_erase hothers] at hs
  have hrings := hs.trans ((ringPackets_split t n).symm.append_left _)
  rw [packets_eq, packets_eq, writePacket_congr hwrite, slotPacket_congr hslot]
  simpa only [List.append_assoc] using (hrings.append_right s.writePacket).append_right s.slotPacket

/-! ### What keeps the blocks conserved -/

/-- If from `s` to `t` no chain changes, some packets are given up, and exactly their blocks join those that no packet
holds, the blocks stay conserved (R144, R148). -/
theorem blocksConserved_of_freed {s t : State} {freed : List (Block × Nat)} (hs : s.blocksConserved)
    (hlinks : t.store.links = s.store.links) (hpackets : s.packets.Perm (freed ++ t.packets))
    (hunused : (s.store.unused ++ freed.flatMap fun p => s.store.chain p.1).Nodup →
      t.store.unused.Perm (s.store.unused ++ freed.flatMap fun p => s.store.chain p.1)) : t.blocksConserved := by
  obtain ⟨hnodup, hlength, hsound⟩ := hs
  have hchain (b : Block) : t.store.chain b = s.store.chain b := chain_congr hlinks b
  have hused : s.usedBlocks.Perm ((freed.flatMap fun p => s.store.chain p.1) ++ t.usedBlocks) := by
    have h := hpackets.flatMap_right fun p => s.store.chain p.1
    rw [List.flatMap_append] at h
    simpa only [State.usedBlocks, hchain] using h
  have hall : (s.store.unused ++ s.usedBlocks).Perm
      ((s.store.unused ++ freed.flatMap fun p => s.store.chain p.1) ++ t.usedBlocks) := by
    rw [List.append_assoc]
    exact hused.append_left _
  have hmoved := (hunused (hall.nodup_iff.mp hnodup).of_append_left).append_right t.usedBlocks
  have hperm : (t.store.unused ++ t.usedBlocks).Perm (s.store.unused ++ s.usedBlocks) := hmoved.trans hall.symm
  refine ⟨hperm.nodup_iff.mpr hnodup, ?_, fun p hp => ?_⟩
  · have h := hperm.length_eq
    simp only [Store.unused, List.length_append] at h
    omega
  · rw [hchain]
    exact hsound p (hpackets.mem_iff.mpr (List.mem_append_right _ hp))

/-- A part with the store as cold start leaves it and no packet conserves its blocks (R144). -/
theorem blocksConserved_of_cold {t : State} (hstore : t.store = .cold) (hpackets : t.packets = []) :
    t.blocksConserved := by
  have hfree : t.store.free = State.reset.store.free := by rw [hstore]; rfl
  have hretired : t.store.retired = [] := by rw [hstore]; rfl
  have hused : t.usedBlocks = [] := by rw [State.usedBlocks, hpackets]; rfl
  refine ⟨?_, ?_, ?_⟩
  · rw [hused, hretired, List.append_nil, List.append_nil, hfree]
    exact reset_free_nodup
  · rw [hused, hretired, hfree, reset_free_length]
    rfl
  · rw [hpackets]
    intro p hp
    cases hp

theorem packets_of_rings_empty {t : State} (hrings : ∀ n, (t.ctx n).ring = []) (hwrite : t.feed.write = none)
    (hslot : t.egress.slot = none) : t.packets = [] := by
  have h : t.ringPackets allStreams = [] := List.flatMap_eq_nil_iff.mpr fun n _ => by rw [hrings n]; rfl
  rw [packets_eq, h, writePacket_of_none hwrite, slotPacket_of_none hslot]
  rfl

theorem blocksConserved_coldStart (s : State) : s.coldStart.blocksConserved :=
  blocksConserved_of_cold rfl (packets_of_rings_empty (fun n => by rw [ctx_coldStart]; rfl) rfl rfl)

/-- What conserves the blocks from `s` to `t`. -/
structure BlocksKept (s t : State) : Prop where
  conserved : s.blocksConserved → t.blocksConserved

theorem BlocksKept.refl (s : State) : BlocksKept s s := ⟨id⟩

theorem BlocksKept.trans {s t u : State} (h : BlocksKept s t) (g : BlocksKept t u) : BlocksKept s u :=
  ⟨fun hs => g.conserved (h.conserved hs)⟩

/-- No packet is given up: the packets only change place, and the unused blocks theirs. -/
theorem BlocksKept.of_moved {s t : State} (hlinks : t.store.links = s.store.links) (hpackets : s.packets.Perm t.packets)
    (hunused : s.store.unused.Nodup → t.store.unused.Perm s.store.unused) : BlocksKept s t := by
  refine ⟨fun hs => blocksConserved_of_freed (freed := []) hs hlinks hpackets ?_⟩
  rw [List.flatMap_nil, List.append_nil]
  exact hunused

/-- One packet is given up and its chain freed (R84, R148). -/
theorem BlocksKept.of_freed {s t : State} {first : Block} {len : Nat} (hstore : t.store = s.store.freeChain first)
    (hpackets : s.packets.Perm ((first, len) :: t.packets)) : BlocksKept s t := by
  refine ⟨fun hs => blocksConserved_of_freed (freed := [(first, len)]) hs (by rw [hstore, freeChain_links]) hpackets ?_⟩
  rw [List.flatMap_singleton, hstore]
  exact unused_freeChain

/-- Nothing of the free list, the retired set, the links and the packets changes. -/
theorem BlocksKept.of_same {s t : State} (hfree : t.store.free = s.store.free)
    (hretired : t.store.retired = s.store.retired) (hlinks : t.store.links = s.store.links)
    (hrings : ∀ n, (t.ctx n).ring = (s.ctx n).ring) (hwrite : t.writePacket = s.writePacket)
    (hslot : t.slotPacket = s.slotPacket) : BlocksKept s t := by
  refine .of_moved hlinks (.of_eq ?_) fun _ => .of_eq (unused_congr hfree hretired)
  rw [packets_eq, packets_eq, ringPackets_congr fun n _ => hrings n, hwrite, hslot]

/-- Nothing of the store, the rings, the write path and the slot changes. -/
theorem BlocksKept.of_eq {s t : State} (hstore : t.store = s.store) (hrings : ∀ n, (t.ctx n).ring = (s.ctx n).ring)
    (hwrite : t.feed.write = s.feed.write) (hslot : t.egress.slot = s.egress.slot) : BlocksKept s t :=
  .of_same (by rw [hstore]) (by rw [hstore]) (by rw [hstore]) hrings (writePacket_congr hwrite)
    (slotPacket_congr hslot)

/-- A state of the same store, rings, write path and slot may stand in between. -/
theorem BlocksKept.after {s u t : State} (h : BlocksKept u t) (hstore : u.store = s.store) (hctxs : u.ctxs = s.ctxs)
    (hwrite : u.feed.write = s.feed.write) (hslot : u.egress.slot = s.egress.slot) : BlocksKept s t :=
  (BlocksKept.of_eq hstore (fun n => by rw [ctx_congr hctxs n]) hwrite hslot).trans h

theorem blocksKept_raise (s : State) (code : EventCode) (subject detail : Nat) :
    BlocksKept s (s.raise code subject detail) :=
  .of_eq (by simp) (fun n => by simp) (by simp) (by simp)

theorem blocksKept_raiseAll (s : State) (events : List Raised) : BlocksKept s (s.raiseAll events) :=
  .of_eq (by simp) (fun n => by simp) (by simp) (by simp)

end Sys2Proof.Machine

namespace Sys2Proof.Machine

open Sys2Proof

/-! ### Blocks through the epochs -/

/-- What a cut takes and what it leaves are the ring (R35). -/
theorem cutFrame_append (ring : List Record) : (cutFrame ring).1 ++ (cutFrame ring).2.1 = ring := by
  induction ring with
  | nil => rfl
  | cons r rs ih =>
    unfold cutFrame
    split
    · rfl
    · exact congrArg (r :: ·) ih

theorem trimmed_ring (cfg : StreamCfg) (e : Time) (c : Context) : (c.trimmed cfg e).ring = (cutFrame c.ring).2.1 := by
  unfold Context.trimmed
  simp only []
  split <;> rfl

theorem overrun_ring (cfg : StreamCfg) (e : Time) (c : Context) : (c.overrun cfg e).ring
    = if cfg.policy = .trim ∨ c.owing = true then (cutFrame c.ring).2.1 else c.ring := by
  unfold Context.overrun
  cases hp : cfg.policy with
  | trim => simp [trimmed_ring]
  | finish => cases ho : c.owing <;> simp [trimmed_ring]

theorem countIdle_ring (cfg : StreamCfg) (c : Context) : (c.countIdle cfg).ring = c.ring := by
  unfold Context.countIdle
  split <;> rfl

/-- A stream epoch cuts the ring where it trims, and else leaves it (R30, R34, R35). -/
theorem atEpoch_ring (cfg : StreamCfg) (e : Time) (c : Context) : (c.atEpoch cfg e).ring
    = if c.trimsAt cfg = true then (cutFrame c.ring).2.1 else c.ring := by
  cases hst : c.st with
  | disabled => simp [Context.trimsAt, Context.unfinished, Context.atEpoch, hst]
  | quiet => simp [Context.trimsAt, Context.unfinished, Context.atEpoch, hst]
  | primed => simp [Context.trimsAt, Context.unfinished, Context.atEpoch, hst, startFrame]
  | drained =>
    have htrims : c.trimsAt cfg = false := by simp [Context.trimsAt, Context.unfinished, hst]
    simp only [Context.atEpoch, hst, htrims, Bool.false_eq_true, if_false]
    split
    · rfl
    · split
      · exact countIdle_ring cfg c
      · rfl
  | sending => simp [Context.trimsAt, Context.unfinished, Context.atEpoch, hst, overrun_ring]
  | starved => simp [Context.trimsAt, Context.unfinished, Context.atEpoch, hst, overrun_ring]

/-- What a stream epoch cuts and what it leaves are the ring (R35). -/
theorem epochCtx_ring (e : Time) (c : Context) : c.ring = c.cuts ++ (epochCtx e c).ring := by
  unfold Context.cuts Context.trims epochCtx
  cases c.cfg with
  | none => rfl
  | some cfg =>
    simp only [atEpoch_ring]
    split
    · exact (cutFrame_append c.ring).symm
    · rfl

/-- A stream epoch frees the chains of the records it cuts, and no packet else moves (R35). -/
theorem blocksKept_streamEpoch (s : State) (n : Stream) (e : Time) : BlocksKept s (s.streamEpoch n e) := by
  obtain ⟨hegress, hstore, -⟩ := epochKeeps_streamEpoch s n e
  have hpackets : s.packets.Perm ((s.ctx n).cuts.map Record.packet ++ (s.streamEpoch n e).packets) := by
    refine packets_of_ring_cut (n := n) ?_ (fun m hm => by rw [ctx_streamEpoch_ne s n m e hm])
      (by rw [streamEpoch_feed]) (by rw [hegress])
    rw [ctx_streamEpoch_self]
    exact epochCtx_ring e (s.ctx n)
  refine ⟨fun hs => blocksConserved_of_freed hs (by rw [hstore]) hpackets ?_⟩
  rw [List.flatMap_map, store_streamEpoch]
  exact unused_freeAll

theorem stage_ring (c : Context) (k : Nat) : (c.stage k).ring = c.ring := by
  unfold Context.stage
  (repeat' split) <;> rfl

theorem blocksKept_shareEpoch (s : State) : BlocksKept s s.shareEpoch := by
  refine .of_eq (by simp) (fun n => ?_) (by simp) (by simp)
  by_cases hb : s.pace.bus = .stuck
  · rw [shareEpoch_of_stuck hb]
  · rw [ctx_shareEpoch hb, stage_ring]

theorem blocksKept_deliver (s : State) (e : Time) (d : Delivery) : BlocksKept s (s.deliver e d) := by
  cases d with
  | stream n => exact blocksKept_streamEpoch s n e
  | share => exact blocksKept_shareEpoch s
  | pace =>
    exact .of_eq (paceEpoch_store s e) (fun n => congrArg Context.ring (ctx_paceEpoch s e n))
      (congrArg Feed.write (paceEpoch_feed s e)) (congrArg Egress.slot (paceEpoch_egress s e))
  | event r => exact blocksKept_raise ..

theorem blocksKept_deliverAll (s : State) (e : Time) (ds : List Delivery) : BlocksKept s (s.deliverAll e ds) := by
  induction ds generalizing s with
  | nil => exact .refl s
  | cons d ds ih => exact (blocksKept_deliver s e d).trans (ih _)

theorem blocksKept_takeFrameEpoch (s : State) (events : List Raised) : BlocksKept s (s.takeFrameEpoch events) :=
  (blocksKept_deliverAll (s.gridTaken events) _ _).after rfl rfl rfl rfl

theorem blocksKept_takeFieldEpoch (s : State) (h : Time) : BlocksKept s (s.takeFieldEpoch h) := by
  rw [takeFieldEpoch_eq]
  exact (blocksKept_deliverAll ..).after rfl rfl rfl rfl

theorem blocksKept_slew (s : State) (e : Int) (events : List Raised) : BlocksKept s (s.slew e events) := by
  cases hr : reached s.t (s.grid.slewed s.cfg e) with
  | true =>
    rw [slew_of_reached events hr]
    exact (blocksKept_takeFrameEpoch (s.moveNext e) events).after rfl rfl rfl rfl
  | false =>
    rw [slew_of_not_reached events hr]
    exact (blocksKept_raiseAll (s.moveNext e) events).after rfl rfl rfl rfl

theorem blocksKept_stepAndLock (s : State) (cr : Time) (cause lockDetail : Nat) :
    BlocksKept s (s.stepAndLock cr cause lockDetail) :=
  .of_eq (by simp) (fun n => by rw [ctx_congr (stepAndLock_ctxs ..) n]) (by simp) (by simp)

theorem blocksKept_lockPulse (s : State) (cr : Time) : BlocksKept s (s.lockPulse cr) := by
  have relocked (e : Int) (events : List Raised) :
      BlocksKept s (State.slew { s with grid := s.grid.relock } e events) :=
    (blocksKept_slew ..).after rfl rfl rfl rfl
  unfold State.lockPulse
  simp only []
  (repeat' split)
  · exact .refl s
  · exact blocksKept_stepAndLock ..
  · exact relocked ..
  · exact .of_eq rfl (fun _ => rfl) rfl rfl
  · exact (blocksKept_raise ..).after rfl rfl rfl rfl
  · exact relocked ..
  · exact blocksKept_stepAndLock ..

theorem blocksKept_acceptPulse (s : State) : BlocksKept s s.acceptPulse :=
  (blocksKept_lockPulse s.holdPulse s.grid.cr).after rfl rfl rfl rfl

/-- A sample of REF moves no block, unless it is the fourth high one of a pulse (R9). -/
theorem blocksKept_sampleRef (s : State) (high : Bool) : BlocksKept s (s.sampleRef high) := by
  have grid (g : Grid) : BlocksKept s { s with grid := g } := .of_eq rfl (fun _ => rfl) rfl rfl
  unfold State.sampleRef
  simp only []
  (repeat' split)
  · exact grid _
  · exact grid _
  · exact grid _
  · exact grid _
  · exact grid _
  · exact grid _
  · exact grid _
  · exact blocksKept_acceptPulse s

end Sys2Proof.Machine

namespace Sys2Proof.Machine

open Sys2Proof

/-! ### A packet in the slot or in the write path -/

/-- A packet put into the EMPTY slot is one packet more. -/
theorem packets_of_slot {s t : State} {p : Block × Nat} (hs : s.slotPacket = []) (ht : t.slotPacket = [p])
    (hrings : ∀ n, (t.ctx n).ring = (s.ctx n).ring) (hwrite : t.feed.write = s.feed.write) :
    t.packets.Perm (p :: s.packets) := by
  rw [packets_eq, packets_eq, hs, ht, writePacket_congr hwrite, ringPackets_congr fun n _ => hrings n, List.append_nil]
  exact List.perm_append_comm

/-- A packet put into the FREE write path is one packet more. -/
theorem packets_of_write {s t : State} {p : Block × Nat} (hs : s.writePacket = []) (ht : t.writePacket = [p])
    (hrings : ∀ n, (t.ctx n).ring = (s.ctx n).ring) (hslot : t.egress.slot = s.egress.slot) :
    t.packets.Perm (p :: s.packets) := by
  rw [packets_eq, packets_eq, hs, ht, slotPacket_congr hslot, ringPackets_congr fun n _ => hrings n, List.append_nil]
  exact List.perm_append_comm.append_right _

/-- A record that joins a ring's tail is one packet more. -/
theorem packets_of_arrival {s t : State} {n : Stream} {r : Record} (hself : (t.ctx n).ring = (s.ctx n).ring ++ [r])
    (hothers : ∀ m, m ≠ n → (t.ctx m).ring = (s.ctx m).ring) (hwrite : t.feed.write = s.feed.write)
    (hslot : t.egress.slot = s.egress.slot) : t.packets.Perm (r.packet :: s.packets) := by
  have ht := ringPackets_split t n
  rw [hself, List.map_append, ringPackets_erase hothers, List.append_assoc] at ht
  have hrings : (t.ringPackets allStreams).Perm (r.packet :: s.ringPackets allStreams) :=
    ht.trans (List.perm_middle.trans ((ringPackets_split s n).symm.cons r.packet))
  rw [packets_eq, packets_eq, writePacket_congr hwrite, slotPacket_congr hslot]
  exact (hrings.append_right s.writePacket).append_right s.slotPacket

/-! ### A packet abandoned (R78, R79) -/

theorem abandonSlot_egress (s : State) (sl : Slot) : (s.abandonSlot sl).egress
    = { s.egress with slot := none, offer := false, abandon := true, emptied := true } := rfl

theorem abandonSlot_store (s : State) (sl : Slot) : (s.abandonSlot sl).store = s.store.freeChain sl.first := rfl

theorem ctx_abandonSlot_self (s : State) (sl : Slot) : (s.abandonSlot sl).ctx sl.stream = { s.ctx sl.stream with
    counts := { (s.ctx sl.stream).counts with abandoned := (s.ctx sl.stream).counts.abandoned + 1 } } :=
  ctx_setCtx_self ..

theorem ctx_abandonSlot_ne (s : State) {sl : Slot} {m : Stream} (h : m ≠ sl.stream) :
    (s.abandonSlot sl).ctx m = s.ctx m := ctx_setCtx_ne _ _ h

/-! ### Blocks through the Egress Port -/

/-- An emission that ends gives up its packet and frees the chain (R84). -/
theorem blocksKept_releaseSlot {s : State} {sl : Slot} (h : s.egress.slot = some sl) :
    BlocksKept s (s.releaseSlot sl) :=
  .of_freed rfl (packets_of_slot (s := s.releaseSlot sl) rfl (slotPacket_of_some h) (fun _ => rfl) rfl)

theorem blocksKept_abandonSlot {s : State} {sl : Slot} (h : s.egress.slot = some sl) :
    BlocksKept s (s.abandonSlot sl) := by
  refine (blocksKept_releaseSlot h).trans (.of_eq rfl (fun n => ?_) rfl rfl)
  by_cases hn : n = sl.stream
  · rw [hn, ctx_abandonSlot_self]
    rfl
  · rw [ctx_abandonSlot_ne s hn]
    rfl

/-- The store's work on a failed read moves blocks of a retired bank to the retired set, and loses none (R146, R153). -/
theorem blocksKept_parityError (s : State) (b : Block) : BlocksKept s (s.parityError b) := by
  have hlinks : (s.parityError b).store.links = s.store.links := by
    unfold State.parityError
    simp only []
    split <;> simp [retireBank_store, Store.setBank]
  refine .of_moved hlinks (.of_eq ?_) fun hnodup => ?_
  · rw [packets_eq, packets_eq, writePacket_congr (congrArg Feed.write (parityError_feed s b)),
      slotPacket_congr (congrArg Egress.slot (parityError_egress s b)),
      ringPackets_congr fun n _ => by rw [ctx_congr (parityError_ctxs s b) n]]
  · unfold State.parityError
    simp only []
    split
    · rw [retireBank_store, raise_store]
      exact unused_cascade hnodup
    · rw [raise_store]
      exact .refl _

theorem granted_ring (cfg : StreamCfg) (r : Record) (rest : List Record) (c : Context) :
    (c.granted cfg r rest).ring = rest := by
  unfold Context.granted
  simp only []
  (repeat' split) <;> rfl

/-- The work of a grant takes the head's record from its ring, and no other packet moves (R70). -/
theorem packets_grantWork {s : State} {n : Stream} {cfg : StreamCfg} {r : Record} {rest : List Record}
    (hdue : n ∈ s.dueStreams) (hring : (s.ctx n).ring = r :: rest) :
    s.packets.Perm ((r.first, r.len) :: (s.grantWork n cfg r rest).packets) := by
  obtain ⟨hself, hothers, -, -, hegress⟩ := grantWork_spec s n cfg r rest hdue
  refine packets_of_ring_cut (n := n) (cut := [r]) ?_ (fun m hm => ?_) (by simp) (by rw [hegress])
  · rw [hself, hring]
    exact congrArg (r :: ·) (granted_ring cfg r rest (s.ctx n)).symm
  · rw [hothers m hm]
    split <;> rfl

/-- A granted packet goes to the slot, or its chain is freed (R66, R82, R84). -/
theorem blocksKept_grantHead {s t : State} {n : Stream} (hdue : n ∈ s.dueStreams) (hslot : s.egress.slot = none)
    (h : s.grantHead n = .next t) : BlocksKept s t := by
  obtain ⟨cfg, r, rest, hcfg, hring, -⟩ := dueStreams_parts s n hdue
  have hwork : s.packets.Perm ((r.first, r.len) :: (s.grantWork n cfg r rest).packets) := packets_grantWork hdue hring
  obtain ⟨-, -, -, -, hegress⟩ := grantWork_spec s n cfg r rest hdue
  have hempty : (s.grantWork n cfg r rest).slotPacket = [] := slotPacket_of_none (by rw [hegress]; exact hslot)
  simp only [State.grantHead, hcfg, hring] at h
  (repeat' split at h) <;> cases h
  · rename_i st hst
    obtain ⟨hstore, -⟩ := stampPacket_keeps hst
    refine .of_moved (by rw [hstore]) ?_ fun _ => .of_eq (unused_congr (by rw [hstore]) (by rw [hstore]))
    refine hwork.trans (List.Perm.symm ?_)
    exact packets_of_slot hempty rfl (fun _ => rfl) rfl
  · exact .of_freed rfl hwork

theorem blocksKept_takeDue (s : State) : BlocksKept s s.takeDue :=
  .of_eq (takeDue_store s) (fun n => by rw [takeDue_ctx]) (by rw [takeDue_feed]) (by rw [takeDue_egress])

theorem blocksKept_followLink (s : State) : BlocksKept s s.followLink := by
  unfold State.followLink
  split
  · exact .refl s
  · exact (blocksKept_raise ..).after rfl rfl rfl rfl

theorem slot_of_grantReady {s : State} (h : s.grantReady = true) : s.egress.slot = none := by
  simp only [State.grantReady, Bool.and_eq_true, Option.isNone_iff_eq_none] at h
  obtain ⟨⟨-, hslot⟩, -⟩ := h
  exact hslot

/-! ### Blocks through Feed Intake -/

theorem write_of_selectReady {s : State} (h : s.selectReady = true) : s.feed.write = none := by
  simp only [State.selectReady, Bool.and_eq_true, Option.isNone_iff_eq_none] at h
  obtain ⟨⟨-, hfree⟩, -⟩ := h
  exact hfree

/-- Row 8 of R133 needs a length from 16 to 2,048. -/
theorem judge_store_length {s : State} {n : Stream} {o : Offer} (h : s.judge n o = .store) :
    16 ≤ o.len ∧ o.len ≤ 2048 := by
  unfold State.judge at h
  (repeat' split at h) <;> try cases h
  omega

/-- A packet of at most 2,048 bytes needs at most 8 blocks (R145). -/
theorem blocksFor_le {len : Nat} (h : len ≤ 2048) : blocksFor len ≤ 8 := by
  unfold blocksFor ceilDiv Config.blockBytes
  omega

/-- A packet whose chain is allocated takes its blocks from those that no packet holds (R140, R147). -/
theorem blocksConserved_of_allocated {s t : State} {first : Block} {len : Nat} (hs : s.blocksConserved)
    (hwf : s.store.wf = true) (hlow : 16 ≤ len) (hhigh : len ≤ 2048)
    (halloc : s.store.allocate (blocksFor len) = some (first, t.store))
    (hpackets : t.packets.Perm ((first, len) :: s.packets)) : t.blocksConserved := by
  obtain ⟨hnodup, hlength, hsound⟩ := hs
  obtain ⟨hfree, -, hapart⟩ := List.nodup_append.mp hnodup
  obtain ⟨hcount, htaken, hnext⟩ := allocate_chain halloc (blocksFor_le hhigh) hwf hfree
  have hchain (p : Block × Nat) (hp : p ∈ s.packets) : t.store.chain p.1 = s.store.chain p.1 := by
    refine chain_of_next fun c hc => hnext c fun hnew => ?_
    have hunused : c ∈ s.store.unused := htaken.mem_iff.mpr (List.mem_append_left _ hnew)
    exact hapart c hunused c (List.mem_flatMap.mpr ⟨p, hp, hc⟩) rfl
  have hused : t.usedBlocks.Perm (t.store.chain first ++ s.usedBlocks) := by
    refine (hpackets.flatMap_right _).trans (.of_eq ?_)
    rw [List.flatMap_cons, List.flatMap_congr hchain]
    rfl
  have hperm : (t.store.unused ++ t.usedBlocks).Perm (s.store.unused ++ s.usedBlocks) := by
    refine (hused.append_left _).trans ?_
    rw [← List.append_assoc]
    exact (List.perm_append_comm.trans htaken.symm).append_right _
  refine ⟨hperm.nodup_iff.mpr hnodup, ?_, fun p hp => ?_⟩
  · have h := hperm.length_eq
    simp only [Store.unused, List.length_append] at h
    omega
  · rcases List.mem_cons.mp (hpackets.mem_iff.mp hp) with rfl | hold
    · exact ⟨hlow, hhigh, hcount⟩
    · rw [hchain p hold]
      exact hsound p hold

/-- A stored offer's packet stands in the write path with its chain, or there was no chain to allocate (R140). -/
theorem blocksKept_storeOffer {s : State} {n : Stream} {o : Offer} (hfree : s.feed.write = none)
    (hwf : s.store.wf = true) (hlow : 16 ≤ o.len) (hhigh : o.len ≤ 2048) : BlocksKept s (s.storeOffer n o) := by
  cases halloc : s.store.allocate (blocksFor o.len) with
  | none =>
    have hsame : s.storeOffer n o = s := by simp only [State.storeOffer, halloc]
    rw [hsame]
    exact .refl s
  | some q =>
    obtain ⟨first, st⟩ := q
    have hstore : (s.storeOffer n o).store = st := by simp [State.storeOffer, halloc]
    have hwrite : (s.storeOffer n o).writePacket = [(first, o.len)] := by
      simp [State.writePacket, State.storeOffer, halloc]
    have hpackets : (s.storeOffer n o).packets.Perm ((first, o.len) :: s.packets) :=
      packets_of_write (writePacket_of_none hfree) hwrite (fun n => by rw [ctx_congr (storeOffer_ctxs ..) n]) (by simp)
    exact ⟨fun hs => blocksConserved_of_allocated hs hwf hlow hhigh (by rw [halloc, hstore]) hpackets⟩

theorem indexOffer_write (s : State) (n : Stream) (o : Offer) : (s.indexOffer n o).feed.write = s.feed.write := by
  unfold State.indexOffer
  simp only []
  split <;> simp

theorem takeUnconfigured_write (s : State) (n : Stream) (o : Offer) :
    (s.takeUnconfigured n o).feed.write = s.feed.write := by
  unfold State.takeUnconfigured
  simp only []
  split <;> simp [State.answer]

theorem takeBadLength_write (s : State) (n : Stream) (o : Offer) :
    (s.takeBadLength n o).feed.write = s.feed.write := by
  simp [State.takeBadLength, State.answer]

/-- A selection that finds the write path FREE allocates a chain for the packet it stores, and moves no other packet
(R131, R133). -/
theorem blocksKept_select {s : State} (n : Stream) (hfree : s.feed.write = none) (hwf : s.store.wf = true) :
    BlocksKept s (s.select n) := by
  unfold State.select
  split
  · exact .refl s
  · rename_i o _
    refine BlocksKept.after (u := { s with feed := { s.feed with ptr := n + 1 } }) ?_ rfl rfl rfl rfl
    cases hj : s.judge n o with
    | hold => exact .refl _
    | unconfigured =>
      exact .of_eq (by simp [State.carryOut]) (fun m => by rw [State.carryOut, ctx_congr (takeUnconfigured_ctxs ..) m])
        (takeUnconfigured_write ..) (by simp)
    | discard =>
      refine .of_eq (by simp [State.carryOut]) (fun m => ?_) (indexOffer_write ..) (by simp)
      rw [State.carryOut, ctx_takeDiscard]
      split
      · rename_i hm
        rw [hm]
      · rfl
    | badLength =>
      exact .of_eq (by simp [State.carryOut]) (fun m => by rw [State.carryOut, ctx_congr (takeBadLength_ctxs ..) m])
        (takeBadLength_write ..) (by simp)
    | store =>
      obtain ⟨hlow, hhigh⟩ := judge_store_length hj
      exact blocksKept_storeOffer hfree hwf hlow hhigh

/-- A completed write's packet joins its ring, or its chain is freed (R141). -/
theorem blocksKept_completeWrite {s : State} {w : WriteRec} (hwrite : s.feed.write = some w) :
    BlocksKept s (s.completeWrite w) := by
  have hwritten : s.packets.Perm ((w.first, w.len) :: s.freePath.packets) :=
    packets_of_write (s := s.freePath) rfl (writePacket_of_some hwrite) (fun _ => rfl) rfl
  have hslot : (s.completeWrite w).egress.slot = s.freePath.egress.slot := by simp
  have hothers (m : Stream) (hm : m ≠ w.stream) : ((s.completeWrite w).ctx m).ring = (s.freePath.ctx m).ring := by
    rw [completeWrite_ctx, if_neg hm]
    rfl
  have hself := completeWrite_ctx s w w.stream
  rw [if_pos rfl] at hself
  cases hd : (s.ctx w.stream).discard with
  | true =>
    rw [if_pos hd] at hself
    have hrings (m : Stream) : (s.freePath.ctx m).ring = ((s.completeWrite w).ctx m).ring := by
      by_cases hm : m = w.stream
      · rw [hm, hself]
        rfl
      · exact (hothers m hm).symm
    refine .of_freed (len := w.len) (by rw [store_completeWrite, if_pos hd]) (hwritten.trans (.of_eq ?_))
    rw [packets_eq, packets_eq, ringPackets_congr fun m _ => hrings m, slotPacket_congr hslot]
    rfl
  | false =>
    rw [if_neg (by simp [hd])] at hself
    have harrived : (s.completeWrite w).packets.Perm ((w.first, w.len) :: s.freePath.packets) :=
      packets_of_arrival (r := w.record s.t) (by rw [hself]; rfl) hothers rfl hslot
    have hstore : (s.completeWrite w).store = s.store := by rw [store_completeWrite, if_neg (by simp [hd])]
    exact .of_moved (by rw [hstore]) (hwritten.trans harrived.symm) fun _ => by rw [hstore]

/-- A withdrawn write gives up its packet and frees the chain; OFFER moves no other packet (R142). -/
theorem blocksKept_offerFalls (s : State) (n : Stream) : BlocksKept s (s.offerFalls n) := by
  have line (c : Channel) : BlocksKept s (s.setChan n c) := .of_eq rfl (fun _ => rfl) rfl rfl
  unfold State.offerFalls
  (repeat' split)
  · rename_i w _ hwrite _
    have hundone : BlocksKept s (s.undone n w) :=
      .of_freed (t := s.undone n w) (len := w.len) rfl
        (packets_of_write (s := s.undone n w) rfl (writePacket_of_some hwrite) (fun _ => rfl) rfl)
    exact hundone.trans (blocksKept_raise ..)
  · exact .refl s
  · exact .refl s
  · exact line _
  · exact line _
  · exact line _

/-- The bytes that a write reads at a tick move no block (R140). -/
theorem blocksKept_writeTick {s u : State} (h : s.writeTick = some u) : BlocksKept s u := by
  unfold State.writeTick at h
  split at h
  · cases h
    exact .refl s
  · rename_i w hwrite
    simp only [] at h
    split at h
    · cases h
    · rename_i st hst
      cases h
      obtain ⟨hstore, -⟩ := writeBytes_keeps hst
      refine .of_same (by rw [hstore]) (by rw [hstore]) (by rw [hstore]) (fun _ => rfl) ?_ rfl
      rw [writePacket_of_some hwrite]
      rfl

/-! ### Blocks through the other parts -/

/-- The work of a request moves no block (R177). -/
theorem RequestWork.blocksKept {s t : State} (h : RequestWork s t) (hctxs : t.ctxs = s.ctxs) (hfeed : t.feed = s.feed) :
    BlocksKept s t :=
  .of_same h.free h.retired h.links (fun n => by rw [ctx_congr hctxs n]) (writePacket_congr (by rw [hfeed]))
    (slotPacket_congr h.slot)

/-- In LOAD a byte moves no block: the rings that RUN entry empties are empty (R170). -/
theorem blocksKept_receiveByte_loading {s : State} (b : Byte) (hl : s.loader.part = .load) (hcold : s.coldOutsideRun) :
    BlocksKept s (s.receiveByte b) := by
  have hstored : (s.withByte b).store = s.store ∧ (s.withByte b).egress.slot = s.egress.slot := by
    simp [State.withByte]
  obtain ⟨hstore, hslot⟩ : (s.receiveByte b).store = s.store ∧ (s.receiveByte b).egress.slot = s.egress.slot := by
    rcases receiveByte_load_cases b hl with h | ⟨f, pos, h⟩ | ⟨part, rs, h⟩ <;> rw [h]
    · exact hstored
    · simpa using hstored
    · simp only [State.enterRun]
      rw [foldl_keeps (·.store) (fun s r => enableStream_store s _ r),
        foldl_keeps (·.egress) (fun s r => enableStream_egress s _ r)]
      exact hstored
  refine .of_eq hstore (fun n => ?_) (by rw [receiveByte_feed]) hslot
  obtain ⟨-, hctxs, -⟩ := hcold (by simp [hl])
  rcases loadByte_ctx s b hl n with h | ⟨cfg, -, -, h⟩ <;> rw [h]
  rw [hctxs n]
  rfl

theorem blocksKept_receiveByte {s : State} (b : Byte) (hcold : s.coldOutsideRun) :
    BlocksKept s (s.receiveByte b) := by
  by_cases hl : s.loader.part = .load
  · exact blocksKept_receiveByte_loading b hl hcold
  · exact (requestWork_receiveByte s b hl).blocksKept (by simp [receiveByte_requesting b hl]) (receiveByte_feed s b)

end Sys2Proof.Machine

namespace Sys2Proof.Machine

open Sys2Proof

/-! ### Blocks through a step -/

/-- The commands that can move a block or a packet without a cold start, a byte on MRX, or the removal of power. -/
def movesBlocks : Instr → Bool
  | .frameEpoch | .fieldEpoch | .refPulseAccepted | .refSampled _ | .starve _ | .grant | .egressByte | .done
  | .egressStall | .linkChange _ | .intakeSelection | .writeComplete | .feedWithdrawn _ | .offerDeasserted _
  | .imageByte _ | .requestByte _ | .responseComplete | .powerRemoved => true
  | _ => false

/-- What a command other than a cold start leaves of the power, the Egress Port and the store. -/
theorem exec_power_blocks {c : Instr} {s t : State} (h : exec c s = .next t) (hc : startsCold c = false) :
    (c ≠ .powerRemoved → t.powered = s.powered)
      ∧ (movesBlocks c = false → t.egress = s.egress ∧ t.store = s.store) := by
  cases c with
  | coldAssert => cases hc
  | powerUp => cases hc
  | coldRelease => simp [coldRelease_keeps h]
  | imageByte b => simp [imageByte_keeps h, movesBlocks]
  | imageStalled => simp [imageStalled_keeps h]
  | frameEpoch => simp [frameEpoch_keeps h, movesBlocks]
  | fieldEpoch => simp [fieldEpoch_keeps h, movesBlocks]
  | refPulseAccepted => simp [refPulseAccepted_keeps h, movesBlocks]
  | starve n => simp [starve_keeps h, movesBlocks]
  | grant => simp [grant_keeps h, movesBlocks]
  | egressByte => simp [egressByte_keeps h, movesBlocks]
  | done => simp [done_keeps h, movesBlocks]
  | egressStall => simp [egressStall_keeps h, movesBlocks]
  | linkChange up => simp [linkChange_keeps h, movesBlocks]
  | offerPresented n length frameEnd data => simp [offerPresented_keeps h]
  | intakeSelection => simp [intakeSelection_keeps h, movesBlocks]
  | writeComplete => simp [writeComplete_keeps h, movesBlocks]
  | feedWithdrawn n => simp [feedWithdrawn_keeps h, movesBlocks]
  | noticeDue => simp [noticeDue_keeps h]
  | noticeStart => simp [noticeStart_keeps h]
  | arbitrationLost => simp [arbitrationLost_keeps h]
  | noticeBiterr => simp [noticeBiterr_keeps h]
  | noticeComplete => simp [noticeComplete_keeps h]
  | noticeFraming => simp [noticeFraming_keeps h]
  | receiveSettled => simp [receiveSettled_keeps h]
  | busStuck => simp [busStuck_keeps h]
  | busRestored => simp [busRestored_keeps h]
  | requestByte b => simp [requestByte_keeps h, movesBlocks]
  | lineError => simp [lineError_keeps h]
  | responseComplete => simp [responseComplete_keeps h, movesBlocks]
  | discardEnd => simp [discardEnd_keeps h]
  | requestExpired => simp [requestExpired_keeps h]
  | startMarkEdge => simp [startMarkEdge_keeps h]
  | dataBitSampled => simp [dataBitSampled_keeps h]
  | refSampled high => simp [refSampled_keeps h, movesBlocks]
  | offerDeasserted n => simp [offerDeasserted_keeps h, movesBlocks]
  | powerRemoved => simp [powerRemoved_keeps h, movesBlocks]

theorem exec_powered {c : Instr} {s t : State} (h : exec c s = .next t) (hc : startsCold c = false)
    (hp : c ≠ .powerRemoved) : t.powered = s.powered := (exec_power_blocks h hc).1 hp

/-- Every command but a cold start and the removal of power conserves the blocks (R144). -/
theorem blocksKept_exec {c : Instr} {s t : State} (hcold : s.coldOutsideRun) (hwf : s.store.wf = true)
    (h : exec c s = .next t) (hc : startsCold c = false) (hp : c ≠ .powerRemoved) : BlocksKept s t := by
  have same (hb : movesBlocks c = false) (hx : movesContexts c = false) (hwrite : t.feed.write = s.feed.write) :
      BlocksKept s t := by
    obtain ⟨hegress, hstore⟩ := (exec_power_blocks h hc).2 hb
    exact .of_eq hstore (fun n => by rw [ctx_congr (exec_ctxs h hc hx) n]) hwrite (by rw [hegress])
  have feed (hf : movesFeed c = false) : t.feed.write = s.feed.write := by rw [exec_feed h hc hf]
  have byte (b : Byte) (hb : c = .imageByte b ∨ c = .requestByte b) : BlocksKept s t := by
    rcases exec_byte h hb with ⟨-, rfl⟩ | rfl
    · exact blocksKept_receiveByte b hcold
    · exact .refl _
  cases c with
  | coldAssert => cases hc
  | powerUp => cases hc
  | powerRemoved => exact absurd rfl hp
  | imageByte b => exact byte b (.inl rfl)
  | requestByte b => exact byte b (.inr rfl)
  | offerPresented n length frameEnd data => exact same rfl rfl (offerPresented_write h)
  | feedWithdrawn n =>
    cases h
    exact blocksKept_offerFalls s n
  | offerDeasserted n =>
    cases h
    exact blocksKept_offerFalls s n
  | frameEpoch =>
    simp only [exec, execFrameEpoch] at h
    split at h <;> cases h
    · exact blocksKept_takeFrameEpoch ..
    · exact .refl _
  | fieldEpoch =>
    simp only [exec, execFieldEpoch] at h
    (repeat' split at h) <;> cases h
    · exact .refl _
    · exact blocksKept_takeFieldEpoch ..
    · exact .refl _
  | refPulseAccepted =>
    simp only [exec, execRefPulseAccepted] at h
    split at h <;> cases h
    · exact blocksKept_acceptPulse s
    · exact .refl _
  | refSampled high =>
    simp only [exec, execRefSampled] at h
    split at h <;> cases h
    · exact blocksKept_sampleRef ..
    · exact .refl _
  | starve n =>
    simp only [exec, execStarve] at h
    split at h <;> cases h
    · refine .of_eq (by simp) (fun m => ?_) (by simp) rfl
      by_cases hm : m = n
      · rw [hm, ctx_starveStream_self]
      · rw [ctx_starveStream_ne s hm]
    · exact .refl _
  | grant =>
    simp only [exec, execGrant] at h
    (repeat' split at h)
    · cases h
      exact blocksKept_takeDue s
    · rename_i hready _ n hchoice
      have hslot : s.takeDue.egress.slot = none := by rw [takeDue_egress, slot_of_grantReady hready]
      exact (blocksKept_takeDue s).trans (blocksKept_grantHead (grantChoice_due _ n hchoice) hslot h)
    · cases h
      exact .refl _
  | egressByte =>
    simp only [exec, execEgressByte] at h
    (repeat' split at h) <;> cases h
    · exact .refl _
    · rename_i sl hslot _ _ _ v ok b _ _ _
      exact .of_same rfl rfl rfl (fun _ => rfl) rfl (slotPacket_of_some hslot).symm
    · rename_i sl hslot _ _ _ v ok b _ _ _
      exact (blocksKept_parityError s b).trans (blocksKept_abandonSlot (by rw [parityError_egress, hslot]))
    · exact .refl _
  | done =>
    simp only [exec, execDone] at h
    (repeat' split at h) <;> cases h
    · exact .of_eq rfl (fun _ => rfl) rfl rfl
    · rename_i sl hslot
      exact (blocksKept_releaseSlot (s := { s with egress := { s.egress with doneEdge := false } }) hslot).after
        rfl rfl rfl rfl
    · exact .refl _
  | egressStall =>
    simp only [exec, execEgressStall] at h
    (repeat' split at h) <;> cases h
    · exact .refl _
    · rename_i sl hslot
      refine (blocksKept_abandonSlot hslot).trans ?_
      exact (blocksKept_raise ..).after rfl rfl rfl rfl
    · exact .refl _
  | linkChange up =>
    simp only [exec, execLinkChange] at h
    split at h <;> cases h
    · exact (blocksKept_followLink _).after rfl rfl rfl rfl
    · exact .of_eq rfl (fun _ => rfl) rfl rfl
  | intakeSelection =>
    simp only [exec, execIntakeSelection] at h
    (repeat' split at h) <;> cases h
    · exact .refl _
    · rename_i hready _ n _
      exact blocksKept_select n (write_of_selectReady hready) hwf
    · exact .refl _
  | writeComplete =>
    simp only [exec, execWriteComplete] at h
    (repeat' split at h) <;> cases h
    · exact .refl _
    · rename_i w hwrite
      exact blocksKept_completeWrite hwrite
    · exact .refl _
  | responseComplete =>
    simp only [exec, execResponseComplete] at h
    split at h <;> cases h
    · refine BlocksKept.after (u := { s with link := { s.link with responder := none } }) ?_ rfl rfl rfl rfl
      exact (requestWork_parserRuns _).blocksKept (by simp) (by simp)
    · exact .refl _
  | _ => exact same rfl rfl (feed rfl)

/-- A tick moves no block: a context notes its t_next, a write reads its bytes, the egress outputs end (R51, R76,
R140). -/
theorem blocksKept_clock {s t : State} (h : s.clock = some t) : BlocksKept s t := by
  obtain ⟨-, -, -, -, -, -, hctx, hegress, -⟩ := clock_keeps h
  obtain ⟨u, hwrite, -, hfeed, hstore, -⟩ := clock_samples h
  refine (blocksKept_writeTick hwrite).trans (.of_eq hstore (fun n => ?_) (by rw [hfeed]) ?_)
  · rw [hctx n, writeTick_keeps hwrite]
    rfl
  · rw [hegress, writeTick_keeps hwrite]
    rfl

theorem blocksKept_heldTick (s : State) : BlocksKept s s.heldTick := .of_eq rfl (fun _ => rfl) rfl rfl

/-- A command leaves the powered part with its blocks conserved (R144, R158). -/
theorem blocksConserved_exec {c : Instr} {s t : State} (hcold : s.coldOutsideRun) (hwf : s.store.wf = true)
    (hs : s.powered = true → s.blocksConserved) (h : exec c s = .next t) (ht : t.powered = true) :
    t.blocksConserved := by
  cases hc : startsCold c with
  | true =>
    rcases exec_coldStart h hc with rfl | ⟨-, rfl⟩
    · exact blocksConserved_coldStart s
    · exact hs ht
  | false =>
    by_cases hp : c = .powerRemoved
    · subst hp
      simp only [exec, execPowerRemoved] at h
      split at h <;> cases h
      · cases ht
      · exact hs ht
    · exact (blocksKept_exec hcold hwf h hc hp).conserved (hs (exec_powered h hc hp ▸ ht))

/-- Settles O40: each operation either moves a packet whole, or gives up a packet with its blocks, or takes a new packet's
blocks from those that no packet holds. -/
theorem blocksAreFreeRetiredOrInUse : Obligations.BlocksAreFreeRetiredOrInUse := by
  unfold Obligations.BlocksAreFreeRetiredOrInUse
  intro s t hcold hwf hs h
  refine step_inv (P := fun u => u.powered = true → u.blocksConserved) h (fun u l f hu => hu) ?_ ?_ ?_ hs
  · intro c u hu hx
    rw [hu] at hx
    exact blocksConserved_exec (s := { s with pending := u.pending }) hcold hwf hs hx
  · intro _ hk hp
    obtain ⟨-, hpowered, -⟩ := clock_keeps hk
    exact (blocksKept_clock hk).conserved (hs (hpowered ▸ hp))
  · rintro _ rfl hp
    exact (blocksKept_heldTick s).conserved (hs hp)

end Sys2Proof.Machine

namespace Sys2Proof.Machine

open Sys2Proof

/-! ### A cold start -/

/-- Settles O6. -/
theorem coldStartReturnsEveryBlock : Obligations.ColdStartReturnsEveryBlock := by
  unfold Obligations.ColdStartReturnsEveryBlock
  intro s c hc
  have hnext : exec c s = .next s.coldStart := by
    rcases hc with ⟨rfl, hlive⟩ | rfl
    · simp only [exec, execColdAssert, hlive, if_true]
    · rfl
  have hlive : s.coldStart.live = false := by simp [State.live, State.coldStart]
  have hpace : s.coldStart.paceLow = false := by simp [State.paceLow, hlive]
  have hfault : s.coldStart.faultLine = false := by simp [State.faultLine, hlive]
  exact ⟨s.coldStart, hnext, rfl, rfl, rfl, rfl, rfl, ctx_coldStart s, rfl, rfl, rfl, rfl, rfl, rfl, rfl, rfl,
    chan_coldStart s, rfl, hpace, rfl, hfault, rfl, rfl, rfl⟩

/-! ### COLD asserted, and power off -/

/-- The commands that stand for an input line which the outside moves at any time. -/
def movesLine : Instr → Bool
  | .linkChange _ | .offerPresented _ _ _ _ | .offerDeasserted _ | .feedWithdrawn _ => true
  | _ => false

/-- The commands that change whether the part takes events, and take effect in a part that takes none. -/
def changesPower : Instr → Bool
  | .powerUp | .coldRelease | .powerRemoved => true
  | _ => false

/-- No block takes an event in a part that is not live (R158). -/
theorem exec_of_not_live {c : Instr} {s : State} (hl : s.live = false) (hline : movesLine c = false)
    (hpower : changesPower c = false) : exec c s = .next s := by
  have hbus : s.busNormal = false := by simp [State.busNormal, hl]
  have href : s.refReady = false := by simp [State.refReady, hl]
  cases c with
  | powerUp => cases hpower
  | coldRelease => cases hpower
  | powerRemoved => cases hpower
  | linkChange up => cases hline
  | offerPresented n length frameEnd data => cases hline
  | offerDeasserted n => cases hline
  | feedWithdrawn n => cases hline
  | coldAssert => simp [exec, execColdAssert, hl]
  | imageByte b => simp [exec, execImageByte, hl]
  | requestByte b => simp [exec, execRequestByte, hl]
  | imageStalled => simp [exec, execImageStalled, State.stallExpired, hl]
  | frameEpoch => simp [exec, execFrameEpoch, State.frameReady, hl]
  | fieldEpoch => simp [exec, execFieldEpoch, State.fieldReady, hl]
  | refPulseAccepted => simp [exec, execRefPulseAccepted, href]
  | refSampled high => simp [exec, execRefSampled, href]
  | starve n => simp [exec, execStarve, hl]
  | grant => simp [exec, execGrant, State.grantReady, hl]
  | egressByte =>
    simp only [exec, execEgressByte, hl, Bool.false_and, Bool.false_eq_true, if_false]
    cases s.egress.slot <;> rfl
  | done => simp [exec, execDone, hl]
  | egressStall => simp [exec, execEgressStall, State.stallReady, hl]
  | intakeSelection => simp [exec, execIntakeSelection, State.selectReady, hl]
  | writeComplete => simp [exec, execWriteComplete, State.writeDone, hl]
  | noticeDue => simp [exec, execNoticeDue, State.noticeDueReady, hbus]
  | noticeStart => simp [exec, execNoticeStart, State.noticeStartReady, hbus]
  | arbitrationLost => simp [exec, execArbitrationLost, State.arbitrationReady, hbus]
  | noticeBiterr =>
    simp only [exec, execNoticeBiterr, hbus, Bool.false_eq_true, if_false]
    cases s.pace.bitErrorNow s.cfg.bitTime s.t <;> rfl
  | noticeComplete => simp [exec, execNoticeComplete, State.completeReady, hbus]
  | noticeFraming => simp [exec, execNoticeFraming, State.framingReady, hbus]
  | receiveSettled => simp [exec, execReceiveSettled, State.settledReady, hbus]
  | busStuck => simp [exec, execBusStuck, State.stuckReady, hbus]
  | busRestored => simp [exec, execBusRestored, State.restoredReady, hl]
  | lineError => simp [exec, execLineError, hl]
  | responseComplete => simp [exec, execResponseComplete, State.responseDone, hl]
  | discardEnd => simp [exec, execDiscardEnd, State.discardReady, hl]
  | requestExpired => simp [exec, execRequestExpired, State.expiryReady, hl]
  | startMarkEdge => simp [exec, execStartMarkEdge, State.startMarkReady, hbus]
  | dataBitSampled => simp [exec, execDataBitSampled, State.dataBitReady, hbus]

/-- A command that stands for an input line moves LINK_UP, or the lines of one channel, in a part that is not live
(R81, R129, R158). -/
theorem exec_line_of_not_live {c : Instr} {s : State} (hl : s.live = false) (hline : movesLine c = true) :
    (∃ up, exec c s = .next { s with pins := { s.pins with linkUp := up } })
      ∨ ∃ n pin, exec c s = .next (s.setChan n { s.chan n with pin := pin }) := by
  have hrun : s.inRun = false := by simp [State.inRun, hl]
  have hfalls (n : Stream) : s.offerFalls n = s.setChan n { s.chan n with pin := none } := by
    simp only [State.offerFalls, hl, Bool.false_eq_true, if_false]
  cases c with
  | linkChange up => exact .inl ⟨up, by simp only [exec, execLinkChange, hrun, Bool.false_eq_true, if_false]⟩
  | offerPresented n length frameEnd data =>
    exact .inr ⟨n, _, by simp only [exec, execOfferPresented, hl, Bool.false_eq_true, if_false]; rfl⟩
  | offerDeasserted n => exact .inr ⟨n, none, by simp only [exec, execOfferDeasserted, hfalls]⟩
  | feedWithdrawn n => exact .inr ⟨n, none, by simp only [exec, execFeedWithdrawn, hfalls]⟩
  | _ => cases hline

/-- A channel's lines moved leave every channel but for its lines. -/
theorem chan_setChan_pin (s : State) (n m : Stream) (pin : Option Offer) :
    (s.setChan n { s.chan n with pin := pin }).chan m
      = { s.chan m with pin := ((s.setChan n { s.chan n with pin := pin }).chan m).pin } := by
  by_cases hm : m = n
  · rw [hm, chan_setChan_self]
  · rw [chan_setChan_ne s _ hm]

/-- The part as the removal of power leaves it (R80). -/
def State.unpowered (s : State) : State :=
  { s with
    powered := false
    egress := { s.egress with slot := none, offer := false, abandon := s.egress.slot.isSome, emptied := true }
    feed := { s.feed with take := 0 } }

theorem exec_powerRemoved {s : State} (h : s.powered = true) : exec .powerRemoved s = .next s.unpowered := by
  simp only [exec, execPowerRemoved, h, if_true]
  rfl

/-- Settles O7. -/
theorem coldAndPowerHoldTheBlocks : Obligations.ColdAndPowerHoldTheBlocks := by
  unfold Obligations.ColdAndPowerHoldTheBlocks
  refine ⟨fun s hpowered hcold hheld => ?_, fun s hpowered => ?_, fun s c hl hup hrelease hremoved => ?_⟩
  · obtain ⟨ht, hloader⟩ := hheld hcold
    refine ⟨{ s with cold := false }, ?_, rfl, ?_, ht, ?_, ?_⟩
    · simp only [exec, execColdRelease, hpowered, if_true]
    · simp [State.live, hpowered]
    · exact congrArg Loader.part hloader
    · exact congrArg Loader.image hloader
  · exact ⟨s.unpowered, exec_powerRemoved hpowered, rfl, rfl, rfl, rfl, rfl, rfl, rfl, rfl, rfl⟩
  · cases hline : movesLine c with
    | false =>
      have hpower : changesPower c = false := by
        cases c with
        | powerUp => exact absurd rfl hup
        | coldRelease => exact absurd rfl hrelease
        | powerRemoved => exact absurd rfl hremoved
        | _ => rfl
      exact ⟨s, exec_of_not_live hl hline hpower, rfl, rfl, fun _ => rfl⟩
    | true =>
      rcases exec_line_of_not_live hl hline with ⟨up, h⟩ | ⟨n, pin, h⟩
      · exact ⟨_, h, rfl, rfl, fun _ => rfl⟩
      · exact ⟨_, h, rfl, rfl, fun m => chan_setChan_pin s n m pin⟩

end Sys2Proof.Machine

namespace Sys2Proof.Machine

open Sys2Proof

/-! ### The packet of a grant (R66, R82) -/

/-- While the link is up a grant stamps the packet and fills the slot with its record (R66, R70, R73, R76). -/
theorem grantHead_up {s t : State} {n : Stream} {cfg : StreamCfg} {r : Record} {rest : List Record}
    (hcfg : (s.ctx n).cfg = some cfg) (hring : (s.ctx n).ring = r :: rest) (hup : s.egress.linkUp = true)
    (h : s.grantHead n = .next t) :
    s.store.stampPacket s.cfg cfg r (s.ctx n).base (s.ctx n).seq = some t.store
      ∧ t.egress = (s.grantWork n cfg r rest).egress.fill n r (s.ctx n).seq s.t := by
  simp only [State.grantHead, hcfg, hring, hup, if_true] at h
  split at h
  · cases h
  · rename_i st hst
    cases h
    exact ⟨hst, rfl⟩

/-- While the link is down a grant frees the packet's chain and leaves the slot EMPTY (R82, R84). -/
theorem grantHead_down {s t : State} {n : Stream} {cfg : StreamCfg} {r : Record} {rest : List Record}
    (hcfg : (s.ctx n).cfg = some cfg) (hring : (s.ctx n).ring = r :: rest) (hdown : s.egress.linkUp = false)
    (h : s.grantHead n = .next t) :
    t.store = s.store.freeChain r.first ∧ t.egress = (s.grantWork n cfg r rest).egress := by
  simp only [State.grantHead, hcfg, hring, hdown, Bool.false_eq_true, if_false] at h
  cases h
  exact ⟨rfl, rfl⟩

/-- Settles O29. -/
theorem grantFillsTheSlotOrDropsThePacket : Obligations.GrantFillsTheSlotOrDropsThePacket := by
  unfold Obligations.GrantFillsTheSlotOrDropsThePacket
  intro s t n r rest hlive hslot hchoice hring h
  have hdue : n ∈ s.takeDue.dueStreams := grantChoice_due _ n hchoice
  obtain ⟨cfg, -, -, hcfg, -⟩ := dueStreams_parts _ n hdue
  obtain ⟨-, -, -, -, hkeeps⟩ := grantWork_spec s.takeDue n cfg r rest hdue
  rw [exec_grant hlive hslot hchoice] at h
  have hring' : (s.takeDue.ctx n).ring = r :: rest := by rw [takeDue_ctx, hring]
  have hseq : (s.takeDue.ctx n).seq = (s.ctx n).seq := by rw [takeDue_ctx]
  refine ⟨fun hup => ?_, fun hdown => ?_⟩
  · obtain ⟨hstamp, hegress⟩ := grantHead_up hcfg hring' (by rw [takeDue_egress, hup]) h
    obtain ⟨hstore, -⟩ := stampPacket_keeps hstamp
    rw [hkeeps, takeDue_egress, takeDue_t, hseq] at hegress
    rw [takeDue_store] at hstore
    exact ⟨by rw [hegress]; rfl, by rw [hegress]; rfl, hstore⟩
  · obtain ⟨hstore, hegress⟩ := grantHead_down hcfg hring' (by rw [takeDue_egress, hdown]) h
    rw [hkeeps, takeDue_egress] at hegress
    exact ⟨by rw [hegress]; exact hslot, by rw [hegress], by rw [hstore, takeDue_store]⟩

/-! ### The fields written into a packet (R73 to R75) -/

/-- The bytes of a value, most significant first (R184). -/
theorem getElem?_beBytes {n v i : Nat} (h : i < n) :
    (beBytes n v)[i]? = some (BitVec.ofNat 8 (v / 256 ^ (n - 1 - i))) := by
  induction n generalizing v with
  | zero => omega
  | succ n ih =>
    rw [beBytes]
    by_cases hi : i < n
    · rw [List.getElem?_append_left (by rwa [beBytes_length]), ih hi, Nat.div_div_eq_div_mul, ← pow_succ']
      congr 4
      omega
    · obtain rfl : i = n := by omega
      rw [List.getElem?_append_right (by rw [beBytes_length]), beBytes_length, Nat.sub_self, Nat.add_sub_cancel,
        Nat.sub_self, pow_zero, Nat.div_one]
      rfl

/-- Position `x` lies in a field of `size` bytes that is configured and fits in a packet of length `len` (R75). -/
def inField (off : Option Nat) (size len x : Nat) : Prop := ∃ o, off = some o ∧ o + size ≤ len ∧ o ≤ x ∧ x < o + size

/-- A value written into a field reads back byte by byte, with matching parities; every other byte and cell reads as
before (R75, R151). -/
theorem writeField_value {chain : List Block} {st st' : Store} {off : Option Nat} {size v len : Nat} (hn : chain.Nodup)
    (hw : st.wf = true) (h : st.writeField chain off (beBytes size v) len = some st') :
    (∀ o i, off = some o → o + size ≤ len → i < size →
        st'.readByte chain (o + i) = some (BitVec.ofNat 8 (v / 256 ^ (size - 1 - i)), true))
      ∧ (∀ x, ¬inField off size len x → st'.readByte chain x = st.readByte chain x)
      ∧ ∀ a, (∀ x, cellOf chain x = some a → ¬inField off size len x) →
          readCell 0 st'.bytes a = readCell 0 st.bytes a
            ∧ readCell false st'.parity a = readCell false st.parity a := by
  obtain ⟨⟨hfield, hrest⟩, hcells⟩ := writeField_read hn hw h
  rw [beBytes_length] at hfield hrest hcells
  refine ⟨fun o i ho hfits hi => ?_, hrest, hcells⟩
  rw [hfield o (o + i) ho hfits (Nat.le_add_right o i) (Nat.add_lt_add_left hi o), Nat.add_sub_cancel_left,
    getElem?_beBytes hi]
  rfl

/-- A stamped packet's bytes: the sequence number in its field, the stamp in its own where the number does not lie over
it, and nothing else changed (R73 to R75, R151). -/
theorem stampPacket_read {st st' : Store} {p : PartCfg} {cfg : StreamCfg} {r : Record} {b : Time} {seq : BitVec 16}
    (hn : (st.chain r.first).Nodup) (hw : st.wf = true) (h : st.stampPacket p cfg r b seq = some st') :
    (∀ o i, cfg.seqOffset = some o → o + 2 ≤ r.len → i < 2 →
        st'.readByte (st.chain r.first) (o + i) = some (BitVec.ofNat 8 (seq.toNat / 256 ^ (1 - i)), true))
      ∧ (∀ o i, cfg.stampOffset = some o → o + 4 ≤ r.len → i < 4 → ¬inField cfg.seqOffset 2 r.len (o + i) →
        st'.readByte (st.chain r.first) (o + i) = some (BitVec.ofNat 8 (stampValue p b / 256 ^ (3 - i)), true))
      ∧ (∀ x, ¬inField cfg.stampOffset 4 r.len x → ¬inField cfg.seqOffset 2 r.len x →
        st'.readByte (st.chain r.first) x = st.readByte (st.chain r.first) x)
      ∧ ∀ a, (∀ x, cellOf (st.chain r.first) x = some a →
          ¬inField cfg.stampOffset 4 r.len x ∧ ¬inField cfg.seqOffset 2 r.len x) →
          readCell 0 st'.bytes a = readCell 0 st.bytes a
            ∧ readCell false st'.parity a = readCell false st.parity a := by
  unfold Store.stampPacket at h
  simp only [] at h
  split at h
  · cases h
  · rename_i st1 hstamped
    obtain ⟨-, hwf⟩ := writeField_keeps hstamped
    obtain ⟨hstamp, hstampRest, hstampCells⟩ := writeField_value hn hw hstamped
    obtain ⟨hseq, hseqRest, hseqCells⟩ := writeField_value hn (hwf hw) h
    refine ⟨hseq, fun o i ho hfits hi hout => ?_, fun x hx1 hx2 => ?_, fun a ha => ?_⟩
    · rw [hseqRest _ hout]
      exact hstamp o i ho hfits hi
    · rw [hseqRest x hx2, hstampRest x hx1]
    · obtain ⟨hbyte2, hparity2⟩ := hseqCells a fun x hx => (ha x hx).2
      obtain ⟨hbyte1, hparity1⟩ := hstampCells a fun x hx => (ha x hx).1
      exact ⟨hbyte2.trans hbyte1, hparity2.trans hparity1⟩

/-- Settles O30: the number is written after the stamp. -/
theorem stampAndNumberAreWritten : Obligations.StampAndNumberAreWritten := by
  unfold Obligations.StampAndNumberAreWritten
  intro s t n cfg r rest hlive hslot hup hchoice hcfg hring _ hnodup hwf h
  rw [exec_grant hlive hslot hchoice] at h
  have hctx := takeDue_ctx s n
  obtain ⟨hstamp, -⟩ := grantHead_up (by rw [hctx, hcfg]) (by rw [hctx, hring]) (by rw [takeDue_egress, hup]) h
  rw [takeDue_store, takeDue_cfg, hctx] at hstamp
  exact stampPacket_read hnodup hwf hstamp

end Sys2Proof.Machine

namespace Sys2Proof.Machine

open Sys2Proof

/-! ### A byte of the packet in emission (R76, R79) -/

/-- A byte of a packet that the chain has a block for can be read (R145). -/
theorem readByte_of_lt (st : Store) {chain : List Block} {x : Nat} (h : x < 256 * chain.length) :
    ∃ v ok b, st.readByte chain x = some (v, ok) ∧ chain[x / 256]? = some b := by
  have hx : x / 256 < chain.length := by omega
  have hread : (st.readByte chain x).isSome = true := by simp [Store.readByte, cellOf, Config.blockBytes, hx]
  obtain ⟨⟨v, ok⟩, hv⟩ := Option.isSome_iff_exists.mp hread
  exact ⟨v, ok, chain[x / 256], hv, List.getElem?_eq_getElem hx⟩

/-- The MAC takes a byte: it is sent, or its parity fails and the packet is abandoned (R76, R79, R152). -/
theorem exec_egressByte {s : State} {sl : Slot} {v : Byte} {ok : Bool} {b : Block} (hlive : s.live = true)
    (hslot : s.egress.slot = some sl) (hoffer : s.egress.offer = true) (htaken : sl.taken < sl.len)
    (hread : s.store.readByte (s.store.chain sl.first) sl.taken = some (v, ok))
    (hblock : (s.store.chain sl.first)[sl.taken / 256]? = some b) :
    exec .egressByte s = if ok = true
      then .next { s with egress := { s.egress with data := v, slot := some { sl with taken := sl.taken + 1 } } }
      else .next ((s.parityError b).abandonSlot sl) := by
  have hof : blockOf (s.store.chain sl.first) sl.taken = some b := hblock
  simp only [exec, execEgressByte, hslot, hlive, hoffer, htaken, decide_true, Bool.and_self, if_true, hread, hof]

/-- Settles O31, by the parity of the byte read. -/
theorem egressByteIsSentOrAbandonsThePacket : Obligations.EgressByteIsSentOrAbandonsThePacket := by
  unfold Obligations.EgressByteIsSentOrAbandonsThePacket
  intro s sl hlive hslot hoffer htaken hlen
  obtain ⟨v, ok, b, hread, hblock⟩ := readByte_of_lt s.store (htaken.trans_le hlen)
  have hexec := exec_egressByte hlive hslot hoffer htaken hread hblock
  refine ⟨v, ok, b, hread, hblock, fun hok => by rw [hexec, if_pos hok], fun hok => ?_⟩
  obtain ⟨hintegrity, herrors⟩ := parityError_banks s b
  obtain ⟨events, hraises, hmem⟩ := parityError_shows s b
  have hctx (m : Stream) : (s.parityError b).ctx m = s.ctx m := ctx_congr (parityError_ctxs s b) m
  have hbank (j : Fin 4) : ((s.parityError b).abandonSlot sl).store.bank j = (s.parityError b).store.bank j :=
    bank_congr (freeChain_banks ..) j
  refine ⟨(s.parityError b).abandonSlot sl, by rw [hexec, if_neg (by simp [hok])], ?_, ?_, fun m hm => ?_, ?_, ?_,
    ⟨events, hraises.congr rfl rfl rfl rfl rfl, hmem⟩, abandonSlot_store .., abandonSlot_link .., ?_⟩
  · rw [abandonSlot_egress, parityError_egress]
  · rw [ctx_abandonSlot_self, hctx]
  · rw [ctx_abandonSlot_ne _ hm, hctx]
  · rw [hbank, hintegrity]
  · rw [hbank, herrors]
  · apply state_eq <;> simp

/-! ### DONE and the stall limit (R76 to R78) -/

/-- The packet in the slot abandoned at its stall limit, with the latch set, before the event is raised (R78). -/
def State.stalled (s : State) (sl : Slot) : State :=
  { s.abandonSlot sl with link := { s.link with latches := { s.link.latches with egressStall := true } } }

theorem exec_egressStall {s : State} {sl : Slot} (hlive : s.live = true) (hslot : s.egress.slot = some sl)
    (hstall : reached s.t (after sl.grantTime s.cfg.stallLimit) = true) :
    exec .egressStall s = .next ((s.stalled sl).raise .egressStall sl.stream.val sl.seq.toNat) := by
  have hready : s.stallReady = true := by simp [State.stallReady, hlive, hslot, hstall]
  simp only [exec, execEgressStall, hready, if_true, hslot]
  rfl

theorem exec_done_of_some {s : State} {sl : Slot} (hlive : s.live = true) (hslot : s.egress.slot = some sl) :
    exec .done s = .next (State.releaseSlot { s with egress := { s.egress with doneEdge := false } } sl) := by
  simp only [exec, execDone, hlive, if_true, hslot]

theorem exec_done_of_none {s : State} (hlive : s.live = true) (hslot : s.egress.slot = none) :
    exec .done s = .next { s with egress := { s.egress with doneEdge := false } } := by
  simp only [exec, execDone, hlive, if_true, hslot]

/-- Settles O32. -/
theorem emissionEndsByDoneOrByStall : Obligations.EmissionEndsByDoneOrByStall := by
  unfold Obligations.EmissionEndsByDoneOrByStall
  refine ⟨fun s hlive => ⟨fun sl hslot => exec_done_of_some hlive hslot, exec_done_of_none hlive⟩,
    fun s sl hlive hslot hstall => ?_⟩
  · let t := (s.stalled sl).raise .egressStall sl.stream.val sl.seq.toNat
    have hegress : t.egress = { s.egress with slot := none, offer := false, abandon := true, emptied := true } :=
      raise_egress ..
    have hstore : t.store = s.store.freeChain sl.first := raise_store ..
    have hlatches : t.link.latches = { s.link.latches with egressStall := true } := raise_latches ..
    have hlink : t.link = { s.link with
        latches := t.link.latches, queue := t.link.queue, overflow := t.link.overflow } := by
      rw [hlatches]
      exact raise_link_frame ..
    have hfault : t.faultLine = true := by
      have ht : t.live = s.live := by simp [t, State.live, State.stalled]
      simp [State.faultLine, ht, hlive, hlatches, Latches.any]
    have hraises : Raises s t [⟨.egressStall, sl.stream.val, sl.seq.toNat⟩] :=
      (raises_raise (s.stalled sl) ..).of_same rfl rfl rfl
    refine ⟨t, exec_egressStall hlive hslot hstall, hegress, hstore, ?_, fun m hm => ?_, hlatches, hfault,
      hraises, ?_⟩
    · rw [ctx_raise]
      exact ctx_abandonSlot_self s sl
    · rw [ctx_raise]
      exact ctx_abandonSlot_ne s hm
    · refine state_eq ?_ ?_ ?_ ?_ ?_ ?_ rfl rfl ?_ ?_ ?_ rfl ?_ hlink ?_ ?_ <;> simp [t, State.stalled]

/-! ### The link state (R81, R83) -/

/-- Settles O33. -/
theorem linkChangeSetsTheLinkState : Obligations.LinkChangeSetsTheLinkState := by
  unfold Obligations.LinkChangeSetsTheLinkState
  intro s up hlive
  refine ⟨fun hrun hne => ?_, fun hrun heq => ?_, fun hrun => ?_⟩
  · have hin : s.inRun = true := by simp [State.inRun, hlive, hrun]
    let u : State := { s with pins := { s.pins with linkUp := up }, egress := { s.egress with linkUp := up } }
    let t := u.raise (if up then .linkUp else .linkDown) 0 0
    refine ⟨t, ?_, raise_egress .., (raises_raise u ..).of_same rfl rfl rfl, ?_⟩
    · simp only [exec, execLinkChange, hin, if_true, State.followLink, if_neg hne]
      rfl
    · refine state_eq ?_ ?_ ?_ ?_ ?_ ?_ ?_ rfl ?_ ?_ ?_ ?_ ?_ (raise_link_frame u ..) ?_ ?_ <;> simp [t, u]
  · have hin : s.inRun = true := by simp [State.inRun, hlive, hrun]
    simp only [exec, execLinkChange, hin, if_true, State.followLink, if_pos heq]
  · have hout : s.inRun = false := by simp [State.inRun, hrun]
    simp only [exec, execLinkChange, hout, Bool.false_eq_true, if_false]

end Sys2Proof.Machine

namespace Sys2Proof.Machine

open Sys2Proof

/-! ### Operations on the peer table (R88) -/

theorem peersWf_iff (s : State) : s.peersWf ↔ PeersOrdered s.cfg.stationId s.share.peers := Iff.rfl

theorem State.peersWf.congr {s t : State} (h : s.peersWf) (hcfg : t.cfg = s.cfg) (hshare : t.share = s.share) :
    t.peersWf := by
  rw [peersWf_iff] at *
  rwa [hcfg, hshare]

theorem peersWf_of_cold {s : State} (h : s.share = .cold) : s.peersWf := by
  rw [peersWf_iff, h]
  exact ⟨trivial, nofun⟩

/-- An entry of another station's id, just heard, keeps the form of the table (R88, R90, R91). -/
theorem peersOrdered_putPeer {own : Nat} {ps : List Peer} {e : Peer} (h : PeersOrdered own ps) (hid : e.id ≤ 15)
    (hown : e.id ≠ own) (hmissed : e.missed ≤ 3) : PeersOrdered own (putPeer e ps) := by
  obtain ⟨hasc, hall⟩ := h
  obtain ⟨hasc', hmem⟩ := putPeer_spec e ps hasc
  refine ⟨hasc', fun q hq => ?_⟩
  rcases (hmem q).mp hq with rfl | ⟨hold, -⟩
  · exact ⟨hid, hown, hmissed⟩
  · exact hall q hold

/-! ### A notice handed over, by its id (R90 to R92) -/

/-- The part with the latch of an id clash set (R92). -/
def State.clashed (s : State) : State :=
  { s with link := { s.link with latches := { s.link.latches with idClash := true } } }

/-- The part with the notice's entry in its peer table, before its events (R90, R91). -/
def State.putEntry (s : State) (n : Heard) (was : Bool) : State :=
  { s with share := { s.share with peers := putPeer (n.entry s.cfg was) s.share.peers } }

theorem takeNotice_of_clash {s : State} {n : Heard} (h : n.id = s.cfg.stationId) :
    s.takeNotice n = s.clashed.raise .idClash n.id n.offset := by
  simp only [State.takeNotice, if_pos h]
  rfl

theorem takeNotice_of_known {s : State} {n : Heard} {p : Peer} (hown : n.id ≠ s.cfg.stationId)
    (hfound : findPeer n.id s.share.peers = some p) :
    s.takeNotice n = (s.putEntry n p.misaligned).raiseAll (misalignedEvents s.cfg n p.misaligned) := by
  simp only [State.takeNotice, if_neg hown, hfound]
  rfl

/-- The events of a notice of an id that the table does not hold (R91, R94). -/
def newPeerEvents (p : PartCfg) (n : Heard) : List Raised :=
  ⟨.peerNew, n.id, sat16 (n.f + n.x)⟩ :: misalignedEvents p n false

theorem takeNotice_of_new {s : State} {n : Heard} (hown : n.id ≠ s.cfg.stationId)
    (hnew : findPeer n.id s.share.peers = none) :
    s.takeNotice n
      = ((s.putEntry n false).raiseAll (s.order (newPeerEvents s.cfg n))).chosen (newPeerEvents s.cfg n).length := by
  simp only [State.takeNotice, if_neg hown, hnew]
  rfl

/-- The misaligned flag of the entry that a notice finds, clear where it finds none (R94). -/
def State.wasMisaligned (s : State) (id : Nat) : Bool := (findPeer id s.share.peers).elim false (·.misaligned)

/-- A notice of another station puts its entry into the table, whether that is new or not (R90, R91). -/
theorem takeNotice_share {s : State} {n : Heard} (hown : n.id ≠ s.cfg.stationId) :
    (s.takeNotice n).share = (s.putEntry n (s.wasMisaligned n.id)).share := by
  unfold State.wasMisaligned
  cases hfound : findPeer n.id s.share.peers with
  | some p => simp [takeNotice_of_known hown hfound]
  | none => simp [takeNotice_of_new hown hfound]

theorem peersWf_takeNotice {s : State} {n : Heard} (hid : n.id ≤ 15) (h : s.peersWf) : (s.takeNotice n).peersWf := by
  by_cases hown : n.id = s.cfg.stationId
  · rw [takeNotice_of_clash hown]
    exact h.congr (raise_cfg ..) (raise_share ..)
  · rw [peersWf_iff, takeNotice_cfg, takeNotice_share hown]
    exact peersOrdered_putPeer h hid hown (Nat.zero_le 3)

/-! ### The id in a notice (R110) -/

theorem ofBits_append_singleton (bs : List Bool) (b : Bool) : ofBits (bs ++ [b]) = 2 * ofBits bs + bitOf b := by
  simp [ofBits]

theorem ofBits_lt (bs : List Bool) : ofBits bs < 2 ^ bs.length := by
  induction bs using List.reverseRecOn with
  | nil => exact Nat.one_pos
  | append_singleton bs b ih =>
    have hb : bitOf b ≤ 1 := by cases b <;> decide
    rw [ofBits_append_singleton, List.length_append, List.length_singleton, pow_succ]
    omega

theorem bitField_lt (bs : List Bool) (off n : Nat) : bitField bs off n < 2 ^ n :=
  (ofBits_lt _).trans_le (Nat.pow_le_pow_right Nat.two_pos (List.length_take_le ..))

theorem peersWf_judgeNotice {s : State} (bits : List Bool) (recvOffset : Nat) (h : s.peersWf) :
    (s.judgeNotice bits recvOffset).peersWf := by
  unfold State.judgeNotice
  simp only []
  split
  · exact peersWf_takeNotice (Nat.le_of_lt_succ (bitField_lt bits 0 4)) h
  · exact h.congr (raise_cfg ..) (raise_share ..)

/-! ### The epochs and the pulses (R6, R13, R95) -/

theorem peersWf_shareEpoch {s : State} (h : s.peersWf) : s.shareEpoch.peersWf := by
  by_cases hb : s.pace.bus = .stuck
  · rwa [shareEpoch_of_stuck hb]
  · rw [peersWf_iff, shareEpoch_cfg, share_shareEpoch hb]
    exact peersOrdered_aged h

theorem peersWf_deliver {s : State} (e : Time) (d : Delivery) (h : s.peersWf) : (s.deliver e d).peersWf := by
  by_cases hd : d = .share
  · subst hd
    exact peersWf_shareEpoch h
  · exact h.congr (deliver_cfg ..) (share_deliver _ _ _ hd)

theorem peersWf_deliverAll {s : State} (e : Time) (ds : List Delivery) (h : s.peersWf) :
    (s.deliverAll e ds).peersWf := by
  induction ds generalizing s with
  | nil => exact h
  | cons d ds ih =>
    rw [deliverAll_cons]
    exact ih (peersWf_deliver e d h)

theorem peersWf_takeFrameEpoch {s : State} (events : List Raised) (h : s.peersWf) :
    (s.takeFrameEpoch events).peersWf := by
  unfold State.takeFrameEpoch
  exact peersWf_deliverAll _ _ (h.congr rfl rfl)

theorem peersWf_slew {s : State} (e : Int) (events : List Raised) (h : s.peersWf) : (s.slew e events).peersWf := by
  unfold State.slew
  simp only []
  split
  · exact peersWf_takeFrameEpoch events (h.congr rfl rfl)
  · exact h.congr (raiseAll_cfg ..) (raiseAll_share ..)

theorem peersWf_stepAndLock {s : State} (cr : Time) (cause lockDetail : Nat) (h : s.peersWf) :
    (s.stepAndLock cr cause lockDetail).peersWf :=
  h.congr (by simp [State.stepAndLock]) (by simp [State.stepAndLock])

/-- A pulse reaches the peer table only by the frame epoch that its slew takes (R13, R15 to R19). -/
theorem peersWf_lockPulse {s : State} (cr : Time) (h : s.peersWf) : (s.lockPulse cr).peersWf := by
  unfold State.lockPulse
  simp only []
  (repeat' split)
  · exact h
  · exact peersWf_stepAndLock _ _ _ h
  · exact peersWf_slew _ _ (h.congr rfl rfl)
  · exact h.congr rfl rfl
  · exact h.congr (raise_cfg ..) (raise_share ..)
  · exact peersWf_slew _ _ (h.congr rfl rfl)
  · exact peersWf_stepAndLock _ _ _ h

theorem peersWf_acceptPulse {s : State} (h : s.peersWf) : s.acceptPulse.peersWf :=
  peersWf_lockPulse (s := s.holdPulse) s.grid.cr (h.congr rfl rfl)

theorem peersWf_sampleRef {s : State} (high : Bool) (h : s.peersWf) : (s.sampleRef high).peersWf := by
  have same (g : Grid) : State.peersWf { s with grid := g } := h.congr rfl rfl
  unfold State.sampleRef
  simp only []
  (repeat' split)
  · exact same _
  · exact same _
  · exact same _
  · exact same _
  · exact same _
  · exact same _
  · exact same _
  · exact peersWf_acceptPulse h

/-! ### The step -/

/-- The commands that can move the Share Computer without a cold start. -/
def movesShare : Instr → Bool
  | .frameEpoch | .refPulseAccepted | .refSampled _ | .noticeComplete => true
  | _ => false

theorem exec_share {c : Instr} {s t : State} (h : exec c s = .next t) (hc : startsCold c = false)
    (hm : movesShare c = false) : t.share = s.share := by
  cases c with
  | coldAssert => cases hc
  | powerUp => cases hc
  | frameEpoch => cases hm
  | refPulseAccepted => cases hm
  | refSampled high => cases hm
  | noticeComplete => cases hm
  | coldRelease => simp [coldRelease_keeps h]
  | imageByte b => simp [imageByte_keeps h]
  | imageStalled => simp [imageStalled_keeps h]
  | fieldEpoch => simp [fieldEpoch_keeps h]
  | starve n => simp [starve_keeps h]
  | grant => simp [grant_keeps h]
  | egressByte => simp [egressByte_keeps h]
  | done => simp [done_keeps h]
  | egressStall => simp [egressStall_keeps h]
  | linkChange up => simp [linkChange_keeps h]
  | offerPresented n length frameEnd data => simp [offerPresented_keeps h]
  | intakeSelection => simp [intakeSelection_keeps h]
  | writeComplete => simp [writeComplete_keeps h]
  | feedWithdrawn n => simp [feedWithdrawn_keeps h]
  | noticeDue => simp [noticeDue_keeps h]
  | noticeStart => simp [noticeStart_keeps h]
  | arbitrationLost => simp [arbitrationLost_keeps h]
  | noticeBiterr => simp [noticeBiterr_keeps h]
  | noticeFraming => simp [noticeFraming_keeps h]
  | receiveSettled => simp [receiveSettled_keeps h]
  | busStuck => simp [busStuck_keeps h]
  | busRestored => simp [busRestored_keeps h]
  | requestByte b => simp [requestByte_keeps h]
  | lineError => simp [lineError_keeps h]
  | responseComplete => simp [responseComplete_keeps h]
  | discardEnd => simp [discardEnd_keeps h]
  | requestExpired => simp [requestExpired_keeps h]
  | startMarkEdge => simp [startMarkEdge_keeps h]
  | dataBitSampled => simp [dataBitSampled_keeps h]
  | offerDeasserted n => simp [offerDeasserted_keeps h]
  | powerRemoved => simp [powerRemoved_keeps h]

/-- A received byte sets the own id in LOAD, where the table is empty, and otherwise leaves both (R163, R172). -/
theorem peersWf_receiveByte {s : State} (b : Byte) (hcold : s.coldOutsideRun) (h : s.peersWf) :
    (s.receiveByte b).peersWf := by
  by_cases hl : s.loader.part = .load
  · obtain ⟨-, -, hshare, -⟩ := hcold (by simp [hl])
    exact peersWf_of_cold ((receiveByte_share s b).trans hshare)
  · exact h.congr (by simp [receiveByte_requesting b hl]) (receiveByte_share s b)

/-- Every command keeps the form of the peer table. -/
theorem peersWf_exec {c : Instr} {s t : State} (hcold : s.coldOutsideRun) (hs : s.peersWf)
    (h : exec c s = .next t) : t.peersWf := by
  cases hc : startsCold c with
  | true =>
    rcases exec_coldStart h hc with rfl | ⟨-, rfl⟩
    · exact peersWf_of_cold rfl
    · exact hs
  | false =>
    obtain ⟨hcfg, -⟩ := exec_cfg_feed h hc
    have same (hb : bringsByte c = false) (hm : movesShare c = false) : t.peersWf :=
      hs.congr (hcfg hb) (exec_share h hc hm)
    have byte (b : Byte) (hb : c = .imageByte b ∨ c = .requestByte b) : t.peersWf := by
      rcases exec_byte h hb with ⟨-, rfl⟩ | rfl
      · exact peersWf_receiveByte b hcold hs
      · exact hs
    cases c with
    | imageByte b => exact byte b (.inl rfl)
    | requestByte b => exact byte b (.inr rfl)
    | frameEpoch =>
      simp only [exec, execFrameEpoch] at h
      split at h <;> cases h
      · exact peersWf_takeFrameEpoch _ hs
      · exact hs
    | refPulseAccepted =>
      simp only [exec, execRefPulseAccepted] at h
      split at h <;> cases h
      · exact peersWf_acceptPulse hs
      · exact hs
    | refSampled high =>
      simp only [exec, execRefSampled] at h
      split at h <;> cases h
      · exact peersWf_sampleRef high hs
      · exact hs
    | noticeComplete =>
      simp only [exec, execNoticeComplete] at h
      (repeat' split at h) <;> cases h
      · exact hs.congr rfl rfl
      · exact hs.congr rfl rfl
      · exact peersWf_judgeNotice _ _ (hs.congr rfl rfl)
      · exact hs
    | _ => exact same rfl rfl

/-- Settles O46: what every command keeps, and every tick, every step keeps. -/
theorem peerTableStaysOrdered : Obligations.PeerTableStaysOrdered := by
  unfold Obligations.PeerTableStaysOrdered
  intro s t hcold hs h
  refine step_inv (P := State.peersWf) h (fun u l f hu => hu) ?_ ?_ ?_ hs
  · intro c u hu hx
    rw [hu] at hx
    exact peersWf_exec (s := { s with pending := u.pending }) hcold hs hx
  · intro _ hk
    obtain ⟨-, -, -, -, hcfg, -, -, -, hshare, -⟩ := clock_keeps hk
    exact hs.congr hcfg hshare
  · rintro _ rfl
    exact hs

end Sys2Proof.Machine

namespace Sys2Proof.Machine

open Sys2Proof

/-! ### The rows of R100 -/

theorem shareFactor_of_fits {budget f x : Nat} (h : f + x ≤ budget) : shareFactor budget f x = (256, false, 0) := by
  rw [shareFactor, if_pos h]

theorem shareFactor_of_fixed {budget f x : Nat} (h : budget < f + x) (hx : x = 0) :
    shareFactor budget f x = (256, true, 0) := by
  rw [shareFactor, if_neg (by omega), if_pos hx]

theorem shareFactor_of_no_room {budget f x : Nat} (hx : x ≠ 0) (h : budget ≤ f) :
    shareFactor budget f x = (1024, true, 1) := by
  rw [shareFactor, if_neg (by omega), if_neg hx, if_pos h]

theorem shareFactor_of_stretch {budget f x : Nat} (hover : budget < f + x) (hx : x ≠ 0) (hroom : f < budget)
    (hfits : x * 256 ≤ (budget - f) * 1024) :
    shareFactor budget f x = (ceilDiv (x * 256) (budget - f), false, 0) := by
  have hle : ceilDiv (x * 256) (budget - f) ≤ 1024 := (ceilDiv_le_iff (by omega)).mpr (by omega)
  rw [shareFactor, if_neg (by omega), if_neg hx, if_neg (by omega), if_pos hle]

theorem shareFactor_of_excess {budget f x : Nat} (hroom : f < budget) (h : (budget - f) * 1024 < x * 256) :
    shareFactor budget f x = (1024, true, 2) := by
  have hlt : 1024 < ceilDiv (x * 256) (budget - f) := (lt_ceilDiv_iff (by omega)).mpr (by omega)
  rw [shareFactor, if_neg (by omega), if_neg (by omega), if_neg (by omega), if_neg (by omega)]

/-- Settles O43: a clause for each row, the fourth by what division rounded up is the least of. -/
theorem shareFactorMeetsTheBudget : Obligations.ShareFactorMeetsTheBudget := by
  unfold Obligations.ShareFactorMeetsTheBudget
  intro budget f x k oc cause
  obtain ⟨hlow, hhigh⟩ := shareFactor_range budget f x
  refine ⟨hlow, hhigh, fun hfits => ?_, fun hover hx => ?_, fun hx hroom => ?_, fun hover hx hroom hfits => ?_,
    fun hroom hexcess => ?_⟩
  · simp [k, oc, shareFactor_of_fits hfits]
  · simp [k, oc, cause, shareFactor_of_fixed hover hx]
  · simp [k, oc, cause, shareFactor_of_no_room hx hroom]
  · have hpos : 1 ≤ budget - f := by omega
    have hk : k = ceilDiv (x * 256) (budget - f) := by simp [k, shareFactor_of_stretch hover hx hroom hfits]
    refine ⟨by simp [oc, shareFactor_of_stretch hover hx hroom hfits], ?_, ?_, fun j hj => ?_⟩
    · rw [hk, lt_ceilDiv_iff hpos]
      omega
    · rw [Nat.mul_comm (budget - f), ← ceilDiv_le_iff hpos, hk]
    · rwa [hk, ceilDiv_le_iff hpos, Nat.mul_comm j]
  · simp [k, oc, cause, shareFactor_of_excess hroom hexcess]

end Sys2Proof.Machine

namespace Sys2Proof.Machine

open Sys2Proof

/-! ### The Share Computer at a frame epoch (R95 to R102) -/

/-- An entry ages unless it was not heard and has been missed three times, and its heard flag is then clear (R95,
R96). -/
theorem agePeer_eq_some_iff {p q : Peer} : agePeer p = some q ↔ ¬(p.heard = false ∧ 3 ≤ p.missed) ∧ q = { p with
    heard := false, missed := if p.heard = true then 0 else p.missed + 1,
    st := if p.heard = true then .present else .held } := by
  unfold agePeer
  cases p.heard with
  | true => simp [eq_comm]
  | false =>
    by_cases hm : p.missed < 3
    · simp [hm, eq_comm]
    · simp [hm, Nat.le_of_not_lt hm]

theorem stage_of_enabled {c : Context} {cfg : StreamCfg} (h : c.cfg = some cfg) (k : Nat) :
    c.stage k = if cfg.cls = .flex then { c with ks := k } else c := by
  simp only [Context.stage, h]

theorem stage_of_disabled {c : Context} (h : c.cfg = none) (k : Nat) : c.stage k = c := by
  simp only [Context.stage, h]

/-- The Share Computer's work is on its own state, the staged factors, the queue and the choices. -/
theorem shareEpoch_frame (s : State) : s.shareEpoch = { s with
    share := s.shareEpoch.share, ctxs := s.shareEpoch.ctxs, fresh := s.shareEpoch.fresh,
    link := { s.link with queue := s.shareEpoch.link.queue, overflow := s.shareEpoch.link.overflow } } := by
  obtain ⟨-, -, hlink⟩ := epochKeeps_shareEpoch s
  refine state_eq ?_ ?_ ?_ ?_ ?_ ?_ rfl ?_ rfl ?_ ?_ ?_ ?_ hlink rfl ?_ <;> simp

/-- Settles O44: the table by the aging of each entry, the factor and the events by what the aging leaves. -/
theorem shareEpochAgesThenStages : Obligations.ShareEpochAgesThenStages := by
  unfold Obligations.ShareEpochAgesThenStages
  intro s t lost aged factor removed
  refine ⟨shareEpoch_of_stuck, fun hb => ?_⟩
  have hshare : t.share
      = { peers := s.share.peers.filterMap agePeer, k := s.epochFactor.1, overcommit := s.epochFactor.2.1 } :=
    share_shareEpoch hb
  have hfactor : factor = s.epochFactor := by
    simp only [factor, hshare]
    rfl
  rw [hfactor]
  refine ⟨fun q => ?_, by rw [hshare], by rw [hshare], ?_, fun n cfg hcfg => ?_, fun n hcfg => ?_, shareEpoch_frame s⟩
  · rw [hshare]
    simp only [List.mem_filterMap, agePeer_eq_some_iff]
    rfl
  · obtain ⟨raised, hraises, hperm⟩ := raises_shareEpoch_perm s
    rw [shareEvents_eq, if_neg hb, lostEvents_eq, overcommitEvents_eq] at hperm
    exact ⟨raised, hraises, hperm⟩
  · rw [ctx_shareEpoch hb, stage_of_enabled hcfg]
  · rw [ctx_shareEpoch hb, stage_of_disabled hcfg]

end Sys2Proof.Machine

namespace Sys2Proof.Machine

open Sys2Proof

/-! ### The entry of a notice (R90, R91, R94) -/

theorem misalignedEvents_eq (p : PartCfg) (n : Heard) (was : Bool) : misalignedEvents p n was
    = if was = false then if judgeAligned p n false = true
        then [⟨.peerMisaligned, n.id, offsetDiff n.offset n.recvOffset⟩] else [] else [] := by
  unfold misalignedEvents
  cases was
  · simp
  · simp

theorem mem_putEntry {s : State} (h : s.peersWf) (n : Heard) (was : Bool) (q : Peer) :
    q ∈ (s.putEntry n was).share.peers ↔ q = n.entry s.cfg was ∨ (q ∈ s.share.peers ∧ q.id ≠ n.id) := by
  obtain ⟨hasc, -⟩ := h
  exact (putPeer_spec _ _ hasc).2 q

/-- An ordered table is searched by id (R88). -/
theorem findPeer_of_mem {s : State} (h : s.peersWf) {p : Peer} (hp : p ∈ s.share.peers) :
    findPeer p.id s.share.peers = some p := by
  obtain ⟨hasc, -⟩ := h
  obtain ⟨hsome, hnone⟩ := findPeer_spec (id := p.id) (ps := s.share.peers)
  cases hfound : findPeer p.id s.share.peers with
  | none => exact absurd rfl (hnone hfound p hp)
  | some e =>
    obtain ⟨he, hid⟩ := hsome e hfound
    rw [ascending_unique hasc he hp hid]

theorem findPeer_eq_none {id : Nat} {ps : List Peer} (h : ∀ p ∈ ps, p.id ≠ id) : findPeer id ps = none := by
  simpa [findPeer] using h

/-- A notice handed over acts on the Share Computer, the latches, the queue and the choices, nothing else. -/
theorem takeNotice_frame (s : State) (n : Heard) : s.takeNotice n = { s with
    share := (s.takeNotice n).share, fresh := (s.takeNotice n).fresh, link := { s.link with
      latches := (s.takeNotice n).link.latches, queue := (s.takeNotice n).link.queue,
      overflow := (s.takeNotice n).link.overflow } } := by
  have hlink : (s.takeNotice n).link = { s.link with
      latches := (s.takeNotice n).link.latches, queue := (s.takeNotice n).link.queue,
      overflow := (s.takeNotice n).link.overflow } := by
    by_cases hown : n.id = s.cfg.stationId
    · rw [takeNotice_of_clash hown, raise_link]
      rfl
    · cases hfound : findPeer n.id s.share.peers with
      | some p =>
        rw [takeNotice_of_known hown hfound, raiseAll_link]
        rfl
      | none =>
        rw [takeNotice_of_new hown hfound, chosen_link, raiseAll_link]
        rfl
  refine state_eq ?_ ?_ ?_ ?_ ?_ ?_ ?_ ?_ rfl ?_ ?_ ?_ ?_ hlink rfl ?_ <;> simp

/-- A notice of the own id sets the latch of an id clash, and with it FAULT, and stores nothing (R92, R183). -/
theorem takeNotice_clash {s : State} {n : Heard} (hown : n.id = s.cfg.stationId) :
    let t := s.takeNotice n
    t.share = s.share ∧ t.link.latches = { s.link.latches with idClash := true }
      ∧ Raises s t [⟨.idClash, n.id, n.offset⟩] ∧ (s.live = true → t.faultLine = true) := by
  simp only [takeNotice_of_clash hown]
  refine ⟨raise_share .., raise_latches .., (raises_raise s.clashed ..).of_same rfl rfl rfl, fun hlive => ?_⟩
  have hlive' : (s.clashed.raise .idClash n.id n.offset).live = true := by
    simpa [State.live, State.clashed] using hlive
  have hlatch : (s.clashed.raise .idClash n.id n.offset).link.latches.any = true := by
    simp [Latches.any, State.clashed]
  rw [State.faultLine, hlive', hlatch]
  rfl

/-- A notice of another station leaves the latches (R90, R91). -/
theorem takeNotice_latches {s : State} {n : Heard} (hown : n.id ≠ s.cfg.stationId) :
    (s.takeNotice n).link.latches = s.link.latches := by
  cases hfound : findPeer n.id s.share.peers with
  | some p =>
    rw [takeNotice_of_known hown hfound, raiseAll_link]
    rfl
  | none =>
    rw [takeNotice_of_new hown hfound, chosen_link, raiseAll_link]
    rfl

theorem mem_takeNotice_ne {s : State} (h : s.peersWf) (n : Heard) {q : Peer} (hq : q.id ≠ n.id) :
    q ∈ (s.takeNotice n).share.peers ↔ q ∈ s.share.peers := by
  by_cases hown : n.id = s.cfg.stationId
  · obtain ⟨hshare, -⟩ := takeNotice_clash hown
    rw [hshare]
  · rw [takeNotice_share hown, mem_putEntry h]
    have hne : q ≠ n.entry s.cfg (s.wasMisaligned n.id) := fun heq => hq (congrArg Peer.id heq)
    simp [hne, hq]

/-- Settles O45, by what the table holds of the notice's id. -/
theorem noticeActsByItsId : Obligations.NoticeActsByItsId := by
  unfold Obligations.NoticeActsByItsId
  intro s n h t diff judged entry misaligned
  have hmisaligned (was : Bool) : misalignedEvents s.cfg n was = if was = false then misaligned else [] :=
    misalignedEvents_eq s.cfg n was
  refine ⟨takeNotice_clash, fun p hp hid => ?_, fun hown hnone => ?_, fun q hq => mem_takeNotice_ne h n hq,
    fun hown => ⟨?_, takeNotice_latches hown⟩, takeNotice_frame s n⟩
  · have hown : n.id ≠ s.cfg.stationId := by
      obtain ⟨-, hall⟩ := h
      obtain ⟨-, hne, -⟩ := hall p hp
      exact hid ▸ hne
    have ht : t = _ := takeNotice_of_known hown (hid ▸ findPeer_of_mem h hp)
    rw [ht, raiseAll_share, ← hmisaligned]
    exact ⟨(mem_putEntry h ..).mpr (.inl rfl), (raises_raiseAll ..).of_same rfl rfl rfl⟩
  · have ht : t = _ := takeNotice_of_new hown (findPeer_eq_none hnone)
    rw [ht, chosen_share, raiseAll_share]
    refine ⟨(mem_putEntry h ..).mpr (.inl rfl), s.order (newPeerEvents s.cfg n),
      (raises_raiseAll (s.putEntry n false) _).congr rfl rfl rfl rfl rfl, ?_⟩
    have hevents : newPeerEvents s.cfg n = ⟨.peerNew, n.id, min (n.f + n.x) 65535⟩ :: misaligned :=
      congrArg (List.cons _) (hmisaligned false)
    rw [← hevents]
    exact order_perm ..
  · have hshare : t.share = _ := takeNotice_share hown
    rw [hshare]
    rfl

end Sys2Proof.Machine

namespace Sys2Proof.Machine

open Sys2Proof

/-! ### A notice record on the line (R116, R117) -/

theorem busNormal_of {s : State} (hlive : s.live = true) (hbus : s.pace.bus = .normal) : s.busNormal = true := by
  simp [State.busNormal, hlive, hbus]

theorem exec_noticeDue {s : State} {r : Notice} (hn : s.busNormal = true) (hcur : s.pace.cur = some r)
    (hst : r.st = .scheduled) (hdue : reached s.t r.due = true) : exec .noticeDue s
      = .next { s with pace := { s.pace with cur := some { r with st := .waiting, since := s.t } } } := by
  have hready : s.noticeDueReady = true := by simp [State.noticeDueReady, hn, hcur, hst, hdue]
  simp only [exec, execNoticeDue, hready, if_true, hcur, Option.map_some]

/-- The Pace Bus Interface with its record on the line, before the line follows (R110, R117). -/
def State.onLine (s : State) (r : Notice) : Pace :=
  { s.pace with
    cur := some { r with st := .onLine }, attempt := some { s0 := s.t, bits := s.formBits, comparing := true } }

theorem exec_noticeStart {s : State} {r : Notice} (hn : s.busNormal = true) (hcur : s.pace.cur = some r)
    (hst : r.st = .waiting) (hfree : s.pace.attempt = none)
    (hquiet : 8 * s.cfg.bitTime + r.holdoff ≤ s.pace.quietBefore s.t r.since) : exec .noticeStart s
      = .next { s with pace := (s.onLine r).pullNow s.cfg.bitTime s.t s.pins s.epochOffset } := by
  have hready : s.noticeStartReady = true := by
    simp [State.noticeStartReady, hn, Pace.startsNow, hcur, hst, hfree, hquiet]
  simp only [exec, execNoticeStart, hready, if_true, hcur, Option.map_some]
  rfl

/-! ### The line follows the drive (R108, R109, R112) -/

/-- A start mark pulls the line from the tick at which it begins (R109). -/
theorem drives_of_start {p : Pace} {a : Attempt} {b : Nat} {now : Time} (hb : 0 < b) (ha : p.attempt = some a)
    (hs0 : a.s0 = now) : p.drives b now = true := by
  simp [Pace.drives, ha, hs0, elapsed, Attempt.lowAt, hb]

/-- The pull at a start changes the sample of the line and the receive side, nothing else (R108, R112). -/
theorem pullNow_frame (b : Nat) (now : Time) (pins : Pins) (offset : Nat) (p : Pace) :
    let q := p.pullNow b now pins offset
    q = { p with
      level := q.level, highRun := q.highRun, lowRun := q.lowRun, fell := q.fell, recv := q.recv, bits := q.bits,
      edge := q.edge, recvOffset := q.recvOffset, bitStart := q.bitStart } := by
  unfold Pace.pullNow
  simp only []
  (repeat' split) <;> rfl

theorem pullNow_cur (b : Nat) (now : Time) (pins : Pins) (offset : Nat) (p : Pace) :
    (p.pullNow b now pins offset).cur = p.cur := by
  rw [pullNow_frame]

theorem pullNow_attempt (b : Nat) (now : Time) (pins : Pins) (offset : Nat) (p : Pace) :
    (p.pullNow b now pins offset).attempt = p.attempt := by
  rw [pullNow_frame]

/-- A high line that follows the drive falls, and an idle receive side takes the edge as its start mark (R112). -/
theorem pullNow_of_idle {b : Nat} {now : Time} {pins : Pins} {offset : Nat} {p : Pace} (hlevel : p.level = true)
    (hfollows : pins.paceFollows = true) (hdrives : p.drives b now = true) (hrecv : p.recv = .idle) :
    p.pullNow b now pins offset
      = Pace.startMark now offset { p with level := false, highRun := 0, lowRun := 1, fell := true } := by
  simp [Pace.pullNow, Pins.paceLevel, hlevel, hfollows, hdrives, hrecv]

/-- Settles O49. -/
theorem noticeRecordGoesOnTheLine : Obligations.NoticeRecordGoesOnTheLine := by
  unfold Obligations.NoticeRecordGoesOnTheLine
  intro s r hlive hbus hcur hb
  have hn : s.busNormal = true := busNormal_of hlive hbus
  refine ⟨exec_noticeDue hn hcur, fun hst hfree hhigh hsince => ?_⟩
  let q := (s.onLine r).pullNow s.cfg.bitTime s.t s.pins s.epochOffset
  have hcur' : q.cur = some { r with st := .onLine } := pullNow_cur ..
  have hattempt : q.attempt = some { s0 := s.t, bits := s.formBits, comparing := true } := pullNow_attempt ..
  have hpos : 0 < s.cfg.bitTime := by omega
  refine ⟨{ s with pace := q }, exec_noticeStart hn hcur hst hfree (Nat.le_min.mpr ⟨hhigh, hsince⟩), hcur', hattempt,
    ?_, fun hlevel hfollows hrecv => ?_, ?_, rfl⟩
  · have hdrives : q.drives s.cfg.bitTime s.t = true := drives_of_start hpos hattempt rfl
    change (s.live && q.drives s.cfg.bitTime s.t) = true
    rw [hlive, hdrives, Bool.and_self]
  · have hq : q = _ := pullNow_of_idle hlevel hfollows (drives_of_start hpos rfl rfl) hrecv
    simp only [hq]
    exact ⟨rfl, rfl, rfl, rfl, rfl⟩
  · change q = { s.pace with
      cur := q.cur, attempt := q.attempt, level := q.level, highRun := q.highRun, lowRun := q.lowRun, fell := q.fell,
      recv := q.recv, bits := q.bits, edge := q.edge, recvOffset := q.recvOffset, bitStart := q.bitStart }
    rw [hcur', hattempt]
    exact pullNow_frame s.cfg.bitTime s.t s.pins s.epochOffset (s.onLine r)

end Sys2Proof.Machine

namespace Sys2Proof.Machine

open Sys2Proof

/-! ### The bits of a notice (R110, R111) -/

/-- Bit `n - 1 - i` of a value stands at place `i` of its notice bits (R110). -/
theorem toBits_eq_map (n v : Nat) : toBits n v = (List.range n).reverse.map v.testBit := by
  induction n generalizing v with
  | zero => rfl
  | succ n ih => simp [toBits, ih, List.range_succ_eq_map, Nat.testBit_succ, Function.comp_def, List.map_reverse]

theorem fieldBits_length (id offset f x : Nat) (flags : NoticeFlags) : (fieldBits id offset f x flags).length = 56 := by
  simp [fieldBits, toBits_length, NoticeFlags.toBits]

theorem noticeBits_length (id offset f x : Nat) (flags : NoticeFlags) :
    (noticeBits id offset f x flags).length = 64 := by
  simp [noticeBits, fieldBits_length, toBits_length]

theorem noticeBits_eq (id offset f x : Nat) (flags : NoticeFlags) :
    noticeBits id offset f x flags
      = toBits 4 id ++ (toBits 16 offset ++ (toBits 16 f ++ (toBits 16 x
          ++ (flags.toBits ++ toBits 8 (noticeCheck (fieldBits id offset f x flags)).toNat)))) := by
  simp [noticeBits, fieldBits]

/-- A field of a notice is read back from the bits it is sent in, whatever stands before and after it (R110). -/
theorem bitField_of_append {bs before after : List Bool} {off n v : Nat} (hv : v < 2 ^ n)
    (hbs : bs = before ++ (toBits n v ++ after)) (hoff : before.length = off) : bitField bs off n = v := by
  rw [bitField, hbs, cut_mid before _ after off n hoff (toBits_length n v), ofBits_toBits n v hv]

theorem noticeBits_take_fields (id offset f x : Nat) (flags : NoticeFlags) :
    (noticeBits id offset f x flags).take 56 = fieldBits id offset f x flags :=
  List.take_left' (fieldBits_length ..)

theorem noticeBits_drop_flags (id offset f x : Nat) (flags : NoticeFlags) :
    (noticeBits id offset f x flags).drop 52
      = flags.toBits ++ toBits 8 (noticeCheck (fieldBits id offset f x flags)).toNat := by
  have h : noticeBits id offset f x flags = (toBits 4 id ++ toBits 16 offset ++ toBits 16 f ++ toBits 16 x)
      ++ (flags.toBits ++ toBits 8 (noticeCheck (fieldBits id offset f x flags)).toNat) := by
    simp [noticeBits_eq]
  rw [h]
  exact List.drop_left' (by simp [toBits_length])

/-- The flags stand at bits 52 to 55 of a notice (R110). -/
theorem noticeBits_flag (id offset f x : Nat) (flags : NoticeFlags) (i : Nat) (hi : i < 4) :
    (noticeBits id offset f x flags).getD (52 + i) false = flags.toBits.getD i false := by
  have hlen : i < flags.toBits.length := hi
  rw [List.getD_eq_getElem?_getD, List.getD_eq_getElem?_getD, ← List.getElem?_drop, noticeBits_drop_flags,
    List.getElem?_append_left hlen]

/-- The check bits of a notice spell the check of its fields (R111). -/
theorem noticeBits_check (id offset f x : Nat) (flags : NoticeFlags) :
    bitField (noticeBits id offset f x flags) 56 8 = (noticeCheck (fieldBits id offset f x flags)).toNat :=
  bitField_of_append (before := fieldBits id offset f x flags) (after := []) (BitVec.isLt _)
    (by rw [List.append_nil]; rfl) (fieldBits_length ..)

/-- A receiver reads the sender's values from the bits of a notice (R89, R110). -/
theorem heardOf_noticeBits {id offset f x : Nat} (flags : NoticeFlags) (recv : Nat) (hid : id < 16)
    (hoffset : offset < 65536) (hf : f < 65536) (hx : x < 65536) :
    heardOf (noticeBits id offset f x flags) recv
      = { id := id, offset := offset, f := f, x := x, flags := flags, recvOffset := recv } := by
  have hbits := noticeBits_eq id offset f x flags
  have hid' : bitField (noticeBits id offset f x flags) 0 4 = id :=
    bitField_of_append (before := []) hid hbits rfl
  have hoffset' : bitField (noticeBits id offset f x flags) 4 16 = offset :=
    bitField_of_append hoffset hbits (toBits_length ..)
  have hf' : bitField (noticeBits id offset f x flags) 20 16 = f :=
    bitField_of_append (before := toBits 4 id ++ toBits 16 offset) hf (by rw [hbits, List.append_assoc])
      (by simp [toBits_length])
  have hx' : bitField (noticeBits id offset f x flags) 36 16 = x :=
    bitField_of_append (before := toBits 4 id ++ toBits 16 offset ++ toBits 16 f) hx
      (by rw [hbits, List.append_assoc, List.append_assoc]) (by simp [toBits_length])
  have hflag := noticeBits_flag id offset f x flags
  simp only [heardOf, hid', hoffset', hf', hx', hflag 0 (by omega), hflag 1 (by omega), hflag 2 (by omega),
    hflag 3 (by omega)]
  rfl

/-! ### The check as a remainder (R111) -/

section Remainder

open Polynomial

/-- Bits as a polynomial over the integers mod 2, the first bit highest (R111). -/
noncomputable def bitPoly (bs : List Bool) : (ZMod 2)[X] :=
  bs.foldl (fun p b => p * X + if b = true then 1 else 0) 0

theorem bitPoly_snoc (bs : List Bool) (b : Bool) :
    bitPoly (bs ++ [b]) = bitPoly bs * X + if b = true then 1 else 0 := by
  simp [bitPoly]

/-- The divisor of the check (R111). -/
noncomputable def checkDivisor : (ZMod 2)[X] := X ^ 8 + X ^ 2 + X + 1

/-- The check bits of a remainder, as a polynomial (R111). -/
noncomputable def remainderPoly (r : BitVec 8) : (ZMod 2)[X] := bitPoly (toBits 8 r.toNat)

theorem ite_xor (a b : Bool) :
    (if xor a b = true then 1 else 0 : (ZMod 2)[X]) = (if a = true then 1 else 0) + (if b = true then 1 else 0) := by
  have htwo : (1 + 1 : (ZMod 2)[X]) = 0 := CharTwo.add_self_eq_zero 1
  cases a <;> cases b <;> simp [htwo]

/-- The eight bits of a remainder, highest first. -/
theorem toBits_remainder : ∀ r : BitVec 8, toBits 8 r.toNat
    = [r.getLsbD 7, r.getLsbD 6, r.getLsbD 5, r.getLsbD 4, r.getLsbD 3, r.getLsbD 2, r.getLsbD 1, r.getLsbD 0] := by
  decide

/-- One step of the division takes the divisor away where the bit shifted out and the bit coming in differ (R111). -/
theorem remainderPoly_checkStep (r : BitVec 8) (b : Bool) :
    remainderPoly r * X + (if b = true then 1 else 0) * X ^ 8
      = (if xor (r.getLsbD 7) b = true then 1 else 0) * checkDivisor + remainderPoly (checkStep r b) := by
  have htwo : (2 : (ZMod 2)[X]) = 0 := CharTwo.two_eq_zero
  rw [remainderPoly, remainderPoly, check_bits, toBits_remainder]
  simp only [bitPoly, List.foldl_cons, List.foldl_nil, ite_xor, checkDivisor]
  linear_combination (-(X ^ 2 + X + 1) * (if r.getLsbD 7 = true then 1 else 0)
    - (X ^ 2 + X + 1) * (if b = true then 1 else 0)) * htwo

/-- Bits, times x^8, leave their check as the remainder of the division (R111). -/
theorem bitPoly_divides (bs : List Bool) :
    ∃ q : (ZMod 2)[X], bitPoly bs * X ^ 8 = q * checkDivisor + remainderPoly (noticeCheck bs) := by
  induction bs using List.reverseRecOn with
  | nil =>
    have hzero : toBits 8 (noticeCheck []).toNat = List.replicate 8 false := by decide
    exact ⟨0, by simp [remainderPoly, hzero, bitPoly]⟩
  | append_singleton bs b ih =>
    obtain ⟨q, hq⟩ := ih
    refine ⟨q * X + if xor ((noticeCheck bs).getLsbD 7) b = true then 1 else 0, ?_⟩
    rw [bitPoly_snoc, noticeCheck_snoc]
    linear_combination X * hq + remainderPoly_checkStep (noticeCheck bs) b

end Remainder

/-! ### The check is linear (R111) -/

/-- The low bits of the divisor, where it is taken away. -/
def lowDivisor (taken : Bool) : BitVec 8 := bif taken then 7#8 else 0#8

theorem lowDivisor_xor : ∀ a b : Bool, lowDivisor (xor a b) = lowDivisor a ^^^ lowDivisor b := by decide

/-- One step of the check shifts, and takes the divisor away where the bit shifted out and the one coming in differ. -/
theorem checkStep_eq (r : BitVec 8) (b : Bool) : checkStep r b = (r <<< 1) ^^^ (lowDivisor r.msb ^^^ lowDivisor b) := by
  rw [checkStep, ← lowDivisor_xor]
  cases r.msb <;> cases b <;> simp [lowDivisor]

theorem checkStep_xor (r u : BitVec 8) (a b : Bool) :
    checkStep (r ^^^ u) (xor a b) = checkStep r a ^^^ checkStep u b := by
  simp only [checkStep_eq, BitVec.shiftLeft_xor_distrib, BitVec.msb_xor, lowDivisor_xor]
  ac_rfl

theorem foldl_checkStep_xor (as bs : List Bool) (h : as.length = bs.length) (r u : BitVec 8) :
    (List.zipWith xor as bs).foldl checkStep (r ^^^ u) = as.foldl checkStep r ^^^ bs.foldl checkStep u := by
  induction as generalizing bs r u with
  | nil =>
    rw [List.length_nil] at h
    rw [List.eq_nil_of_length_eq_zero h.symm]
    rfl
  | cons a as ih =>
    cases bs with
    | nil => cases h
    | cons b bs =>
      simp only [List.zipWith_cons_cons, List.foldl_cons, checkStep_xor]
      exact ih bs (Nat.succ.inj h) _ _

/-- The check of a sum is the sum of the checks (R111). -/
theorem noticeCheck_xor (as bs : List Bool) (h : as.length = bs.length) :
    noticeCheck (List.zipWith xor as bs) = noticeCheck as ^^^ noticeCheck bs :=
  foldl_checkStep_xor as bs h 0 0

theorem noticeCheck_zeros (n : Nat) : noticeCheck (List.replicate n false) = 0 := by
  induction n with
  | zero => rfl
  | succ n ih =>
    rw [List.replicate_succ', noticeCheck_snoc, ih]
    rfl

/-- Settles O47. -/
theorem noticeBitsRoundTripWithTheirCheck : Obligations.NoticeBitsRoundTripWithTheirCheck := by
  unfold Obligations.NoticeBitsRoundTripWithTheirCheck
  refine ⟨fun id offset f x recv flags hid hoffset hf hx => ?_, fun bs => ?_, noticeCheck_zeros, noticeCheck_xor⟩
  · refine ⟨noticeBits_length .., heardOf_noticeBits flags recv hid hoffset hf hx, ?_, ?_, ?_⟩
    · rw [noticeBits_check, noticeBits_take_fields]
    · rw [noticeBits_eq, List.take_left' (toBits_length ..), toBits_eq_map]
      rfl
    · rw [noticeBits_drop_flags]
      exact List.take_left' rfl
  · obtain ⟨q, hq⟩ := bitPoly_divides bs
    exact ⟨q, hq, toBits_length ..⟩

end Sys2Proof.Machine

namespace Sys2Proof.Machine

open Sys2Proof

/-! ### The drive of the line (R109) -/

theorem lowAt_startMark (a : Attempt) {b d : Nat} (hd : d < 2 * b) : a.lowAt b d = true := if_pos hd

/-- A bit pulls the line low for the part of its time that its value says (R109). -/
theorem lowAt_bit {a : Attempt} {b j o : Nat} {v : Bool} (hv : a.bits[j]? = some v) (ho : o < b) :
    a.lowAt b ((2 + j) * b + o) = decide (o < if v = true then b / 4 else 3 * b / 4) := by
  have hpos : 0 < b := Nat.zero_lt_of_lt ho
  have hlow : ¬(2 + j) * b + o < 2 * b := by
    rw [Nat.add_mul]
    omega
  have hbit : ((2 + j) * b + o) / b - 2 = j := by
    rw [Nat.add_comm, Nat.add_mul_div_right _ _ hpos, Nat.div_eq_of_lt ho]
    omega
  have hin : ((2 + j) * b + o) % b = o := by rw [Nat.add_comm, Nat.add_mul_mod_self_right, Nat.mod_eq_of_lt ho]
  rw [Attempt.lowAt, if_neg hlow, hbit, hv, hin]

/-- After its 66 bit times an attempt drives the line no more (R109). -/
theorem lowAt_of_over {a : Attempt} {b d : Nat} (hpos : 0 < b) (hlen : a.bits.length = 64) (hd : 66 * b ≤ d) :
    a.lowAt b d = false := by
  have hbit : 66 ≤ d / b := (Nat.le_div_iff_mul_le hpos).mpr hd
  have hnone : a.bits[d / b - 2]? = none := List.getElem?_eq_none (by omega)
  rw [Attempt.lowAt, if_neg (by omega), hnone]

theorem drives_eq (b : Nat) (now : Time) (p : Pace) :
    p.drives b now = p.attempt.elim false fun a => a.lowAt b (now - a.s0).toNat := by
  unfold Pace.drives
  cases p.attempt <;> rfl

/-! ### The sample of the line (R108, R113) -/

/-- The attempt still within its 66 bit times (R109). -/
def Pace.onLineAt (b : Nat) (now : Time) (p : Pace) : Option Attempt :=
  p.attempt.filter fun a => decide ((now - a.s0).toNat < 66 * b)

theorem expire_eq (b : Nat) (now : Time) (p : Pace) : p.expire b now = { p with attempt := p.onLineAt b now } := by
  unfold Pace.expire
  split
  · next hnone =>
    have hsame : p.onLineAt b now = p.attempt := by rw [Pace.onLineAt, hnone, Option.filter_none]
    rw [hsame]
  · next a hsome =>
    by_cases hover : 66 * b ≤ elapsed now a.s0
    · have hgone : p.onLineAt b now = none := by
        rw [Pace.onLineAt, hsome]
        exact if_neg (by simpa [elapsed] using hover)
      rw [if_pos hover, hgone]
    · have hsame : p.onLineAt b now = p.attempt := by
        rw [Pace.onLineAt, hsome]
        exact if_pos (by simpa [elapsed] using hover)
      rw [if_neg hover, hsame]

theorem bitDue_iff {b : Nat} {now : Time} {p : Pace} :
    p.bitDue b now = true ↔ ∃ e, p.bitStart = some e ∧ now = after e (b / 2) := by
  unfold Pace.bitDue
  cases p.bitStart <;> simp

/-- An edge of this tick is taken after the bit's sample of the same tick (R113, log entry 4). -/
def Pace.edgeWaits (b : Nat) (now : Time) (first : Bool) (p : Pace) : Bool := p.bitDue b now && !first

/-- A falling edge in DATA begins a bit, unless it waits for the sample of its tick (R113). -/
theorem takeDataEdge_eq (b : Nat) (now : Time) (first : Bool) (p : Pace) : p.takeDataEdge b now first
    = if p.recv = .data ∧ p.fell = true ∧ p.edgeWaits b now first = false then
        { p with bitStart := some now, fell := false }
      else p := by
  simp only [Pace.takeDataEdge, Pace.edgeWaits, Bool.and_eq_true, decide_eq_true_eq, Bool.and_eq_false_iff,
    Bool.or_eq_true, Bool.not_eq_eq_eq_not, Bool.not_true, Bool.not_false, and_assoc, and_left_comm]

/-- Settles O48. -/
theorem paceLineIsDrivenAndSampled : Obligations.PaceLineIsDrivenAndSampled := by
  unfold Obligations.PaceLineIsDrivenAndSampled
  refine ⟨fun a b hb hlen => ⟨fun d => lowAt_startMark a, fun j v o => lowAt_bit,
      fun d => lowAt_of_over (by omega) hlen⟩,
    fun s hlive => ?_, fun p b now pins first => ?_⟩
  · rw [State.paceLow, hlive, Bool.true_and, drives_eq]
  · intro q on low line edge sampled
    refine ⟨fun hoff => if_pos hoff, fun hon => ?_⟩
    let u : Pace := ({ p with attempt := on } : Pace).count line
    have hq : q = u.takeDataEdge b now first := by
      have hdrives : (p.expire b now).drives b now = low := by rw [drives_eq, expire_eq]; rfl
      simp only [q, Pace.sample, if_neg hon, hdrives]
      rw [expire_eq]
      rfl
    have hwaits : u.edgeWaits b now first = true ↔ sampled ∧ first = false := by
      simp [Pace.edgeWaits, bitDue_iff, sampled, u, Pace.count]
    rw [takeDataEdge_eq] at hq
    by_cases hbegins : u.recv = .data ∧ u.fell = true ∧ u.edgeWaits b now first = false
    · obtain ⟨hdata, hedge, hwait⟩ := id hbegins
      have hnot : ¬(sampled ∧ first = false) := by rw [← hwaits, hwait]; decide
      rw [hq, if_pos hbegins]
      refine ⟨rfl, rfl, rfl, rfl, rfl, fun h => ?_, fun _ _ _ => ⟨rfl, rfl⟩, fun _ _ hs hf => absurd ⟨hs, hf⟩ hnot, rfl⟩
      rcases h with h | h
      · exact absurd hdata h
      · exact absurd (h.symm.trans hedge) (by decide)
    · rw [hq, if_neg hbegins]
      refine ⟨rfl, rfl, rfl, rfl, rfl, fun _ => ⟨rfl, rfl⟩, fun hdata hedge hor => ?_,
        fun _ hedge _ _ => ⟨hedge, rfl⟩, rfl⟩
      have hwait : u.edgeWaits b now first = true := by
        by_contra h
        exact hbegins ⟨hdata, hedge, Bool.eq_false_iff.mpr h⟩
      obtain ⟨hs, hf⟩ := hwaits.mp hwait
      rcases hor with h | h
      · exact absurd hs h
      · exact absurd (hf.symm.trans h) (by decide)

end Sys2Proof.Machine

namespace Sys2Proof.Machine

open Sys2Proof

/-! ### Events raised by the Pace Bus Interface (R127) -/

/-- Raising events moves the queue and the overflow flag, nothing else (R182). -/
theorem raiseAll_eq (s : State) (es : List Raised) : s.raiseAll es = { s with
    link := { s.link with queue := (s.raiseAll es).link.queue, overflow := (s.raiseAll es).link.overflow } } :=
  state_eq (by simp) (by simp) (by simp) (by simp) (by simp) (by simp) (by simp) (by simp) (by simp) (by simp) (by simp)
    (by simp) (by simp) (raiseAll_link ..) (by simp) (by simp)

theorem raise_eq (s : State) (c : EventCode) (a b : Nat) : s.raise c a b = { s with
    link := { s.link with queue := (s.raise c a b).link.queue, overflow := (s.raise c a b).link.overflow } } :=
  raiseAll_eq s [⟨c, a, b⟩]

theorem paceLow_of_released {s : State} (h : s.pace.attempt = none) : s.paceLow = false := by
  simp [State.paceLow, Pace.drives, h]

/-! ### The stuck line (R124, R125) -/

/-- The part as the bus becomes STUCK, before its event (R124). -/
def State.busStops (s : State) : State :=
  { s with
    pace := { s.pace.settle with bus := .stuck, attempt := none, cur := none, old := none }
    link := { s.link with latches := { s.link.latches with busStuck := true } } }

theorem exec_busStuck {s : State} (hn : s.busNormal = true) (hlow : 16 * s.cfg.bitTime < s.pace.lowRun) :
    exec .busStuck s = .next (s.busStops.raise .busStuck 0 0) := by
  have hready : s.stuckReady = true := by simp [State.stuckReady, hn, hlow]
  simp only [exec, execBusStuck, hready, if_true]
  rfl

/-- The part as the bus becomes NORMAL again, before its event (R125). -/
def State.busReturns (s : State) : State :=
  { s with pace := { s.pace with bus := .normal, recv := .idle, fell := false } }

theorem exec_busRestored {s : State} (hlive : s.live = true) (hstuck : s.pace.bus = .stuck)
    (hhigh : 8 * s.cfg.bitTime ≤ s.pace.highRun) :
    exec .busRestored s = .next (s.busReturns.raise .busRestored 0 0) := by
  have hready : s.restoredReady = true := by simp [State.restoredReady, hlive, hstuck, hhigh]
  simp only [exec, execBusRestored, hready, if_true]
  rfl

/-- Settles O53. -/
theorem stuckLineStopsTheBus : Obligations.StuckLineStopsTheBus := by
  unfold Obligations.StuckLineStopsTheBus
  refine fun s hlive => ⟨fun hbus hlow => ?_, fun hstuck hhigh => ?_⟩
  · let t := s.busStops.raise .busStuck 0 0
    have hpace : t.pace = s.busStops.pace := raise_pace ..
    have hlatches : t.link.latches = { s.link.latches with busStuck := true } := raise_latches ..
    have hfault : t.faultLine = true := by
      have ht : t.live = s.live := by simp [t, State.live, State.busStops]
      simp [State.faultLine, ht, hlive, hlatches, Latches.any]
    have hreleased : t.paceLow = false := paceLow_of_released (by rw [hpace]; rfl)
    refine ⟨t, exec_busStuck (busNormal_of hlive hbus) hlow, by rw [hpace]; rfl, by rw [hpace]; rfl, by rw [hpace]; rfl,
      by rw [hpace]; rfl, by rw [hpace]; rfl, hreleased, hfault, hlatches,
      (raises_raise s.busStops ..).of_same rfl rfl rfl, ?_⟩
    rw [hpace, hlatches]
    exact raise_eq s.busStops ..
  · exact ⟨_, exec_busRestored hlive hstuck hhigh, (raises_raise s.busReturns ..).of_same rfl rfl rfl,
      raise_eq s.busReturns ..⟩

/-! ### The receive side (R112 to R115) -/

theorem exec_receiveSettled {s : State} (hn : s.busNormal = true) (hrecv : s.pace.recv = .settling)
    (hhigh : 2 * s.cfg.bitTime ≤ s.pace.highRun) :
    exec .receiveSettled s = .next { s with pace := { s.pace with recv := .idle } } := by
  have hready : s.settledReady = true := by simp [State.settledReady, hn, hrecv, hhigh]
  simp only [exec, execReceiveSettled, hready, if_true]

theorem exec_startMarkEdge {s : State} (hn : s.busNormal = true) (hrecv : s.pace.recv = .idle ∨ s.pace.recv = .start)
    (hfell : s.pace.fell = true) :
    exec .startMarkEdge s = .next { s with pace := s.pace.startMark s.t s.epochOffset } := by
  have hready : s.startMarkReady = true := by
    rcases hrecv with h | h <;> simp [State.startMarkReady, hn, h, hfell]
  simp only [exec, execStartMarkEdge, hready, if_true]

theorem exec_dataBitSampled {s : State} (hready : s.dataBitReady = true) :
    exec .dataBitSampled s = .next { s with pace := s.pace.storeBit s.t } := by
  simp only [exec, execDataBitSampled, hready, if_true]

theorem storeBit_of_not_fell {now : Time} {p : Pace} (h : p.fell = false) :
    p.storeBit now = { p with recv := .data, bits := p.bits ++ [p.level], bitStart := none } := by
  simp [Pace.storeBit, h]

theorem dataBitReady_of_first {s : State} (hn : s.busNormal = true) (hrecv : s.pace.recv = .start)
    (ht : s.t = after s.pace.edge (2 * s.cfg.bitTime + s.cfg.bitTime / 2)) : s.dataBitReady = true := by
  have hdue : s.pace.firstBitDue s.cfg.bitTime s.t = true := by
    rw [Pace.firstBitDue, hrecv, ← ht, decide_eq_true rfl, decide_eq_true rfl]
    rfl
  simp [State.dataBitReady, hn, hdue]

theorem laterBitDue_of {p : Pace} {b : Nat} {now e : Time} (hrecv : p.recv = .data) (hstart : p.bitStart = some e)
    (ht : now = after e (b / 2)) : p.laterBitDue b now = true := by
  simp [Pace.laterBitDue, Pace.bitDue, hrecv, hstart, ht]

theorem exec_noticeFraming {s : State} (hn : s.busNormal = true) (hrecv : s.pace.recv = .start ∨ s.pace.recv = .data)
    (hhigh : 3 * s.cfg.bitTime / 2 < s.pace.highRun) : exec .noticeFraming s
      = .next (State.raise { s with pace := s.pace.settle } .noticeFraming 0 s.pace.bits.length) := by
  have hready : s.framingReady = true := by
    rcases hrecv with h | h <;> simp [State.framingReady, hn, h, hhigh]
  simp only [exec, execNoticeFraming, hready, if_true]

/-- Settles O52. -/
theorem receiveSideFollowsTheLine : Obligations.ReceiveSideFollowsTheLine := by
  unfold Obligations.ReceiveSideFollowsTheLine
  intro s hlive hbus
  have hn : s.busNormal = true := busNormal_of hlive hbus
  refine ⟨exec_receiveSettled hn, exec_startMarkEdge hn, fun hrecv ht hfell => ?_,
    fun e hrecv hstart ht hlen hfell => ?_, fun hrecv hhigh => ?_⟩
  · rw [exec_dataBitSampled (dataBitReady_of_first hn hrecv ht), storeBit_of_not_fell hfell]
  · have hready : s.dataBitReady = true := by simp [State.dataBitReady, hn, laterBitDue_of hrecv hstart ht, hlen]
    rw [exec_dataBitSampled hready, storeBit_of_not_fell hfell, ← hrecv]
  · exact ⟨_, exec_noticeFraming hn hrecv hhigh, (raises_raise { s with pace := s.pace.settle } ..).of_same rfl rfl rfl,
      raise_eq { s with pace := s.pace.settle } ..⟩

end Sys2Proof.Machine

namespace Sys2Proof.Machine

open Sys2Proof

/-! ### What a sender meets at the bit it compares (R118 to R120) -/

section Compared

variable {p : Pace} {b j : Nat} {now : Time} {sent : Bool}

theorem losesNow_of_comparing (h : p.comparing b now = some (j, sent)) :
    p.losesNow b now = true ↔ j < 4 ∧ sent = true ∧ p.level = false := by
  simp [Pace.losesNow, h, and_assoc]

theorem bitErrorNow_of_comparing (h : p.comparing b now = some (j, sent)) :
    p.bitErrorNow b now
      = if (sent = false ∧ p.level = true) ∨ (sent = true ∧ p.level = false ∧ 4 ≤ j) then some j else none := by
  simp [Pace.bitErrorNow, h, and_assoc]

theorem succeedsNow_of_comparing (h : p.comparing b now = some (j, sent)) :
    p.succeedsNow b now = true ↔ j = 63 ∧ sent = p.level := by
  simp [Pace.succeedsNow, h]

theorem losesNow_of_none (h : p.comparing b now = none) : p.losesNow b now = false := by
  rw [Pace.losesNow, h]

theorem bitErrorNow_of_none (h : p.comparing b now = none) : p.bitErrorNow b now = none := by
  rw [Pace.bitErrorNow, h]

theorem succeedsNow_of_none (h : p.comparing b now = none) : p.succeedsNow b now = false := by
  rw [Pace.succeedsNow, h]

theorem comparing_of_no_attempt (h : p.attempt = none) : p.comparing b now = none := by
  rw [Pace.comparing, h]

/-- An attempt compares at the samples of its own bits only (R118). -/
theorem comparing_of_no_sample {a : Attempt} (ha : p.attempt = some a)
    (hno : a.comparing = false ∨ ∀ j sent, a.bits[j]? = some sent → now ≠ after a.s0 ((2 + j) * b + b / 2)) :
    p.comparing b now = none := by
  simp only [Pace.comparing, ha]
  split
  · next hdue =>
    obtain ⟨hcomparing, hfrom, hwhole⟩ := hdue
    let j := (elapsed now a.s0 - (2 * b + b / 2)) / b
    have hticks : (2 + j) * b + b / 2 = elapsed now a.s0 := by
      have hj : j * b = elapsed now a.s0 - (2 * b + b / 2) := Nat.div_mul_cancel (Nat.dvd_of_mod_eq_zero hwhole)
      rw [Nat.add_mul]
      omega
    have hnow : now = after a.s0 ((2 + j) * b + b / 2) := by
      rw [hticks, after, elapsed, BitVec.ofNat_toNat, BitVec.setWidth_eq, BitVec.add_comm, BitVec.sub_add_cancel]
    have hnobit : a.bits[j]? = none := by
      rcases hno with hno | hno
      · exact absurd (hcomparing.symm.trans hno) (by decide)
      · exact Option.eq_none_iff_forall_ne_some.mpr fun sent hbit => hno j sent hbit hnow
    change (a.bits[j]?).map _ = none
    rw [hnobit, Option.map_none]
  · rfl

end Compared

/-! ### A lost arbitration and a bit error (R119 to R122) -/

/-- The part whose superseded attempt is abandoned, before its events (R122). -/
def State.abandonsOld (s : State) : State := { s with pace := { s.pace with attempt := none, old := none } }

/-- The part whose attempt is off the line, its current record now `r`, before its events (R119, R120). -/
def State.offLine (s : State) (r : Notice) : State :=
  { s with pace := { s.pace with attempt := none, cur := some r } }

theorem exec_arbitrationLost_of_cur {s : State} {r : Notice} (hn : s.busNormal = true)
    (hloses : s.pace.losesNow s.cfg.bitTime s.t = true) (hcur : s.pace.cur = some r) (hold : s.pace.old = none) :
    exec .arbitrationLost s = .next (s.offLine (r.lost s.t)) := by
  have hready : s.arbitrationReady = true := by simp [State.arbitrationReady, hn, hloses]
  simp only [exec, execArbitrationLost, hready, if_true, State.offLine, hold, hcur, Option.map_some]

theorem exec_arbitrationLost_of_old {s : State} {old : Notice} (hn : s.busNormal = true)
    (hloses : s.pace.losesNow s.cfg.bitTime s.t = true) (hold : s.pace.old = some old) :
    exec .arbitrationLost s = .next (s.abandonsOld.raise .noticeSkipped s.cfg.stationId old.failed) := by
  have hready : s.arbitrationReady = true := by simp [State.arbitrationReady, hn, hloses]
  simp only [exec, execArbitrationLost, hready, if_true, hold]
  rfl

/-- The events of a bit error at bit `j` that leaves the current record as `r` (R120, R127). -/
def biterrEvents (id j : Nat) (r : Notice) : List Raised :=
  ⟨.noticeBiterr, id, j⟩ :: if r.st = .givenUp then [⟨.noticeSkipped, id, r.failed⟩] else []

theorem exec_noticeBiterr_of_cur {s : State} {r : Notice} {j : Nat} (hn : s.busNormal = true)
    (herr : s.pace.bitErrorNow s.cfg.bitTime s.t = some j) (hcur : s.pace.cur = some r) (hold : s.pace.old = none) :
    exec .noticeBiterr s
      = .next ((s.offLine (r.failedOnce s.cfg s.t)).raiseAll
          (biterrEvents s.cfg.stationId j (r.failedOnce s.cfg s.t))) := by
  simp only [exec, execNoticeBiterr, herr, hn, if_true, State.offLine, biterrEvents, hold, hcur, Option.map_some]

theorem exec_noticeBiterr_of_old {s : State} {old : Notice} {j : Nat} (hn : s.busNormal = true)
    (herr : s.pace.bitErrorNow s.cfg.bitTime s.t = some j) (hold : s.pace.old = some old) :
    exec .noticeBiterr s
      = .next (s.abandonsOld.raiseAll
          [⟨.noticeBiterr, s.cfg.stationId, j⟩, ⟨.noticeSkipped, s.cfg.stationId, old.failed + 1⟩]) := by
  simp only [exec, execNoticeBiterr, herr, hn, if_true, hold]
  rfl

/-- After the first or second bit error the record waits with its holdoff (R121). -/
theorem failedOnce_of_retry (p : PartCfg) (now : Time) {r : Notice} (h : r.failed + 1 < 3) :
    r.failedOnce p now = { r with
      st := .waiting, failed := r.failed + 1, since := now,
      holdoff := if r.failed = 0 then (p.stationId + 1) * (4 * p.bitTime) else 32 * p.bitTime } := by
  simp [Notice.failedOnce, h, holdoffAfter]

/-- The third bit error gives the record up (R120). -/
theorem failedOnce_of_third (p : PartCfg) (now : Time) {r : Notice} (h : r.failed = 2) :
    r.failedOnce p now = { r with st := .givenUp, failed := 3 } := by
  simp [Notice.failedOnce, h]

/-- Settles O50, by the bit that the attempt compares and by whether the attempt is superseded. -/
theorem lossesAndBitErrorsReleaseTheLine : Obligations.LossesAndBitErrorsReleaseTheLine := by
  unfold Obligations.LossesAndBitErrorsReleaseTheLine
  intro s a j sent hlive hbus hattempt hcomparing hj hbit hb hmax ht
  have hn : s.busNormal = true := busNormal_of hlive hbus
  have hc : s.pace.comparing s.cfg.bitTime s.t = some (j, sent) :=
    comparing_at s.pace a s.cfg.bitTime j s.t sent hattempt hcomparing hj hbit hb hmax ht
  refine ⟨fun r hcur hold => ⟨fun hsent hlevel hid => ?_, fun hwrong => ?_⟩, fun old hold hmismatch => ?_⟩
  · have hloses := (losesNow_of_comparing hc).mpr ⟨hid, hsent, hlevel⟩
    exact exec_arbitrationLost_of_cur hn hloses hcur hold
  · have herr : s.pace.bitErrorNow s.cfg.bitTime s.t = some j := by rw [bitErrorNow_of_comparing hc, if_pos hwrong]
    let u := s.offLine (r.failedOnce s.cfg s.t)
    let events := biterrEvents s.cfg.stationId j (r.failedOnce s.cfg s.t)
    let t := u.raiseAll events
    have hpace : t.pace = u.pace := raiseAll_pace ..
    have hraises : Raises s t events := (raises_raiseAll u events).of_same rfl rfl rfl
    refine ⟨t, exec_noticeBiterr_of_cur hn herr hcur hold, by rw [hpace]; rfl,
      paceLow_of_released (by rw [hpace]; rfl), fun hretry => ?_, fun hthird => ?_, ?_⟩
    · have hr := failedOnce_of_retry s.cfg s.t hretry
      have hevents : events = [⟨.noticeBiterr, s.cfg.stationId, j⟩] := by simp [events, biterrEvents, hr]
      refine ⟨hevents ▸ hraises, ?_⟩
      rw [hpace, ← hr]
      rfl
    · have hr := failedOnce_of_third s.cfg s.t hthird
      have hevents : events = [⟨.noticeBiterr, s.cfg.stationId, j⟩, ⟨.noticeSkipped, s.cfg.stationId, 3⟩] := by
        simp [events, biterrEvents, hr]
      refine ⟨?_, hevents ▸ hraises⟩
      rw [hpace, ← hr]
      rfl
    · rw [hpace]
      exact raiseAll_eq u events
  · by_cases hloss : sent = true ∧ j < 4
    · have ⟨hsent, hid⟩ := hloss
      have hlevel : s.pace.level = false := by rw [← Bool.not_eq_true, ← hsent]; exact hmismatch.symm
      have hloses := (losesNow_of_comparing hc).mpr ⟨hid, hsent, hlevel⟩
      let t := s.abandonsOld.raise .noticeSkipped s.cfg.stationId old.failed
      have hpace : t.pace = s.abandonsOld.pace := raise_pace ..
      refine ⟨t, ?_, hpace, fun _ => (raises_raise s.abandonsOld ..).of_same rfl rfl rfl,
        fun hnot => absurd hloss hnot, ?_⟩
      · rw [if_pos hloss]
        exact exec_arbitrationLost_of_old hn hloses hold
      · rw [hpace]
        exact raise_eq s.abandonsOld ..
    · have hwrong : (sent = false ∧ s.pace.level = true) ∨ (sent = true ∧ s.pace.level = false ∧ 4 ≤ j) := by
        cases hsent : sent with
        | false => exact .inl ⟨rfl, by simpa [hsent] using hmismatch⟩
        | true => exact .inr ⟨rfl, by simpa [hsent] using hmismatch, by simpa [hsent] using hloss⟩
      have herr : s.pace.bitErrorNow s.cfg.bitTime s.t = some j := by rw [bitErrorNow_of_comparing hc, if_pos hwrong]
      let events : List Raised :=
        [⟨.noticeBiterr, s.cfg.stationId, j⟩, ⟨.noticeSkipped, s.cfg.stationId, old.failed + 1⟩]
      let t := s.abandonsOld.raiseAll events
      have hpace : t.pace = s.abandonsOld.pace := raiseAll_pace ..
      refine ⟨t, ?_, hpace, fun h => absurd h hloss,
        fun _ => ⟨events, (raises_raiseAll s.abandonsOld events).of_same rfl rfl rfl, .refl _⟩, ?_⟩
      · rw [if_neg hloss]
        exact exec_noticeBiterr_of_old hn herr hold
      · rw [hpace]
        exact raiseAll_eq s.abandonsOld events

/-! ### A complete notice (R114, R118) -/

theorem lastBitReady_of {s : State} {start : Time} (hrecv : s.pace.recv = .data) (hstart : s.pace.bitStart = some start)
    (ht : s.t = after start (s.cfg.bitTime / 2)) (hlen : s.pace.bits.length = 63) : s.lastBitReady = true := by
  simp [State.lastBitReady, laterBitDue_of hrecv hstart ht, hlen]

/-- With no bit of its own to compare at this tick, the receive side ends the notice at its bit 63, and judges it unless
an attempt of the station is on the line (R114). -/
theorem exec_noticeComplete_of_receiver {s : State} (hn : s.busNormal = true) (hlast : s.lastBitReady = true)
    (hc : s.pace.comparing s.cfg.bitTime s.t = none) : exec .noticeComplete s
      = .next (if s.pace.attempt.isSome = true then { s with pace := s.pace.settle }
          else State.judgeNotice { s with pace := s.pace.settle } (s.pace.bits ++ [s.pace.level])
            s.pace.recvOffset) := by
  have hsucceeds := succeedsNow_of_none hc
  have hready : s.completeReady = true := by
    simp [State.completeReady, hn, hlast, State.arbitrationReady, losesNow_of_none hc, State.biterrReady,
      bitErrorNow_of_none hc]
  simp only [exec, execNoticeComplete, hready, if_true, hsucceeds, Bool.false_eq_true, if_false]
  split <;> rfl

theorem exec_noticeComplete_of_sender {s : State} (hn : s.busNormal = true)
    (hc : s.pace.comparing s.cfg.bitTime s.t = some (63, s.pace.level)) :
    exec .noticeComplete s = .next { s with pace := s.pace.succeed.settle } := by
  have hsucceeds : s.pace.succeedsNow s.cfg.bitTime s.t = true := (succeedsNow_of_comparing hc).mpr ⟨rfl, rfl⟩
  have hloses : s.pace.losesNow s.cfg.bitTime s.t = false := by simp [Pace.losesNow, hc]
  have herr : s.pace.bitErrorNow s.cfg.bitTime s.t = none := by simp [Pace.bitErrorNow, hc]
  have hready : s.completeReady = true := by
    simp [State.completeReady, hn, hsucceeds, State.arbitrationReady, hloses, State.biterrReady, herr]
  simp only [exec, execNoticeComplete, hready, if_true, hsucceeds]

/-- Success makes the current record SENT, or discards the superseded one (R118, R122). -/
theorem succeed_eq {p : Pace} {a : Attempt} {r : Notice} (ha : p.attempt = some a) (hcur : p.cur = some r) :
    p.succeed = { p with
      attempt := some { a with comparing := false }, old := none,
      cur := if p.old = none then some { r with st := .sent } else p.cur } := by
  cases hold : p.old <;> simp [Pace.succeed, hold, ha, hcur]

/-- Settles O51. -/
theorem completeNoticeIsJudgedOrSent : Obligations.CompleteNoticeIsJudgedOrSent := by
  unfold Obligations.CompleteNoticeIsJudgedOrSent
  refine ⟨fun s start hlive hbus hrecv hstart ht hlen => ?_,
    fun s a r hlive hbus hattempt hcomparing hb hmax hcur ht hbit => ?_⟩
  · have hn : s.busNormal = true := busNormal_of hlive hbus
    have hlast : s.lastBitReady = true := lastBitReady_of hrecv hstart ht hlen
    intro bits quiet computed
    let u : State := { s with pace := quiet }
    have hjudges (hnone : s.pace.attempt = none) :
        exec .noticeComplete s = .next (u.judgeNotice bits s.pace.recvOffset) := by
      rw [exec_noticeComplete_of_receiver hn hlast (comparing_of_no_attempt hnone), hnone]
      rfl
    refine ⟨fun hnone hgood => ?_, fun hnone hbad => ?_, fun a hattempt hno _ => ?_⟩
    · rw [hjudges hnone]
      exact congrArg _ (if_pos hgood)
    · refine ⟨u.raise .noticeCheck (bitField bits 0 4) (bitField bits 56 8 * 256 + computed), ?_,
        (raises_raise u ..).of_same rfl rfl rfl, raise_eq u ..⟩
      rw [hjudges hnone]
      exact congrArg _ (if_neg hbad)
    · rw [exec_noticeComplete_of_receiver hn hlast (comparing_of_no_sample hattempt hno), hattempt]
      rfl
  · have hn : s.busNormal = true := busNormal_of hlive hbus
    have hc := comparing_at s.pace a s.cfg.bitTime 63 s.t s.pace.level hattempt hcomparing (Nat.le_refl 63) hbit hb
      hmax ht
    rw [exec_noticeComplete_of_sender hn hc, succeed_eq hattempt hcur]
    rfl

end Sys2Proof.Machine

namespace Sys2Proof.Machine

open Sys2Proof

/-! ### An offer is presented and withdrawn (R129, R142) -/

/-- OFFER asserted on an EMPTY and armed channel makes the offer PENDING; asserted on any other it changes nothing
(R129). -/
theorem exec_offerPresented {s : State} (hlive : s.live = true) (n : Stream) (len : BitVec 16) (last : Bool)
    (data : List Byte) : exec (.offerPresented n len last data) s
      = .next (if (s.chan n).st = .empty ∧ (s.chan n).armed = true
          then s.setChan n { s.chan n with
            pin := some { len := len.toNat, frameEnd := last, data := data }, st := .pending, armed := false }
          else s) := by
  simp only [exec, execOfferPresented, hlive, if_true]
  split <;> rfl

/-- OFFER deasserted on a channel that is not WRITING leaves the channel EMPTY and armed (R129, R142). -/
theorem exec_offerDeasserted {s : State} {n : Stream} (hlive : s.live = true) (hst : (s.chan n).st ≠ .writing) :
    exec (.offerDeasserted n) s
      = .next (s.setChan n { s.chan n with pin := none, st := .empty, armed := true }) := by
  simp only [exec, execOfferDeasserted, State.offerFalls, hlive, if_true]
  cases hc : (s.chan n).st with
  | empty => rfl
  | pending => rfl
  | writing => exact absurd hc hst

/-- Settles O34. -/
theorem offerWaitsUntilAnswered : Obligations.OfferWaitsUntilAnswered := by
  unfold Obligations.OfferWaitsUntilAnswered
  intro s n len last data hlive _
  rw [exec_offerPresented hlive]
  refine ⟨fun hempty harmed => by rw [if_pos ⟨hempty, harmed⟩], fun hwaits => ?_, fun hpending => ?_, fun hempty => ?_⟩
  · rw [if_neg]
    rintro ⟨hempty, harmed⟩
    exact hwaits.elim (absurd hempty) (by simp [harmed])
  · exact exec_offerDeasserted hlive (by simp [hpending])
  · rw [exec_offerDeasserted hlive (by simp [hempty]), ← hempty]

end Sys2Proof.Machine

namespace Sys2Proof.Machine

open Sys2Proof

/-! ### The rows of R133 -/

/-- A PENDING offer is answerable where the table gives it no hold (R131). -/
theorem answerable_of_pending {s : State} {n : Stream} {o : Offer} (hst : (s.chan n).st = .pending)
    (hpin : (s.chan n).pin = some o) : s.answerable n = true ↔ s.judge n o ≠ .hold := by
  simp [State.answerable, hst, hpin]

/-- An answerable channel has a PENDING offer (R131). -/
theorem pending_of_answerable {s : State} {n : Stream} (h : s.answerable n = true) :
    (s.chan n).st = .pending ∧ ∃ o, (s.chan n).pin = some o := by
  unfold State.answerable at h
  split at h
  · rename_i o hst hpin
    exact ⟨hst, o, hpin⟩
  · cases h

theorem blocksFor_eq (len : Nat) : blocksFor len = (len + 255) / 256 := by
  simp [blocksFor, ceilDiv, Config.blockBytes]

/-- In RUN, with a bank in service, the offer of a disabled stream meets row 3 (R133). -/
theorem judge_of_disabled {s : State} {n : Stream} (o : Offer) (hrun : s.loader.part = .run)
    (hbank : s.store.exhausted = false) (hcfg : (s.ctx n).cfg = none) : s.judge n o = .unconfigured := by
  simp [State.judge, hrun, hbank, hcfg]

/-- In RUN, with a bank in service, the offer of an enabled stream meets the first of the rows 4 to 8 that applies
(R133). -/
theorem judge_of_enabled {s : State} {n : Stream} {cfg : StreamCfg} (o : Offer) (hrun : s.loader.part = .run)
    (hbank : s.store.exhausted = false) (hcfg : (s.ctx n).cfg = some cfg) : s.judge n o =
      if (s.ctx n).discard = true then .discard
      else if o.len < 16 ∨ 2048 < o.len then .badLength
      else if (s.ctx n).ring.length < cfg.depth ∧ (o.len + 255) / 256 ≤ s.store.usableFree then .store
      else .hold := by
  simp only [State.judge, hrun, hbank, hcfg, blocksFor_eq, ne_eq, not_true_eq_false, Bool.false_eq_true, if_false]
  refine if_congr .rfl rfl (if_congr .rfl rfl ?_)
  by_cases hfull : cfg.depth ≤ (s.ctx n).ring.length
  · rw [if_pos hfull, if_neg (by omega)]
  · by_cases hshort : s.store.usableFree < (o.len + 255) / 256
    · rw [if_neg hfull, if_pos hshort, if_neg (by omega)]
    · rw [if_neg hfull, if_neg hshort, if_pos (by omega)]

/-- No offer is answered outside RUN or with every bank RETIRED (R133, rows 1 and 2). -/
theorem run_of_judge {s : State} {n : Stream} {o : Offer} (h : s.judge n o ≠ .hold) :
    s.loader.part = .run ∧ s.store.exhausted = false := by
  unfold State.judge at h
  split at h
  · exact absurd rfl h
  · split at h
    · exact absurd rfl h
    · exact ⟨not_not.mp ‹_›, Bool.eq_false_iff.mpr ‹_›⟩

/-- The table gives no hold in RUN, with a bank in service, to an offer that is discarded or that the ring and the store
have room for (R133). -/
theorem judge_ne_hold_iff (s : State) (n : Stream) (o : Offer) : s.judge n o ≠ .hold ↔
    s.loader.part = .run ∧ s.store.exhausted = false
      ∧ ∀ cfg, (s.ctx n).cfg = some cfg → (s.ctx n).discard = false → 16 ≤ o.len → o.len ≤ 2048 →
          (s.ctx n).ring.length < cfg.depth ∧ (o.len + 255) / 256 ≤ s.store.usableFree := by
  constructor
  · intro h
    obtain ⟨hrun, hbank⟩ := run_of_judge h
    refine ⟨hrun, hbank, fun cfg hcfg hkeeps hlow hhigh => ?_⟩
    rw [judge_of_enabled o hrun hbank hcfg, if_neg (Bool.eq_false_iff.mp hkeeps), if_neg (by omega)] at h
    exact of_not_not fun hroom => h (if_neg hroom)
  · rintro ⟨hrun, hbank, hroom⟩
    cases hcfg : (s.ctx n).cfg with
    | none => simp [judge_of_disabled o hrun hbank hcfg]
    | some cfg =>
      rw [judge_of_enabled o hrun hbank hcfg]
      split_ifs with hdiscards hlength hfits
      · simp
      · simp
      · simp
      · exact absurd (hroom cfg hcfg (Bool.eq_false_iff.mpr hdiscards) (by omega) (by omega)) hfits

/-! ### The selection (R131) -/

/-- While some offer is answerable the arbiter chooses the first one from its pointer on, mod 16 (R131). -/
theorem selectChoice_of_answerable {s : State} (h : ∃ n, s.answerable n = true) :
    ∃ i : Fin 16, s.selectChoice = some (s.feed.ptr + i) ∧ s.answerable (s.feed.ptr + i) = true
      ∧ ∀ j : Fin 16, j < i → s.answerable (s.feed.ptr + j) = false := by
  obtain ⟨n, hn⟩ := h
  have hsome : ((List.finRange 16).find? fun i => s.answerable (s.feed.ptr + i)).isSome = true :=
    List.find?_isSome.mpr ⟨n - s.feed.ptr, List.mem_finRange _, by rwa [add_sub_cancel]⟩
  obtain ⟨i, hi⟩ := Option.isSome_iff_exists.mp hsome
  obtain ⟨hanswerable, k, hk, hki, hfirst⟩ := List.find?_eq_some_iff_getElem.mp hi
  refine ⟨i, ?_, hanswerable, fun j hj => ?_⟩
  · unfold State.selectChoice State.channelOrder
    rw [List.find?_map]
    exact congrArg (Option.map _) hi
  · have hjk : j.val < k := by
      rw [← hki] at hj
      simpa [Fin.lt_def] using hj
    simpa using hfirst j hjk

/-- A selection is of an answerable channel (R131). -/
theorem answerable_of_selectChoice {s : State} {n : Stream} (h : s.selectChoice = some n) : s.answerable n = true :=
  List.find?_some h

theorem exec_intakeSelection {s : State} {n : Stream} (hlive : s.live = true) (hfree : s.feed.write = none)
    (hchoice : s.selectChoice = some n) : exec .intakeSelection s = .next (s.select n) := by
  have hready : s.selectReady = true := by simp [State.selectReady, hlive, hfree, hchoice]
  simp only [exec, execIntakeSelection, hready, if_true, hchoice]

/-- The part as the pointer has moved past channel `n` (R131). -/
def State.pointPast (s : State) (n : Stream) : State := { s with feed := { s.feed with ptr := n + 1 } }

theorem select_eq {s : State} {n : Stream} {o : Offer} (hpin : (s.chan n).pin = some o) :
    s.select n = (s.pointPast n).carryOut n o (s.judge n o) := by
  simp only [State.select, hpin]
  rfl

/-! ### What indexing and each row leave of the feed (R134 to R140) -/

/-- An offer ends its frame by its mark or by the last index (R138, R139). -/
theorem endsFrame_eq (i : Nat) (o : Offer) : endsFrame i o = (o.frameEnd || decide (i = 32767)) := by
  cases h : o.frameEnd <;> simp [endsFrame, overlength, h]

theorem overlength_iff (i : Nat) (o : Offer) : overlength i o = true ↔ i = 32767 ∧ o.frameEnd = false := by
  simp [overlength]

/-- The index that follows an offer's on its channel (R138, R139). -/
def indexAfter (i : Nat) (o : Offer) : Nat := if (o.frameEnd || decide (i = 32767)) = true then 0 else i + 1

/-- The feed with channel `n` answered by TAKE and left as `c` (R129). -/
def Feed.answered (f : Feed) (n : Stream) (c : Channel) : Feed :=
  { f with chans := f.chans.set n.val c, take := setBit f.take n }

/-- The events of indexing an offer (R139). -/
def indexEvents (n : Stream) (i : Nat) (o : Offer) : List Raised :=
  if i = 32767 ∧ o.frameEnd = false then [⟨.feedOverlength, n.val, o.len⟩] else []

theorem feed_indexOffer (s : State) (n : Stream) (o : Offer) : (s.indexOffer n o).feed
    = (s.setChan n { s.chan n with index := indexAfter (s.chan n).index o }).feed := by
  unfold State.indexOffer indexAfter
  simp only [endsFrame_eq]
  split
  · exact raise_feed ..
  · rfl

theorem chan_indexOffer_self (s : State) (n : Stream) (o : Offer) :
    (s.indexOffer n o).chan n = { s.chan n with index := indexAfter (s.chan n).index o } := by
  rw [chan_of_feed (congrArg Feed.chans (feed_indexOffer s n o)) n, chan_setChan_self]

/-- An overlength cut raises its event, and no other indexing raises one (R139). -/
theorem raises_indexOffer (s : State) (n : Stream) (o : Offer) :
    Raises s (s.indexOffer n o) (indexEvents n (s.chan n).index o) := by
  unfold State.indexOffer indexEvents
  simp only [overlength_iff]
  split
  · exact .of_same (raises_raise ..) rfl rfl rfl
  · exact .none rfl rfl

theorem feed_answer (s : State) (n : Stream) :
    (s.answer n).feed = s.feed.answered n { s.chan n with st := .empty, armed := false } := rfl

/-- What an answer makes of a channel does not turn on what it was set to before. -/
theorem answered_set (f : Feed) (n : Stream) (c d : Channel) :
    Feed.answered { f with chans := f.chans.set n.val c } n d = f.answered n d := by
  simp [Feed.answered]

/-- Where one channel of the feed is replaced, the others stand. -/
theorem chan_of_set {s t : State} {n : Stream} {c : Channel} (h : t.feed.chans = s.feed.chans.set n.val c) :
    t.chan n = c ∧ ∀ m, m ≠ n → t.chan m = s.chan m := by
  have hset (m : Stream) : t.chan m = (s.setChan n c).chan m := chan_of_feed h m
  exact ⟨by rw [hset, chan_setChan_self], fun m hm => by rw [hset, chan_setChan_ne s c hm]⟩

/-- Row 3: the channel is EMPTY and reported, and TAKE is asserted (R134). -/
theorem feed_takeUnconfigured (s : State) (n : Stream) (o : Offer) : (s.takeUnconfigured n o).feed
    = s.feed.answered n { s.chan n with st := .empty, armed := false, reported := true } := by
  unfold State.takeUnconfigured
  simp only []
  split
  · rename_i hreported
    rw [feed_answer, ← hreported]
  · rw [raise_feed, chan_answer_self]
    simp [State.setChan, feed_answer, Feed.answered]

/-- Row 4: the channel is EMPTY with its counter moved on, and TAKE is asserted (R135). -/
theorem feed_takeDiscard (s : State) (n : Stream) (o : Offer) : (s.takeDiscard n o).feed
    = s.feed.answered n { s.chan n with
        st := .empty, armed := false, index := indexAfter (s.chan n).index o } := by
  unfold State.takeDiscard
  simp only []
  rw [setCtx_feed, feed_answer, feed_indexOffer, chan_indexOffer_self]
  exact answered_set ..

/-- Row 5: the channel is EMPTY, unindexed, and TAKE is asserted (R136). -/
theorem feed_takeBadLength (s : State) (n : Stream) (o : Offer) : (s.takeBadLength n o).feed
    = s.feed.answered n { s.chan n with st := .empty, armed := false } :=
  raise_feed ..

/-- The write record that an offer of channel `n` begins (R140). -/
def State.newWrite (s : State) (n : Stream) (o : Offer) (first : Block) : WriteRec :=
  { channel := n, stream := n, index := (s.chan n).index,
    frameEnd := o.frameEnd || decide ((s.chan n).index = 32767), len := o.len, first := first, start := s.t, read := 0 }

/-- Row 8: the offer is indexed, its channel and the write path become WRITING, and TAKE waits (R140). -/
theorem feed_storeOffer {s : State} {n : Stream} {o : Offer} {first : Block} {st : Store}
    (halloc : s.store.allocate (blocksFor o.len) = some (first, st)) : (s.storeOffer n o).feed = { s.feed with
      chans := s.feed.chans.set n.val { s.chan n with st := .writing, index := indexAfter (s.chan n).index o },
      write := some (s.newWrite n o first) } := by
  unfold State.storeOffer
  simp only [halloc, endsFrame_eq]
  rw [chan_indexOffer_self]
  simp only [State.setChan, feed_indexOffer, Vector.set_set]
  rfl

theorem store_storeOffer {s : State} {n : Stream} {o : Offer} {first : Block} {st : Store}
    (halloc : s.store.allocate (blocksFor o.len) = some (first, st)) : (s.storeOffer n o).store = st := by
  simp [State.storeOffer, halloc]

theorem raises_storeOffer {s : State} {n : Stream} {o : Offer} {first : Block} {st : Store}
    (halloc : s.store.allocate (blocksFor o.len) = some (first, st)) :
    Raises s (s.storeOffer n o) (indexEvents n (s.chan n).index o) := by
  simp only [State.storeOffer, halloc]
  exact (raises_indexOffer { s with store := st } n o).congr rfl rfl rfl rfl rfl

theorem raises_takeDiscard (s : State) (n : Stream) (o : Offer) :
    Raises s (s.takeDiscard n o) (indexEvents n (s.chan n).index o) :=
  (raises_indexOffer s n o).congr rfl rfl rfl rfl rfl

/-- A stream under the discard-to-end flag counts one more trimmed, and stays under it unless the offer ends the frame
(R135, R139). -/
theorem ctx_takeDiscard_self {s : State} {n : Stream} (o : Offer) (h : (s.ctx n).discard = true) :
    (s.takeDiscard n o).ctx n = { s.ctx n with
      discard := !(o.frameEnd || decide ((s.chan n).index = 32767))
      counts := { (s.ctx n).counts with trimmed := (s.ctx n).counts.trimmed + 1 } } := by
  rw [ctx_takeDiscard, if_pos rfl, endsFrame_eq, h]
  split
  · rename_i hends
    rw [hends]
    rfl
  · rename_i hends
    rw [Bool.eq_false_iff.mpr hends]
    rfl

/-- The first offer of a disabled channel is reported (R134). -/
theorem raises_takeUnconfigured {s : State} {n : Stream} (o : Offer) (h : (s.chan n).reported = false) :
    Raises s (s.takeUnconfigured n o) [⟨.feedUnconfigured, n.val, o.len⟩] := by
  simp only [State.takeUnconfigured, h, Bool.false_eq_true, if_false]
  exact .of_same (raises_raise ..) rfl rfl rfl

/-- Later offers of a disabled channel are not reported again (R134). -/
theorem link_takeUnconfigured {s : State} {n : Stream} (o : Offer) (h : (s.chan n).reported = true) :
    (s.takeUnconfigured n o).link = s.link := by
  simp only [State.takeUnconfigured, h, if_true]
  rfl

/-! ### What every row leaves as it was -/

/-- Every row leaves the pointer and the channels of the other streams (R133). -/
theorem feed_carryOut (s : State) (n : Stream) (o : Offer) (j : Judgement) :
    (s.carryOut n o j).feed.ptr = s.feed.ptr ∧ ∀ m, m ≠ n → (s.carryOut n o j).chan m = s.chan m := by
  have of_answered {t : State} {c : Channel} (h : t.feed = s.feed.answered n c) :
      t.feed.ptr = s.feed.ptr ∧ ∀ m, m ≠ n → t.chan m = s.chan m :=
    ⟨by rw [h]; rfl, (chan_of_set (congrArg Feed.chans h)).2⟩
  cases j with
  | hold => exact ⟨rfl, fun _ _ => rfl⟩
  | unconfigured => exact of_answered (feed_takeUnconfigured s n o)
  | discard => exact of_answered (feed_takeDiscard s n o)
  | badLength => exact of_answered (feed_takeBadLength s n o)
  | store =>
    show (s.storeOffer n o).feed.ptr = s.feed.ptr ∧ ∀ m, m ≠ n → (s.storeOffer n o).chan m = s.chan m
    cases halloc : s.store.allocate (blocksFor o.len) with
    | none =>
      have hsame : s.storeOffer n o = s := by simp only [State.storeOffer, halloc]
      rw [hsame]
      exact ⟨rfl, fun _ _ => rfl⟩
    | some q =>
      have hfeed := feed_storeOffer (n := n) halloc
      exact ⟨by rw [hfeed], (chan_of_set (congrArg Feed.chans hfeed)).2⟩

/-- Every row leaves the contexts of the other streams (R133). -/
theorem ctx_carryOut_ne (s : State) {n m : Stream} (o : Offer) (j : Judgement) (hm : m ≠ n) :
    (s.carryOut n o j).ctx m = s.ctx m := by
  cases j with
  | hold => rfl
  | unconfigured => exact ctx_congr (takeUnconfigured_ctxs ..) m
  | discard => exact (ctx_takeDiscard ..).trans (if_neg hm)
  | badLength => exact ctx_congr (takeBadLength_ctxs ..) m
  | store => exact ctx_congr (storeOffer_ctxs ..) m

theorem link_indexOffer (s : State) (n : Stream) (o : Offer) : (s.indexOffer n o).link
    = { s.link with queue := (s.indexOffer n o).link.queue, overflow := (s.indexOffer n o).link.overflow } := by
  unfold State.indexOffer
  simp only []
  split
  · exact raise_link_frame ..
  · rfl

/-- Every row leaves of the link all but the event queue and its overflow flag (R133, R182). -/
theorem link_carryOut (s : State) (n : Stream) (o : Offer) (j : Judgement) : (s.carryOut n o j).link
    = { s.link with
        queue := (s.carryOut n o j).link.queue, overflow := (s.carryOut n o j).link.overflow } := by
  cases j with
  | hold => rfl
  | unconfigured =>
    simp only [State.carryOut, State.takeUnconfigured]
    split
    · rfl
    · exact raise_link_frame ..
  | discard => exact link_indexOffer s n o
  | badLength => exact raise_link_frame ..
  | store =>
    simp only [State.carryOut, State.storeOffer]
    split
    · rfl
    · exact link_indexOffer ..

/-- A selection changes the stream table, the feed, the store and the event queue, and nothing else (R131). -/
theorem select_frame {s : State} {n : Stream} {o : Offer} (hpin : (s.chan n).pin = some o) :
    s.select n = { s with
      ctxs := (s.select n).ctxs, feed := (s.select n).feed, store := (s.select n).store,
      link := { s.link with queue := (s.select n).link.queue, overflow := (s.select n).link.overflow } } := by
  have hlink : (s.select n).link = { s.link with
      queue := (s.select n).link.queue, overflow := (s.select n).link.overflow } := by
    rw [select_eq hpin]
    exact link_carryOut ..
  refine state_eq ?_ ?_ ?_ ?_ ?_ ?_ rfl ?_ ?_ ?_ rfl rfl ?_ hlink ?_ ?_ <;> simp

/-- Settles O35. -/
theorem selectionServesInRoundRobinOrder : Obligations.SelectionServesInRoundRobinOrder := by
  unfold Obligations.SelectionServesInRoundRobinOrder
  intro s hlive hfree hsome
  obtain ⟨i, hchoice, hanswerable, hfirst⟩ := selectChoice_of_answerable hsome
  obtain ⟨-, o, hpin⟩ := pending_of_answerable hanswerable
  refine ⟨i, _, exec_intakeSelection hlive hfree hchoice, hchoice, hanswerable, hfirst, ?_, fun m o hst hpin => ?_⟩
  · rw [select_eq hpin]
    exact (feed_carryOut ..).1
  · rw [answerable_of_pending hst hpin]
    exact judge_ne_hold_iff s m o

/-- Settles O36: the offer selected is answerable, so its row is that of its stream's configuration, of the
discard-to-end flag and of its length. -/
theorem selectionCarriesOutTheRow : Obligations.SelectionCarriesOutTheRow := by
  unfold Obligations.SelectionCarriesOutTheRow
  intro s n o hlive hfree hchoice hpin ch c ends next take
  obtain ⟨hst, -⟩ := pending_of_answerable (answerable_of_selectChoice hchoice)
  obtain ⟨hrun, hbank, hroom⟩ := (judge_ne_hold_iff s n o).mp
    ((answerable_of_pending hst hpin).mp (answerable_of_selectChoice hchoice))
  let u := s.pointPast n
  have hselect {j : Judgement} (hj : s.judge n o = j) : s.select n = u.carryOut n o j := by
    rw [select_eq hpin, hj]
  have hanswered {t : State} {d : Channel} (h : t.feed = u.feed.answered n d) :
      t.chan n = d ∧ t.feed.take = take ∧ t.feed.write = none :=
    ⟨(chan_of_set (s := u) (congrArg Feed.chans h)).1, by rw [h]; rfl, by rw [h]; exact hfree⟩
  refine ⟨s.select n, exec_intakeSelection hlive hfree hchoice, fun m hm => ?_, select_frame hpin,
    fun hcfg => ?_, fun hcfg hdiscards => ?_, fun hcfg hkeeps hlen => ?_, fun hcfg hkeeps hlow hhigh => ?_⟩
  · rw [select_eq hpin]
    exact ⟨(feed_carryOut ..).2 m hm, ctx_carryOut_ne _ o _ hm⟩
  · rw [hselect (judge_of_disabled o hrun hbank hcfg)]
    obtain ⟨hchan, htake, hwrite⟩ := hanswered (feed_takeUnconfigured u n o)
    exact ⟨hchan, htake, hwrite, takeUnconfigured_ctxs .., takeUnconfigured_store ..,
      fun hreported => (raises_takeUnconfigured (s := u) o hreported).of_same rfl rfl rfl,
      fun hreported => link_takeUnconfigured (s := u) o hreported⟩
  · obtain ⟨cfg, hcfg⟩ := Option.isSome_iff_exists.mp hcfg
    rw [hselect (by rw [judge_of_enabled o hrun hbank hcfg, if_pos hdiscards])]
    obtain ⟨hchan, htake, hwrite⟩ := hanswered (feed_takeDiscard u n o)
    refine ⟨hchan, htake, hwrite, takeDiscard_store .., ?_, ?_⟩
    · exact ctx_takeDiscard_self (s := u) o hdiscards
    · exact (raises_takeDiscard u n o).of_same rfl rfl rfl
  · obtain ⟨cfg, hcfg⟩ := Option.isSome_iff_exists.mp hcfg
    rw [hselect (by rw [judge_of_enabled o hrun hbank hcfg, if_neg (Bool.eq_false_iff.mp hkeeps), if_pos hlen])]
    obtain ⟨hchan, htake, hwrite⟩ := hanswered (feed_takeBadLength u n o)
    exact ⟨hchan, htake, hwrite, takeBadLength_ctxs .., takeBadLength_store ..,
      (raises_raise ..).of_same rfl rfl rfl⟩
  · obtain ⟨cfg, hcfg⟩ := Option.isSome_iff_exists.mp hcfg
    have hfits := hroom cfg hcfg hkeeps hlow hhigh
    rw [hselect (by
      rw [judge_of_enabled o hrun hbank hcfg, if_neg (Bool.eq_false_iff.mp hkeeps), if_neg (by omega), if_pos hfits])]
    obtain ⟨first, st, halloc⟩ := allocate_some (by omega) hfits.2
    have halloc' : u.store.allocate (blocksFor o.len) = some (first, st) := by rw [blocksFor_eq]; exact halloc
    have hfeed := feed_storeOffer (n := n) halloc'
    refine ⟨first, ?_, ?_, ?_, storeOffer_ctxs .., ?_, ?_⟩
    · rw [halloc]
      exact congrArg (fun x => some (first, x)) (store_storeOffer halloc').symm
    · exact (chan_of_set (s := u) (congrArg Feed.chans hfeed)).1
    · exact (congrArg Feed.take hfeed :)
    · exact (congrArg Feed.write hfeed :)
    · exact (raises_storeOffer halloc').of_same rfl rfl rfl

end Sys2Proof.Machine

namespace Sys2Proof.Machine

open Sys2Proof

/-! ### The bytes of a write (R140) -/

theorem dataAt_length (fresh : Nat) (o : Option Offer) (x n : Nat) : (dataAt fresh o x n).length = n := by
  simp [dataAt]

/-- Where the packetizer drives a byte, the write reads it from DATA (R140). -/
theorem getElem?_dataAt {o : Offer} {x n i : Nat} (fresh : Nat) (hi : i < n) (hx : x + i < o.data.length) :
    (dataAt fresh (some o) x n)[i]? = o.data[x + i]? := by
  simp [dataAt, hi, hx]

/-- A tick of the write in progress stores the bytes on DATA at its position and moves the position on (R140). -/
theorem writeTick_of_write {s : State} {w : WriteRec} {st : Store} (hwrite : s.feed.write = some w)
    (h : s.store.writeBytes (s.store.chain w.first) w.read
      (dataAt s.fresh (s.chan w.channel).pin w.read (min 16 (w.len - w.read))) = some st) :
    s.writeTick = some { s with
      store := st, feed := { s.feed with write := some { w with read := w.read + min 16 (w.len - w.read) } } } := by
  simp only [State.writeTick, hwrite, h]

/-- A tick passes where its write finds its blocks. -/
theorem clock_of_writeTick {s u : State} (h : s.writeTick = some u) : ∃ t, s.clock = some t :=
  ⟨_, by unfold State.clock; rw [h]⟩

/-- Settles O37: the bytes of the tick are those that the packetizer drives, and are written in order. -/
theorem writeStoresSixteenBytesATick : Obligations.WriteStoresSixteenBytesATick := by
  unfold Obligations.WriteStoresSixteenBytesATick
  intro s w o hlive hpending hdue hwrite hpin hdata hread hchain hnodup hwf chain n
  let vs : List Byte := dataAt s.fresh (s.chan w.channel).pin w.read n
  have hlen : vs.length = n := dataAt_length ..
  replace hchain : w.len ≤ 256 * chain.length := hchain
  obtain ⟨st, hst⟩ : ∃ st, s.store.writeBytes chain w.read vs = some st := writeBytes_some (by omega)
  have htick := writeTick_of_write hwrite hst
  obtain ⟨t, hclock⟩ := clock_of_writeTick htick
  obtain ⟨u, hu, -, hfeed, hstore, -⟩ := clock_samples hclock
  obtain rfl : _ = u := Option.some.inj (htick.symm.trans hu)
  replace hstore : t.store = st := hstore
  obtain ⟨hkeeps, -⟩ := writeBytes_keeps hst
  obtain ⟨hbytes, hcells⟩ := writeBytes_read hnodup hwf hst
  rw [hlen] at hbytes hcells
  refine ⟨t, ?_, by rw [hfeed], by omega, fun i hi => ?_, fun x hx => ?_, ?_, ?_⟩
  · rw [step_of_idle hpending, idleStep_of_none hdue, tick_of_clock hlive hclock]
  · have hv : vs[i]? = o.data[w.read + i]? := by
      simp only [vs, hpin]
      exact getElem?_dataAt s.fresh hi (by omega)
    rw [hstore, hbytes, if_pos (by omega), Nat.add_sub_cancel_left, hv]
  · rw [hstore, hbytes, if_neg (by omega)]
  · rw [hstore]
    exact hcells
  · rw [hstore]
    exact hkeeps

end Sys2Proof.Machine

namespace Sys2Proof.Machine

open Sys2Proof

/-! ### The form of the store and the queues through a step -/

/-- The store's form and usable head, and the bounds of queue and buffer, are kept from `s` to `t`. -/
structure FormKept (s t : State) : Prop where
  wf : s.store.wf = true → t.store.wf = true
  head : s.store.headUsable → t.store.headUsable
  link : s.link.wf → t.link.wf

theorem Upkeep.formKept {s t : State} (h : Upkeep s t) : FormKept s t :=
  ⟨h.st.wf, h.st.hd, fun ⟨hqueue, hbuffer⟩ => ⟨h.l.q hqueue, h.l.bf hbuffer⟩⟩

/-- A cold start makes the form, whatever stood before (R158). -/
theorem formKept_coldStart (s : State) : FormKept s s.coldStart :=
  ⟨fun _ => wf_cold, fun _ => reset_headUsable, fun _ => ⟨Nat.zero_le _, Nat.zero_le _⟩⟩

theorem formKept_exec {c : Instr} {s t : State} (h : exec c s = .next t) : FormKept s t := by
  cases hc : startsCold c with
  | true =>
    rcases exec_coldStart h hc with rfl | ⟨-, rfl⟩
    · exact formKept_coldStart s
    · exact (Upkeep.refl _).formKept
  | false => exact (upkeep_exec h hc).formKept

/-- Every step keeps the form of the store and the bounds of the queues (R146, R174, R182). -/
theorem formKept_step {s t : State} (h : step s = .next t) : FormKept s t := by
  refine step_inv (P := FormKept s) h (fun u l f hu => ⟨hu.wf, hu.head, hu.link⟩) ?_ ?_ ?_ (Upkeep.refl s).formKept
  · intro c u hu hx
    rw [hu] at hx
    obtain ⟨hwf, hhead, hlink⟩ := formKept_exec hx
    exact ⟨hwf, hhead, hlink⟩
  · intro _ hk
    exact (upkeep_clock hk).formKept
  · rintro _ rfl
    exact (upkeep_heldTick s).formKept

/-! ### How the event queue moves -/

/-- From `s` to `t` an EVENTS is served: entries leave the head of the queue, the overflow flag is cleared, and the
answer begins now (R180). -/
def ServesEvents (s t : State) : Prop :=
  ∃ (n : Nat) (r : Response), 1 ≤ n ∧ n ≤ 32 ∧ t.link.queue = s.link.queue.drop n ∧ t.link.overflow = false
    ∧ t.link.responder = some r ∧ r.start = s.t ∧ r.bytes.take 2 = [0x83, 0x00]

/-- What is served depends on T and the queue before alone. -/
theorem ServesEvents.of_same {s s' t : State} (h : ServesEvents s' t) (ht : s'.t = s.t)
    (hqueue : s'.link.queue = s.link.queue) : ServesEvents s t := by
  unfold ServesEvents at *
  rwa [ht, hqueue] at h

theorem servesEvents_serveEvents (s : State) {n : Nat} (hlow : 1 ≤ n) (hhigh : n ≤ 32) :
    ServesEvents s (s.serveEvents 0x03 n) :=
  ⟨n, _, hlow, hhigh, rfl, rfl, rfl, rfl, rfl⟩

/-- Request work at `s` adds to the queue, if anything, or serves an EVENTS (R180, R182). -/
def QueueServed (s t : State) : Prop := Grows s t ∨ ServesEvents s t

theorem QueueServed.of_same {s s' t : State} (h : QueueServed s' t) (ht : s'.t = s.t)
    (hqueue : s'.link.queue = s.link.queue) (hflag : s'.link.overflow = s.link.overflow) : QueueServed s t :=
  h.imp (Grows.of_eq ht hqueue hflag).trans fun hserves => hserves.of_same ht hqueue

theorem grows_respond (s : State) (code : Byte) (status : Nat) (body : List Byte) :
    Grows s (s.respond code status body) := .of_eq rfl rfl rfl

theorem grows_serveClear (s : State) (code : Byte) (mask : Nat) : Grows s (s.serveClear code mask) :=
  .of_eq rfl rfl rfl

/-- A request is answered and nothing more, or it is an EVENTS that is served, or a CLEAR that is (R177). -/
theorem judgeRequest_cases (s : State) (code : Byte) (ops : List Byte) :
    (∃ status body, s.judgeRequest code ops = s.respond code status body)
      ∨ (∃ n, 1 ≤ n ∧ n ≤ 32 ∧ code = 0x03 ∧ s.judgeRequest code ops = s.serveEvents code n)
      ∨ ∃ mask, s.judgeRequest code ops = s.serveClear code mask := by
  unfold State.judgeRequest
  (repeat' split)
  · exact .inl ⟨_, _, rfl⟩
  · exact .inl ⟨_, _, rfl⟩
  · exact .inl ⟨_, _, rfl⟩
  · exact .inl ⟨_, _, rfl⟩
  · exact .inl ⟨_, _, rfl⟩
  · rename_i hcode hcount
    obtain ⟨-, hlow, hhigh⟩ := hcount
    exact .inr (.inl ⟨_, hlow, hhigh, hcode, rfl⟩)
  · exact .inl ⟨_, _, rfl⟩
  · exact .inr (.inr ⟨_, rfl⟩)
  · exact .inl ⟨_, _, rfl⟩
  · exact .inl ⟨_, _, rfl⟩

/-- EVENTS alone, of the requests, moves the queue (R180). -/
theorem queueServed_judgeRequest (s : State) (code : Byte) (ops : List Byte) :
    QueueServed s (s.judgeRequest code ops) := by
  rcases judgeRequest_cases s code ops with ⟨status, body, h⟩ | ⟨n, hlow, hhigh, rfl, h⟩ | ⟨mask, h⟩ <;> rw [h]
  · exact .inl (grows_respond ..)
  · exact .inr (servesEvents_serveEvents s hlow hhigh)
  · exact .inl (grows_serveClear ..)

theorem grows_actOnGap (s : State) : Grows s s.actOnGap := .of_eq rfl rfl rfl

theorem queueServed_parserRuns (s : State) : QueueServed s s.parserRuns := by
  unfold State.parserRuns
  simp only []
  (repeat' split)
  · exact (queueServed_judgeRequest ..).of_same rfl rfl rfl
  · exact .inl (.of_eq rfl rfl rfl)
  · exact .inl (.of_eq rfl rfl rfl)

theorem queueServed_requestByte (s : State) (b : Byte) : QueueServed s (s.requestByte b) := by
  unfold State.requestByte
  simp only []
  (repeat' split)
  · exact .inl (.of_eq rfl rfl rfl)
  · exact (queueServed_parserRuns ..).of_same rfl rfl rfl
  · exact .inl (.of_eq rfl rfl rfl)
  · obtain ⟨hqueue, hflag, -⟩ := markDrop_same s.startSilence.link
    exact .inl (.of_eq rfl hqueue hflag)

theorem grows_takeChar (s : State) (c : RxChar) : Grows s (s.takeChar c) := by
  rw [takeChar_eq]
  exact .of_eq rfl rfl rfl

theorem grows_lineErrorGap (s : State) : Grows s s.lineErrorGap := by
  unfold State.lineErrorGap
  simp only []
  (repeat' split)
  · exact .of_eq rfl rfl rfl
  · exact .of_eq rfl rfl rfl
  · obtain ⟨hqueue, hflag, -⟩ := markTail_same s.startSilence.link
    exact .of_eq rfl hqueue hflag

/-- A byte on MRX serves an EVENTS, or takes nothing from the queue: an image byte never does (R160, R174). -/
theorem queueServed_receiveByte (s : State) (b : Byte) : QueueServed s (s.receiveByte b) := by
  by_cases hl : s.loader.part = .load
  · left
    have hbyte : Grows s (s.withByte b) := (grows_takeChar s (.byte b)).then_link rfl rfl
    rcases receiveByte_load_cases b hl with h | ⟨f, pos, h⟩ | ⟨part, rs, h⟩ <;> rw [h]
    · exact hbyte
    · exact hbyte.then_link (by simp) (by simp)
    · exact hbyte.then_link (by simp) (by simp)
  · rw [receiveByte_requesting b hl]
    exact (queueServed_requestByte ..).of_same (by simp) (by simp [takeChar_eq]) (by simp [takeChar_eq])

/-- The commands that can complete a request: a byte on MRX, or the end of a response (R174). -/
def completesRequest (c : Instr) : Prop := c = .responseComplete ∨ ∃ b, c = .requestByte b ∨ c = .imageByte b

/-- A command that brings request input only adds to the queue, or completes a request that is an EVENTS. -/
theorem exec_request_serves {c : Instr} {s t : State} (h : exec c s = .next t) (hr : servesRequests c = true) :
    Grows s t ∨ (completesRequest c ∧ ServesEvents s t) := by
  have byte (b : Byte) (hb : c = .imageByte b ∨ c = .requestByte b) : QueueServed s t := by
    rcases exec_byte h hb with ⟨-, rfl⟩ | rfl
    · exact queueServed_receiveByte ..
    · exact .inl (.refl _)
  cases c with
  | imageByte b => exact (byte b (.inl rfl)).imp_right fun hserves => ⟨.inr ⟨b, .inr rfl⟩, hserves⟩
  | requestByte b => exact (byte b (.inr rfl)).imp_right fun hserves => ⟨.inr ⟨b, .inl rfl⟩, hserves⟩
  | lineError =>
    left
    simp only [exec, execLineError] at h
    (repeat' split at h) <;> cases h
    · exact grows_takeChar ..
    · exact (grows_takeChar ..).trans (grows_lineErrorGap _)
    · exact .refl s
  | responseComplete =>
    simp only [exec, execResponseComplete] at h
    split at h <;> cases h
    · exact ((queueServed_parserRuns _).of_same rfl rfl rfl).imp_right fun hserves => ⟨.inl rfl, hserves⟩
    · exact .inl (.refl s)
  | _ => cases hr

/-- A cold start empties queue and flag; it comes of POWER_UP, or of COLD asserted in a live part (R158). -/
theorem exec_cold_queue {c : Instr} {s t : State} (h : exec c s = .next t) (hc : startsCold c = true) :
    Grows s t ∨ ((c = .powerUp ∨ (c = .coldAssert ∧ s.live = true)) ∧ t = s.coldStart) := by
  cases c with
  | coldAssert =>
    simp only [exec, execColdAssert] at h
    split at h <;> cases h
    · exact .inr ⟨.inr ⟨rfl, ‹_›⟩, rfl⟩
    · exact .inl (.refl s)
  | powerUp =>
    cases h
    exact .inr ⟨.inl rfl, rfl⟩
  | _ => cases hc

/-- The three ways a command moves the queue (R158, R180, R182). -/
theorem exec_queue_cases {c : Instr} {s t : State} (h : exec c s = .next t) :
    Grows s t ∨ ((c = .powerUp ∨ (c = .coldAssert ∧ s.live = true)) ∧ t = s.coldStart)
      ∨ (completesRequest c ∧ ServesEvents s t) := by
  cases hc : startsCold c with
  | true => exact (exec_cold_queue h hc).imp_right .inl
  | false =>
    cases hr : servesRequests c with
    | true => exact (exec_request_serves h hr).imp_right .inr
    | false => exact .inl (exec_grows h hc hr)

/-- An idle step raises no event of its own (R2). -/
theorem raises_idleStep {s t : State} (h : s.idleStep = .next t) : Raises s t [] := by
  rcases idleStep_cases h with ⟨c, -, rfl⟩ | ⟨-, -, hclock⟩ | ⟨-, -, rfl⟩
  · exact .none rfl rfl
  · obtain ⟨-, -, -, -, -, -, -, -, -, -, -, -, hqueue, hflag, -⟩ := clock_keeps hclock
    exact .none hqueue hflag
  · exact .none rfl rfl

/-- Settles O41: the form by what every command and tick keeps, the queue by its three ways. -/
theorem storeAndQueuesKeepTheirForm : Obligations.StoreAndQueuesKeepTheirForm := by
  unfold Obligations.StoreAndQueuesKeepTheirForm
  refine ⟨fun s t h => ⟨(formKept_step h).wf, (formKept_step h).head⟩, fun s t hs h => (formKept_step h).link hs,
    fun s t h => ?_⟩
  rcases step_cases h with ⟨c, rest, hpending, hexec⟩ | ⟨-, hidle⟩
  · have front {d : Instr} (hd : c = d) : ∃ rest, s.pending = d :: rest := ⟨rest, hd ▸ hpending⟩
    rcases exec_queue_cases hexec with ⟨-, hraises⟩ | ⟨hcold, rfl⟩ | ⟨hc, hserves⟩
    · exact .inl hraises
    · exact .inr (.inl ⟨hcold.imp front fun ⟨hc, hlive⟩ => ⟨front hc, hlive⟩, rfl, rfl⟩)
    · exact .inr (.inr ⟨hc.imp front fun ⟨b, hb⟩ => ⟨b, hb.imp front front⟩, hserves⟩)
  · exact .inl ⟨[], raises_idleStep hidle⟩

end Sys2Proof.Machine

namespace Sys2Proof.Machine

open Sys2Proof

/-! ### Allocation and freeing of chains -/

/-- The usable blocks of the free list, in order (R150). -/
def Store.usable (st : Store) : List Block := st.free.filter fun b => !st.isRetired b

theorem length_usable (st : Store) : st.usable.length = st.usableFree := by
  rw [Store.usable, Store.usableFree, List.countP_eq_length_filter]

/-- The whole effect of an allocation: the blocks taken, and what is left of the free list and the retired set
(R146, R147). -/
theorem allocate_spec {n : Nat} {st st' : Store} {first : Block} (h : st.allocate n = some (first, st')) (hn : n ≤ 8)
    (hhead : st.headUsable) (hnodup : st.free.Nodup) (hwf : st.wf = true) :
    st'.chain first = st.usable.take n ∧ st'.usable = st.usable.drop n
      ∧ (∀ b, b ∈ st'.retired ↔ b ∈ st.retired ∨ (b ∈ st.free ∧ b ∉ st'.free ∧ st.isRetired b = true))
      ∧ ∀ b, b ∉ st'.chain first → st'.next b = st.next b := by
  unfold Store.allocate at h
  split at h
  · rename_i b bs st1 htake
    cases h
    obtain ⟨hframe, hlen, -⟩ := takeBlocks_keeps htake
    obtain ⟨htaken, hleft, hretired, hbanks, -⟩ := takeBlocks_spec n st _ st1 htake hhead hnodup
    obtain ⟨hkeeps, -⟩ := linkBlocks_keeps (first :: bs) st1
    have hlinks : cellsWf none st1.links = true := by
      simp only [Store.wf, Bool.and_eq_true] at hwf
      obtain ⟨-, hlinks⟩ := hwf
      rw [hframe]
      exact hlinks
    have hdistinct : (first :: bs).Nodup := htaken ▸ (hnodup.filter _).sublist (List.take_sublist ..)
    obtain ⟨hnext, hothers⟩ := linkBlocks_spec (first :: bs) st1 hdistinct hlinks
    have hchain : (Store.linkBlocks (first :: bs) st1).chain first = first :: bs :=
      chainFrom_list _ _ Config.maxChain first bs rfl (hlen ▸ hn) hnext
    have hsame : (Store.linkBlocks (first :: bs) st1).isRetired = st.isRetired := by
      rw [hkeeps, hframe]
      rfl
    rw [hchain]
    refine ⟨htaken, ?_, ?_, fun b hb => (hothers b hb).trans ?_⟩
    · rw [Store.usable, hsame, hkeeps]
      exact hleft
    · rw [hkeeps]
      exact hretired
    · rw [hframe]
      rfl
  · cases h

theorem isRetired_freeChain (st : Store) (first : Block) : (st.freeChain first).isRetired = st.isRetired := by
  rw [freeChain_eq]
  rfl

/-- The usable free count rises by the blocks of a freed chain that join the free list (R148, R150). -/
theorem usableFree_freeChain (st : Store) (first : Block) : (st.freeChain first).usableFree
    = st.usableFree + (st.chain first).countP fun b => !st.isRetired b := by
  rw [Store.usableFree, isRetired_freeChain, freeChain_eq]
  simp only [List.countP_append, List.countP_filter, Bool.and_self, Store.usableFree]

/-- Settles O39: an allocation by the blocks it takes and links, a freed chain by its whole effect. -/
theorem allocationAndFreeingOfChains : Obligations.AllocationAndFreeingOfChains := by
  unfold Obligations.AllocationAndFreeingOfChains
  refine ⟨fun st n hlow hhigh hfits hhead hnodup hwf => ?_, fun st first => ?_⟩
  · obtain ⟨first, st', halloc⟩ := allocate_some hlow hfits
    obtain ⟨hchain, husable, hretired, hnext⟩ := allocate_spec halloc hhigh hhead hnodup hwf
    obtain ⟨hframe, hkept, -⟩ := allocate_keeps halloc
    have hsame : st'.isRetired = st.isRetired := by
      rw [hframe]
      rfl
    have hcount : st'.usableFree + n = st.usableFree := by
      rw [← length_usable, husable, List.length_drop, length_usable]
      omega
    refine ⟨first, st', halloc, hchain, ?_, hcount, hkept hhead, hretired, hnext, hframe⟩
    rw [Store.usable, hsame] at husable
    exact husable
  · refine ⟨by rw [freeChain_eq], fun b => ?_, usableFree_freeChain st first, headUsable_freeChain st first,
      by rw [freeChain_eq]⟩
    rw [freeChain_eq]
    simp only [mem_retireBlocks, List.mem_filter]
    exact or_comm

end Sys2Proof.Machine

namespace Sys2Proof.Machine

open Sys2Proof

/-! ### The retirement of a bank -/

/-- The part that has noted a failed read in its bank, and has not yet retired the bank (R152). -/
def State.noteError (s : State) (b : Block) : State :=
  State.raise { s with store := s.store.setBank (bankOf b) { s.store.bank (bankOf b) with
      integrity := true, errors := min ((s.store.bank (bankOf b)).errors + 1) 2 } }
    .parityError (bankOf b).val b.toNat

theorem parityError_eq (s : State) (b : Block) : s.parityError b =
    if (s.store.bank (bankOf b)).retired = false ∧ (s.store.bank (bankOf b)).errors = 1
    then (s.noteError b).retireBank (bankOf b) b else s.noteError b := rfl

theorem noteError_store (s : State) (b : Block) : (s.noteError b).store =
    s.store.setBank (bankOf b) { s.store.bank (bankOf b) with
      integrity := true, errors := min ((s.store.bank (bankOf b)).errors + 1) 2 } := raise_store ..

theorem noteError_link (s : State) (b : Block) : (s.noteError b).link = { s.link with
    queue := (s.noteError b).link.queue, overflow := (s.noteError b).link.overflow } := raise_link_frame ..

theorem setBank_setBank (st : Store) (j : Fin 4) (a b : Bank) : (st.setBank j a).setBank j b = st.setBank j b := by
  simp only [Store.setBank, Vector.set_set]

/-- The store whose bank `j` a second failed read has retired (R152, R153). -/
def Store.secondError (st : Store) (j : Fin 4) : Store :=
  (st.setBank j { integrity := true, errors := 2, retired := true }).cascade

theorem bank_secondError (st : Store) (j k : Fin 4) : (st.secondError j).bank k =
    if k = j then { integrity := true, errors := 2, retired := true } else st.bank k := by
  rw [Store.secondError, bank_congr (cascade_banks _), bank_setBank]

/-- The store is exhausted by the retirement of its last bank in service (R156). -/
theorem exhausted_secondError (st : Store) (j : Fin 4) :
    (st.secondError j).exhausted = true ↔ ∀ k, k ≠ j → (st.bank k).retired = true := by
  simp only [exhausted_iff, bank_secondError]
  refine forall_congr' fun k => ?_
  by_cases hk : k = j <;> simp [hk]

theorem isRetired_setBank (st : Store) {j : Fin 4} {bk : Bank} (hbk : bk.retired = true) (x : Block) :
    (st.setBank j bk).isRetired x = (st.isRetired x || decide (bankOf x = j)) := by
  simp only [Store.isRetired, bank_setBank]
  by_cases hx : bankOf x = j <;> simp [hx, hbk]

/-- Of what passes a test, some passes a stricter one, and the rest does not. -/
theorem countP_not_stricter_add {α : Type} {p q : α → Bool} (h : ∀ x, q x = true → p x = true) (l : List α) :
    l.countP (fun x => p x && !q x) + l.countP q = l.countP p := by
  have hq : l.countP q = l.countP fun x => p x && q x := by
    refine List.countP_congr fun x _ => ?_
    rw [Bool.and_eq_true]
    exact ⟨fun hx => ⟨h x hx, hx⟩, And.right⟩
  rw [List.countP_eq_countP_filter_add l p q, List.countP_filter, List.countP_filter, hq, Nat.add_comm]

/-- Retiring a bank in service makes its blocks on the free list usable no more (R153). -/
theorem usableFree_secondError (st : Store) {j : Fin 4} (hj : (st.bank j).retired = false) :
    (st.secondError j).usableFree + st.free.countP (fun x => decide (bankOf x = j)) = st.usableFree := by
  have hservice (x : Block) (hx : decide (bankOf x = j) = true) : (!st.isRetired x) = true := by
    simp only [decide_eq_true_eq] at hx
    simp [Store.isRetired, hx, hj]
  rw [Store.secondError, usableFree_cascade, Store.usableFree, Store.usableFree, ← countP_not_stricter_add hservice]
  simp only [isRetired_setBank st (bk := { integrity := true, errors := 2, retired := true }) rfl, Bool.not_or]
  rfl

/-- No block of an exhausted store is left on the free list (R146, R156). -/
theorem cascade_free_of_exhausted {st : Store} (h : st.cascade.exhausted = true) : st.cascade.free = [] := by
  have hall (b : Block) : st.isRetired b = true := by
    rw [← isRetired_congr (cascade_banks st)]
    exact (exhausted_iff _).mp h (bankOf b)
  rw [cascade_eq]
  exact List.dropWhile_eq_nil_iff.mpr fun b _ => hall b

theorem parityError_of_service {s : State} {b : Block} (hservice : (s.store.bank (bankOf b)).retired = false)
    (hone : (s.store.bank (bankOf b)).errors = 1) :
    s.parityError b = (s.noteError b).retireBank (bankOf b) b := by
  rw [parityError_eq, if_pos ⟨hservice, hone⟩]

theorem parityError_of_else {s : State} {b : Block}
    (h : (s.store.bank (bankOf b)).retired = true ∨ (s.store.bank (bankOf b)).errors ≠ 1) :
    s.parityError b = s.noteError b := by
  rw [parityError_eq, if_neg]
  rintro ⟨hservice, hone⟩
  rcases h with h | h
  · rw [hservice] at h
    cases h
  · exact h hone

theorem raises_noteError (s : State) (b : Block) :
    Raises s (s.noteError b) [⟨.parityError, (bankOf b).val, b.toNat⟩] :=
  (raises_raise _ .parityError (bankOf b).val b.toNat).of_same rfl rfl rfl

/-- A second failed read retires its bank: store, latches and events (R153, R156, R157). -/
theorem parityError_retires {s : State} {b : Block} (hservice : (s.store.bank (bankOf b)).retired = false)
    (hone : (s.store.bank (bankOf b)).errors = 1) :
    let t := s.parityError b
    let st := s.store.secondError (bankOf b)
    t.store = st
      ∧ t.link.latches = { s.link.latches with
          bankRetired := true, storeExhausted := s.link.latches.storeExhausted || st.exhausted }
      ∧ Raises s t (⟨.parityError, (bankOf b).val, b.toNat⟩ :: ⟨.bankRetired, (bankOf b).val, b.toNat⟩ ::
          if st.exhausted then [⟨.storeExhausted, 0, st.inUse⟩] else []) := by
  intro t st
  have hst : ((s.noteError b).store.setBank (bankOf b)
      { (s.noteError b).store.bank (bankOf b) with retired := true }).cascade = st := by
    rw [noteError_store, bank_setBank, if_pos rfl, setBank_setBank, hone]
    rfl
  have ht : t = (s.noteError b).retireBank (bankOf b) b := parityError_of_service hservice hone
  obtain ⟨hstore, hraises, hlatches, -⟩ := retireBank_facts (s.noteError b) (bankOf b) b
  rw [hst] at hstore hraises hlatches
  rw [ht]
  refine ⟨hstore, ?_, (raises_noteError s b).trans hraises (raise_t ..)⟩
  rw [hlatches, noteError_link]

/-- A failed read moves the banks' store, the latches, the queue and the overflow flag, and nothing else of the link. -/
theorem parityError_link (s : State) (b : Block) : (s.parityError b).link = { s.link with
    latches := (s.parityError b).link.latches, queue := (s.parityError b).link.queue,
    overflow := (s.parityError b).link.overflow } := by
  by_cases h : (s.store.bank (bankOf b)).retired = false ∧ (s.store.bank (bankOf b)).errors = 1
  · obtain ⟨hservice, hone⟩ := h
    obtain ⟨-, -, -, hframe⟩ := retireBank_facts (s.noteError b) (bankOf b) b
    rw [parityError_of_service hservice hone]
    refine (congrArg State.link hframe).trans ?_
    simp only []
    rw [noteError_link]
  · rw [parityError_eq, if_neg h, noteError_link]

/-- No bank but that of the failed read changes (R152, R153). -/
theorem parityError_bank_ne (s : State) (b : Block) {k : Fin 4} (hk : k ≠ bankOf b) :
    (s.parityError b).store.bank k = s.store.bank k := by
  by_cases h : (s.store.bank (bankOf b)).retired = false ∧ (s.store.bank (bankOf b)).errors = 1
  · obtain ⟨hservice, hone⟩ := h
    obtain ⟨hstore, -⟩ := parityError_retires hservice hone
    rw [hstore, bank_secondError, if_neg hk]
  · rw [parityError_eq, if_neg h, noteError_store, bank_setBank, if_neg hk]

/-- The PARITY indication is some bank's integrity bit (R152). -/
theorem parityIndication_iff (st : Store) : st.parityIndication = true ↔ ∃ j : Fin 4, (st.bank j).integrity = true := by
  simp only [Store.parityIndication, Store.bank, Bool.or_eq_true, Fin.exists_fin_succ, or_assoc]
  simp

/-- Settles O42: by whether the bank is in service with one error counted. -/
theorem secondParityErrorRetiresTheBank : Obligations.SecondParityErrorRetiresTheBank := by
  unfold Obligations.SecondParityErrorRetiresTheBank
  intro s b j t bk
  refine ⟨fun hservice hone => ?_, fun h => ?_, fun k hk => parityError_bank_ne s b hk, fun hlive => ?_, ?_⟩
  · obtain ⟨hstore, hlatches, hraises⟩ := parityError_retires hservice hone
    refine ⟨?_, ?_, ?_, ?_, fun hothers => ?_, fun ⟨k, hk, hkept⟩ => ?_⟩
    · rw [hstore, bank_secondError, if_pos rfl]
    · rw [hstore]
      exact usableFree_secondError s.store hservice
    · rw [hstore]
      exact headUsable_cascade _
    · rw [hlatches]
    · have hexhausted := (exhausted_secondError s.store j).mpr hothers
      have hfree : t.store.free = [] := by
        rw [hstore]
        exact cascade_free_of_exhausted hexhausted
      refine ⟨hfree, by simp [Store.usableFree, hfree], ?_, ?_⟩
      · rw [hlatches, hexhausted, Bool.or_true]
      · rw [if_pos hexhausted, ← hstore] at hraises
        exact hraises
    · have hstill : (s.store.secondError j).exhausted = false := by
        rw [← Bool.not_eq_true, exhausted_secondError]
        intro hall
        rw [hall k hk] at hkept
        cases hkept
      refine ⟨by rw [hlatches, hstill, Bool.or_false], ?_⟩
      rw [hstill, if_neg Bool.false_ne_true] at hraises
      exact hraises
  · have ht : t = s.noteError b := parityError_of_else h
    rw [ht]
    refine ⟨?_, ?_, ?_, raises_noteError s b⟩
    · rw [noteError_store, bank_setBank, if_pos rfl]
    · rw [noteError_store]
      rfl
    · rw [noteError_link]
  · have hlive' : t.live = true := by simpa [t, State.live] using hlive
    obtain ⟨hintegrity, -⟩ := parityError_banks s b
    have hparity := (parityIndication_iff t.store).mpr ⟨j, hintegrity⟩
    simp [State.faultLine, hlive', hparity]
  · rw [← parityError_link]
    exact parityError_keeps s b

end Sys2Proof.Machine

namespace Sys2Proof.Machine

open Sys2Proof

/-! ### FAULT -/

/-- What asserts FAULT in a live part (R183). -/
theorem faultLine_iff_of_live {s : State} (hl : s.live = true) :
    s.faultLine = true ↔ s.link.latches.any = true ∨ (∃ j : Fin 4, (s.store.bank j).integrity = true)
      ∨ s.loader.part = .halted := by
  rw [State.faultLine, hl, Bool.true_and, Bool.or_eq_true, Bool.or_eq_true, parityIndication_iff, decide_eq_true_eq,
    or_assoc]

theorem faultLine_of_cold {s : State} (h : s.cold = true) : s.faultLine = false := by
  simp [State.faultLine, State.live, h]

/-- Through LOAD nothing asserts FAULT (R183). -/
theorem faultLine_of_load {s : State} (hs : s.coldOutsideRun) (hload : s.loader.part = .load) :
    s.faultLine = false := by
  obtain ⟨-, -, -, -, hstore, -, -, -, -, -, -, -, hlatches, -⟩ := hs (by simp [hload])
  have hparity : Store.cold.parityIndication = false := rfl
  simp [State.faultLine, hstore, hlatches, hload, hparity, Latches.any, Latches.cold]

/-! ### CLEAR -/

theorem bank_clearIntegrity (st : Store) (i j : Fin 4) : (st.clearIntegrity i).bank j =
    if j = i then { st.bank j with integrity := false, errors := 0 } else st.bank j := by
  rw [Store.clearIntegrity, bank_setBank]
  by_cases hj : j = i
  · rw [if_pos hj, if_pos hj, hj]
  · rw [if_neg hj, if_neg hj]

/-- The clears that a mask names among some banks. -/
def Store.clearBanks (m : BitVec 16) (js : List (Fin 4)) (st : Store) : Store :=
  js.foldl (fun st j => if m.getLsbD (4 + j.val) then Store.clearIntegrity st j else st) st

/-- CLEAR clears the integrity bit and error count of each bank its mask names (R154). -/
theorem bank_clearBanks (m : BitVec 16) (js : List (Fin 4)) (st : Store) (j : Fin 4) :
    (st.clearBanks m js).bank j = if j ∈ js ∧ m.getLsbD (4 + j.val) = true
      then { st.bank j with integrity := false, errors := 0 } else st.bank j := by
  induction js generalizing st with
  | nil => simp [Store.clearBanks]
  | cons i js ih =>
    have hcons : st.clearBanks m (i :: js)
        = Store.clearBanks m js (if m.getLsbD (4 + i.val) then st.clearIntegrity i else st) := rfl
    rw [hcons, ih]
    by_cases hj : j = i
    · subst hj
      cases m.getLsbD (4 + j.val) <;> simp [bank_clearIntegrity]
    · have hbank : (if m.getLsbD (4 + i.val) then st.clearIntegrity i else st).bank j = st.bank j := by
        split
        · rw [bank_clearIntegrity, if_neg hj]
        · rfl
      simp only [hbank, List.mem_cons, hj, false_or]

/-- CLEAR changes the store in its banks alone (R181). -/
theorem clearBanks_frame (m : BitVec 16) (js : List (Fin 4)) (st : Store) :
    st.clearBanks m js = { st with banks := (st.clearBanks m js).banks } := by
  obtain ⟨hbytes, hparity, hlinks, hfree, hretired, -⟩ := clear_fold m js st
  rw [Store.mk.injEq]
  exact ⟨hbytes, hparity, hlinks, hfree, hretired, rfl⟩

/-- The whole effect of a mask's clears (R181). -/
theorem applyClear_eq (s : State) {mask : Nat} {m : BitVec 16} (h : BitVec.ofNat 16 mask = m) :
    s.applyClear mask = { s with
      egress := { s.egress with
        collision := if m.getLsbD 0 = true then 0 else s.egress.collision
        late := if m.getLsbD 1 = true then 0 else s.egress.late
        starve := if m.getLsbD 2 = true then 0 else s.egress.starve
        trim := if m.getLsbD 3 = true then 0 else s.egress.trim }
      store := s.store.clearBanks m (List.finRange 4)
      link := { s.link with latches := { s.link.latches with
        egressStall := s.link.latches.egressStall && !m.getLsbD 8
        busStuck := s.link.latches.busStuck && !m.getLsbD 9
        idClash := s.link.latches.idClash && !m.getLsbD 10 } } } := by
  subst h
  rfl

/-- The two operand bytes of CLEAR as its mask (R184). -/
theorem mask_of_bytes (hi lo : Byte) : BitVec.ofNat 16 (beValue [hi, lo]) = hi ++ lo := by
  apply BitVec.eq_of_toNat_eq
  have hvalue : beValue [hi, lo] = hi.toNat * 256 + lo.toNat := by simp [beValue]
  rw [hvalue, BitVec.toNat_append, BitVec.toNat_ofNat, ← Nat.shiftLeft_add_eq_or_of_lt lo.isLt, Nat.shiftLeft_eq]
  have := hi.isLt
  have := lo.isLt
  omega

theorem judgeRequest_clear {s : State} (hrun : s.loader.part = .run) (hi lo : Byte) :
    s.judgeRequest 0x04 [hi, lo] = s.serveClear 0x04 (beValue [hi, lo]) := by
  simp [State.judgeRequest, hrun]

/-- The bytes of CLEAR's response (R177, R181). -/
theorem responseBytes_clear (word : Nat) :
    responseBytes 0x04 0 (beBytes 2 word) = [0x84, 0x00, 0x00, 0x02] ++ beBytes 2 word := by
  simp [responseBytes, beBytes]

/-! ### The latch word -/

/-- The bits of the latch word, bit 0 first (R185). -/
def State.latchBits (s : State) : Fin 13 → Bool :=
  ![anyBit s.egress.collision, anyBit s.egress.late, anyBit s.egress.starve, anyBit s.egress.trim,
    (s.store.bank 0).integrity, (s.store.bank 1).integrity, (s.store.bank 2).integrity, (s.store.bank 3).integrity,
    s.link.latches.egressStall, s.link.latches.busStuck, s.link.latches.idClash, s.link.latches.storeExhausted,
    s.link.latches.bankRetired]

theorem bitOf_eq_toNat (b : Bool) : bitOf b = b.toNat := by cases b <;> rfl

theorem latchWord_eq (s : State) : s.latchWord = Nat.ofBits s.latchBits := by
  simp only [State.latchWord, State.latchBits, bitOf_eq_toNat, Store.bank, Nat.ofBits_succ, Nat.ofBits_zero,
    Function.comp_apply, Matrix.cons_val_zero, Matrix.cons_val_succ, Fin.coe_ofNat_eq_mod, Nat.reduceMod, Nat.zero_mod]
  omega

theorem latchWord_lt (s : State) : s.latchWord < 8192 := by
  rw [latchWord_eq]
  exact Nat.ofBits_lt_two_pow _

/-- The latch word read bit by bit (R185). -/
theorem getLsbD_latchWord (s : State) (i : Fin 13) : (BitVec.ofNat 16 s.latchWord).getLsbD i.val = s.latchBits i := by
  have hi : i.val < 16 := Nat.lt_trans i.isLt (by decide)
  rw [latchWord_eq, BitVec.getLsbD_ofNat, decide_eq_true hi, Bool.true_and, Nat.testBit_ofBits_lt _ _ i.isLt]

theorem getLsbD_latchWord_bank (s : State) (j : Fin 4) :
    (BitVec.ofNat 16 s.latchWord).getLsbD (4 + j.val) = (s.store.bank j).integrity := by
  refine (getLsbD_latchWord s ⟨4 + j.val, by omega⟩).trans ?_
  fin_cases j <;> rfl

/-- Settles O58: FAULT by what the part holds, CLEAR by its whole effect, and the latch word bit by bit. -/
theorem clearClearsWhatItsMaskNames : Obligations.ClearClearsWhatItsMaskNames := by
  unfold Obligations.ClearClearsWhatItsMaskNames
  refine ⟨fun s => ⟨fun hlive => ?_, faultLine_of_cold, faultLine_of_load⟩, fun s hi lo hrun => ?_⟩
  · rw [faultLine_iff_of_live hlive]
    simp only [Latches.any, Bool.or_eq_true, or_assoc]
  · intro t m keep word
    have happly := applyClear_eq s (mask_of_bytes hi lo)
    let u : State := s.applyClear (beValue [hi, lo])
    have ht : t = u.respond 0x04 0 (beBytes 2 u.latchWord) := judgeRequest_clear hrun hi lo
    have hword : t.latchWord = u.latchWord := by
      rw [ht]
      rfl
    have hegress : t.egress = u.egress := by rw [ht, respond_egress]
    have hlatches : t.link.latches = u.link.latches := by
      rw [ht]
      rfl
    have hstore : t.store = s.store.clearBanks m (List.finRange 4) := by
      rw [ht, respond_store]
      exact congrArg State.store happly
    have bit (i : Fin 13) : word i.val = t.latchBits i := getLsbD_latchWord t i
    refine ⟨hegress.trans (congrArg State.egress happly), fun j => ?_,
      hlatches.trans (congrArg (·.link.latches) happly), ?_, latchWord_lt t, ?_, ?_⟩
    · rw [hstore, bank_clearBanks]
      simp
    · rw [hword, ← responseBytes_clear]
      exact congrArg (·.link.responder) ht
    · exact ⟨bit 0, bit 1, bit 2, bit 3, getLsbD_latchWord_bank t, bit 8, bit 9, bit 10, bit 11, bit 12⟩
    · have hframe : t.store = { s.store with banks := t.store.banks } := by
        rw [hstore]
        exact clearBanks_frame ..
      rw [← hframe, ht]
      rfl

end Sys2Proof.Machine

namespace Sys2Proof.Machine

open Sys2Proof

/-! ### The walk of the loader, byte by byte (R160) -/

section Walk

variable {l : Loader}

theorem store_at_type (now : Time) (b : Byte) (h : l.walk = .type) : l.store now b = { l with
    image := l.image ++ [b], stall := some now, recStart := l.image.length, isEnd := decide (b = 0x0F#8),
    walk := .length } := by
  rw [Loader.store, h]

theorem store_at_length (now : Time) (b : Byte) (h : l.walk = .length) : l.store now b = { l with
    image := l.image ++ [b], stall := some now, bodyLeft := b.toNat,
    walk := if b.toNat = 0 then .type else .body } := by
  rw [Loader.store, h]

theorem store_at_body (now : Time) (b : Byte) (h : l.walk = .body) : l.store now b = { l with
    image := l.image ++ [b], stall := some now, bodyLeft := l.bodyLeft - 1,
    walk := if l.bodyLeft ≤ 1 then .type else .body } := by
  rw [Loader.store, h]

/-- The walk moves on, and neither the part state nor the fault does (R160). -/
theorem store_frame (now : Time) (b : Byte) (l : Loader) : (l.store now b).image = l.image ++ [b]
    ∧ (l.store now b).part = l.part ∧ (l.store now b).stall = some now ∧ (l.store now b).fault = l.fault := by
  cases h : l.walk
  case type => simp [store_at_type now b h]
  case length => simp [store_at_length now b h]
  case body => simp [store_at_body now b h]

end Walk

/-! ### A byte in LOAD -/

theorem exec_imageByte {s : State} (b : Byte) (hl : s.live = true) :
    exec (.imageByte b) s = .next (s.receiveByte b) := by
  simp only [exec, execImageByte, hl, if_true]

theorem withByte_eq (s : State) (b : Byte) : s.withByte b = { s with
    loader := s.loader.store s.t b
    link := { s.link with rx := { s.link.rx with
      ready := if s.link.rx.ready = some (.byte b) then none else s.link.rx.ready } } } := by
  rw [State.withByte, takeChar_eq]

/-- However an image is judged, the image area and the walk stay as the byte left them (R160, R161). -/
theorem loader_receiveByte_loading {s : State} (b : Byte) (hp : s.loader.part = .load) :
    ∃ part stall fault, (s.receiveByte b).loader
      = { s.loader.store s.t b with part := part, stall := stall, fault := fault } := by
  rcases receiveByte_load_cases b hp with h | ⟨f, pos, h⟩ | ⟨part, rs, h⟩
  · exact ⟨_, _, _, by rw [h]; rfl⟩
  · exact ⟨_, _, _, by rw [h]; rfl⟩
  · exact ⟨_, _, _, by rw [h, enterRun_frame]; rfl⟩

/-- A byte that neither completes an END record nor fills the image area is stored, and loading goes on (R161). -/
theorem receiveByte_of_loading_goes_on {s : State} {b : Byte} (hp : s.loader.part = .load)
    (hend : ¬((s.loader.store s.t b).isEnd = true ∧ (s.loader.store s.t b).walk = .type))
    (hroom : s.loader.image.length + 1 < 4096) : s.receiveByte b = s.withByte b := by
  obtain ⟨himage, -, -, -⟩ := store_frame s.t b s.loader
  have hopen : (s.loader.store s.t b).endComplete = false := by
    simpa [Loader.endComplete] using hend
  have hshort : (s.loader.store s.t b).areaFull = false := by
    simp only [Loader.areaFull, Config.imageArea, himage, List.length_append, List.length_singleton, decide_eq_false_iff_not]
    omega
  rw [receiveByte_loading b hp, hopen, hshort]
  rfl

/-- Settles O8: whatever follows, the walk moves by the row of its state, and short of an end the part waits on. -/
theorem imageByteAdvancesTheWalk : Obligations.ImageByteAdvancesTheWalk := by
  unfold Obligations.ImageByteAdvancesTheWalk
  intro s b hl hp rx
  obtain ⟨part, stall, fault, hloader⟩ := loader_receiveByte_loading b hp
  obtain ⟨himage, hpart, hstall, hfault⟩ := store_frame s.t b s.loader
  refine ⟨s.receiveByte b, exec_imageByte b hl, by rw [hloader]; exact himage, fun hw => ?_, fun hw => ?_, fun hw => ?_,
    fun hend hroom => ?_⟩
  · simp [hloader, store_at_type s.t b hw]
  · rw [hloader, store_at_length s.t b hw]
    refine ⟨rfl, rfl, rfl, fun hzero => if_pos (by rw [hzero]; rfl), fun hne => if_neg fun hzero => hne ?_⟩
    exact BitVec.eq_of_toNat_eq hzero
  · rw [hloader, store_at_body s.t b hw]
    exact ⟨rfl, rfl, rfl, fun hlast => if_pos (Nat.sub_eq_zero_iff_le.mp hlast),
      fun hmore => if_neg fun hle => hmore (Nat.sub_eq_zero_of_le hle)⟩
  · rw [hloader] at hend
    rw [receiveByte_of_loading_goes_on hp hend hroom, withByte_eq]
    exact ⟨hpart.trans hp, hstall, hfault, rfl⟩

/-! ### An image that is not accepted -/

theorem endLoading_of_rejected {s : State} {f : ImageFault} {pos : Nat}
    (h : judgeImage s.loader.image s.loader.recStart = .rejected f pos) : s.endLoading = s.reject f pos := by
  rw [State.endLoading, h]

theorem stallExpired_of_reached {s : State} {last : Time} (hl : s.live = true) (hp : s.loader.part = .load)
    (hstall : s.loader.stall = some last) (hlate : reached s.t (after last 125000000) = true) :
    s.stallExpired = true := by
  simp [State.stallExpired, hl, hp, hstall, Config.imageStallTicks, hlate]

/-- Settles O9: an image that fails its judgement, then one that stalls. -/
theorem faultyImageHaltsThePart : Obligations.FaultyImageHaltsThePart := by
  unfold Obligations.FaultyImageHaltsThePart
  refine ⟨?_, fun s last hl hp hstall hlate => ?_⟩
  · intro s b f pos hl hp l rx hend hjudge
    have hreject : (s.withByte b).endLoading = (s.withByte b).reject f pos := endLoading_of_rejected hjudge
    have hlive : ((s.withByte b).reject f pos).live = true := by
      rw [← hl, withByte_eq]
      rfl
    refine ⟨(s.withByte b).reject f pos, hreject ▸ exec_imageByte_judged hl hp hend, rfl, ?_, ?_⟩
    · exact (faultLine_iff_of_live hlive).mpr (.inr (.inr rfl))
    · rw [withByte_eq]
      rfl
  · simp only [exec, execImageStalled, stallExpired_of_reached hl hp hstall hlate, if_true]
    rfl

end Sys2Proof.Machine

namespace Sys2Proof.Machine

open Sys2Proof

/-! ### A character received on MRX (R173) -/

/-- The samples of the first `n` bits of a character whose start bit falls at tick 0. -/
def bitSamples (level : Nat → Bool) (n : Nat) : List Bool := (List.range n).map fun k => level (125 * k + 62)

/-- The character as it stands `d` ticks after the falling edge of its start bit: each bit whose sample has come is
held (R173). -/
def charAt (held : Bool) (level : Nat → Bool) (d : Nat) : RxBusy :=
  { elapsed := d, bits := bitSamples level ((d + 63) / 125), drop := held }

@[simp] theorem bitSamples_length (level : Nat → Bool) (n : Nat) : (bitSamples level n).length = n := by
  simp [bitSamples]

theorem bitSamples_succ (level : Nat → Bool) (n : Nat) :
    bitSamples level (n + 1) = bitSamples level n ++ [level (125 * n + 62)] := by
  simp [bitSamples, List.range_succ]

theorem bitSamples_getD (level : Nat → Bool) {n k : Nat} (h : k < n) :
    (bitSamples level n).getD k false = level (125 * k + 62) := by
  simp [bitSamples, h]

/-- A tick of the line takes a character from one tick to the next: a bit joins exactly at its sample (R173). -/
theorem charAt_tick (held : Bool) (level : Nat → Bool) (d : Nat) :
    (charAt held level d).tick (level (d + 1)) = charAt held level (d + 1) := by
  simp only [RxBusy.tick, charAt, bitSamples_length, Config.bitTicks]
  split
  · next hsample =>
    rw [show (d + 1 + 63) / 125 = (d + 63) / 125 + 1 by omega, bitSamples_succ, ← hsample]
  · next hbetween =>
    rw [show (d + 1 + 63) / 125 = (d + 63) / 125 by omega]

/-- With no character under way and no falling edge the receive side only follows the line. -/
theorem rx_tick_of_no_edge {r : Rx} (held : Bool) {level : Bool} (hidle : r.busy = none)
    (hedge : r.was = false ∨ level = true) : r.tick held level = { was := level, busy := none, ready := none } := by
  have hnot : (r.was && !level) = false := by rcases hedge with h | h <;> simp [h]
  simp [Rx.tick, hidle, hnot]

theorem rx_tick_of_edge {r : Rx} (held : Bool) {level : Nat → Bool} (hidle : r.busy = none) (hwas : r.was = true)
    (hlow : level 0 = false) :
    r.tick held (level 0) = { was := level 0, busy := some (charAt held level 0), ready := none } := by
  simp [Rx.tick, hidle, hwas, hlow, charAt, bitSamples]

/-- Before the stop bit's sample a tick brings the character one tick on and hands nothing on. -/
theorem rx_tick_of_receiving {r : Rx} (later : Bool) {held : Bool} {level : Nat → Bool} {d : Nat} (hd : d + 1 < 1187)
    (hbusy : r.busy = some (charAt held level d)) : r.tick later (level (d + 1))
      = { was := level (d + 1), busy := some (charAt held level (d + 1)), ready := none } := by
  have hshort : (charAt held level (d + 1)).bits.length < 10 := by
    simp only [charAt, bitSamples_length]
    omega
  simp [Rx.tick, hbusy, charAt_tick, hshort]

/-- The stop bit's sample ends the character, and hands it on unless it began under COLD (R158, R173). -/
theorem rx_tick_of_stop {r : Rx} (later : Bool) {held : Bool} {level : Nat → Bool}
    (hbusy : r.busy = some (charAt held level 1186)) : r.tick later (level 1187)
      = { was := level 1187, busy := none
          ready := if held = true then none else some (charOf (bitSamples level 10)) } := by
  simp only [Rx.tick, hbusy, charAt_tick held level 1186]
  exact if_neg (by simp [charAt])

/-- The receive side `d` ticks after the falling edge of a start bit, the line having the levels given. -/
def rxAfter (r : Rx) (held later : Bool) (level : Nat → Bool) (d : Nat) : Rx :=
  (List.range d).foldl (fun r i => r.tick later (level (i + 1))) (r.tick held (level 0))

theorem rxAfter_succ (r : Rx) (held later : Bool) (level : Nat → Bool) (d : Nat) :
    rxAfter r held later level (d + 1) = (rxAfter r held later level d).tick later (level (d + 1)) := by
  simp [rxAfter, List.range_succ]

/-- The character is under way from its edge to the tick before its stop bit's sample. -/
theorem rxAfter_eq_receiving {r : Rx} (held later : Bool) {level : Nat → Bool} (hidle : r.busy = none)
    (hwas : r.was = true) (hlow : level 0 = false) {d : Nat} (hd : d < 1187) : rxAfter r held later level d
      = { was := level d, busy := some (charAt held level d), ready := none } := by
  induction d with
  | zero => exact rx_tick_of_edge held hidle hwas hlow
  | succ d ih =>
    rw [rxAfter_succ]
    exact rx_tick_of_receiving later hd (by rw [ih (by omega)])

/-- The eight data bits as the byte they spell, the first the least significant (R173). -/
theorem getLsbD_dataByte (bits : List Bool) {k : Nat} (hk : k < 8) :
    (BitVec.ofNat 8 ((List.range 8).foldl (fun v i => v + 2 ^ i * bitOf (bits.getD (i + 1) false)) 0)).getLsbD k
      = bits.getD (k + 1) false := by
  have hvalue : (List.range 8).foldl (fun v i => v + 2 ^ i * bitOf (bits.getD (i + 1) false)) 0
      = Nat.ofBits fun i : Fin 8 => bits.getD (i.val + 1) false := by
    simp [List.range_succ, bitOf_eq_toNat, Nat.ofBits_succ]
    omega
  rw [hvalue, BitVec.getLsbD_ofNat, decide_eq_true hk, Bool.true_and, Nat.testBit_ofBits_lt _ _ hk]

theorem charOf_of_stop_low {bits : List Bool} (h : bits.getD 9 false = false) : charOf bits = .error := by
  rw [charOf, h]
  rfl

theorem charOf_of_stop_high {bits : List Bool} (h : bits.getD 9 false = true) :
    ∃ b : Byte, charOf bits = .byte b ∧ ∀ k < 8, b.getLsbD k = bits.getD (k + 1) false :=
  ⟨_, by rw [charOf, if_pos h], fun _ hk => getLsbD_dataByte bits hk⟩

/-! ### The characters of a response on MTX (R172, R173) -/

theorem charBit_of_byte {bytes : List Byte} {i k : Nat} {b : Byte} (hb : bytes[i]? = some b) (hk : k < 10) :
    charBit bytes (10 * i + k) = if k = 0 then false else if k = 9 then true else b.getLsbD (k - 1) := by
  have hbyte : (10 * i + k) / 10 = i := by omega
  have hbit : (10 * i + k) % 10 = k := by omega
  simp only [charBit, hbyte, hbit, hb]

theorem charBit_past_end {bytes : List Byte} {i : Nat} (h : 10 * bytes.length ≤ i) : charBit bytes i = true := by
  have hnone : bytes[i / 10]? = none := List.getElem?_eq_none (by omega)
  simp only [charBit, hnone]

theorem mtx_of_idle {s : State} (h : s.link.responder = none) : s.mtx = true := by
  simp only [State.mtx, h]

theorem mtx_of_sending {s : State} {r : Response} (hl : s.live = true) (h : s.link.responder = some r) :
    s.mtx = charBit r.bytes (elapsed s.t r.start / 125) := by
  simp only [State.mtx, h, hl, if_true, Config.bitTicks]

/-- Settles O54: the idle line, a character by the bits held at each tick, and MTX by the bit time of the response. -/
theorem charactersOnMrxAndMtx : Obligations.CharactersOnMrxAndMtx := by
  unfold Obligations.CharactersOnMrxAndMtx
  refine ⟨fun r held level hidle hedge => rx_tick_of_no_edge held hidle hedge, ?_, fun s => ⟨mtx_of_idle, ?_⟩⟩
  · intro r held later level hidle hwas hlow rx
    have receiving {d : Nat} (hd : d < 1187) : rx d = { was := level d, busy := some (charAt held level d), ready := none } :=
      rxAfter_eq_receiving held later hidle hwas hlow hd
    have stopped : rx 1187 = { was := level 1187, busy := none
                               ready := if held = true then none else some (charOf (bitSamples level 10)) } :=
      (rxAfter_succ r held later level 1186).trans
        (rx_tick_of_stop later (congrArg Rx.busy (receiving (d := 1186) (by decide))))
    have hstop : (bitSamples level 10).getD 9 false = level 1187 := bitSamples_getD level (by decide)
    rw [stopped]
    refine ⟨fun d hd => by rw [receiving hd]; exact ⟨rfl, rfl⟩, rfl, rfl, fun hheld => if_pos hheld, fun hheld hlast => ?_,
      fun hheld hlast => ?_⟩
    · simp [hheld, charOf_of_stop_low (hstop.trans hlast)]
    · obtain ⟨b, hchar, hbits⟩ := charOf_of_stop_high (hstop.trans hlast)
      exact ⟨b, by simp [hheld, hchar], fun k hk => (hbits k hk).trans (bitSamples_getD level (by omega))⟩
  · intro r hl hsending hshort
    rw [mtx_of_sending hl hsending]
    refine ⟨fun i b k o hb hk ho ht => ?_, fun hpast => charBit_past_end ?_⟩
    · have hi : i < r.bytes.length := (List.getElem?_eq_some_iff.mp hb).1
      have hbitTime : elapsed s.t r.start / 125 = 10 * i + k := by
        rw [ht, elapsed_after (by omega)]
        omega
      rw [hbitTime, charBit_of_byte hb hk]
    · unfold elapsed
      omega

end Sys2Proof.Machine

namespace Sys2Proof.Machine

open Sys2Proof

/-! ### Records as an image holds them (R160) -/

/-- A record by its type byte and its body; its length byte is the body's length. -/
abbrev RawRecord : Type := Byte × List Byte

/-- The bytes of records, one after the other. -/
def encode (rs : List RawRecord) : List Byte := rs.flatMap fun r => r.1 :: BitVec.ofNat 8 r.2.length :: r.2

/-- PART and STREAM records of a length that a byte can say. -/
def RecordsGood (rs : List RawRecord) : Prop := ∀ r ∈ rs, (r.1 = 0x01#8 ∨ r.1 = 0x02#8) ∧ r.2.length ≤ 255

/-- A record at its offset, as the walk finds it. -/
def recordAt (off : Nat) (r : RawRecord) : ImageRecord :=
  { offset := off, type := r.1.toNat, length := r.2.length, body := r.2 }

@[simp] theorem recordAt_offset (off : Nat) (r : RawRecord) : (recordAt off r).offset = off := rfl
@[simp] theorem recordAt_type (off : Nat) (r : RawRecord) : (recordAt off r).type = r.1.toNat := rfl
@[simp] theorem recordAt_length (off : Nat) (r : RawRecord) : (recordAt off r).length = r.2.length := rfl
@[simp] theorem recordAt_body (off : Nat) (r : RawRecord) : (recordAt off r).body = r.2 := rfl

/-- Records from an offset on, as the walk finds them. -/
def recordsAt : Nat → List RawRecord → List ImageRecord
  | _, [] => []
  | off, r :: rs => recordAt off r :: recordsAt (off + 2 + r.2.length) rs

@[simp] theorem encode_nil : encode [] = [] := rfl

theorem encode_cons (r : RawRecord) (rs : List RawRecord) :
    encode (r :: rs) = r.1 :: BitVec.ofNat 8 r.2.length :: (r.2 ++ encode rs) := by
  simp [encode]

theorem encode_cons_length (r : RawRecord) (rs : List RawRecord) :
    (encode (r :: rs)).length = 2 + r.2.length + (encode rs).length := by
  simp only [encode_cons, List.length_cons, List.length_append]
  omega

theorem length_le_encode (rs : List RawRecord) : rs.length ≤ (encode rs).length := by
  induction rs with
  | nil => exact Nat.zero_le _
  | cons r rs ih =>
    rw [encode_cons_length, List.length_cons]
    omega

theorem recordsAt_append (off : Nat) (a b : List RawRecord) :
    recordsAt off (a ++ b) = recordsAt off a ++ recordsAt (off + (encode a).length) b := by
  induction a generalizing off with
  | nil => rfl
  | cons r a ih =>
    rw [List.cons_append, recordsAt, ih, recordsAt, List.cons_append, encode_cons_length]
    simp only [Nat.add_assoc]

theorem mem_recordsAt {off : Nat} {rs : List RawRecord} {x : ImageRecord} (h : x ∈ recordsAt off rs) :
    ∃ r ∈ rs, ∃ o, x = recordAt o r := by
  induction rs generalizing off with
  | nil => cases h
  | cons r rs ih =>
    rcases List.mem_cons.mp h with rfl | h
    · exact ⟨r, List.mem_cons_self, off, rfl⟩
    · obtain ⟨e, he, o, rfl⟩ := ih h
      exact ⟨e, List.mem_cons_of_mem _ he, o, rfl⟩

theorem recordsAt_map (off : Nat) (rs : List RawRecord) :
    (recordsAt off rs).map (fun r => (r.type, r.body)) = rs.map fun r => (r.1.toNat, r.2) := by
  induction rs generalizing off with
  | nil => rfl
  | cons r rs ih => simp only [recordsAt, List.map_cons, ih, recordAt]

/-! ### Stage 1: the walk (R166) -/

/-- A walk that goes on after records already found. -/
def WalkResult.after (rs : List ImageRecord) (w : WalkResult) : WalkResult := rs.foldr WalkResult.cons w

theorem WalkResult.after_fault (rs : List ImageRecord) (f : ImageFault) (pos : Nat) :
    (WalkResult.fault f pos).after rs = .fault f pos := by
  induction rs with
  | nil => rfl
  | cons r rs ih => rw [WalkResult.after, List.foldr_cons, ← WalkResult.after, ih, WalkResult.cons]

theorem WalkResult.after_records (rs xs : List ImageRecord) :
    (WalkResult.records xs).after rs = .records (rs ++ xs) := by
  induction rs with
  | nil => rfl
  | cons r rs ih => rw [WalkResult.after, List.foldr_cons, ← WalkResult.after, ih, WalkResult.cons, List.cons_append]

section Tail

variable (fuel off : Nat) {ty len : Byte} {rest : List Byte}

theorem walkImage_nil : walkImage (fuel + 1) off [] = .fault .noEnd off := rfl

theorem walkImage_blank (h : ty = 0x00#8 ∨ ty = 0xFF#8) : walkImage (fuel + 1) off (ty :: rest) = .fault .blank off := by
  unfold walkImage
  exact if_pos h

theorem walkImage_unknown (h0 : ty ≠ 0x00#8) (hF : ty ≠ 0xFF#8) (h : ¬(ty = 0x01#8 ∨ ty = 0x02#8 ∨ ty = 0x0F#8)) :
    walkImage (fuel + 1) off (ty :: rest) = .fault .unknown off := by
  unfold walkImage
  rw [if_neg (not_or.mpr ⟨h0, hF⟩)]
  exact if_pos h

/-- A known type is neither blank nor unknown. -/
theorem not_blank_of_known (h : ty = 0x01#8 ∨ ty = 0x02#8 ∨ ty = 0x0F#8) : ¬(ty = 0x00#8 ∨ ty = 0xFF#8) := by
  rcases h with rfl | rfl | rfl <;> decide

theorem walkImage_no_length (h : ty = 0x01#8 ∨ ty = 0x02#8 ∨ ty = 0x0F#8) :
    walkImage (fuel + 1) off [ty] = .fault .truncated off := by
  rw [walkImage, if_neg (not_blank_of_known h), if_neg (not_not.mpr h)]

theorem walkImage_truncated (h : ty = 0x01#8 ∨ ty = 0x02#8 ∨ ty = 0x0F#8) (hshort : rest.length < len.toNat) :
    walkImage (fuel + 1) off (ty :: len :: rest) = .fault .truncated off := by
  rw [walkImage, if_neg (not_blank_of_known h), if_neg (not_not.mpr h)]
  exact if_pos hshort

theorem walkImage_end (hlen : len.toNat ≤ rest.length) :
    walkImage (fuel + 1) off (0x0F#8 :: len :: rest) = .records [] := by
  have hknown : (0x0F#8 = 0x01#8 ∨ 0x0F#8 = 0x02#8 ∨ 0x0F#8 = 0x0F#8) := by decide
  rw [walkImage, if_neg (not_blank_of_known hknown), if_neg (not_not.mpr hknown)]
  simp only [if_neg (Nat.not_lt.mpr hlen), if_true]

/-- The walk passes a PART or STREAM record whole. -/
theorem walkImage_record {r : RawRecord} (htype : r.1 = 0x01#8 ∨ r.1 = 0x02#8) (hlength : r.2.length ≤ 255) :
    walkImage (fuel + 1) off (r.1 :: BitVec.ofNat 8 r.2.length :: (r.2 ++ rest))
      = (walkImage fuel (off + 2 + r.2.length) rest).cons (recordAt off r) := by
  have hknown : r.1 = 0x01#8 ∨ r.1 = 0x02#8 ∨ r.1 = 0x0F#8 := by tauto
  have hnotEnd : r.1 ≠ 0x0F#8 := by rcases htype with h | h <;> rw [h] <;> decide
  have hbyte : (BitVec.ofNat 8 r.2.length).toNat = r.2.length := by
    rw [BitVec.toNat_ofNat]
    omega
  rw [walkImage, if_neg (not_blank_of_known hknown), if_neg (not_not.mpr hknown)]
  simp only [hbyte, if_neg hnotEnd, List.length_append, Nat.not_lt.mpr (Nat.le_add_right ..), if_false,
    List.drop_left', List.take_left', recordAt]

end Tail

/-- The walk passes good records, and goes on behind them. -/
theorem walkImage_encode {rs : List RawRecord} (hgood : RecordsGood rs) (fuel off : Nat) (tail : List Byte) :
    walkImage (fuel + rs.length) off (encode rs ++ tail)
      = (walkImage fuel (off + (encode rs).length) tail).after (recordsAt off rs) := by
  induction rs generalizing off with
  | nil => rfl
  | cons r rs ih =>
    obtain ⟨⟨htype, hlength⟩, hrest⟩ := List.forall_mem_cons.mp hgood
    have hend : off + 2 + r.2.length + (encode rs).length = off + (encode (r :: rs)).length := by
      rw [encode_cons_length]
      omega
    rw [← hend, encode_cons, List.length_cons, ← Nat.add_assoc, List.cons_append, List.cons_append, List.append_assoc,
      walkImage_record _ _ htype hlength, ih hrest]
    rfl

/-- The walk of an image of at most 4,096 bytes comes to whatever stands behind its good records. -/
theorem walkImage_tail {rs : List RawRecord} {tail : List Byte} (hgood : RecordsGood rs)
    (hsize : (encode rs ++ tail).length ≤ 4096) : ∃ fuel, walkImage (Config.imageArea + 1) 0 (encode rs ++ tail)
      = (walkImage (fuel + 1) (encode rs).length tail).after (recordsAt 0 rs) := by
  have hcount := length_le_encode rs
  rw [List.length_append] at hsize
  refine ⟨4096 - rs.length, ?_⟩
  rw [show Config.imageArea + 1 = 4096 - rs.length + 1 + rs.length by unfold Config.imageArea; omega,
    walkImage_encode hgood, Nat.zero_add]

theorem judgeImage_of_walk_fault {image : List Byte} {f : ImageFault} {pos : Nat} (off : Nat)
    (h : walkImage (Config.imageArea + 1) 0 image = .fault f pos) : judgeImage image off = .rejected f pos := by
  rw [judgeImage, h]

/-- A fault behind good records is the image's, with its offset (R166). -/
theorem judgeImage_of_tail_fault {rs : List RawRecord} {tail : List Byte} {f : ImageFault} (off : Nat)
    (hgood : RecordsGood rs) (hsize : (encode rs ++ tail).length ≤ 4096)
    (htail : ∀ fuel pos, walkImage (fuel + 1) pos tail = .fault f pos) :
    judgeImage (encode rs ++ tail) off = .rejected f (encode rs).length := by
  obtain ⟨fuel, hwalk⟩ := walkImage_tail hgood hsize
  exact judgeImage_of_walk_fault off (by rw [hwalk, htail, WalkResult.after_fault])

/-- Records closed by an END record pass stage 1. -/
theorem walkImage_closed {rs : List RawRecord} {len : Byte} {body : List Byte} (hgood : RecordsGood rs)
    (hsize : (encode rs ++ 0x0F#8 :: len :: body).length ≤ 4096) (hlen : len.toNat ≤ body.length) :
    walkImage (Config.imageArea + 1) 0 (encode rs ++ 0x0F#8 :: len :: body) = .records (recordsAt 0 rs) := by
  obtain ⟨fuel, hwalk⟩ := walkImage_tail hgood hsize
  rw [hwalk, walkImage_end _ _ hlen, WalkResult.after_records, List.append_nil]

/-! ### The later stages, each where the ones before pass -/

section Stages

variable {image : List Byte} {endOff : Nat} {rs : List ImageRecord}
  (hwalk : walkImage (Config.imageArea + 1) 0 image = .records rs)
include hwalk

theorem judgeImage_of_bad_sum (hsum : sumGood image endOff = false) :
    judgeImage image endOff = .rejected .sum endOff := by
  simp [judgeImage, hwalk, hsum]

variable (hsum : sumGood image endOff = true)
include hsum

theorem judgeImage_of_countFault {f : ImageFault} {pos : Nat} (hcount : countFault endOff rs = some (f, pos)) :
    judgeImage image endOff = .rejected f pos := by
  simp [judgeImage, hwalk, hsum, hcount]

variable {part : ImageRecord} (hpart : partRecords rs = [part]) (hdup : firstDuplicate [] (streamRecords rs) = none)
include hpart hdup

theorem judgeImage_of_rangeFault {pos : Nat} (hrange : rangeFault part rs = some pos) :
    judgeImage image endOff = .rejected .range pos := by
  simp [judgeImage, hwalk, hsum, countFault, hpart, hdup, hrange]

theorem judgeImage_of_no_fault (hrange : rangeFault part rs = none) :
    judgeImage image endOff = .accepted part rs := by
  simp [judgeImage, hwalk, hsum, countFault, hpart, hdup, hrange]

end Stages

/-! ### Stage 2: the END record (R165, R167) -/

/-- The END record says length 2 and holds the sum of the bytes before it. -/
theorem sumGood_closed_iff (before : List Byte) (len : Byte) (body : List Byte) :
    sumGood (before ++ 0x0F#8 :: len :: body) before.length = true
      ↔ len = 0x02#8 ∧ beValue (body.take 2) = (before.map (·.toNat)).sum % 65536 := by
  have hlen : (before ++ 0x0F#8 :: len :: body).getD (before.length + 1) 0 = len := by
    simp
  have hbody : (before ++ 0x0F#8 :: len :: body).drop (before.length + 2) = body := by
    simp [List.drop_append]
  rw [sumGood, decide_eq_true_eq, hlen, field, hbody, List.take_left, imageSum, ← BitVec.toNat_inj (x := len)]
  rfl

/-! ### Stage 3: the PART record and the stream numbers (R168) -/

theorem partRecords_append (a b : List ImageRecord) : partRecords (a ++ b) = partRecords a ++ partRecords b :=
  List.filter_append ..

theorem streamRecords_append (a b : List ImageRecord) : streamRecords (a ++ b) = streamRecords a ++ streamRecords b :=
  List.filter_append ..

theorem partRecords_part {off : Nat} {r : RawRecord} (rs : List ImageRecord) (h : r.1 = 0x01#8) :
    partRecords (recordAt off r :: rs) = recordAt off r :: partRecords rs :=
  List.filter_cons_of_pos (by simp [h])

theorem streamRecords_stream {off : Nat} {r : RawRecord} (rs : List ImageRecord) (h : r.1 = 0x02#8) :
    streamRecords (recordAt off r :: rs) = recordAt off r :: streamRecords rs :=
  List.filter_cons_of_pos (by simp [h])

theorem streamRecords_other {off : Nat} {r : RawRecord} (rs : List ImageRecord) (h : r.1 ≠ 0x02#8) :
    streamRecords (recordAt off r :: rs) = streamRecords rs :=
  List.filter_cons_of_neg fun htype => h (BitVec.eq_of_toNat_eq (y := 0x02#8) (of_decide_eq_true htype))

theorem partRecords_recordsAt_eq_nil {off : Nat} {rs : List RawRecord} (h : ∀ r ∈ rs, r.1 ≠ 0x01#8) :
    partRecords (recordsAt off rs) = [] := by
  refine List.filter_eq_nil_iff.mpr fun x hx htype => ?_
  obtain ⟨r, hr, o, rfl⟩ := mem_recordsAt hx
  exact h r hr (BitVec.eq_of_toNat_eq (y := 0x01#8) (of_decide_eq_true htype))

/-- The PART records of records among which `p` is the first. -/
theorem partRecords_of_first {a c : List RawRecord} {p : RawRecord} (ha : ∀ r ∈ a, r.1 ≠ 0x01#8) (hp : p.1 = 0x01#8) :
    partRecords (recordsAt 0 (a ++ p :: c)) = recordAt (encode a).length p
      :: partRecords (recordsAt ((encode a).length + 2 + p.2.length) c) := by
  rw [recordsAt_append, partRecords_append, partRecords_recordsAt_eq_nil ha, List.nil_append, Nat.zero_add, recordsAt,
    partRecords_part _ hp]

/-- A STREAM record's number stands in a STREAM record before it (R168). -/
def Clash (before : List RawRecord) (r : RawRecord) : Prop :=
  ∃ b, r.2.head? = some b ∧ ∃ e ∈ before, e.1 = 0x02#8 ∧ e.2.head? = some b

/-- None of the STREAM records clashes with those before it, `before` included. -/
def DistinctAfter (before rs : List RawRecord) : Prop :=
  ∀ a r c, rs = a ++ r :: c → r.1 = 0x02#8 → ¬Clash (before ++ a) r

theorem DistinctAfter.head {before rs : List RawRecord} {r : RawRecord} (h : DistinctAfter before (r :: rs)) :
    r.1 = 0x02#8 → ¬Clash before r := by
  simpa using h [] r rs rfl

theorem DistinctAfter.tail {before rs : List RawRecord} {r : RawRecord} (h : DistinctAfter before (r :: rs)) :
    DistinctAfter (before ++ [r]) rs := by
  rintro a x c rfl hx
  simpa using h (r :: a) x c rfl hx

/-- The numbers `seen` are those of the STREAM records among `before` that have one. -/
def Seen (seen : List Nat) (before : List RawRecord) : Prop :=
  ∀ n, n ∈ seen ↔ ∃ e ∈ before, e.1 = 0x02#8 ∧ ∃ b, e.2.head? = some b ∧ b.toNat = n

theorem seen_nil : Seen [] [] := by simp [Seen]

theorem Seen.other {seen : List Nat} {before : List RawRecord} {r : RawRecord} (h : Seen seen before) (hr : r.1 ≠ 0x02#8) :
    Seen seen (before ++ [r]) := by
  intro n
  simp only [h n, List.mem_append, List.mem_singleton, or_and_right, exists_or, exists_eq_left, hr, false_and, or_false]

theorem Seen.unnumbered {seen : List Nat} {before : List RawRecord} {r : RawRecord} (h : Seen seen before)
    (hr : r.2 = []) : Seen seen (before ++ [r]) := by
  intro n
  simp only [h n, List.mem_append, List.mem_singleton, or_and_right, exists_or, exists_eq_left, hr, List.head?_nil,
    reduceCtorEq, false_and, exists_false, and_false, or_false]

theorem Seen.numbered {seen : List Nat} {before : List RawRecord} {r : RawRecord} {b : Byte} (h : Seen seen before)
    (htype : r.1 = 0x02#8) (hr : r.2.head? = some b) : Seen (b.toNat :: seen) (before ++ [r]) := by
  intro n
  simp only [List.mem_cons, List.not_mem_nil, or_false, h n, List.mem_append, or_and_right, exists_or, exists_eq_left,
    htype, hr, Option.some.injEq, exists_eq_left', true_and]
  rw [or_comm, eq_comm]

theorem streamNumber_recordAt {off : Nat} {r : RawRecord} {b : Byte} (h : r.2.head? = some b) :
    streamNumber (recordAt off r) = b.toNat := by
  rw [streamNumber, recordAt, List.getD_eq_getElem?_getD, ← List.head?_eq_getElem?, h, Option.getD_some]

theorem clash_iff {seen : List Nat} {before : List RawRecord} (off : Nat) (r : RawRecord) (h : Seen seen before) :
    Clash before r ↔ 0 < (recordAt off r).length ∧ streamNumber (recordAt off r) ∈ seen := by
  cases hhead : r.2.head? with
  | none => simp [Clash, List.head?_eq_none_iff.mp hhead]
  | some b =>
    have hpos : 0 < r.2.length := List.length_pos_of_mem (List.mem_of_head? hhead)
    rw [streamNumber_recordAt hhead, h]
    simp [Clash, hhead, hpos, BitVec.toNat_inj]

/-- The search for a duplicate passes records without a clash, and goes on with their numbers seen (R168). -/
theorem firstDuplicate_skip {seen : List Nat} {before a : List RawRecord} (off : Nat) (c : List RawRecord)
    (hseen : Seen seen before) (hdistinct : DistinctAfter before a) : ∃ seen', Seen seen' (before ++ a)
      ∧ firstDuplicate seen (streamRecords (recordsAt off (a ++ c)))
          = firstDuplicate seen' (streamRecords (recordsAt (off + (encode a).length) c)) := by
  induction a generalizing seen before off with
  | nil => exact ⟨seen, by simpa using hseen, rfl⟩
  | cons r a ih =>
    have goOn {seen1 : List Nat} (h : Seen seen1 (before ++ [r])) : ∃ seen', Seen seen' (before ++ r :: a)
        ∧ firstDuplicate seen1 (streamRecords (recordsAt (off + 2 + r.2.length) (a ++ c)))
            = firstDuplicate seen' (streamRecords (recordsAt (off + (encode (r :: a)).length) c)) := by
      obtain ⟨seen', hseen', hfirst⟩ := ih (off + 2 + r.2.length) h hdistinct.tail
      refine ⟨seen', by simpa using hseen', ?_⟩
      rw [hfirst, encode_cons_length]
      simp only [Nat.add_assoc]
    rw [List.cons_append, recordsAt]
    by_cases htype : r.1 = 0x02#8
    · have hclash : ¬(0 < (recordAt off r).length ∧ streamNumber (recordAt off r) ∈ seen) := fun h =>
        hdistinct.head htype ((clash_iff off r hseen).mpr h)
      rw [streamRecords_stream _ htype, firstDuplicate, if_neg hclash]
      cases hhead : r.2.head? with
      | none =>
        have hempty : r.2 = [] := List.head?_eq_none_iff.mp hhead
        rw [if_neg (by simp [hempty])]
        exact goOn (hseen.unnumbered hempty)
      | some b =>
        have hpos : 0 < (recordAt off r).length := List.length_pos_of_mem (List.mem_of_head? hhead)
        rw [if_pos hpos, streamNumber_recordAt hhead]
        exact goOn (hseen.numbered htype hhead)
    · rw [streamRecords_other _ htype]
      exact goOn (hseen.other htype)

theorem firstDuplicate_of_distinct {rs : List RawRecord} (h : DistinctAfter [] rs) :
    firstDuplicate [] (streamRecords (recordsAt 0 rs)) = none := by
  obtain ⟨seen, -, hfirst⟩ := firstDuplicate_skip 0 [] seen_nil h
  simpa [recordsAt, streamRecords, firstDuplicate] using hfirst

theorem firstDuplicate_of_clash {a c : List RawRecord} {r : RawRecord} (htype : r.1 = 0x02#8) (hclash : Clash a r)
    (h : DistinctAfter [] a) :
    firstDuplicate [] (streamRecords (recordsAt 0 (a ++ r :: c))) = some (encode a).length := by
  obtain ⟨seen, hseen, hfirst⟩ := firstDuplicate_skip 0 (r :: c) seen_nil h
  rw [hfirst, Nat.zero_add, recordsAt, streamRecords_stream _ htype, firstDuplicate,
    if_pos ((clash_iff _ r hseen).mp hclash)]
  rfl

end Sys2Proof.Machine

namespace Sys2Proof.Machine

open Sys2Proof

/-! ### Stage 4: lengths, ranges and the sum of Q (R163, R164, R169) -/

/-- The interval q_min that a PART record's N and D give (R163). -/
def partInterval (p : RawRecord) : Nat := field p.2 9 4 / field p.2 13 2

/-- The PART record has its length, and every field in its range (R163). -/
def PartOk (p : RawRecord) : Prop :=
  p.2.length = 34 ∧ field p.2 0 1 ≤ 15 ∧ 64 ≤ field p.2 1 2 ∧ field p.2 1 2 ≤ 1024 ∧ 4 ∣ field p.2 1 2
    ∧ field p.2 3 4 ≤ partInterval p / 2 ∧ 1 ≤ field p.2 7 2 ∧ 1 ≤ field p.2 9 4 ∧ 1 ≤ field p.2 13 2
    ∧ 200000 ≤ partInterval p ∧ partInterval p ≤ 50000000 ∧ field p.2 15 1 ≤ 1
    ∧ (signed32 (field p.2 16 4)).natAbs < partInterval p ∧ 1 ≤ field p.2 20 2
    ∧ field p.2 22 1 ≤ min 255 (field p.2 20 2) ∧ 1 ≤ field p.2 23 2 ∧ 1 ≤ field p.2 25 3
    ∧ 1000 ≤ field p.2 30 4 ∧ field p.2 30 4 ≤ 1000000

/-- A STREAM record has its length, and every field in its range (R164). -/
def StreamOk (q : Nat) (r : RawRecord) : Prop :=
  let imin := if field r.2 2 1 = 0 then q else q / 2
  r.2.length = 23 ∧ field r.2 0 1 ≤ 15 ∧ field r.2 1 1 ≤ 1 ∧ field r.2 2 1 ≤ 1 ∧ 1 ≤ field r.2 3 2
    ∧ field r.2 3 2 ≤ 16383 ∧ field r.2 5 4 < imin ∧ 1 ≤ field r.2 9 4 ∧ field r.2 9 4 ≤ imin - field r.2 5 4
    ∧ 64 ≤ field r.2 13 2 ∧ field r.2 13 2 ≤ 2048 ∧ 2 ≤ field r.2 15 2 ∧ field r.2 15 2 ≤ 512 ∧ field r.2 17 1 ≤ 1
    ∧ (field r.2 18 2 ≤ 2044 ∨ field r.2 18 2 = 65535) ∧ (field r.2 20 2 ≤ 2046 ∨ field r.2 20 2 = 65535)
    ∧ 1 ≤ field r.2 22 1

/-- The sum of Q over the STREAM records (R169). -/
def depthSum (rs : List RawRecord) : Nat :=
  ((rs.filter fun r => decide (r.1 = 0x02#8)).map fun r => field r.2 15 2).sum

/-- Every STREAM record is in range (R164). -/
def StreamsOk (q : Nat) (rs : List RawRecord) : Prop := ∀ e ∈ rs, e.1 = 0x02#8 → StreamOk q e

theorem partOk_iff (p : RawRecord) : PartOk p ↔ p.2.length = 34 ∧ partInRange p.2 = true := by
  simp only [partInRange, Bool.and_eq_true, decide_eq_true_eq]
  simp only [PartOk, partInterval, readPart, PartCfg.qMin]
  omega

theorem streamOk_iff (q : Nat) (r : RawRecord) : StreamOk q r ↔ r.2.length = 23 ∧ streamInRange q r.2 = true := by
  have himin : (readStream q r.2).imin = if field r.2 2 1 = 0 then q else q / 2 := by
    by_cases h : field r.2 2 1 = 0 <;> simp [readStream, h]
  have hcap : (readStream q r.2).wCap = (readStream q r.2).imin - field r.2 5 4 := rfl
  simp only [streamInRange, Bool.and_eq_true, decide_eq_true_eq, hcap, himin]
  simp only [StreamOk, readStream, and_assoc]

/-- What the search of stage 4 looks for among the STREAM records (R169). -/
def outOfRange (q : Nat) (r : ImageRecord) : Bool := !(decide (r.length = 23) && streamInRange q r.body)

theorem outOfRange_iff (q off : Nat) (r : RawRecord) : outOfRange q (recordAt off r) = true ↔ ¬StreamOk q r := by
  rw [streamOk_iff, outOfRange, Bool.not_eq_true', ← Bool.not_eq_true, Bool.and_eq_true, decide_eq_true_eq,
    recordAt_length, recordAt_body]

theorem find?_outOfRange_none {q off : Nat} {rs : List RawRecord} (h : StreamsOk q rs) :
    (streamRecords (recordsAt off rs)).find? (outOfRange q) = none := by
  refine List.find?_eq_none.mpr fun x hx => ?_
  obtain ⟨hmem, htype⟩ := mem_streamRecords.mp hx
  obtain ⟨r, hr, o, rfl⟩ := mem_recordsAt hmem
  rw [outOfRange_iff, not_not]
  exact h r hr (BitVec.eq_of_toNat_eq (y := 0x02#8) htype)

theorem depthExcess_append {sum : Nat} {a : List ImageRecord} (b : List ImageRecord)
    (h : sum + (a.map fun r => field r.body 15 2).sum ≤ 2048) :
    depthExcess sum (a ++ b) = depthExcess (sum + (a.map fun r => field r.body 15 2).sum) b := by
  induction a generalizing sum with
  | nil => rfl
  | cons r a ih =>
    rw [List.map_cons, List.sum_cons, ← Nat.add_assoc] at h ⊢
    rw [List.cons_append, depthExcess, if_neg (by omega), ih h]

theorem streamRecords_depths (off : Nat) (rs : List RawRecord) :
    ((streamRecords (recordsAt off rs)).map fun r => field r.body 15 2).sum = depthSum rs := by
  induction rs generalizing off with
  | nil => rfl
  | cons r rs ih =>
    rw [recordsAt]
    by_cases htype : r.1 = 0x02#8
    · rw [streamRecords_stream _ htype, depthSum, List.filter_cons_of_pos (by simpa using htype), List.map_cons,
        List.map_cons, List.sum_cons, List.sum_cons, ih, depthSum, recordAt_body]
    · rw [streamRecords_other _ htype, depthSum, List.filter_cons_of_neg (by simpa using htype), ih, depthSum]

theorem depthExcess_none {rs : List RawRecord} (h : depthSum rs ≤ 2048) :
    depthExcess 0 (streamRecords (recordsAt 0 rs)) = none := by
  rw [← streamRecords_depths 0] at h
  simpa [depthExcess] using depthExcess_append (sum := 0) [] (by omega)

theorem depthExcess_some {a c : List RawRecord} {r : RawRecord} (htype : r.1 = 0x02#8) (ha : depthSum a ≤ 2048)
    (hr : 2048 < depthSum a + field r.2 15 2) :
    depthExcess 0 (streamRecords (recordsAt 0 (a ++ r :: c))) = some (encode a).length := by
  rw [← streamRecords_depths 0] at ha hr
  rw [recordsAt_append, streamRecords_append, depthExcess_append _ (by omega), Nat.zero_add, Nat.zero_add, recordsAt,
    streamRecords_stream _ htype, depthExcess, recordAt_body, if_pos hr, recordAt_offset]

theorem rangeFault_of_part_bad {part : ImageRecord} {rs : List ImageRecord}
    (h : ¬(part.length = 34 ∧ partInRange part.body = true)) : rangeFault part rs = some part.offset := by
  rw [rangeFault, if_pos h]

section StreamRanges

variable {part : ImageRecord} {rs : List ImageRecord} (hpart : part.length = 34 ∧ partInRange part.body = true)
include hpart

theorem rangeFault_of_found {x : ImageRecord}
    (h : (streamRecords rs).find? (outOfRange (readPart part.body).qMin) = some x) :
    rangeFault part rs = some x.offset := by
  rw [rangeFault, if_neg (not_not.mpr hpart)]
  simp only []
  split
  · next hfound => cases hfound.symm.trans h; rfl
  · next hnone => cases hnone.symm.trans h

theorem rangeFault_of_none_found (h : (streamRecords rs).find? (outOfRange (readPart part.body).qMin) = none) :
    rangeFault part rs = depthExcess 0 (streamRecords rs) := by
  rw [rangeFault, if_neg (not_not.mpr hpart)]
  simp only []
  split
  · next hfound => cases hfound.symm.trans h
  · rfl

end StreamRanges

theorem rangeFault_of_part (off : Nat) {p : RawRecord} (rs : List ImageRecord) (h : ¬PartOk p) :
    rangeFault (recordAt off p) rs = some off :=
  rangeFault_of_part_bad (mt (partOk_iff p).mpr h)

theorem rangeFault_of_stream {off : Nat} {p r : RawRecord} {a c : List RawRecord} (hpart : PartOk p)
    (htype : r.1 = 0x02#8) (hbad : ¬StreamOk (partInterval p) r) (ha : StreamsOk (partInterval p) a) :
    rangeFault (recordAt off p) (recordsAt 0 (a ++ r :: c)) = some (encode a).length := by
  refine rangeFault_of_found (x := recordAt (encode a).length r) ((partOk_iff p).mp hpart) ?_
  change (streamRecords (recordsAt 0 (a ++ r :: c))).find? (outOfRange (partInterval p)) = _
  rw [recordsAt_append, streamRecords_append, List.find?_append, find?_outOfRange_none ha, Option.none_or, Nat.zero_add,
    recordsAt, streamRecords_stream _ htype, List.find?_cons_of_pos ((outOfRange_iff ..).mpr hbad)]

theorem rangeFault_of_streams_ok {off : Nat} {p : RawRecord} (hpart : PartOk p) {recs : List RawRecord}
    (h : StreamsOk (partInterval p) recs) :
    rangeFault (recordAt off p) (recordsAt 0 recs) = depthExcess 0 (streamRecords (recordsAt 0 recs)) :=
  rangeFault_of_none_found ((partOk_iff p).mp hpart) (find?_outOfRange_none h)

/-! ### The judgement of an image closed by END (R166 to R169) -/

section Closed

variable {rs : List RawRecord} {len : Byte} {body : List Byte} (hgood : RecordsGood rs)
  (hsize : (encode rs ++ 0x0F#8 :: len :: body).length ≤ 4096) (hlen : len.toNat ≤ body.length)
include hgood hsize hlen

theorem judge_bad_sum (h : ¬(len = 0x02#8 ∧ beValue (body.take 2) = ((encode rs).map (·.toNat)).sum % 65536)) :
    judgeImage (encode rs ++ 0x0F#8 :: len :: body) (encode rs).length = .rejected .sum (encode rs).length :=
  judgeImage_of_bad_sum (walkImage_closed hgood hsize hlen)
    (Bool.eq_false_iff.mpr (mt (sumGood_closed_iff (encode rs) len body).mp h))

variable (hsum : len = 0x02#8 ∧ beValue (body.take 2) = ((encode rs).map (·.toNat)).sum % 65536)
include hsum

/-- A fault that stage 3 finds is the image's. -/
theorem judge_countFault {f : ImageFault} {pos : Nat}
    (h : countFault (encode rs).length (recordsAt 0 rs) = some (f, pos)) :
    judgeImage (encode rs ++ 0x0F#8 :: len :: body) (encode rs).length = .rejected f pos :=
  judgeImage_of_countFault (walkImage_closed hgood hsize hlen) ((sumGood_closed_iff ..).mpr hsum) h

theorem judge_no_part (h : ∀ r ∈ rs, r.1 ≠ 0x01#8) :
    judgeImage (encode rs ++ 0x0F#8 :: len :: body) (encode rs).length = .rejected .part (encode rs).length :=
  judge_countFault hgood hsize hlen hsum (by rw [countFault, partRecords_recordsAt_eq_nil h])

end Closed

theorem partRecords_of_only {a c : List RawRecord} {p : RawRecord} (ha : ∀ r ∈ a ++ c, r.1 ≠ 0x01#8)
    (hp : p.1 = 0x01#8) : partRecords (recordsAt 0 (a ++ p :: c)) = [recordAt (encode a).length p] := by
  obtain ⟨ha, hc⟩ := List.forall_mem_append.mp ha
  rw [partRecords_of_first ha hp, partRecords_recordsAt_eq_nil hc]

/-- A second PART record is the fault of stage 3 (R168). -/
theorem countFault_of_second {a b c : List RawRecord} {p p2 : RawRecord} (endOff : Nat)
    (hab : ∀ r ∈ a ++ b, r.1 ≠ 0x01#8) (hp : p.1 = 0x01#8) (hp2 : p2.1 = 0x01#8) :
    countFault endOff (recordsAt 0 (a ++ p :: b ++ p2 :: c)) = some (.part, (encode (a ++ p :: b)).length) := by
  obtain ⟨ha, hb⟩ := List.forall_mem_append.mp hab
  rw [countFault, recordsAt_append, partRecords_append, partRecords_of_first ha hp, partRecords_recordsAt_eq_nil hb,
    recordsAt, partRecords_part _ hp2]
  simp

/-- Settles O12: stage 1 by what stands behind the good records, and each later stage where the ones before it pass. -/
theorem imageFaultIsTheFirstFound : Obligations.ImageFaultIsTheFirstFound := by
  unfold Obligations.ImageFaultIsTheFirstFound
  intro enc good known clash distinct interval partOk streamOk depths
  refine ⟨fun rs tail off hgood hsize => ?_, fun rs len body hgood hsize hlen => ?_⟩
  · intro found
    have behind {f : ImageFault} (h : ∀ fuel pos, walkImage (fuel + 1) pos tail = .fault f pos) : found f :=
      judgeImage_of_tail_fault off hgood hsize h
    refine ⟨?_, ?_, ?_, ?_, ?_⟩
    · rintro ty rest rfl hblank
      exact behind fun fuel pos => walkImage_blank fuel pos hblank
    · rintro ty rest rfl h0 hF hunknown
      exact behind fun fuel pos => walkImage_unknown fuel pos h0 hF hunknown
    · rintro ty rfl hknown
      exact behind fun fuel pos => walkImage_no_length fuel pos hknown
    · rintro ty len rest rfl hknown hshort
      exact behind fun fuel pos => walkImage_truncated fuel pos hknown hshort
    · rintro rfl -
      exact behind walkImage_nil
  · intro verdict found summed
    have hwalk := walkImage_closed hgood hsize hlen
    refine ⟨judge_bad_sum hgood hsize hlen, judge_no_part hgood hsize hlen, ?_, ?_⟩
    · rintro a p b p2 c hsum rfl hab hp hp2
      exact judge_countFault hgood hsize hlen hsum (countFault_of_second _ hab hp hp2)
    · intro a p c hsum hrs hp hother
      have hparts : partRecords (recordsAt 0 rs) = [recordAt (encode a).length p] :=
        hrs ▸ partRecords_of_only hother hp
      have hsumGood := (sumGood_closed_iff (encode rs) len body).mpr hsum
      have ranged (hdistinct : distinct rs) {before : List RawRecord}
          (h : rangeFault (recordAt (encode a).length p) (recordsAt 0 rs) = some (encode before).length) :
          found .range before :=
        judgeImage_of_rangeFault hwalk hsumGood hparts (firstDuplicate_of_distinct hdistinct) h
      refine ⟨fun a2 r c2 hrs2 htype hclash hdistinct => ?_, fun hdistinct hbad => ?_,
        fun a2 r c2 hdistinct hok hrs2 htype hbad ha2 => ?_,
        fun hdistinct hok hstreams => ⟨fun a2 r c2 hrs2 htype ha2 hexcess => ?_, fun hdepth => ?_⟩⟩
      · refine judge_countFault hgood hsize hlen hsum ?_
        rw [countFault, hparts]
        simp only [hrs2, firstDuplicate_of_clash htype hclash hdistinct, Option.map_some]
        rfl
      · exact ranged hdistinct (rangeFault_of_part _ _ hbad)
      · exact ranged hdistinct (hrs2 ▸ rangeFault_of_stream hok htype hbad ha2)
      · refine ranged hdistinct ?_
        rw [rangeFault_of_streams_ok hok hstreams, hrs2]
        exact depthExcess_some htype ha2 hexcess
      · refine ⟨recordAt (encode a).length p, recordsAt 0 rs, ?_, rfl, recordsAt_map 0 rs⟩
        exact judgeImage_of_no_fault hwalk hsumGood hparts (firstDuplicate_of_distinct hdistinct)
          ((rangeFault_of_streams_ok hok hstreams).trans (depthExcess_none hdepth))

end Sys2Proof.Machine

namespace Sys2Proof.Machine

open Sys2Proof

/-! ### What the parser makes of a byte (R174) -/

theorem take_awaitLength (b code : Byte) : Parser.take b (.awaitLength code)
    = if b = 0 then (.awaitCode, some (code, [])) else (.operands code b.toNat [], none) :=
  if_congr (by rw [← BitVec.toNat_inj]; rfl) rfl rfl

theorem take_operands (b code : Byte) {left : Nat} (taken : List Byte) (h : 1 ≤ left) :
    Parser.take b (.operands code left taken)
      = if left = 1 then (.awaitCode, some (code, taken ++ [b]))
        else (.operands code (left - 1) (taken ++ [b]), none) :=
  if_congr (by omega) rfl rfl

/-- The link with what the parser's taking of bytes changes in it: the buffer, the gap at its head, and the parser. -/
def Link.took (l : Link) (buffer : List (Byte × Bool)) (gap : Bool) (p : Parser) : Link :=
  { l with buffer := buffer, gap := gap, parser := p }

/-- The parser stops at the buffer's end. -/
theorem parserRuns_of_empty {s : State} (hbuffer : s.link.buffer = []) (hgap : s.link.gap = false) :
    s.parserRuns = s := by
  have hruns : s.parserRuns = { s with link := s.link.took [] false s.link.parser } := by
    rw [State.parserRuns, hbuffer, hgap]
    rfl
  rw [hruns, ← hbuffer, ← hgap]
  rfl

theorem parserRuns_of_gap {s : State} (hgap : s.link.gap = true) : s.parserRuns = s.actOnGap := by
  have hdrain : drain true s.link.parser s.link.buffer = (s.link.buffer, s.link.parser, true, none) := by
    cases s.link.buffer <;> rfl
  have hruns : s.parserRuns = State.actOnGap { s with link := s.link.took s.link.buffer true s.link.parser } := by
    rw [State.parserRuns, hgap, hdrain]
    rfl
  rw [hruns, ← hgap]
  rfl

section Head

variable {s : State} {b : Byte} {mark : Bool} {rest : List (Byte × Bool)} {p : Parser}

/-- A byte that completes no request is taken, and the parser goes on behind it. -/
theorem parserRuns_of_goesOn (hgap : s.link.gap = false) (hbuffer : s.link.buffer = (b, mark) :: rest)
    (htake : s.link.parser.take b = (p, none)) :
    s.parserRuns = State.parserRuns { s with link := s.link.took rest mark p } := by
  have hdrain : drain false s.link.parser ((b, mark) :: rest) = drain mark p rest := by
    simp [drain, htake]
  rw [State.parserRuns, hgap, hbuffer, hdrain]
  rfl

/-- The byte that completes a request ends the parser's run with the request judged. -/
theorem parserRuns_of_completes {code : Byte} {ops : List Byte} (hgap : s.link.gap = false)
    (hbuffer : s.link.buffer = (b, mark) :: rest) (htake : s.link.parser.take b = (p, some (code, ops))) :
    s.parserRuns = State.judgeRequest { s with link := s.link.took rest mark p } code ops := by
  have hdrain : drain false s.link.parser ((b, mark) :: rest) = (rest, p, mark, some (code, ops)) := by
    simp [drain, htake]
  rw [State.parserRuns, hgap, hbuffer, hdrain]
  rfl

end Head

/-! ### Silence and gaps (R175, R176) -/

theorem silent_iff (s : State) : s.silent = true ↔
    ∀ last, s.link.silence = some last → reached s.t (after last 125000) = true := by
  cases h : s.link.silence <;> simp [State.silent, h, Config.silenceTicks]

/-- At the very tick of a byte or line error there is no silence. -/
theorem silent_of_now {s : State} (h : s.link.silence = some s.t) : s.silent = false := by
  have hage : s.t - after s.t 125000 = -125000#48 := by
    unfold after
    ring
  simp [State.silent, h, Config.silenceTicks, reached, hage]

/-- The GARBLED answer to the request being assembled, or with code 0x80 to none (R175, R185). -/
def Parser.garbled (p : Parser) (now : Time) : Response :=
  { bytes := [p.assembling.getD 0 + 0x80, 0x03, 0x00, 0x00], start := now }

theorem garbled_of_awaitCode {p : Parser} (h : p = .awaitCode) (now : Time) :
    p.garbled now = { bytes := [0x80, 0x03, 0x00, 0x00], start := now } := by
  rw [Parser.garbled, h]
  rfl

theorem garbled_of_some {p : Parser} {code : Byte} (h : p.assembling = some code) (now : Time) :
    p.garbled now = { bytes := [code + 0x80, 0x03, 0x00, 0x00], start := now } := by
  rw [Parser.garbled, h]
  rfl

theorem actOnGap_eq (s : State) : s.actOnGap = { s with link := { s.link with
    buffer := [], gap := false, parser := if s.silent = true then .awaitCode else .discard,
    responder := some (s.link.parser.garbled s.t) } } := rfl

theorem not_discard_of_assembling {p : Parser} {code : Byte} (h : p.assembling = some code) : p ≠ .discard := by
  rintro rfl
  cases h

/-! ### A byte or a line error on MRX (R173 to R175) -/

/-- The part once the character `c` has been taken from the receive side and has started the silence timer, the rest
of its link as in `l`. -/
def State.heard (s : State) (c : RxChar) (l : Link) : State :=
  { s with link := { l with
      rx := { s.link.rx with ready := if s.link.rx.ready = some c then none else s.link.rx.ready }
      silence := some s.t } }

theorem startSilence_takeChar (s : State) (c : RxChar) : (s.takeChar c).startSilence = s.heard c s.link := by
  rw [takeChar_eq]
  rfl

theorem takesAtOnce_iff (l : Link) :
    l.takesAtOnce = true ↔ l.responder = none ∧ l.buffer = [] ∧ l.gap = false := by
  simp [Link.takesAtOnce, and_assoc]

/-- A byte taken at once leaves the buffer empty, as it was. -/
theorem took_of_takesAtOnce {l : Link} (h : l.takesAtOnce = true) (b : Byte) (p : Parser) :
    Link.took { l with buffer := [(b, false)] } [] false p = { l with parser := p } := by
  obtain ⟨-, hbuffer, hgap⟩ := (takesAtOnce_iff _).mp h
  rw [← hbuffer, ← hgap]
  rfl

theorem markTail_of_empty {l : Link} (h : l.buffer = []) : l.markTail = { l with gap := true } := by
  simp [Link.markTail, h]

theorem markTail_of_last {l : Link} {front : List (Byte × Bool)} {last : Byte} {mark : Bool}
    (h : l.buffer = front ++ [(last, mark)]) : l.markTail = { l with buffer := front ++ [(last, true)] } := by
  simp [Link.markTail, h]

/-- A byte is dropped at the full buffer without a mark where one stands (R175). -/
theorem markDrop_of_marked {l : Link} (h : l.gap = true ∨ ∃ e ∈ l.buffer, e.2 = true) : l.markDrop = l := by
  rw [Link.markDrop, if_pos (by simpa using h)]

/-- A byte dropped at the full buffer where no mark stands leaves one on the byte last buffered (R175). -/
theorem markDrop_of_clean {l : Link} {front : List (Byte × Bool)} {last : Byte} (hgap : l.gap = false)
    (hbuffer : l.buffer = front ++ [(last, false)]) (hfront : ∀ e ∈ front, e.2 = false) :
    l.markDrop = { l with buffer := front ++ [(last, true)] } := by
  have hclean : ¬(l.gap || l.buffer.any (·.2)) = true := by simpa [hgap, hbuffer] using hfront
  rw [Link.markDrop, if_neg hclean, markTail_of_last hbuffer]

/-- A mark at the tail leaves the receive side and the silence timer. -/
theorem markTail_heard (s : State) (c : RxChar) :
    { s.heard c s.link with link := (s.heard c s.link).link.markTail } = s.heard c s.link.markTail := by
  simp only [State.heard, Link.markTail]
  cases s.link.buffer.getLast? <;> rfl

theorem markDrop_heard (s : State) (c : RxChar) :
    { s.heard c s.link with link := (s.heard c s.link).link.markDrop } = s.heard c s.link.markDrop := by
  by_cases hmarked : s.link.gap = true ∨ ∃ e ∈ s.link.buffer, e.2 = true
  · rw [markDrop_of_marked hmarked, markDrop_of_marked (l := (s.heard c s.link).link) hmarked]
  · have hclean : ¬(s.link.gap || s.link.buffer.any (·.2)) = true := by simpa using hmarked
    rw [Link.markDrop, Link.markDrop, if_neg hclean]
    exact (congrArg (fun l => { s.heard c s.link with link := l }) (if_neg hclean)).trans (markTail_heard s c)

/-- In LOAD a line error leaves no trace but that its character is taken (R173). -/
theorem exec_lineError_of_load {s : State} (hlive : s.live = true) (hload : s.loader.part = .load) :
    exec .lineError s = .next (s.takeChar .error) := by
  simp only [exec, execLineError, hlive, hload, if_true]

section Received

variable {s : State} (hlive : s.live = true) (hload : s.loader.part ≠ .load)
include hlive hload

theorem exec_requestByte (b : Byte) :
    exec (.requestByte b) s = .next ((s.takeChar (.byte b)).requestByte b) := by
  simp only [exec, execRequestByte, State.receiveByte, hlive, hload, if_true, if_false]

theorem exec_requestByte_of_discard (b : Byte) (hdiscard : s.link.parser = .discard) :
    exec (.requestByte b) s = .next (s.heard (.byte b) s.link) := by
  rw [exec_requestByte hlive hload, State.requestByte, startSilence_takeChar]
  exact congrArg _ (if_pos hdiscard)

theorem exec_requestByte_of_atOnce (b : Byte) (hparser : s.link.parser ≠ .discard)
    (honce : s.link.takesAtOnce = true) : exec (.requestByte b) s
      = .next (s.heard (.byte b) { s.link with buffer := [(b, false)] }).parserRuns := by
  rw [exec_requestByte hlive hload, State.requestByte, startSilence_takeChar]
  exact congrArg _ ((if_neg hparser).trans (if_pos honce))

theorem exec_requestByte_of_room (b : Byte) (hparser : s.link.parser ≠ .discard)
    (honce : s.link.takesAtOnce = false) (hroom : s.link.buffer.length < 64) : exec (.requestByte b) s
      = .next (s.heard (.byte b) { s.link with buffer := s.link.buffer ++ [(b, false)] }) := by
  rw [exec_requestByte hlive hload, State.requestByte, startSilence_takeChar]
  exact congrArg _ ((if_neg hparser).trans ((if_neg (ne_true_of_eq_false honce)).trans (if_pos hroom)))

theorem exec_requestByte_of_full (b : Byte) (hparser : s.link.parser ≠ .discard)
    (hfull : 64 ≤ s.link.buffer.length) :
    exec (.requestByte b) s = .next (s.heard (.byte b) s.link.markDrop) := by
  have honce : ¬s.link.takesAtOnce = true := fun h => by
    obtain ⟨-, hbuffer, -⟩ := (takesAtOnce_iff _).mp h
    simp [hbuffer] at hfull
  rw [exec_requestByte hlive hload, State.requestByte, startSilence_takeChar, ← markDrop_heard]
  exact congrArg _ ((if_neg hparser).trans ((if_neg honce).trans (if_neg (Nat.not_lt.mpr hfull))))

/-- A byte taken at once that completes no request moves the parser alone, the buffer staying empty (R174). -/
theorem exec_requestByte_of_goesOn {b : Byte} {p : Parser} (honce : s.link.takesAtOnce = true)
    (hparser : s.link.parser ≠ .discard) (htake : s.link.parser.take b = (p, none)) :
    exec (.requestByte b) s = .next (s.heard (.byte b) { s.link with parser := p }) := by
  obtain ⟨-, -, hgap⟩ := (takesAtOnce_iff _).mp honce
  have hruns := parserRuns_of_goesOn (s := s.heard (.byte b) { s.link with buffer := [(b, false)] }) hgap rfl htake
  rw [exec_requestByte_of_atOnce hlive hload b hparser honce, hruns, parserRuns_of_empty rfl rfl,
    ← took_of_takesAtOnce honce b p]
  rfl

/-- A byte taken at once that completes a request leaves the parser at rest and the request to be judged (R174). -/
theorem exec_requestByte_of_completes {b code : Byte} {ops : List Byte} {p : Parser}
    (honce : s.link.takesAtOnce = true) (hparser : s.link.parser ≠ .discard)
    (htake : s.link.parser.take b = (p, some (code, ops))) : exec (.requestByte b) s
      = .next ((s.heard (.byte b) { s.link with parser := p }).judgeRequest code ops) := by
  obtain ⟨-, -, hgap⟩ := (takesAtOnce_iff _).mp honce
  have hruns := parserRuns_of_completes (s := s.heard (.byte b) { s.link with buffer := [(b, false)] }) hgap rfl htake
  rw [exec_requestByte_of_atOnce hlive hload b hparser honce, hruns, ← took_of_takesAtOnce honce b p]
  rfl

theorem exec_lineError : exec .lineError s = .next (s.takeChar .error).lineErrorGap := by
  simp only [exec, execLineError, hlive, hload, if_true, if_false]

theorem exec_lineError_of_discard (hdiscard : s.link.parser = .discard) :
    exec .lineError s = .next (s.heard .error s.link) := by
  rw [exec_lineError hlive hload, State.lineErrorGap, startSilence_takeChar]
  exact congrArg _ (if_pos hdiscard)

/-- A gap acted on at once answers GARBLED and enters DISCARD, the silence having just begun (R175). -/
theorem exec_lineError_of_atOnce (hparser : s.link.parser ≠ .discard) (honce : s.link.takesAtOnce = true) :
    exec .lineError s = .next (s.heard .error { s.link with
      parser := .discard, responder := some (s.link.parser.garbled s.t) }) := by
  obtain ⟨-, hbuffer, hgap⟩ := (takesAtOnce_iff _).mp honce
  have hacts : (s.heard .error s.link).actOnGap = s.heard .error { s.link with
      parser := .discard, responder := some (s.link.parser.garbled s.t) } := by
    rw [actOnGap_eq, silent_of_now (s := s.heard .error s.link) rfl, if_neg Bool.false_ne_true, ← hbuffer, ← hgap]
    rfl
  rw [exec_lineError hlive hload, State.lineErrorGap, startSilence_takeChar, ← hacts]
  exact congrArg _ ((if_neg hparser).trans (if_pos honce))

theorem exec_lineError_of_busy (hparser : s.link.parser ≠ .discard) (honce : s.link.takesAtOnce = false) :
    exec .lineError s = .next (s.heard .error s.link.markTail) := by
  rw [exec_lineError hlive hload, State.lineErrorGap, startSilence_takeChar, ← markTail_heard]
  exact congrArg _ ((if_neg hparser).trans (if_neg (ne_true_of_eq_false honce)))

end Received

/-- Settles O55, by what the parser is and whether it takes the byte at once. -/
theorem requestByteFeedsTheParser : Obligations.RequestByteFeedsTheParser := by
  unfold Obligations.RequestByteFeedsTheParser
  intro s b hlive hload
  refine ⟨_, exec_requestByte hlive hload b, ?_⟩
  generalize ht : (s.takeChar (.byte b)).requestByte b = t
  intro rx with_ l
  have outcome {u : State} (h : exec (.requestByte b) s = .next u) : t = u :=
    ht.symm.trans (Host.Outcome.next.inj ((exec_requestByte hlive hload b).symm.trans h))
  refine ⟨fun hdiscard => outcome (exec_requestByte_of_discard hlive hload b hdiscard), fun honce hcode => ?_,
    fun code honce hlength => ?_, fun code left taken honce hops hleft => ?_,
    fun honce hparser hroom => outcome (exec_requestByte_of_room hlive hload b hparser honce hroom),
    fun front last hparser hfull hgap hbuffer hfront => ?_, fun hparser hfull hmarked => ?_⟩
  · have hparser : l.parser ≠ .discard := by simp [hcode]
    exact outcome (exec_requestByte_of_goesOn hlive hload honce hparser (congrArg _ hcode))
  · have htake := (congrArg (Parser.take b) hlength).trans (take_awaitLength b code)
    have hparser : l.parser ≠ .discard := by simp [hlength]
    split_ifs at htake ⊢
    · exact outcome (exec_requestByte_of_completes hlive hload honce hparser htake)
    · exact outcome (exec_requestByte_of_goesOn hlive hload honce hparser htake)
  · have htake := (congrArg (Parser.take b) hops).trans (take_operands b code taken hleft)
    have hparser : l.parser ≠ .discard := by simp [hops]
    split_ifs at htake ⊢
    · exact outcome (exec_requestByte_of_completes hlive hload honce hparser htake)
    · exact outcome (exec_requestByte_of_goesOn hlive hload honce hparser htake)
  · exact (outcome (exec_requestByte_of_full hlive hload b hparser hfull)).trans
      (congrArg (s.heard _) (markDrop_of_clean hgap hbuffer hfront))
  · exact (outcome (exec_requestByte_of_full hlive hload b hparser hfull)).trans
      (congrArg (s.heard _) (markDrop_of_marked hmarked))

/-- Settles O59, by the part's state, the parser and whether it takes a byte at once. -/
theorem lineErrorMakesAGap : Obligations.LineErrorMakesAGap := by
  unfold Obligations.LineErrorMakesAGap
  intro s hlive
  obtain ⟨t, ht⟩ : ∃ t, exec .lineError s = .next t := by
    by_cases hload : s.loader.part = .load
    · exact ⟨_, exec_lineError_of_load hlive hload⟩
    · exact ⟨_, exec_lineError hlive hload⟩
  have outcome {u : State} (h : exec .lineError s = .next u) : t = u := Host.Outcome.next.inj (ht.symm.trans h)
  refine ⟨t, ht, ?_⟩
  intro rx with_ l garbled
  refine ⟨fun hload => ?_, fun hload hdiscard => outcome (exec_lineError_of_discard hlive hload hdiscard),
    fun hload honce hcode => ?_, fun code hload honce hcode => ?_, fun hload honce hparser hbuffer => ?_,
    fun front last mark hload honce hparser hbuffer => ?_⟩
  · rw [outcome (exec_lineError_of_load hlive hload), takeChar_eq]
  · have hparser : l.parser ≠ .discard := by simp [hcode]
    rw [outcome (exec_lineError_of_atOnce hlive hload hparser honce), garbled_of_awaitCode hcode]
    rfl
  · rw [outcome (exec_lineError_of_atOnce hlive hload (not_discard_of_assembling hcode) honce), garbled_of_some hcode]
    rfl
  · exact (outcome (exec_lineError_of_busy hlive hload hparser honce)).trans
      (congrArg (s.heard _) (markTail_of_empty hbuffer))
  · exact (outcome (exec_lineError_of_busy hlive hload hparser honce)).trans
      (congrArg (s.heard _) (markTail_of_last hbuffer))

/-! ### A response ends, DISCARD ends, a request expires (R174 to R177) -/

/-- At the end of a response the parser goes on, the responder IDLE (R174, R177). -/
theorem exec_responseComplete {s : State} {r : Response} (hlive : s.live = true) (hsending : s.link.responder = some r)
    (hend : reached s.t (after r.start (1250 * r.bytes.length)) = true) :
    exec .responseComplete s
      = .next (State.parserRuns { s with link := { s.link with responder := none } }) := by
  have hdone : s.responseDone = true := by
    rw [Nat.mul_comm] at hend
    rw [State.responseDone, hlive, hsending]
    exact hend
  simp only [exec, execResponseComplete, hdone, if_true]

theorem exec_discardEnd {s : State} (hlive : s.live = true) (hdiscard : s.link.parser = .discard)
    (hsilent : s.silent = true) :
    exec .discardEnd s = .next { s with link := { s.link with parser := .awaitCode } } := by
  simp [exec, execDiscardEnd, State.discardReady, hlive, hdiscard, hsilent]

theorem exec_requestExpired {s : State} (hlive : s.live = true) (hpartial : s.link.parser.assembling.isSome = true)
    (honce : s.link.takesAtOnce = true) (hsilent : s.silent = true) :
    exec .requestExpired s = .next { s with link := { s.link with parser := .awaitCode } } := by
  simp [exec, execRequestExpired, State.expiryReady, hlive, hpartial, honce, hsilent]

/-- Settles O60: the parser's run by the gap and the byte at the buffer's head, then the two ends of silence. -/
theorem responseAndSilenceFreeTheParser : Obligations.ResponseAndSilenceFreeTheParser := by
  unfold Obligations.ResponseAndSilenceFreeTheParser
  intro s hlive l quiet
  have hquiet : quiet ↔ s.silent = true := (silent_iff s).symm
  refine ⟨fun r hsending hend => ?_, fun hdiscard hq => exec_discardEnd hlive hdiscard (hquiet.mp hq),
    fun hpartial hidle hbuffer hgap hq => exec_requestExpired hlive hpartial
      ((takesAtOnce_iff l).mpr ⟨hidle, hbuffer, hgap⟩) (hquiet.mp hq)⟩
  intro done garbled
  let u : State := { s with link := { l with responder := none } }
  have hdone : done = .next u.parserRuns := exec_responseComplete hlive hsending hend
  have answers {code : Byte} (hgap : l.gap = true)
      (hanswer : l.parser.garbled s.t = { bytes := [code, 0x03, 0x00, 0x00], start := s.t }) : garbled code := by
    refine ⟨_, hdone.trans (congrArg _ ((parserRuns_of_gap (s := u) hgap).trans (actOnGap_eq u))),
      fun hq => if_pos (hquiet.mp hq), fun hq => if_neg (mt hquiet.mpr hq), ?_⟩
    rw [← hanswer]
  refine ⟨fun hbuffer hgap => hdone.trans (congrArg _ (parserRuns_of_empty hbuffer hgap)),
    fun hgap hcode => answers hgap (garbled_of_awaitCode hcode _),
    fun code hgap hcode => answers hgap (garbled_of_some hcode _), ?_⟩
  intro b mark rest hgap hbuffer left goesOn judged
  have goes {p : Parser} (htake : l.parser.take b = (p, none)) : goesOn p :=
    (hdone.trans (congrArg _ (parserRuns_of_goesOn hgap hbuffer htake))).trans
      (exec_responseComplete (s := left p) hlive hsending hend).symm
  have judges {code : Byte} {ops : List Byte} (htake : l.parser.take b = (.awaitCode, some (code, ops))) :
      judged code ops := hdone.trans (congrArg _ (parserRuns_of_completes hgap hbuffer htake))
  refine ⟨fun hcode => goes (congrArg _ hcode), fun code hlength => ?_, fun code n taken hops hn => ?_⟩
  · have htake := (congrArg (Parser.take b) hlength).trans (take_awaitLength b code)
    split_ifs at htake ⊢
    · exact judges htake
    · exact goes htake
  · have htake := (congrArg (Parser.take b) hops).trans (take_operands b code taken hn)
    split_ifs at htake ⊢
    · exact judges htake
    · exact goes htake

end Sys2Proof.Machine

namespace Sys2Proof.Machine

open Sys2Proof

/-! ### Values in bytes (R184) -/

theorem beBytes_eq_map (n v : Nat) :
    beBytes n v = (List.range n).map fun i => BitVec.ofNat 8 (v / 256 ^ (n - 1 - i)) := by
  refine List.ext_getElem? fun i => ?_
  by_cases hi : i < n
  · simp [getElem?_beBytes hi, hi]
  · simp [beBytes_length, hi]

/-! ### The response layouts (R186, R188) -/

theorem record_bytes_length (r : Record) : r.bytes.length = 12 := by
  simp [Record.bytes, beBytes_length]

theorem peer_bytes_length (p : Peer) : p.bytes.length = 10 := by
  simp [Peer.bytes, beBytes_length]

theorem counters_bytes_length (c : Counters) : c.bytes.length = 32 := by
  simp [Counters.bytes, beBytes_length]

theorem context_bytes_length (n : Stream) (c : Context) : (c.bytes n).length = 68 + 12 * c.ring.length := by
  have hring : (c.ring.flatMap Record.bytes).length = 12 * c.ring.length := by
    simp [List.length_flatMap, record_bytes_length, Nat.mul_comm]
  simp only [Context.bytes, List.length_append, beBytes_length, counters_bytes_length, hring]

theorem store_dumpBytes_length (st : Store) : st.dumpBytes.length = 6 := by
  simp [Store.dumpBytes, beBytes_length]

/-- The length of DUMP's body (R188). -/
theorem dumpBody_length (s : State) : s.dumpBody.length
    = 1103 + 12 * (allStreams.map fun n => (s.ctx n).ring.length).sum + 10 * s.share.peers.length := by
  have hcontexts : (allStreams.flatMap fun n => (s.ctx n).bytes n).length
      = 1088 + 12 * (allStreams.map fun n => (s.ctx n).ring.length).sum := by
    simp only [List.length_flatMap, context_bytes_length, List.sum_map_add, List.sum_map_mul_left, List.map_const',
      List.sum_replicate]
    rfl
  have hpeers : (s.share.peers.flatMap Peer.bytes).length = 10 * s.share.peers.length := by
    simp [List.length_flatMap, peer_bytes_length, Nat.mul_comm]
  simp only [State.dumpBody, List.length_append, beBytes_length, hcontexts, hpeers, store_dumpBytes_length]
  omega

theorem counters_bytes_eq (c : Counters) : c.bytes = [c.released, c.late, c.trimmed, c.starvedFrames, c.collisions,
    c.unstamped, c.dropped, c.abandoned].flatMap fun x => beBytes 4 x.toNat := by
  simp [Counters.bytes]

/-! ### The rows of R177 -/

section Rows

variable {s : State} {code : Byte} {ops : List Byte}

theorem judgeRequest_refused (hhalted : s.loader.part = .halted) (hcode : code ≠ 0x01) :
    s.judgeRequest code ops = s.respond code 2 [] := if_pos ⟨hhalted, hcode⟩

theorem judgeRequest_status :
    s.judgeRequest 0x01 ops = if ops = [] then s.respond 0x01 0 s.statusBody else s.respond 0x01 3 [] := by
  simp [State.judgeRequest]

variable (hpart : s.loader.part ≠ .halted)
include hpart

theorem judgeRequest_unknown (h1 : code ≠ 0x01) (h2 : code ≠ 0x02) (h3 : code ≠ 0x03) (h4 : code ≠ 0x04) :
    s.judgeRequest code ops = s.respond code 1 [] :=
  (if_neg fun h => hpart h.1).trans <| (if_neg h1).trans <| (if_neg h2).trans <| (if_neg h3).trans <| if_neg h4

theorem judgeRequest_dump :
    s.judgeRequest 0x02 ops = if ops = [] then s.respond 0x02 0 s.dumpBody else s.respond 0x02 3 [] := by
  simp [State.judgeRequest, hpart]

theorem judgeRequest_events : s.judgeRequest 0x03 ops
    = if ops.length = 1 ∧ 1 ≤ beValue ops ∧ beValue ops ≤ 32 then s.serveEvents 0x03 (beValue ops)
      else s.respond 0x03 3 [] := by
  simp [State.judgeRequest, hpart]

theorem judgeRequest_clear_garbled (hops : ops.length ≠ 2) : s.judgeRequest 0x04 ops = s.respond 0x04 3 [] := by
  simp [State.judgeRequest, hpart, hops]

end Rows

/-- The part state byte of STATUS (R186). -/
theorem partState_byte_of_answering {p : PartState} (h : p ≠ .load) : (if p = .run then 1 else 2) = p.byte := by
  cases p with
  | load => exact absurd rfl h
  | run => rfl
  | halted => rfl

/-- A flag at bit `i` of a byte, by its weight. -/
theorem ite_two_pow_eq_mul_bitOf (i : Nat) (b : Bool) : (if b = true then 2 ^ i else 0) = 2 ^ i * bitOf b := by
  cases b <;> simp [bitOf]

/-- Settles O56: each body of the statement is the model's, piece by piece; then each row of R177 in turn. -/
theorem requestIsJudgedAndAnswered : Obligations.RequestIsJudgedAndAnswered := by
  unfold Obligations.RequestIsJudgedAndAnswered
  intro s code ops t answer be flag imageFault l bk status record context peer banks dump
  have hbe : be = beBytes := funext₂ fun n v => (beBytes_eq_map n v).symm
  have hflag : flag = fun i b => 2 ^ i * bitOf b := funext₂ ite_two_pow_eq_mul_bitOf
  have hstatus (hload : s.loader.part ≠ .load) : status = s.statusBody := by
    have hfault : beBytes 1 imageFault ++ beBytes 2 ((s.loader.fault.map (·.2)).getD 0) = s.faultFields := by
      simp only [imageFault, State.faultFields]
      rcases s.loader.fault with _ | ⟨f, pos⟩
      · rfl
      · cases f <;> rfl
    simp only [status, partState_byte_of_answering hload, hbe, hflag,
      List.append_assoc (beBytes 1 _) (beBytes 1 imageFault), hfault, pow_zero, one_mul]
    rfl
  have hrecord : record = Record.bytes := by
    funext r
    simp only [record, hbe, hflag]
    rfl
  have hcontext (n : Stream) : context n ++ (s.ctx n).ring.flatMap record = (s.ctx n).bytes n := by
    simp only [context, hbe, hflag, hrecord, Context.bytes, counters_bytes_eq, pow_zero, one_mul]
    rfl
  have hpeer : peer = Peer.bytes := by
    funext p
    simp only [peer, hbe, hflag, pow_zero, one_mul]
    rfl
  have hdump : dump = s.dumpBody := by
    simp only [dump, hcontext, hpeer, banks, hbe, hflag, State.dumpBody, Store.dumpBytes, List.flatMap_cons,
      List.flatMap_nil, List.append_nil, List.append_assoc, pow_zero, one_mul]
    rfl
  refine ⟨judgeRequest_refused, judgeRequest_unknown, ?_, ?_, ?_, ?_, ?_, ?_, ?_, ?_, ?_⟩
  · rintro hload rfl rfl
    rw [hstatus hload]
    exact judgeRequest_status.trans (if_pos rfl)
  · rintro hpart rfl rfl
    rw [hdump]
    exact (judgeRequest_dump hpart).trans (if_pos rfl)
  · rintro (rfl | ⟨hpart, rfl⟩) hops
    · exact judgeRequest_status.trans (if_neg hops)
    · exact (judgeRequest_dump hpart).trans (if_neg hops)
  · rintro hpart rfl hops
    exact (judgeRequest_events hpart).trans (if_neg fun h => hops h.1)
  · rintro hpart rfl hops
    exact judgeRequest_clear_garbled hpart hops
  · simp [status, hbe, beBytes_length]
  · intro n
    simp [context, hbe, beBytes_length]
  · intro r
    rw [hrecord, record_bytes_length]
  · rw [hdump, dumpBody_length]

/-! ### EVENTS (R180, R187) -/

theorem event_bytes_length (e : Event) : e.bytes.length = 10 := by
  simp [Event.bytes, beBytes_length]

theorem eventsBody_length (overflow : Bool) (es : List Event) :
    (eventsBody overflow es).length = 2 + 10 * es.length := by
  have hentries : (es.flatMap Event.bytes).length = 10 * es.length := by
    simp [List.length_flatMap, event_bytes_length, Nat.mul_comm]
  simp only [eventsBody, List.length_append, beBytes_length, hentries]

theorem beValue_singleton (n : Byte) : beValue [n] = n.toNat := by
  simp [beValue]

/-- EVENTS with one operand is served where the operand is in range, and GARBLED elsewhere (R180). -/
theorem judgeRequest_events_of_single {s : State} (hpart : s.loader.part ≠ .halted) (n : Byte) :
    s.judgeRequest 0x03 [n]
      = if 1 ≤ n.toNat ∧ n.toNat ≤ 32 then s.serveEvents 0x03 n.toNat else s.respond 0x03 3 [] := by
  rw [judgeRequest_events hpart, beValue_singleton]
  exact if_congr (and_iff_right rfl) rfl rfl

/-- Settles O57. -/
theorem eventsRemovesTheOldestEntries : Obligations.EventsRemovesTheOldestEntries := by
  unfold Obligations.EventsRemovesTheOldestEntries
  intro s n hrun t taken code body
  have hjudged : t = if 1 ≤ n.toNat ∧ n.toNat ≤ 32 then s.serveEvents 0x03 n.toNat else s.respond 0x03 3 [] :=
    judgeRequest_events_of_single (by simp [hrun]) n
  have hbody : eventsBody s.link.overflow taken = body := by
    have hcode (e : Event) : beBytes 1 e.code.byte = [code e.code] := by cases e.code <;> rfl
    have hentry : Event.bytes = fun e => [code e.code] ++ beBytes 6 e.time.toNat ++ [BitVec.ofNat 8 e.subject.toNat]
        ++ beBytes 2 e.detail.toNat := by
      funext e
      rw [Event.bytes, hcode]
      rfl
    have hoverflow : beBytes 1 (bitOf s.link.overflow) = [if s.link.overflow = true then 1 else 0] := by
      cases s.link.overflow <;> rfl
    rw [eventsBody, hentry, hoverflow]
    rfl
  constructor
  · intro hlow hhigh
    have hserved : t = s.serveEvents 0x03 n.toNat := hjudged.trans (if_pos ⟨hlow, hhigh⟩)
    refine ⟨?_, List.length_take, ?_⟩
    · have hlength : body.length = 2 + 10 * taken.length := hbody ▸ eventsBody_length ..
      rw [hserved, ← hlength, ← hbody]
      rfl
    · rw [hserved]
      exact List.take_append_drop ..
  · intro hrange
    refine hjudged.trans (if_neg ?_)
    rintro ⟨hlow, hhigh⟩
    rcases hrange with rfl | hhigh'
    · exact absurd hlow (by decide)
    · omega

end Sys2Proof.Machine
